-- ==== Sys2Proof/Word.lean ====
section
/-! DEFINITION. Word types and their plainest arithmetic (00 R4–R6, R12, R13). -/

namespace Sys2Proof

/-- One byte of memory. -/
abbrev Byte := BitVec 8

/-- A 32-bit parcel, element, pattern or bank word. -/
abbrev W32 := BitVec 32

/-- A 64-bit register. -/
abbrev W64 := BitVec 64

/-- Device-wide core index, 48 × cluster + core within cluster (01 R16). -/
abbrev CoreId := Fin 1152

/-- Device-wide cluster index (01 R16). -/
abbrev ClusterId := Fin 24

/-- Plate index (01 R16). -/
abbrev PlateId := Fin 4

/-- The five engines of a core (01 R23). -/
inductive Eng where
  | s | v | m | p | c
  deriving DecidableEq, Repr, Inhabited

/-- The code of an engine in push, pop and record fields (03 R85). -/
def Eng.code : Eng → Nat
  | .s => 1
  | .v => 2
  | .m => 3
  | .p => 4
  | .c => 5

/-- The engine's number, 0 for S to 4 for C (04 R139). -/
def Eng.num : Eng → Fin 5
  | .s => 0
  | .v => 1
  | .m => 2
  | .p => 3
  | .c => 4

/-- The engine a code names; 0, 6 and 7 name none (03 R85). -/
def Eng.ofCode (n : Nat) : Option Eng :=
  if n = 1 then some .s
  else if n = 2 then some .v
  else if n = 3 then some .m
  else if n = 4 then some .p
  else if n = 5 then some .c
  else none

/-- Little-endian value of a list of bytes (00 R6). -/
def leNat : List Byte → Nat
  | [] => 0
  | b :: bs => b.toNat + 256 * leNat bs

/-- The n little-endian bytes of a value (00 R6). -/
def leBytes : Nat → Nat → List Byte
  | 0, _ => []
  | n + 1, v => BitVec.ofNat 8 v :: leBytes n (v / 256)

/-- Field [lo + len − 1 : lo] of a value. -/
def fld (v lo len : Nat) : Nat := (v / 2 ^ lo) % 2 ^ len

/-- Ceiling of a quotient. -/
def ceilDiv (a b : Nat) : Nat := (a + b - 1) / b

/-- The numbers 0 .. n − 1 in ascending order. -/
def upTo (n : Nat) : List Nat := List.range n

end Sys2Proof
end

