-- ==== Sys2Proof/Syntax.lean ====
section
/-! DEFINITION. The words of the five engines and the steps of the other agents (spec/opcode_table.json), as
syntax: one constructor per row, the fields of a word as its format lays them out (03 R84, R95–R102). -/

namespace Sys2Proof

/-- Fields common to every full word (03 R84): guard, guard invert, push, pop and the two empty policies. -/
structure Common where
  guard : BitVec 3
  ginv : Bool
  push : BitVec 3
  pop : BitVec 3
  epa : Bool
  epb : Bool
  deriving DecidableEq, Repr, Inhabited

/-- F-RRR (03 R95). -/
structure FRrr where
  w : Common
  fd : BitVec 6
  fa : BitVec 6
  fb : BitVec 6
  fc : BitVec 6
  fmt : BitVec 4
  rm : BitVec 3
  sat : Bool
  prf : Bool
  sub : BitVec 3
  aux : BitVec 6
  deriving DecidableEq, Repr, Inhabited

/-- F-RRI (03 R96). -/
structure FRri where
  w : Common
  fd : BitVec 6
  fa : BitVec 6
  sub : BitVec 2
  fmt : BitVec 4
  imm : BitVec 24
  deriving DecidableEq, Repr, Inhabited

/-- F-BR (03 R97). -/
structure FBr where
  w : Common
  fd : BitVec 6
  fa : BitVec 6
  fb : BitVec 6
  lvl : BitVec 2
  cond : BitVec 4
  off : BitVec 20
  deriving DecidableEq, Repr, Inhabited

/-- F-MEM (03 R98). -/
structure FMem where
  w : Common
  fd : BitVec 6
  fa : BitVec 6
  fb : BitVec 6
  mode : BitVec 2
  space : BitVec 2
  size : BitVec 3
  order : BitVec 2
  scope : BitVec 3
  disp : BitVec 14
  deriving DecidableEq, Repr, Inhabited

/-- F-SYS (03 R99). -/
structure FSys where
  w : Common
  fd : BitVec 6
  fa : BitVec 6
  fb : BitVec 6
  sub : BitVec 2
  cr : BitVec 12
  imm12 : BitVec 12
  deriving DecidableEq, Repr, Inhabited

/-- F-MMA (03 R100). -/
structure FMma where
  w : Common
  fd : BitVec 6
  fa : BitVec 6
  fb : BitVec 6
  fmta : BitVec 4
  fmtb : BitVec 4
  spar : BitVec 2
  rm : BitVec 3
  sat : Bool
  clr : Bool
  deriving DecidableEq, Repr, Inhabited

/-- F-SPE (03 R101); `shape` is the field [23:18], which PNORM and PZERO read as n − 1. -/
structure FSpe where
  w : Common
  shape : BitVec 6
  basew : BitVec 9
  flg : BitVec 2
  basel : BitVec 9
  baseo : BitVec 9
  deriving DecidableEq, Repr, Inhabited

/-- F-CPY (03 R102). -/
structure FCpy where
  w : Common
  unit : BitVec 6
  tag : BitVec 6
  ix : Bool
  dsc : BitVec 20
  deriving DecidableEq, Repr, Inhabited

/-- Which queue of a cluster a command stands in: copy engine or broadcast column k (01 R18, 10 R326). -/
inductive CopyUnit where
  | engine (k : Fin 8)
  | column (k : Fin 8)
  deriving DecidableEq, Repr, Inhabited

/-- How a wake test ends (13 R426). -/
inductive WakeResult where
  | pass
  | logicFailure
  | towerFailures (phys : List Nat)
  deriving DecidableEq, Repr, Inhabited

/-- What a remote device asks of this device's memory port (14 R439). -/
inductive RemoteReq where
  | read (n : Nat) (acq : Bool)
  | write (bytes : List Byte) (rel : Bool)
  | amo (op : Nat) (n : Nat) (b : W64) (cmp : W64) (acq rel : Bool)
  deriving DecidableEq, Repr, Inhabited

/-- A stretch of the boot sequence and what it finds outside the machine (14 R444): the step it goes on with (0: it begins
with the reset), the last step it takes; the ticks from the reset to the release of the beds; the live pseudo-channels; the
usable CXL ports with their common capacity in GiB; DEVNUM; the routing entries. -/
structure BootData where
  start : Nat
  stop : Nat
  bedTicks : Nat
  live : BitVec 512
  ports : BitVec 8
  pcap : Nat
  devnum : Option (BitVec 8)
  routes : List (Nat × Nat)
  deriving DecidableEq, Repr, Inhabited

/-- The instructions: one constructor per row of spec/opcode_table.json, the words first. -/
inductive Instr where
  | add (f : FRrr)
  | sub (f : FRrr)
  | mul (f : FRrr)
  | mulh (f : FRrr)
  | mulhu (f : FRrr)
  | div (f : FRrr)
  | divu (f : FRrr)
  | rem (f : FRrr)
  | remu (f : FRrr)
  | and (f : FRrr)
  | or (f : FRrr)
  | xor (f : FRrr)
  | andn (f : FRrr)
  | shl (f : FRrr)
  | shr (f : FRrr)
  | sra (f : FRrr)
  | rotr (f : FRrr)
  | clz (f : FRrr)
  | ctz (f : FRrr)
  | popc (f : FRrr)
  | min (f : FRrr)
  | max (f : FRrr)
  | minu (f : FRrr)
  | maxu (f : FRrr)
  | sel (f : FRrr)
  | mov (f : FRrr)
  | cmp (f : FRrr)
  | addi (f : FRri)
  | andi (f : FRri)
  | ori (f : FRri)
  | xori (f : FRri)
  | shli (f : FRri)
  | shri (f : FRri)
  | srai (f : FRri)
  | li (f : FRri)
  | lihM (f : FRri)
  | lihH (f : FRri)
  | br (f : FBr)
  | bri (f : FBr)
  | jmp (f : FBr)
  | jmpr (f : FBr)
  | call (f : FBr)
  | ret (f : FBr)
  | loop (f : FBr)
  | loopr (f : FBr)
  | ld (f : FMem)
  | st (f : FMem)
  | amo (f : FMem)
  | lcol (f : FMem)
  | fork (f : FSys)
  | forkI (f : FSys)
  | join (f : FSys)
  | wait (f : FSys)
  | tksend (f : FSys)
  | tkrecv (f : FSys)
  | tkrecvD (f : FSys)
  | tmset (f : FSys)
  | crd (f : FSys)
  | cwr (f : FSys)
  | fence (f : FSys)
  | publish (f : FSys)
  | cbsync (f : FSys)
  | cbsyncAll (f : FSys)
  | trap (f : FSys)
  | eret (f : FSys)
  | halt (f : FSys)
  | haltChain (f : FSys)
  | launch (f : FSys)
  | bar (f : FSys)
  | pacq (f : FSys)
  | prel (f : FSys)
  | boost (f : FSys)
  | refdef (f : FSys)
  | nop (w : Common)
  | hint (e : Eng) (op : BitVec 7) (w : Common)
  | patch (e : Eng) (tidx : BitVec 6) (fsel : BitVec 5) (value : BitVec 16)
  | unassignedOpcode (e : Eng) (op : BitVec 7) (w : Common)
  | vadd (f : FRrr)
  | vsub (f : FRrr)
  | vmul (f : FRrr)
  | vfma (f : FRrr)
  | vfms (f : FRrr)
  | vmin (f : FRrr)
  | vmax (f : FRrr)
  | vabs (f : FRrr)
  | vneg (f : FRrr)
  | vrcp (f : FRrr)
  | vrsq (f : FRrr)
  | vtip (f : FRrr)
  | vcvt (f : FRrr)
  | vqnt (f : FRrr)
  | vdqnt (f : FRrr)
  | vspl3 (f : FRrr)
  | viadd (f : FRrr)
  | visub (f : FRrr)
  | vimul (f : FRrr)
  | vand (f : FRrr)
  | vor (f : FRrr)
  | vxor (f : FRrr)
  | vnot (f : FRrr)
  | vshl (f : FRrr)
  | vshr (f : FRrr)
  | vsra (f : FRrr)
  | vcmp (f : FRrr)
  | vsel (f : FRrr)
  | vmov (f : FRrr)
  | vmovIota (f : FRrr)
  | vbcast (f : FRrr)
  | vbcastI (f : FRrr)
  | vbcastH (f : FRrr)
  | vperm (f : FRrr)
  | vshiftRot (f : FRrr)
  | vshiftUp (f : FRrr)
  | vshiftDn (f : FRrr)
  | vshiftTw (f : FRrr)
  | vred (f : FRrr)
  | vmpush (f : FRrr)
  | vmpushInv (f : FRrr)
  | vminv (f : FRrr)
  | vmpop (f : FRrr)
  | vbz (f : FBr)
  | vbnz (f : FBr)
  | vjmp (f : FBr)
  | vloop (f : FBr)
  | vloopr (f : FBr)
  | vld (f : FMem)
  | vst (f : FMem)
  | vldx (f : FMem)
  | vstx (f : FMem)
  | vtld (f : FMem)
  | vtst (f : FMem)
  | vtldx (f : FMem)
  | vlcol (f : FMem)
  | vtksend (f : FSys)
  | vtkrecv (f : FSys)
  | vtkrecvD (f : FSys)
  | vfence (f : FSys)
  | vcrd (f : FSys)
  | vcwr (f : FSys)
  | vend (f : FSys)
  | vnop (w : Common)
  | mma (f : FMma)
  | mmas (f : FMma)
  | mzero (f : FMma)
  | mts (f : FMma)
  | mchk (f : FMma)
  | mdrain (f : FMma)
  | mdraint (f : FMma)
  | mtld (f : FMem)
  | mtldt (f : FMem)
  | mtst (f : FMem)
  | mosld (f : FMem)
  | mosset (f : FSys)
  | mossetAdd (f : FSys)
  | mmode (f : FSys)
  | mmodeSeed (f : FSys)
  | mtksend (f : FSys)
  | mtkrecv (f : FSys)
  | mfence (f : FSys)
  | mloop (f : FBr)
  | mloopr (f : FBr)
  | mjmp (f : FBr)
  | mend (f : FSys)
  | mnop (w : Common)
  | pup (f : FSpe)
  | pmaxup (f : FSpe)
  | pdn (f : FSpe)
  | pnorm (f : FSpe)
  | pzero (f : FSpe)
  | pmode (f : FSys)
  | ptksend (f : FSys)
  | ptkrecv (f : FSys)
  | ploop (f : FBr)
  | ploopr (f : FBr)
  | pjmp (f : FBr)
  | pld (f : FMem)
  | pldShape (f : FMem)
  | pst (f : FMem)
  | pfence (f : FSys)
  | pend (f : FSys)
  | pnop (w : Common)
  | cpy (f : FCpy)
  | cpy2d (f : FCpy)
  | cpys (f : FCpy)
  | cpytw (f : FCpy)
  | cpyex (f : FCpy)
  | cpybc (f : FCpy)
  | ccoll (f : FCpy)
  | cwait (f : FCpy)
  | cwaitAll (f : FCpy)
  | cloop (f : FBr)
  | cjmp (f : FBr)
  | ctksend (f : FSys)
  | ctksendI (f : FSys)
  | ctkrecv (f : FSys)
  | cfence (f : FSys)
  | cend (f : FSys)
  | cnop (w : Common)
  | deferredWriteLand (c : CoreId) (k : Nat)
  | refreshDeadline (c : CoreId)
  | timingErrorReplay (c : CoreId) (e : Eng)
  | sendBufferDeparture (c : CoreId) (k : Nat)
  | selectionPass (cl : ClusterId)
  | jobDispatch (c : CoreId)
  | jobRetirement (c : CoreId)
  | jobEnd (c : CoreId)
  | contextSave (c : CoreId)
  | contextRestore (c : CoreId)
  | barrierComplete (c : CoreId)
  | grantSuspension (c : CoreId)
  | plateGrant (pl : PlateId)
  | waitTimeout (c : CoreId)
  | copyUnit (cl : ClusterId) (u : CopyUnit) (k : Nat)
  | copyCompletion (cl : ClusterId) (u : CopyUnit) (k : Nat)
  | collectiveChunkRetry (cl : ClusterId) (u : CopyUnit) (k : Nat) (member : Nat)
  | referenceTick
  | intervalStart
  | temperatureSample (c : CoreId) (tower : BitVec 16) (logic : BitVec 16)
  | sweep (c : CoreId)
  | forcedSweep (c : CoreId)
  | sweepStepEnd (c : CoreId)
  | fllStep (cl : ClusterId)
  | loopSample (topOk : Bool) (bottomOk : Bool)
  | recordSelection
  | idleGating (c : CoreId)
  | coreWake (c : CoreId)
  | wakeTestResult (c : CoreId) (r : WakeResult)
  | cxlPortDown (port : Fin 8)
  | deviceUnreachable (dev : BitVec 8)
  | barD4Timeout (c : CoreId)
  | remoteAccess (dev : BitVec 8) (addr : Nat) (req : RemoteReq)
  | hostWindowWrite (off : Nat) (bytes : List Byte)
  | hostWindowRead (off : Nat) (n : Nat)
  | moduleReset (b : BootData)
  | functionLevelReset (b : BootData)
  | qtailWrite (cl : ClusterId) (q : Fin 8) (v : W64)
  | fqheadWrite (v : W64)
  | fqlostWrite (v : W64)
  | registerWrite (off : Nat) (v : W64)
  | tlbInvalidateDevice (v : W64)
  | tlbInvalidateRoot (v : W64)
  | tlbInvalidateRange (v : W64)
  | invalidationComplete
  | remapWithCopy (cl : ClusterId) (v : W64)
  | remapWithoutCopy (cl : ClusterId) (v : W64)
  | impositionRestore (cl : ClusterId) (v : W64)
  | impositionRelease (cl : ClusterId) (v : W64)
  | impcmdRejected (cl : ClusterId) (v : W64)
  | impositionCommandDone (cl : ClusterId)
  | retirePseudoChannel (v : W64)
  | returnPseudoChannel (v : W64)
  | remappingStepDone
  | pactActivate (v : W64)
  | pactDeactivate (v : W64)
  | jcmdHalt (cl : ClusterId) (v : W64)
  | jcmdKill (cl : ClusterId) (v : W64)
  | jcmdResume (cl : ClusterId) (v : W64)
  | jcmdDiscardSlot (cl : ClusterId) (v : W64)
  | jcmdRejected (cl : ClusterId) (v : W64)
  | attest (v : W64)
  | warmReset (v : W64) (b : BootData)
  | drainCluster (v : W64)
  | testCluster (v : W64) (result : W64)
  | installIntoCluster (v : W64)
  | returnCluster (v : W64)
  | stageThafyFirmware (v : W64)
  | retrainCxlPort (v : W64) (ok : Bool)
  | gateCores (v : W64)
  | wakeCores (v : W64)
  | unknownCommand (v : W64)
  | drainComplete (cl : ClusterId)
  | bamaddrFirstWrite (v : W64)
  | fabricGroupEnd (dev : BitVec 8) (core : BitVec 11) (code : BitVec 8) (gidx : BitVec 8)
  | fetchaddCompletion (ok : Bool)
  deriving DecidableEq, Repr, Inhabited

end Sys2Proof
end

