-- ==== Sys2Proof/Config.lean ====
section
/-! DEFINITION. What the spec leaves open, as constants without a body (guide, free values): the schedule past the
listed turns, values the spec writes "—", choices it leaves to the device, and the arithmetic of outside standards. -/

namespace Sys2Proof

/-- Whose turn it is: engine e of core c issues one word, or another agent takes one step. -/
inductive Turn where
  | issue (c : CoreId) (e : Eng)
  | event (i : Instr)
  deriving DecidableEq, Repr, Inhabited

/-- The free schedule: the turn taken when no listed turn is left (DESIGN CHOICE, log entry 2). -/
opaque Config.turn : Nat → Turn

/-- A free 32-bit value, drawn by counter (DESIGN CHOICE, log entry 4). -/
opaque Config.free32 : Nat → BitVec 32

/-- A free number, drawn by counter (DESIGN CHOICE, log entry 4). -/
opaque Config.freeNat : Nat → Nat

/-- A free choice, drawn by counter (DESIGN CHOICE, log entry 4). -/
opaque Config.freeBool : Nat → Bool

/-- What the LDO code of an FLL step adds to the step, from the V/F table the spec does not print (12 R378, R398; DESIGN
CHOICE, log entry 15). -/
opaque Config.ldoBase : BitVec 8

/-- Whether a signed item verifies (14 R446: SLH-DSA under FIPS 205; DESIGN CHOICE, log entry 15). -/
opaque Config.verifies : List Byte → Bool

/-- SHA-256 of an item (14 R446, R447; DESIGN CHOICE, log entry 15). -/
opaque Config.sha256 : List Byte → BitVec 256

/-- The device identity key's public half at a boot (14 R447; DESIGN CHOICE, log entry 15). -/
opaque Config.identityKey : Nat → BitVec 256

/-- The 7856-byte signature of a report by the device identity key (14 R447; DESIGN CHOICE, log entry 15). -/
opaque Config.signReport : List Byte → Vector Byte 7856

/-- Contents of the Thafy firmware, bed firmware, operating table and fuse image the module ships with (14 R446; DESIGN CHOICE, log entry 15). -/
opaque Config.shippedThafy : List Byte
opaque Config.shippedBed : List Byte
opaque Config.shippedTable : List Byte
opaque Config.fuseImage : List Byte

/-- Release byte and version of a piece of firmware, and whether its header asks the rollback counter to advance
(14 R446, R447; DESIGN CHOICE, log entry 15). -/
opaque Config.firmwareRelease : List Byte → BitVec 8
opaque Config.itemVersion : List Byte → Nat
opaque Config.advancesRollback : List Byte → Bool

/-- The leaf switch a device of the fabric sits on (14 R442 groups members by it and gives no topology; DESIGN CHOICE, log entry 15). -/
opaque Config.leafSwitch : Nat → Nat

end Sys2Proof
end

