-- ==== Sys2Proof/Machine/State.lean ====
section
/-! DEFINITION. The state of the machine as plain data: everything the spec names, and the few fields of the model
itself (turns, draws, error marks, what observers must see of memory), with the state after reset. INVENTORY.md lists every field with its rule. -/

namespace Sys2Proof.Machine

/-- The reasons a step can stop with a fault: none. Every stop the spec describes is an exception the machine takes. -/
inductive Fault where
  /-- Raised by no step; the type needs a name to be closed over. Safe. -/
  | neverRaised
  deriving DecidableEq, Repr

/-- The reasons a step can be refused. -/
inductive Refusal where
  /-- Raised by an arm of exec whose instruction has no meaning yet. Safe. -/
  | notModelled (mnemonic : String)
  deriving DecidableEq, Repr

/-! Parts of an engine stream. -/

/-- State of an engine stream (01 R28). -/
inductive Strm where
  | idle | running | done | stopped | faulted
  deriving DecidableEq, Repr, Inhabited

/-- A loop level (04 R124), with the rot and epi of V (05 R175). -/
structure Loop where
  count : W32
  start : BitVec 16
  last : BitVec 16
  active : Bool
  rot : Bool
  epi : BitVec 3
  deriving DecidableEq, Repr, Inhabited

/-! What a stream must see of memory (09 R309–R316; log entry 91). -/

/-- A run of keys as one access names it: first key, length, the address form (the target number 0–4 of a global
address, 5 for `.sp`, 6 for a tower, 7 for a collating load's read of another core; 09 R303), and whether its page is SO. -/
structure Span where
  lo : Nat
  n : Nat
  via : Nat
  so : Bool
  deriving DecidableEq, Repr, Inhabited

/-- Which writes an observer may no longer miss: every one numbered up to `floor`, and of the bytes of each listed run
those up to the number beside it; and the numbers of the commands and drains whose issue came before (09 R319). -/
structure View where
  floor : Nat
  seen : List (Span × Nat)
  issued : List Nat
  deriving DecidableEq, Repr, Inhabited

/-- A FIFO entry's contents: a bare token or a 32-bit value (10 R326). -/
abbrev Entry := Option W32

/-- Error mark of a protected structure: its check code is good, shows one wrong bit, or is uncorrectable. -/
inductive Ecc where
  | good | single | double
  deriving DecidableEq, Repr, Inhabited

/-- An entry as it stands in a FIFO, with the mark of its code (13 R415), and what its push released (09 R316; log entry
91). -/
structure FEntry where
  v : Entry
  ecc : Ecc
  view : View
  deriving DecidableEq, Repr, Inhabited

/-- The record of a poisoned register (08 R282). -/
structure Poison where
  code : BitVec 8
  addr : BitVec 48
  lane : BitVec 6
  deriving DecidableEq, Repr, Inhabited

/-- Full/empty bit of a register, with the poison mark and record (04 R120, 08 R282). -/
inductive Fill where
  | full | empty | poisoned (p : Poison)
  deriving DecidableEq, Repr, Inhabited

/-- A release (09 R310, R311): its core, or another observer (Machine/Order.lean), its scope, and what its stream had seen. -/
structure RelTag where
  core : Nat
  scope : Nat
  view : View
  deriving DecidableEq, Repr, Inhabited

/-- A superseded byte: it stood at its key until the write of that number. -/
structure OldByte where
  key : Nat
  byte : Byte
  until_ : Nat
  deriving DecidableEq, Repr, Inhabited

/-- A write that is a release, for as long as its value, or an atomic's after it, stands at its bytes (09 R311). -/
structure RelRun where
  lo : Nat
  n : Nat
  from_ : Nat
  until_ : Option Nat
  tag : RelTag
  deriving DecidableEq, Repr, Inhabited

/-- A cached translation (08 R269): root, first virtual address and size of its page, permissions, kind, frame, and
the publish entry of a PUB leaf. -/
structure TlbEnt where
  root : Nat
  va : Nat
  size : Nat
  r : Bool
  w : Bool
  a : Bool
  kind : Nat
  frame : Nat
  pub : Option Nat
  deriving DecidableEq, Repr, Inhabited

/-- What a word that waits has taken at its issue and keeps (09 R323; log entry 92): a block it read, a translation, a
member of its group, the number of a command or drain it waits for, or the bytes of one of its accesses to an SO page. -/
inductive Snap where
  | block (bs : List Byte)
  | page (t : TlbEnt)
  | member (m gone : Nat)
  | writer (id : Nat)
  | read (sp : Span) (bs : List Byte)
  deriving DecidableEq, Repr, Inhabited

/-- A word that has had its effects and waits to retire, at its address and of its size: until its stream's accesses are
performed and its push FIFO has room (01 R44; 03 R92; 04 R141; log entry 22). It pushes `v`, goes to `onto` where it
transfers control, and is not counted by the performance counter it wrote (12 R402). -/
structure Done where
  pc : W64
  size : Nat
  push : BitVec 3
  v : Entry
  onto : Option W64
  quiet : Option Nat
  deriving DecidableEq, Repr, Inhabited

/-- One engine stream: state, PC, loop levels of the current bank, held pop, template table and the word that waits to
retire (01 R23, 03 R119). The last four are the model's own: what the stream must see of memory, the releases its plain
reads returned, what its later writes carry from `.rel` fences, and what a waiting word read at its issue (log entries 91
and 92). -/
structure Stream where
  st : Strm
  pc : W64
  loops : Vector Loop 4
  held : Option Entry
  tmpl : Vector W64 64
  done : Option Done
  view : View
  observed : List RelTag
  rel : List RelTag
  snap : List Snap
  deriving DecidableEq, Repr

/-! Places in memory. -/

/-- Where a byte run starts: at a key of memory, or at an offset of an activated publish entry, on its hidden side or
not; the side is looked up when the access is performed (11 R368). -/
inductive Loc where
  | phys (key : Nat)
  | pub (entry : Nat) (off : Nat) (hidden : Bool)
  deriving DecidableEq, Repr, Inhabited

/-- n contiguous bytes from a place, with the form that names them and whether their page is SO. -/
structure Piece where
  loc : Loc
  n : Nat
  via : Nat
  so : Bool
  deriving DecidableEq, Repr, Inhabited

/-- Bytes to be written from a place on, as one access, with the form that names them and whether their page is SO. -/
structure Chunk where
  loc : Loc
  bytes : List Byte
  via : Nat
  so : Bool
  deriving DecidableEq, Repr, Inhabited

/-- One read of a deferred load: it lands in bytes sh .. sh + n − 1 of the destination of its lane. -/
structure LoadEl where
  lane : Nat
  sh : Nat
  piece : Piece
  addr : BitVec 48
  deriving DecidableEq, Repr, Inhabited

/-- One collating load in flight: the core that issued it, its lane, operation, offset, member cores in order with
absent ones marked. -/
structure ColEl where
  own : Nat
  lane : Nat
  op : Nat
  off : Nat
  members : List (Nat × Bool)
  deriving DecidableEq, Repr, Inhabited

/-- What a pending deferred write waits for (04 R121, 05 R165). -/
inductive What where
  | value (v : W64)
  | load (els : List LoadEl)
  | collate (els : List ColEl)
  | token (src : Eng) (mask : W64)
  | amo
  deriving DecidableEq, Repr, Inhabited

/-- A pending deferred write: its engine (S or V), first destination register (physical) and how many, its place in
program order, the scope at which it is an acquire (0: plain), the poison found so far. -/
structure Pend where
  eng : Eng
  reg : Nat
  regs : Nat
  seq : Nat
  acq : Nat
  poison : Option Poison
  what : What
  deriving DecidableEq, Repr, Inhabited

/-- An AMO in the send buffer (08 R285): operation, the scope at which it is an acquire (0: plain), bytes, operand,
compare value. -/
structure AmoReq where
  op : Nat
  acq : Nat
  piece : Piece
  b : W64
  cmp : W64
  addr : BitVec 48
  deriving DecidableEq, Repr, Inhabited

/-- A send-buffer entry (13 R417): its engine and place in program order, the scope at which it is a release (0: plain),
the writes left to perform, or the AMO, and the number of its issue where it is a drain to a hidden side (09 R319). -/
structure SbEntry where
  eng : Eng
  seq : Nat
  rel : Nat
  chunks : List Chunk
  amo : Option AmoReq
  id : Nat
  deriving DecidableEq, Repr, Inhabited

/-! Engine state. -/

/-- Operand stream register (06 R209). -/
structure OStream where
  seed : W32
  sstr : BitVec 16
  soff : BitVec 24
  geo : Bool
  rot : BitVec 4
  tilep : W32
  rowp : BitVec 20
  fmt : BitVec 4
  space : BitVec 2
  base : BitVec 48
  deriving DecidableEq, Repr, Inhabited

/-- One access of an M word: the address as formed, the row, n bytes from tower lane `lane` on, and the unit its
address is aligned to (06 R211, R223). -/
structure MReq where
  addr : Nat
  row : Nat
  n : Nat
  lane : Nat
  unit : Nat
  deriving DecidableEq, Repr, Inhabited

/-- An operand of an MMA: tile registers, or tiles in memory of a space as the accesses of their rows and of their scale
bytes (06 R212, R214, R216). -/
inductive OpWant where
  | tiles (ts : List Nat)
  | mem (space : Nat) (ts : List (List MReq × List MReq))
  deriving DecidableEq, Repr, Inhabited

/-- A window command in resolved form: with its addresses, whatever they name when it is executed again (06 R216, R219). -/
inductive WinCmd where
  | mzero (a : Nat)
  | mts (a : Nat)
  | mma (neg clr sparse : Bool) (a fa fb : Nat) (seed : W32) (opA opB : OpWant)
  | load (t : Nat) (trans : Bool) (fmt space : Nat) (rows scales : List MReq)
  | drain (t : Nat)
  | other
  deriving DecidableEq, Repr, Inhabited

/-- A window entry with its serial number. -/
structure WinEnt where
  serial : Nat
  cmd : WinCmd
  deriving DecidableEq, Repr, Inhabited

/-- V (05 R163). Registers are physical; lane i of register r is element i. -/
structure VState where
  regs : Vector (Vector W32 64) 64
  proof : Vector W64 64
  writer : Vector (BitVec 15) 64
  fill : Vector Fill 64
  p : Vector W64 8
  q : Vector W64 8
  masks : List W64
  rrb : BitVec 5
  lfsr : W32
  deriving DecidableEq, Repr

/-- M (06 R204). Row r of a tile holds byte b at bits [8b+7:8b]; element (i, j) of an accumulator is at 33i + j. -/
structure MState where
  tiles : Vector (Vector (BitVec 512) 32) 16
  scales : Vector (BitVec 512) 16
  acc : Vector (Vector W32 1089) 8
  os : Vector OStream 8
  mv : W32
  red : Bool
  tseed : W32
  window : List WinEnt
  serial : Nat
  marker : Vector (Option Nat) 8
  replays : Vector Nat 8
  lfsr : W32
  deriving DecidableEq, Repr

/-- P (07 R238). Bank address a is element a. -/
structure PState where
  banks : Vector W32 8192
  shapes : Vector (BitVec 128) 64
  mode : BitVec 2
  strict : Bool
  pv : W32
  deriving DecidableEq, Repr

/-- A completion tag (10 R326): OUT, DONE, and the recorded error. -/
structure Tag where
  out : BitVec 8
  done : BitVec 16
  err : Option Poison
  deriving DecidableEq, Repr, Inhabited

/-- A structure that carries a check code (13 R415); memory words are marked in State.memErr. -/
inductive Site where
  | sreg (r : Nat)
  | creg (n : Nat)
  | tmpl (e : Eng) (k : Nat)
  | shape (k : Nat)
  | vel (r lane : Nat)
  | tile (t row w : Nat)
  | bank (a : Nat)
  deriving DecidableEq, Repr, Inhabited

/-- Control registers that the job carries (04 R127). -/
structure CtlRegs where
  tm : Bool
  rst : Bool
  epri : BitVec 2
  pri : BitVec 2
  jobid : W64
  dommask : Vector W64 4
  mbox : Vector W64 16
  trapcause : W64
  trappc : W64
  trapinfo0 : W64
  trapinfo1 : W64
  trapvec : W64
  trapeng : W64
  colstat : W64
  spfstat : W64
  pmc : Vector W64 8
  deriving DecidableEq, Repr

/-- A participant's arrival at a barrier (10 R340, R342; 01 R41): level, instance, when it arrived (tick, then order of
arrival, then core), the tick it counts from for rebalancing, the rank once the instance is complete, and for BAR.D4 the
bytes of its group entry and member list as they stood at its issue (09 R323; 11 R372). -/
structure Arrival where
  level : Nat
  inst : Nat
  tick : Nat
  order : Nat
  core : Nat
  since : Nat
  rank : Option Nat
  group : List Byte
  deriving DecidableEq, Repr, Inhabited

/-- A trap about to be taken: code, PC of the word that raised it, resume address, the further fields the raising rule
fills (13 R408), and whether the code is of class J here (13 R409, R410). -/
structure Trap where
  code : Nat
  pc : W64
  resume : W64
  reg : Option Nat
  opnd : Option Nat
  lane : Option Nat
  addr : Option Nat
  classJ : Bool
  deriving DecidableEq, Repr, Inhabited

/-- A trap that has been raised and whose handler S has not entered yet (04 R123, R156, R160): the engine, the trap, and
whether S may still take one CRD of ENGSTATE first. -/
structure Trapping where
  eng : Eng
  trap : Trap
  late : Bool
  deriving DecidableEq, Repr, Inhabited

/-- A fence that later accesses of its stream still wait behind (09 R314): engine, place in program order, sub, scope. -/
structure FenceMark where
  eng : Eng
  seq : Nat
  kind : Nat
  scope : Nat
  deriving DecidableEq, Repr, Inhabited

/-- A CFENCE (09 R315): the commands before it in C's order, its sub and scope. -/
structure CFence where
  limit : Nat
  kind : Nat
  scope : Nat
  deriving DecidableEq, Repr, Inhabited

/-- A LAUNCH that has reached its queue: cluster, queue, and the tick after which it did (10 R332, 01 R494). -/
structure LaunchReq where
  cl : Nat
  q : Nat
  tick : Nat
  deriving DecidableEq, Repr, Inhabited

/-- What a job carries with it: everything a context save writes (13 R421) but the scratchpad and the footprint. -/
structure Ctx where
  str : Vector Stream 5
  sreg : Vector W64 32
  sfill : Vector Fill 32
  bank1 : Vector Loop 4
  aside : Option Entry
  asideDone : Option Done
  cr : CtlRegs
  v : VState
  m : MState
  p : PState
  fifos : Vector (List FEntry) 25
  tags : Vector Tag 64
  errs : List (Site × Bool)
  pend : List Pend
  sb : List SbEntry
  fences : List FenceMark
  trapping : Option Trapping
  seq : Nat
  cseq : Nat
  cfences : List CFence
  waitEnd : Option (Option Nat)
  pacqFrom : Option Nat
  pacqSince : Option Nat
  granted : Bool
  launchReq : Option LaunchReq
  bar : Option Arrival
  barAside : Option Arrival
  deriving DecidableEq, Repr

/-! Jobs and queues. -/

/-- A ticket as read when it became the head (10 R328). -/
structure Ticket where
  addr : Nat
  image : W64
  argBase : W64
  gx : Nat
  gy : Nat
  gz : Nat
  pri : Nat
  level : Nat
  policy : Nat
  gang : Bool
  narg : Nat
  tower : Nat
  boost : Nat
  dm4 : BitVec 9
  inc : W32
  dep0 : W64
  dep1 : W64
  done : W64
  lim0 : W32
  lim1 : W32
  args : List W32
  deriving DecidableEq, Repr, Inhabited

/-- A job (01 R31): its ticket, launch number, queue (cluster and number), root, index, recorded effective priority,
order of dispatch, gang identity (TICKS at dispatch), outgoing trailer mask, barriers arrived at so far per level, and what
its dispatch has acquired (09 R316; log entry 91). -/
structure Job where
  tk : Ticket
  launch : Nat
  qcl : ClusterId
  q : Fin 8
  root : Nat
  n : Nat
  x : Nat
  y : Nat
  z : Nat
  epri : Nat
  order : Nat
  gangId : Nat
  trailer : BitVec 5
  bars : Vector Nat 5
  seen : View
  deriving DecidableEq, Repr

/-- How a job ended: the fields of its fault record (13 R411). -/
structure EndInfo where
  code : BitVec 8
  gang : Bool
  nested : Bool
  novec : Bool
  hhalt : Bool
  kill : Bool
  disp : Bool
  prior : BitVec 8
  info0 : W64
  info1 : W64
  eng : W64
  ticks : Nat
  deriving DecidableEq, Repr, Inhabited

/-- Where a core stands with its job (01 R31, 13 R413, R421). -/
inductive Phase where
  | free
  | placed
  | running
  | retiring
  | ending (e : EndInfo)
  | restoring (cl : Nat) (slot : Nat)
  deriving DecidableEq, Repr, Inhabited

/-- Power state of a core: gated, called to wake, waking and not tested yet (13 R425–R427). -/
inductive Power where
  | on | gated | called | waking
  deriving DecidableEq, Repr, Inhabited

/-- An imposition entry (11 R359). -/
structure ImpEnt where
  av : Bool
  soft : Bool
  phys : BitVec 7
  deriving DecidableEq, Repr, Inhabited

/-- A page-table entry in a walker's cache (08 R269): root, first virtual address and bytes it covers, the entry. -/
structure WalkEnt where
  root : Nat
  va : Nat
  size : Nat
  entry : Nat
  deriving DecidableEq, Repr, Inhabited

/-- A cached control block (09 R324): where it stands (0 global under a root, 1 own scratchpad, 2 the publish table, 3 tower,
4 a scratchpad address, 5 a group entry with its list), page-table root, address, bytes. -/
structure CBlock where
  space : Nat
  root : Nat
  addr : Nat
  bytes : List Byte
  deriving DecidableEq, Repr, Inhabited

/-- A sweep in progress (08 R274): rotation or plain, and the step now running. -/
structure SweepRun where
  rotation : Bool
  step : Nat
  deriving DecidableEq, Repr, Inhabited

/-- What REFDEFER held before the REFDEF words of a tick: a sweep that starts in that tick goes by it, and the REFDEF
applies to the sweep after it (12 R385, R403). `asks` is the notify that those words ask for. -/
structure Deferral where
  tick : Nat
  until_ : Nat
  act : Bool
  notify : Bool
  asks : Bool
  deriving DecidableEq, Repr, Inhabited

/-- Refresh state of a core (12 R378), with the rotation phase of each physical tower: how many layers its contents
stand above their logical layer (08 R274, R299), the (logical, physical) towers that await a restore after a warm reset,
and the band before that reset (11 R363). -/
structure Refresh where
  due : Nat
  until_ : Nat
  act : Bool
  notify : Bool
  prior : Option Deferral
  lastSweep : Nat
  lastRotation : Nat
  band : Nat
  thBand : Nat
  sweep : Option SweepRun
  phase : Vector (Fin 8) 68
  stopped : List (Nat × Nat)
  resetBand : Nat
  pendingTrap : Option Nat
  deriving DecidableEq, Repr

/-- A boost lease (12 R392). -/
structure Lease where
  act : Bool
  rem : Nat
  req : Nat
  deriving DecidableEq, Repr, Inhabited

/-- The declared power level and its marks (12 R379). -/
structure Pwr where
  level : Nat
  wait : Bool
  susp : Bool
  deriving DecidableEq, Repr, Inhabited

/-- A core: the job on it and what belongs to the core itself; `samples` numbers the next temperature sample (12 R381). -/
structure Core where
  ctx : Ctx
  job : Option Job
  phase : Phase
  stopReq : Option Bool
  reserved : Option Nat
  power : Power
  logicFailed : Bool
  failedTowers : List Nat
  tripped : Bool
  towerTemp : Int
  logicTemp : Int
  samples : Nat
  freeSince : Nat
  hold : Bool
  march : Nat
  lastRoot : Option Nat
  resident : Vector (Option (Nat × Nat)) 5
  imp : Vector ImpEnt 64
  fuse : Vector (BitVec 7) 64
  softMask : W64
  tlb : List TlbEnt
  cbc : List CBlock
  tok : Nat
  frac : Nat
  refresh : Refresh
  lease : Lease
  pwr : Pwr
  deriving DecidableEq, Repr

/-- A launch whose ticket is the head of its queue (10 R330, R333): number, next job to dispatch, effective priority, and what
the read of its ticket has acquired (09 R316; log entry 91). -/
structure Launch where
  tk : Ticket
  id : Nat
  next : Nat
  epri : Nat
  seen : View
  deriving DecidableEq, Repr, Inhabited

/-- A launch queue (10 R331) with its resume list: (cluster, slot) of each saved job, the head first; `seen` is what the
writes of its tail have released (09 R316; log entry 91). -/
structure Queue where
  en : Bool
  owner : Bool
  size : BitVec 5
  base : BitVec 41
  root : BitVec 40
  tail : BitVec 16
  head : BitVec 16
  launch : Option Launch
  resume : List (Nat × Nat)
  seen : View
  deriving DecidableEq, Repr, Inhabited

/-- Command words of C (10 R346). -/
inductive CmdOp where
  | cpy | cpy2d | cpys | cpytw | cpyex | cpybc | ccoll
  deriving DecidableEq, Repr, Inhabited

/-- A command in a queue (10 R343): issuing core, tag, descriptor snapshot, column, the translations taken at its issue,
units performed, its place in C's order and the fences before it; for CCOLL the members, each present (0), absent (1) or
dropped (2), how often the chunk was formed again, whether the reduction is in the switches, and the chunk formed and not
yet written whole (10 R348). `buf` is what its current unit has read and not yet written, `wrote` says that some of it is
written; `ahead` is what its accesses have read of this unit and of later ones, each piece by its unit and its place there
(09 R317); what its reads may return, what they and its writes have seen, the releases read, and its number, are log entry
91's. -/
structure Cmd where
  core : CoreId
  op : CmdOp
  tag : Nat
  desc : List Byte
  col : Nat
  root : Nat
  pages : List TlbEnt
  unit : Nat
  seq : Nat
  fences : List CFence
  members : List (Nat × Nat)
  tries : Nat
  inSwitch : Bool
  chunk : List Byte
  buf : List Chunk
  wrote : Bool
  view : View
  seen : View
  observed : List RelTag
  failed : Bool
  ahead : List (Nat × Nat × List Byte)
  id : Nat
  deriving DecidableEq, Repr, Inhabited

/-- A saved job (13 R420) in the model's form; its header, instruction memories, scratchpad and footprint stand in the
slot's memory. -/
structure Saved where
  state : Nat
  core : CoreId
  job : Job
  ctx : Ctx
  level : Nat
  gsize : Nat
  cmds : List (CopyUnit × Cmd)
  epri : Nat
  deriving DecidableEq, Repr

/-- A record for the fault queue (13 R411): its bytes, and what its write releases (log entry 91). -/
structure QRecord where
  bytes : List Byte
  tag : RelTag
  deriving DecidableEq, Repr, Inhabited

/-- Service state of a cluster (14 R449). -/
inductive Service where
  | inService | draining | drained | testing | returning
  deriving DecidableEq, Repr, Inhabited

/-- A record of an operating table (11 R373). -/
structure OpRec where
  fcap : Nat
  boostOk : Bool
  thal0 : Nat
  thal1 : Nat
  thal2 : Nat
  refForce : Bool
  copyDiv : Nat
  deriving DecidableEq, Repr, Inhabited

/-- Direction of an FLL ramp (12 R398). -/
inductive Ramp where
  | still | up | down
  deriving DecidableEq, Repr, Inhabited

/-- A cluster; `rampAt` is the tick at which the FLL step in progress began (12 R398). -/
structure Cluster where
  queues : Vector Queue 8
  engines : Vector (List Cmd) 8
  columns : Vector (List Cmd) 8
  tlb : List TlbEnt
  walks : List WalkEnt
  lastQueue : Nat
  lastPass : Nat
  passDue : Bool
  preempts : List Nat
  impcmd : W64
  imperr : Nat
  impGo : Bool
  impDone : Option (Nat × ImpEnt × Bool)
  spbase : BitVec 31
  spcount : BitVec 10
  slots : List (Nat × Saved)
  jcmd : W64
  jgo : Bool
  jslot : Nat
  jerr : Nat
  gateidle : W32
  service : Service
  recNum : Nat
  table : Vector OpRec 4
  permits : Nat
  regain : Nat
  spent : Nat
  low : Bool
  fstep : Nat
  ftgt : Nat
  ramp : Ramp
  rampAt : Nat
  ldo : BitVec 8
  bud : Int
  runs : Vector Nat 2
  coreFuse : Vector Nat 48
  coreMap : Vector Nat 48
  deriving DecidableEq, Repr

/-- A request at a plate's arbiter (12 R395): core, units wanted, whether it is a reacquisition, tick taken. -/
structure PowerReq where
  core : CoreId
  units : Nat
  reacquire : Bool
  tick : Nat
  deriving DecidableEq, Repr, Inhabited

/-- A plate: requests in arrival order and the clusters that hold its boost slots (12 R391, R395). -/
structure Plate where
  reqs : List PowerReq
  slots : List ClusterId
  deriving DecidableEq, Repr, Inhabited

/-- The fields of a publish entry as activated (11 R366, R367). -/
structure PubEnt where
  mstr : BitVec 8
  mcore : Nat
  vabase : Nat
  len : Nat
  pa0 : Nat
  pa1 : Nat
  deriving DecidableEq, Repr, Inhabited

/-- A management event (14 R436). -/
structure MgEvent where
  code : Nat
  src : Nat
  arg : Nat
  deriving DecidableEq, Repr, Inhabited

/-- The management mailbox (14 R436). -/
structure Mailbox where
  go : Bool
  cmd : W64
  err : Nat
  head : BitVec 16
  tail : BitVec 16
  ring : Vector MgEvent 64
  replays : Vector Nat 24
  stagedThafy : Option (List Byte)
  thafy : List Byte
  bed : Vector (List Byte) 24
  optable : Vector (List Byte) 24
  rollback : Nat
  boots : Nat
  deriving DecidableEq, Repr

/-- A cooling loop (14 R448, 11 R375): in range or lost, bad samples in a row, and, once it has been lost, the good samples
in a row since. -/
structure Cooling where
  ok : Bool
  bad : Nat
  back : Option Nat
  deriving DecidableEq, Repr, Inhabited

/-- Boot status (14 R444): done, stopped at step 1 or 2 by a failed verification, or in progress with the step that comes
next. -/
inductive Boot where
  | done | failed (atStep : Nat) | running (next : Nat)
  deriving DecidableEq, Repr, Inhabited

/-- An invalidation in progress (11 R357): its kind, root and range. -/
structure Inval where
  kind : Nat
  root : Nat
  va : Nat
  bytes : Nat
  deriving DecidableEq, Repr, Inhabited

/-- A completion-counter increment in flight to the host, with what it releases (12 R401). -/
structure FetchAdd where
  addr : Nat
  va : W64
  inc : W32
  view : View
  deriving DecidableEq, Repr, Inhabited

/-- The time for which a ticket has been an eligible candidate (10 R335): its launch, the ticks counted so far, the tick it
last became one. -/
structure Age where
  launch : Nat
  waited : Nat
  since : Option Nat
  deriving DecidableEq, Repr, Inhabited

/-- Registers and tables of the device as a whole (14 R432, 11 R352). `loopSamples` numbers the next sample of the cooling
loops, `recordDue` is the tick since which a selection of records is due, `warm` says that the last reset was a
warm one, `bedDelay` is the time from it to the release of the beds, `pcieErrors` counts accesses reported through
the PCI Express error mechanism (14 R434), `outer` is what the host and other devices have seen, and `issues` numbers the commands and the drains to a hidden side
(log entries 23 and 91). -/
structure Device where
  ticks : W64
  intervalDone : Nat
  fqbase : BitVec 41
  fqsize : BitVec 5
  fqhead : BitVec 16
  fqtail : BitVec 16
  fqlost : W32
  fqwait : List QRecord
  tinvKind : BitVec 2
  tinvRoot : BitVec 40
  tinvVa : W32
  tinvLen : W32
  inval : Option Inval
  bamaddr : BitVec 45
  live : BitVec 512
  gen : W64
  remapDir : Bool
  remapPch : BitVec 9
  remapGo : Bool
  remapErr : Nat
  ptbase : BitVec 38
  pside : BitVec 256
  pactive : BitVec 256
  pubs : List (Nat × PubEnt)
  winbase : BitVec 16
  devnum : Option (BitVec 8)
  rwbase : BitVec 27
  rwlen : W32
  cxlList : BitVec 8
  cxlCap : BitVec 14
  cxlDown : BitVec 8
  routes : List (Nat × Nat)
  mail : Mailbox
  msi : Vector Nat 4
  hostRead : List Byte
  topLoop : Cooling
  bottomLoop : Cooling
  loopSamples : Nat
  recordDue : Option Nat
  boot : Boot
  warm : Bool
  bedDelay : Nat
  pcieErrors : Nat
  ages : List Age
  launches : Nat
  dispatches : Nat
  arrivals : Nat
  fetchAdds : List FetchAdd
  outer : List (Nat × View)
  issues : Nat
  deriving DecidableEq, Repr

/-- The machine. `mem` holds every byte of memory under one key space (Machine/Ops.lean); `memErr` the words whose code
shows an error (true: uncorrectable). `sched`, `turns`, `draw`, `cur` and `patched` are the model's own (log entries 2
and 4), and so are `stamp`, the number of writes performed, `old`, the bytes they superseded, the last first, `rels`, the
releases among them, and `scs`, what the `.ar` fences so far had seen (log entry 91). -/
structure State where
  cores : Vector Core 1152
  clusters : Vector Cluster 24
  plates : Vector Plate 4
  dev : Device
  mem : List Host.Cell
  memErr : List (Nat × Bool)
  sched : List Turn
  turns : Nat
  draw : Nat
  cur : CoreId
  patched : Bool
  stamp : Nat
  old : List OldByte
  rels : List RelRun
  scs : List RelTag
  deriving DecidableEq, Repr

/-! Reset. -/

/-- A loop level after reset (04 R124). -/
def Loop.reset : Loop := ⟨0, 0, 0, false, false, 0⟩

/-- A stream with no job (DESIGN CHOICE, log entry 5). -/
def Stream.reset : Stream :=
  { st := .idle, pc := 0, loops := Vector.replicate 4 Loop.reset, held := none, tmpl := Vector.replicate 64 0,
    done := none, view := ⟨0, [], []⟩, observed := [], rel := [], snap := [] }

/-- An operand stream register after reset (06 R209). -/
def OStream.reset : OStream := ⟨0, 0, 0, false, 0, 0, 0, 0, 0, 0⟩

/-- V after reset (05 R163); the generator's value before any dispatch is log entry 5's. -/
def VState.reset : VState :=
  { regs := Vector.replicate 64 (Vector.replicate 64 0), proof := Vector.replicate 64 0,
    writer := Vector.replicate 64 0, fill := Vector.replicate 64 .full,
    p := (Vector.replicate 8 0).set 0 (BitVec.allOnes 64), q := Vector.replicate 8 0, masks := [], rrb := 8,
    lfsr := 1 }

/-- M after reset (06 R204). -/
def MState.reset : MState :=
  { tiles := Vector.replicate 16 (Vector.replicate 32 0),
    scales := Vector.replicate 16
      0x7f7f7f7f7f7f7f7f7f7f7f7f7f7f7f7f7f7f7f7f7f7f7f7f7f7f7f7f7f7f7f7f7f7f7f7f7f7f7f7f7f7f7f7f7f7f7f7f7f7f7f7f7f7f7f7f7f7f7f7f7f7f7f7f,
    acc := Vector.replicate 8 (Vector.replicate 1089 0), os := Vector.replicate 8 OStream.reset, mv := 0,
    red := false, tseed := 0, window := [], serial := 0, marker := Vector.replicate 8 none,
    replays := Vector.replicate 8 0, lfsr := 1 }

/-- P after reset (07 R238). -/
def PState.reset : PState :=
  { banks := Vector.replicate 8192 0, shapes := Vector.replicate 64 0, mode := 0, strict := false, pv := 0 }

/-- The job's control registers with no job yet (04 R127; DESIGN CHOICE, log entry 5). -/
def CtlRegs.reset : CtlRegs :=
  { tm := false, rst := false, epri := 0, pri := 0, jobid := 0, dommask := Vector.replicate 4 0,
    mbox := Vector.replicate 16 0, trapcause := 0, trappc := 0, trapinfo0 := 0, trapinfo1 := 0, trapvec := 0,
    trapeng := 0, colstat := 0, spfstat := 0, pmc := Vector.replicate 8 0 }

/-- A context with no job yet. -/
def Ctx.reset : Ctx :=
  { str := Vector.replicate 5 Stream.reset, sreg := Vector.replicate 32 0, sfill := Vector.replicate 32 .full,
    bank1 := Vector.replicate 4 Loop.reset, aside := none, asideDone := none, cr := CtlRegs.reset, v := VState.reset, m := MState.reset,
    p := PState.reset, fifos := Vector.replicate 25 [], tags := Vector.replicate 64 ⟨0, 0, none⟩, errs := [],
    pend := [], sb := [], fences := [], trapping := none, seq := 0, cseq := 0, cfences := [], waitEnd := none, pacqFrom := none, pacqSince := none,
    granted := false, launchReq := none, bar := none, barAside := none }

/-- Refresh state with a sweep taken as started at TICKS 0 in band 0: DUE is 992 ms (12 R380, R383). -/
def Refresh.reset : Refresh :=
  { due := 99200000, until_ := 0, act := false, notify := false, prior := none, lastSweep := 0, lastRotation := 0,
    band := 0, thBand := 0, sweep := none, phase := Vector.replicate 68 0, stopped := [], resetBand := 0,
    pendingTrap := none }

/-- Fuse value of every imposition entry: tower i serves logical tower i (01 R15, R16; PRESUMED, log entry 13). -/
def fuseReset : Vector (BitVec 7) 64 := Vector.ofFn fun i => BitVec.ofNat 7 i.val

/-- A core after boot: powered, free, full heat bucket (12 R378). -/
def Core.reset : Core :=
  { ctx := Ctx.reset, job := none, phase := .free, stopReq := none, reserved := none, power := .on,
    logicFailed := false, failedTowers := [], tripped := false, towerTemp := 0, logicTemp := 0, samples := 1, freeSince := 0,
    hold := false, march := 0, lastRoot := none, resident := Vector.replicate 5 none,
    imp := Vector.ofFn fun i => ⟨true, false, BitVec.ofNat 7 i.val⟩, fuse := fuseReset, softMask := 0, tlb := [],
    cbc := [], tok := 256, frac := 0, refresh := Refresh.reset, lease := ⟨false, 0, 0⟩, pwr := ⟨0, false, false⟩ }

/-- A launch queue after reset (10 R331). -/
def Queue.reset : Queue := ⟨false, false, 4, 0, 0, 0, 0, none, [], ⟨0, [], []⟩⟩

/-- The shipped operating table (11 R374). -/
def shippedTable : Vector OpRec 4 :=
  #v[⟨104, true, 576, 448, 288, false, 1⟩, ⟨70, false, 144, 144, 144, false, 1⟩,
    ⟨80, false, 576, 448, 288, true, 2⟩, ⟨40, false, 144, 144, 144, true, 2⟩]

/-- The LDO code of an FLL step: the V/F table rises by 6.25 mV, one code, a step (12 R378, R398; DESIGN CHOICE, log entry
15). -/
def ldoOf (step : Nat) : BitVec 8 := Config.ldoBase + BitVec.ofNat 8 step

/-- The physical cores that the fuse image gives the architected cores of a cluster, of its 50: core i serves architected core
i (01 R15, R17; PRESUMED, log entry 13). -/
def coreFuseReset : Vector Nat 48 := Vector.ofFn fun i => i.val

/-- A cluster after boot (12 R378, 13 R419); queue 7 counts as served last (10 R333). -/
def Cluster.reset : Cluster :=
  { queues := Vector.replicate 8 Queue.reset, engines := Vector.replicate 8 [], columns := Vector.replicate 8 [],
    tlb := [], walks := [], lastQueue := 7, lastPass := 0, passDue := false, preempts := [], impcmd := 0, imperr := 0,
    impGo := false, impDone := none, spbase := 0, spcount := 0, slots := [], jcmd := 0, jgo := false, jslot := 0,
    jerr := 0, gateidle := 0, service := .inService, recNum := 0, table := shippedTable, permits := 64, regain := 0,
    spent := 0, low := false, fstep := 90, ftgt := 90, ramp := .still, rampAt := 0, ldo := ldoOf 90, bud := 0,
    runs := Vector.replicate 2 0, coreFuse := coreFuseReset, coreMap := coreFuseReset }

/-- The mailbox after boot (14 R436; DESIGN CHOICE, log entry 16). -/
def Mailbox.reset : Mailbox :=
  { go := false, cmd := 0, err := 0, head := 0, tail := 0, ring := Vector.replicate 64 ⟨0, 0, 0⟩,
    replays := Vector.replicate 24 0, stagedThafy := none, thafy := Config.shippedThafy,
    bed := Vector.replicate 24 Config.shippedBed, optable := Vector.replicate 24 Config.shippedTable, rollback := 0, boots := 0 }

/-- The device registers after boot (11 R352, 14 R433; PRESUMED, log entry 13). -/
def Device.reset : Device :=
  { ticks := 0, intervalDone := 0, fqbase := 0, fqsize := 4, fqhead := 0, fqtail := 0, fqlost := 0, fqwait := [],
    tinvKind := 0, tinvRoot := 0, tinvVa := 0, tinvLen := 0, inval := none, bamaddr := 0, live := BitVec.allOnes 512,
    gen := 0, remapDir := false, remapPch := 0, remapGo := false, remapErr := 0, ptbase := 0, pside := 0, pactive := 0,
    pubs := [], winbase := 0, devnum := none, rwbase := 0, rwlen := 0, cxlList := 0, cxlCap := 0, cxlDown := 0,
    routes := [], mail := Mailbox.reset, msi := Vector.replicate 4 0, hostRead := [], topLoop := ⟨true, 0, none⟩,
    bottomLoop := ⟨true, 0, none⟩, loopSamples := 1, recordDue := none, boot := .done, warm := false,
    bedDelay := 0, pcieErrors := 0, ages := [], launches := 0, dispatches := 0, arrivals := 0,
    fetchAdds := [], outer := [], issues := 0 }

/-- The machine right after reset: the boot sequence of 14 R444 done, every core powered and free, TICKS 0, no memory
listed (log entries 3, 5, 6, 13). -/
def State.reset : State :=
  { cores := Vector.replicate 1152 Core.reset, clusters := Vector.replicate 24 Cluster.reset,
    plates := Vector.replicate 4 ⟨[], []⟩, dev := Device.reset, mem := [], memErr := [], sched := [], turns := 0,
    draw := 0, cur := 0, patched := false, stamp := 0, old := [], rels := [], scs := [] }

end Sys2Proof.Machine
end

