-- ==== Sys2Proof/Machine/Ops.lean ====
section
/-! DEFINITION. Named operations over registers and memory: where a byte of each memory stands in the one list, reading
and writing it with the marks of its code, free draws, and taking a trap and returning from it (04 R156, R157). -/

namespace Sys2Proof.Machine

/-! Vectors by number. -/

/-- Element i of a vector, i taken modulo its length. -/
def vget {α : Type} {n : Nat} [NeZero n] (v : Vector α n) (i : Nat) : α := v.get (Fin.ofNat n i)

/-- The vector with element i (modulo its length) replaced. -/
def vset {α : Type} {n : Nat} [NeZero n] (v : Vector α n) (i : Nat) (x : α) : Vector α n :=
  v.set (Fin.ofNat n i).val x (Fin.ofNat n i).isLt

/-- The vector with element i changed by f. -/
def vmod {α : Type} {n : Nat} [NeZero n] (v : Vector α n) (i : Nat) (f : α → α) : Vector α n := vset v i (f (vget v i))

/-! The state's parts. -/

/-- Core c. -/
def State.core (s : State) (c : CoreId) : Core := s.cores.get c

/-- Core c replaced. -/
def State.setCore (s : State) (c : CoreId) (k : Core) : State := { s with cores := s.cores.set c.val k c.isLt }

/-- Core c changed by f. -/
def State.modCore (s : State) (c : CoreId) (f : Core → Core) : State := s.setCore c (f (s.core c))

/-- The job context of core c. -/
def State.ctx (s : State) (c : CoreId) : Ctx := (s.core c).ctx

/-- The job context of core c changed by f. -/
def State.modCtx (s : State) (c : CoreId) (f : Ctx → Ctx) : State := s.modCore c fun k => { k with ctx := f k.ctx }

/-- Cluster cl. -/
def State.cluster (s : State) (cl : ClusterId) : Cluster := s.clusters.get cl

/-- Cluster cl changed by f. -/
def State.modCluster (s : State) (cl : ClusterId) (f : Cluster → Cluster) : State :=
  { s with clusters := s.clusters.set cl.val (f (s.clusters.get cl)) cl.isLt }

/-- Plate p. -/
def State.plate (s : State) (p : PlateId) : Plate := s.plates.get p

/-- Plate p changed by f. -/
def State.modPlate (s : State) (p : PlateId) (f : Plate → Plate) : State :=
  { s with plates := s.plates.set p.val (f (s.plates.get p)) p.isLt }

/-- The device registers changed by f. -/
def State.modDev (s : State) (f : Device → Device) : State := { s with dev := f s.dev }

/-- The stream of engine e in a context. -/
def Ctx.stream (x : Ctx) (e : Eng) : Stream := x.str.get e.num

/-- The stream of engine e changed by f. -/
def Ctx.modStream (x : Ctx) (e : Eng) (f : Stream → Stream) : Ctx :=
  { x with str := x.str.set e.num.val (f (x.str.get e.num)) e.num.isLt }

/-- Cluster of a core (01 R16). -/
def clusterOf (c : CoreId) : ClusterId := ⟨c.val / 48, by have := c.isLt; omega⟩

/-- Core within its cluster (01 R16). -/
def coreIn (c : CoreId) : Nat := c.val % 48

/-- Plate of a cluster (01 R16). -/
def plateOf (cl : ClusterId) : PlateId := ⟨cl.val / 6, by have := cl.isLt; omega⟩

/-- The core of a device-wide number, taken modulo 1152. -/
def coreAt (n : Nat) : CoreId := Fin.ofNat 1152 n

/-- The cluster of a device-wide number, taken modulo 24. -/
def clusterAt (n : Nat) : ClusterId := Fin.ofNat 24 n

/-- A free number, and the state with the draw counted. -/
def State.drawNat (s : State) : Nat × State := (Config.freeNat s.draw, { s with draw := s.draw + 1 })

/-- A free choice, and the state with the draw counted. -/
def State.drawBool (s : State) : Bool × State := (Config.freeBool s.draw, { s with draw := s.draw + 1 })

/-! Memory cells: one list, addresses rising, no byte that reads as an unlisted one does. -/

/-- What a byte that nothing has written reads as (DESIGN CHOICE, log entry 6). -/
def unlisted : Byte := 0

/-- The byte at a key. -/
def readCell : List Host.Cell → Nat → Byte
  | [], _ => unlisted
  | (a, b) :: t, k => if k = a then b else if k < a then unlisted else readCell t k

/-- Every key of the list is above lo and the list is in canonical form. -/
def wfAbove : Option Nat → List Host.Cell → Bool
  | _, [] => true
  | lo, (a, b) :: t => (match lo with | none => true | some l => decide (l < a)) && b != unlisted && wfAbove (some a) t

/-- The canonical form of memory: keys strictly rising, no entry equal to what an unlisted key reads as. -/
def Memory.wf (m : List Host.Cell) : Bool := wfAbove none m

/-- n bytes from a key on. -/
def readCells (m : List Host.Cell) (k : Nat) : Nat → List Byte
  | 0 => []
  | n + 1 => readCell m k :: readCells m (k + 1) n

/-- The cells of bytes that start at a key: a byte that reads as an unlisted one has none. -/
def cellsOf (k : Nat) : List Byte → List Host.Cell
  | [] => []
  | b :: bs => if b = unlisted then cellsOf (k + 1) bs else (k, b) :: cellsOf (k + 1) bs

/-- The cells below a key. -/
def cellsBelow (m : List Host.Cell) (k : Nat) : List Host.Cell := m.filter fun c => decide (c.1 < k)

/-- The cells at or above a key. -/
def cellsFrom (m : List Host.Cell) (k : Nat) : List Host.Cell := m.filter fun c => decide (k ≤ c.1)

/-- Bytes written from a key on. -/
def writeCells (m : List Host.Cell) (k : Nat) (bs : List Byte) : List Host.Cell :=
  cellsBelow m k ++ cellsOf k bs ++ cellsFrom m (k + bs.length)

/-- Keys lo .. lo + n − 1 made unlisted. -/
def clearCells (m : List Host.Cell) (lo n : Nat) : List Host.Cell := cellsBelow m lo ++ cellsFrom m (lo + n)

/-- The cells of lo .. lo + n − 1, copied to start at dst. -/
def copyCells (m : List Host.Cell) (lo n dst : Nat) : List Host.Cell :=
  cellsBelow m dst ++ ((cellsFrom (cellsBelow m (lo + n)) lo).map fun c => (c.1 - lo + dst, c.2))
    ++ cellsFrom m (dst + n)

/-! Keys. A global byte's key is its 52-bit physical address (08 R267); scratchpads have the keys of the window. -/

/-- First key of the towers. -/
def towerBase : Nat := 2 ^ 52

/-- First key of the instruction memories. -/
def imemBase : Nat := 2 ^ 53

/-- First key of the mailbox data area. -/
def mailBase : Nat := 2 ^ 54

/-- Key of an offset in a physical tower of a core (08 R271). -/
def towerKey (c : CoreId) (phys off : Nat) : Nat := towerBase + (c.val * 68 + phys) * 2 ^ 18 + off

/-- Key of a scratchpad offset: the window form of 08 R267. -/
def spKey (c : CoreId) (off : Nat) : Nat := 4 * 2 ^ 48 + (clusterOf c).val * 2 ^ 26 + coreIn c * 2 ^ 20 + off

/-- Key of an address in an engine's instruction memory. -/
def imemKey (c : CoreId) (e : Eng) (off : Nat) : Nat := imemBase + (c.val * 8 + e.num.val) * 2 ^ 16 + off

/-- Size of an engine's instruction memory (01 R23). -/
def imemSize : Eng → Nat
  | .s => 16384
  | .v => 32768
  | .m => 8192
  | .p => 8192
  | .c => 4096

/-- The physical tower that serves a logical tower now (11 R359). -/
def State.physTower (s : State) (c : CoreId) (log : Nat) : Nat := (vget (s.core c).imp log).phys.toNat

/-- Key of a byte of a logical tower. -/
def State.laneKey (s : State) (c : CoreId) (lane off : Nat) : Nat := towerKey c (s.physTower c lane) off

/-- The code that uncorrectable data at a key is reported with: 0x11 scratchpad, 0x12 tower, 0x13 any other target
(08 R282, R285). A scratchpad reached through its window in global space is reported as the scratchpad that it is (DESIGN
CHOICE, log entry 109). -/
def keyCode (k : Nat) : Nat := if towerBase ≤ k then 0x12 else if k / 2 ^ 48 = 4 then 0x11 else 0x13

/-! Error marks of memory words. -/

/-- Unit a key's code covers: a 64-bit word, or a parcel of instruction memory (13 R415). -/
def unitOf (k : Nat) : Nat := if imemBase ≤ k ∧ k < mailBase then k / 4 * 4 else k / 8 * 8

/-- Mark of a unit. -/
def markOf : List (Nat × Bool) → Nat → Ecc
  | [], _ => .good
  | (u, d) :: t, k => if u = k then (if d then .double else .single) else markOf t k

/-- Some byte of the n from k on lies in an uncorrectable unit. -/
def State.badData (s : State) (k n : Nat) : Bool :=
  (upTo n).any fun i => markOf s.memErr (unitOf (k + i)) == .double

/-- The lowest uncorrectable unit's key at or above k among n bytes; k where there is none. -/
def State.badUnit (s : State) (k n : Nat) : Nat :=
  match (upTo n).find? fun i => markOf s.memErr (unitOf (k + i)) == .double with
  | some i => unitOf (k + i)
  | none => k

/-- The single-bit marks among the units of n bytes from k on. -/
def singles (err : List (Nat × Bool)) (k n : Nat) : Nat :=
  (err.filter fun m => !m.2 && decide (unitOf k ≤ m.1) && decide (m.1 < k + n)).length

/-- Those marks removed: the word is corrected and written back (08 R271). -/
def clearSingles (err : List (Nat × Bool)) (k n : Nat) : List (Nat × Bool) :=
  err.filter fun m => m.2 || decide (m.1 < unitOf k) || decide (k + n ≤ m.1)

/-- Bytes one unit covers. -/
def unitLen (u : Nat) : Nat := if imemBase ≤ u ∧ u < mailBase then 4 else 8

/-- Marks after a store of n bytes from k on: units written whole take a fresh code, a unit written in part keeps an
uncorrectable code and loses a single-bit one (08 R283). -/
def storeMarks (err : List (Nat × Bool)) (k n : Nat) : List (Nat × Bool) :=
  err.filter fun m =>
    decide (m.1 + unitLen m.1 ≤ k) || decide (k + n ≤ m.1)
      || (m.2 && !(decide (k ≤ m.1) && decide (m.1 + unitLen m.1 ≤ k + n)))

/-! Performance counters. -/

/-- Add n to every counter of a core whose EVT is the event (12 R402); COUNT wraps modulo 2^48. -/
def Ctx.count (x : Ctx) (evt n : Nat) : Ctx :=
  let bump (r : W64) : W64 :=
    if fld r.toNat 56 8 = evt then
      BitVec.ofNat 64 (r.toNat / 2 ^ 48 * 2 ^ 48 + (fld r.toNat 0 48 + n) % 2 ^ 48)
    else r
  { x with cr := { x.cr with pmc := x.cr.pmc.map bump } }

/-- Count an event for core c. -/
def State.count (s : State) (c : CoreId) (evt n : Nat) : State :=
  if n = 0 then s else s.modCtx c fun x => x.count evt n

/-! Reading and writing bytes for core c's access. -/

/-- The key of a physical address: this device's own number in target 3 names own HBM or the own window (08 R267). -/
def State.keyOfPa (s : State) (pa : Nat) : Nat :=
  let off := pa % 2 ^ 48
  if pa / 2 ^ 48 = 3 ∧ s.dev.devnum.map (·.toNat) = some (off / 2 ^ 40) then
    if off.testBit 39 then 4 * 2 ^ 48 + off % 2 ^ 39 else off % 2 ^ 39
  else pa

/-- Base of the visible side of a publish entry, or of the hidden one (11 R368). -/
def State.sideBase (s : State) (e : Nat) (p : PubEnt) (hidden : Bool) : Nat :=
  if s.dev.pside.getLsbD e != hidden then p.pa1 else p.pa0

/-- The place's key now: a publish entry's visible or hidden side is looked up here (11 R368). -/
def State.keyOf (s : State) : Loc → Nat
  | .phys k => k
  | .pub e off hidden =>
    match s.dev.pubs.lookup e with
    | none => off
    | some p => s.keyOfPa (s.sideBase e p hidden + off)

/-- Bytes of a piece as memory holds them. -/
def State.bytesAt (s : State) (p : Piece) : List Byte := readCells s.mem (s.keyOf p.loc) p.n

/-- Data of a piece is uncorrectable. -/
def State.badPiece (s : State) (p : Piece) : Bool := s.badData (s.keyOf p.loc) p.n

/-- A read's corrections: single-bit words written back and counted for core c (08 R271). -/
def State.touch (s : State) (c : CoreId) (k n : Nat) : State :=
  ({ s with memErr := clearSingles s.memErr k n }).count c 10 (singles s.memErr k n)

/-- Key of the map block (11 R364). -/
def Device.mapKey (d : Device) : Nat := d.bamaddr.toNat * 128

/-- Bytes of the map block. -/
def mapBlockSize : Nat := 128

/-- The bytes that a write supersedes: those it changes, which stood until write number `at_`. -/
def supersededBy (m : List Host.Cell) (k at_ : Nat) (bs : List Byte) : List OldByte :=
  ((upTo bs.length).filter fun i => readCell m (k + i) != bs.getD i unlisted).map
    fun i => ⟨k + i, readCell m (k + i), at_⟩

/-- A release after a write of n bytes at key k: on the bytes that the write replaces it ends with it, on the others it
stands on (09 R311). -/
def RelRun.closed (k n at_ : Nat) (r : RelRun) : List RelRun :=
  if r.until_ = none ∧ r.lo < k + n ∧ k < r.lo + r.n then
    let hi := r.lo + r.n
    (if r.lo < k then [{ r with n := k - r.lo }] else [])
      ++ ⟨max r.lo k, min hi (k + n) - max r.lo k, r.from_, some at_, r.tag⟩
        :: if k + n < hi then [{ r with lo := k + n, n := hi - (k + n) }] else []
  else [r]

/-- The releases after such a write. -/
def closeRuns (l : List RelRun) (k n at_ : Nat) : List RelRun := (l.map (RelRun.closed k n at_)).flatten

/-- The releases whose bytes an atomic of n bytes at key k follows: whoever reads its value synchronises with them too,
whatever was written between (09 R311). -/
def atomicRuns (l : List RelRun) (k n at_ : Nat) : List RelRun :=
  ((l.filter fun r => decide (r.lo < k + n) && decide (k < r.lo + r.n)).map (·.tag)).eraseDups.map
    fun t => ⟨k, n, at_, none, t⟩

/-- Bytes set at a key, with their marks: one write, counted, whose superseded bytes are kept (log entry 91). -/
def State.poke (s : State) (k : Nat) (bs : List Byte) : State :=
  { s with mem := writeCells s.mem k bs, memErr := storeMarks s.memErr k bs.length, stamp := s.stamp + 1,
           old := supersededBy s.mem k (s.stamp + 1) bs ++ s.old, rels := closeRuns s.rels k bs.length (s.stamp + 1) }

/-- Bytes written at a key by an observer: a write to the map block is ignored (11 R364). -/
def State.putBytes (s : State) (k : Nat) (bs : List Byte) : State :=
  let b := s.dev.mapKey
  if s.dev.bamaddr = 0 ∨ k + bs.length ≤ b ∨ b + mapBlockSize ≤ k then s.poke k bs
  else (s.poke k (bs.take (b - k))).poke (b + mapBlockSize) (bs.drop (b + mapBlockSize - k))

/-- A write of bytes at a key for core c's access. -/
def State.store (s : State) (c : CoreId) (k : Nat) (bs : List Byte) : State :=
  (s.putBytes k bs).count c 10
    (singles (s.memErr.filter fun m => !(decide (k ≤ m.1) && decide (m.1 + unitLen m.1 ≤ k + bs.length))) k bs.length)

/-- A write of a chunk. -/
def State.storeChunk (s : State) (c : CoreId) (ch : Chunk) : State := s.store c (s.keyOf ch.loc) ch.bytes

/-- The units of a destination that receive bytes of the uncorrectable units of a source run (13 R415: a word stored
with an uncorrectable code keeps it on its way). -/
def movedMarks (err : List (Nat × Bool)) (src dst n : Nat) : List (Nat × Bool) :=
  (((upTo n).filter fun i => markOf err (unitOf (src + i)) == .double).map fun i => unitOf (dst + i)).eraseDups.map
    fun u => (u, true)

/-- n bytes that were read at one key written to another with the marks they bring, for core c. -/
def State.storeMoved (s : State) (c : CoreId) (src dst n : Nat) (bs : List Byte) : State :=
  let moved := movedMarks s.memErr src dst n
  let s1 := s.store c dst bs
  { s1 with memErr := s1.memErr.filter (fun m => !moved.contains (m.1, true)) ++ moved }

/-- A key range takes new contents for every observer at once: no older byte of it can be read any more, and no release
stands there. -/
def State.renew (s : State) (k n : Nat) : State :=
  { s with old := s.old.filter fun o => decide (o.key < k) || decide (k + n ≤ o.key),
           rels := s.rels.filter fun r => decide (r.lo + r.n ≤ k) || decide (k + n ≤ r.lo) }

/-- A key range made unlisted, its marks cleared. -/
def State.zero (s : State) (k n : Nat) : State :=
  { s with mem := clearCells s.mem k n,
           memErr := s.memErr.filter fun m => decide (m.1 < k) || decide (k + n ≤ m.1) }.renew k n

/-! Taking a trap. -/

/-- A trap of a code at a word, with no further field. -/
def Trap.plain (code : Nat) (pc : W64) : Trap := ⟨code, pc, pc, none, none, none, none, code == 0x04 || code == 0x14 || code == 0x15 || code == 0x22⟩

/-- The low n bits of an optional field, 0 where it is not filled. -/
def optField (o : Option Nat) (n : Nat) : Nat := (o.getD 0) % 2 ^ n

/-- TRAPINFO0 of a trap raised by engine e of core c (04 R136). -/
def Trap.info0 (t : Trap) (c : CoreId) (e : Nat) : W64 :=
  BitVec.ofNat 64
    (t.addr.isSome.toNat * 2 ^ 63 + t.lane.isSome.toNat * 2 ^ 62 + t.opnd.isSome.toNat * 2 ^ 61
      + t.reg.isSome.toNat * 2 ^ 60 + fld t.pc.toNat 0 32 * 2 ^ 16 + e * 2 ^ 11 + coreIn c * 2 ^ 5 + (clusterOf c).val)

/-- TRAPINFO1 of a trap (04 R136). -/
def Trap.info1 (t : Trap) : W64 :=
  BitVec.ofNat 64
    (optField t.reg 8 * 2 ^ 56 + optField t.opnd 2 * 2 ^ 54 + optField t.lane 6 * 2 ^ 48 + optField t.addr 48)

/-- The five engines in code order. -/
def engines : List Eng := [.s, .v, .m, .p, .c]

/-- Mask, bit 0 for S, of the Running engines other than e. -/
def runningMask (x : Ctx) (e : Eng) : Nat :=
  (engines.map fun d => if d ≠ e ∧ (x.stream d).st = .running then 2 ^ d.num.val else 0).foldl (· + ·) 0

/-- TRAPENG of a trap raised by e: SPC, STOP and ENG (04 R138). -/
def trapengOf (x : Ctx) (e : Eng) : W64 :=
  BitVec.ofNat 64 (fld (x.stream .s).pc.toNat 0 32 * 2 ^ 16 + runningMask x e * 2 ^ 8 + e.code)

/-- Two views together. -/
def View.join (v w : View) : View :=
  ⟨max v.floor w.floor, v.seen ++ w.seen, v.issued ++ w.issued.filter fun i => !v.issued.contains i⟩

/-- A view whose accesses bind in every form: what a release or an `.ar` fence passes on (09 R303). -/
def View.everyForm (v : View) : View := { v with seen := v.seen.map fun e => ({ e.1 with via := 8 }, e.2) }

/-- A stream stops at an instruction boundary (01 R35); what a waiting word had read it reads anew at its next issue, and a
word that has had its effects retires when the stream goes on. -/
def Stream.stopped (r : Stream) : Stream := { r with st := .stopped, snap := [] }

/-- Every Running stream of the listed engines but that of e stops (01 R35). -/
def stopOthers (x : Ctx) (e : Eng) (l : List Eng) : Ctx :=
  l.foldl (fun x d => if d ≠ e ∧ (x.stream d).st = .running then x.modStream d Stream.stopped else x) x

/-- TRAPVEC.EN. -/
def trapEn (x : Ctx) : Bool := x.cr.trapvec.getLsbD 63

/-- A deferred write other than a token receipt is still to land (04 R123). -/
def unsettled (x : Ctx) : Bool := x.pend.any fun p => match p.what with | .token _ _ => false | _ => true

/-- Requests a stopped S withdraws: a WAIT, a PACQ and a LAUNCH are issued anew after ERET (04 R149, 12 R394). -/
def withdrawWaits (x : Ctx) : Ctx := { x with waitEnd := none, pacqFrom := none, granted := false, launchReq := none }

/-- Steps 1 and 2 of trap entry (04 R156): the other engines stop, S withdraws what it waited for, and the trap
registers are written. -/
def trapRecord (c : CoreId) (e : Eng) (t : Trap) (x : Ctx) : Ctx :=
  let x1 := withdrawWaits (stopOthers x e [.v, .m, .p, .c])
  let x2 := x1.modStream e fun r => if e = .s then { r with snap := [] } else { r with st := .faulted, snap := [] }
  let cr := { x2.cr with
    trapcause := BitVec.ofNat 64 (t.code % 256), trappc := BitVec.ofNat 64 (fld t.resume.toNat 0 32),
    trapinfo0 := t.info0 c e.code, trapinfo1 := t.info1, trapeng := trapengOf x e }
  { x2 with cr := cr, bar := none, barAside := x2.bar,
            errs := x2.errs.filter fun m => match m.1 with | .creg n => !trapRegs.contains n | _ => true }
where
  /-- The control registers that trap entry writes (04 R127): TRAPCAUSE, TRAPPC, TRAPINFO0, TRAPINFO1, TRAPENG. -/
  trapRegs : List Nat := [0x40, 0x41, 0x42, 0x43, 0x45]

/-- Steps 3 and 4 of trap entry (04 R156): SPC takes the address at which S stopped, TM is set, loop bank 1 is selected
and cleared, S's held entry is set aside, with a word that waits to retire, and S goes on at TRAPVEC.ADDR. -/
def trapEnter (x : Ctx) : Ctx :=
  let r := x.stream .s
  let eng := x.cr.trapeng &&& ~~~ (0xFFFFFFFF0000 : W64) ||| BitVec.ofNat 64 (fld r.pc.toNat 0 32 * 2 ^ 16)
  { x with cr := { x.cr with tm := true, trapeng := eng }, bank1 := Vector.replicate 4 Loop.reset, aside := r.held,
           asideDone := r.done, trapping := none }.modStream .s
    fun r => { r with held := none, done := none, snap := [], pc := x.cr.trapvec &&& 0xFFFC }

/-- Plate units of a level: the level's number (12 R388). -/
def levelUnits (n : Nat) : Nat := n % 4

/-- Withdrawal of core c's request from its plate (12 R394). -/
def State.withdrawPower (s : State) (c : CoreId) : State :=
  s.modPlate (plateOf (clusterOf c)) fun p => { p with reqs := p.reqs.filter fun r => r.core ≠ c || r.reacquire }

/-- The level and mark of a job whose PACQ, if one is in progress, is withdrawn: LEVEL keeps its old value (12 R394). -/
def withdrawnPwr (k : Core) : Pwr := { k.pwr with wait := false, level := k.ctx.pacqFrom.getD k.pwr.level }

/-- The end of a job by a fault (13 R409, R411): the record's fields are fixed, every stream stops; JOB_END does the
rest. -/
def endJob (c : CoreId) (i : EndInfo) (s : State) : State :=
  (s.withdrawPower c).modCore c fun k =>
    { k with phase := .ending i, pwr := withdrawnPwr k,
             ctx := { withdrawWaits (engines.foldl (fun x d =>
               if (x.stream d).st = .running then x.modStream d Stream.stopped else x) k.ctx) with trapping := none } }

/-- The record fields of a trap that ends the job (13 R411). -/
def endInfoOf (c : CoreId) (e : Eng) (t : Trap) (s : State) : EndInfo :=
  let x := s.ctx c
  { code := BitVec.ofNat 8 t.code, gang := false, nested := x.cr.tm, novec := !trapEn x, hhalt := false, kill := false,
    disp := false, prior := if x.cr.tm then BitVec.ofNat 8 x.cr.trapcause.toNat else 0, info0 := t.info0 c e.code,
    info1 := t.info1, eng := trapengOf x e, ticks := s.dev.ticks.toNat }

/-- A trap raised by engine e of core c (13 R409): it ends the job where its class, TRAPVEC.EN or STATUS.TM say so;
otherwise it is recorded at once, and S enters the handler, at its own trap with every deferred write landed and its units
held at once, else at its next boundary (04 R123, R156, R160; 12 R396). A word that faults while another trap is being taken raises nothing and
executes again after ERET (04 R156). -/
def raise (c : CoreId) (e : Eng) (t : Trap) (s : State) : State :=
  let x := s.ctx c
  if x.trapping.isSome then s
  else if t.classJ || x.cr.tm || !trapEn x then
    (endJob c (endInfoOf c e t s) s).modCtx c fun y => y.modStream e fun r => { r with st := .faulted }
  else
    ((s.withdrawPower c).modCore c fun k => { k with pwr := withdrawnPwr k }).modCtx c fun y =>
      let y1 := trapRecord c e t y
      if e = .s ∧ unsettled x = false ∧ (s.core c).pwr.susp = false then trapEnter y1 else { y1 with trapping := some ⟨e, t, e != .s⟩ }

/-- Return from the handler (04 R157): TM clears, bank 0 is selected again, the engine that trapped resumes at TRAPPC,
S at TRAPENG.SPC or TRAPPC, and every engine named in TRAPENG.STOP goes on. -/
def trapReturn (x : Ctx) : Ctx :=
  let eng := fld x.cr.trapeng.toNat 0 3
  let pc := BitVec.ofNat 64 (fld x.cr.trappc.toNat 0 32)
  let spc := BitVec.ofNat 64 (fld x.cr.trapeng.toNat 16 32)
  let x1 := { x with cr := { x.cr with tm := false }, aside := none, asideDone := none, bar := x.barAside, barAside := none }
  let x2 := match Eng.ofCode eng with
    | none => x1
    | some d => if d = Eng.s then x1 else x1.modStream d fun r => { r with st := .running, pc := pc }
  let x3 := x2.modStream Eng.s fun r => { r with st := .running, held := x.aside, done := x.asideDone, pc := if eng = 1 then pc else spc }
  engines.foldl (fun y d =>
    if x.cr.trapeng.getLsbD (8 + d.num.val) && d != Eng.s then
      y.modStream d fun r => { r with st := if r.st = .stopped then .running else r.st }
    else y) x3

end Sys2Proof.Machine
end

