-- ==== Sys2Proof/Machine/Issue.lean ====
section
/-! DEFINITION. How a word issues and retires: the checks of 03 R88 in order, the pop and the push (03 R92, R93), the
loop-end test (04 R125) and V's rotation (05 R169). -/

namespace Sys2Proof.Machine

/-- The word being issued: core, own address, size in bytes (8, or 4 from a patch word), and the entry popped. -/
structure Wd where
  c : CoreId
  pc : W64
  size : Nat
  got : Option Entry
  deriving DecidableEq, Repr

/-- What the effect of a word comes to. -/
inductive Out where
  /-- The word retires; a push carries this entry, and the PC goes on. -/
  | retire (v : Entry) (s : State)
  /-- The word retires and transfers control. -/
  | jump (pc : W64) (s : State)
  /-- The word retires and the last function settles where its streams stand. -/
  | last (s : State) (f : State → State)
  /-- The word retires and the last function transfers control, so that no loop level is tested (04 R126). -/
  | ret (s : State) (f : State → State)
  /-- The word retires and is not counted by one performance counter, which it wrote (12 R402). -/
  | quiet (pmc : Nat) (s : State)
  /-- The word waits before issue. -/
  | wait
  /-- The word has issued and waits for its effect; its state says for what (04 R149, 10 R338, 12 R394). -/
  | hold (s : State)
  /-- The word raises a fault and has no effect beyond its held pop. -/
  | fault (t : Trap) (s : State)

/-- The outcome of a check before issue. -/
inductive Chk where
  | ok
  | wait
  | bad (t : Trap)
  deriving DecidableEq, Repr, Inhabited

/-- The first check that does not pass. -/
def firstBad : List Chk → Chk
  | [] => .ok
  | .ok :: t => firstBad t
  | k :: _ => k

/-- The check found an empty source under trap policy: row 7 of 03 R88. -/
def Chk.row7 : Chk → Bool
  | .bad t => t.code == 0x03
  | _ => false

/-- What the checks of a word's registers come to: row 7 of 03 R88, an empty source under trap policy, comes first, the
first in operand order; then any wait for a register that is to fill; then the faults of row 8, the first in operand
order. Which of a wait and a trap decides the spec leaves open (DESIGN CHOICE, log entry 93). -/
def verdict (l : List Chk) : Chk :=
  match l.find? Chk.row7 with
  | some k => k
  | none => if l.contains .wait then .wait else firstBad l

/-- A fault with a code and nothing else; the PC is filled in by issue. -/
def flt (code : Nat) : Trap := Trap.plain code 0

/-- A fault whose record holds an address. -/
def fltAddr (code addr : Nat) : Trap := { flt code with addr := some addr }

/-- What an access fault fills (08 R281): the address, the lane of V or M, and the operand that forms the address. -/
def accessFault (code addr : Nat) (lane : Option Nat) (opnd : Nat) : Trap :=
  { fltAddr code addr with lane := lane, opnd := some opnd }

/-! Token FIFOs (10 R326). -/

/-- Index of the FIFO from one engine to another. -/
def fifoIdx (src dst : Eng) : Nat := src.num.val * 5 + dst.num.val

/-- Entries of a FIFO, the head first. -/
def Ctx.fifo (x : Ctx) (src dst : Eng) : List FEntry := vget x.fifos (fifoIdx src dst)

/-- Entries one FIFO holds. -/
def fifoDepth : Nat := 8

/-- The FIFO has no room. -/
def Ctx.fifoFull (x : Ctx) (src dst : Eng) : Bool := decide (fifoDepth ≤ (x.fifo src dst).length)

/-- An entry appended; its push is a release of what its stream has seen (09 R316). -/
def Ctx.pushFifo (x : Ctx) (src dst : Eng) (v : Entry) : Ctx :=
  { x with fifos := vset x.fifos (fifoIdx src dst)
                      (x.fifo src dst ++ [⟨v, .good, (x.stream src).view.everyForm⟩]) }

/-- The head removed. -/
def Ctx.dropFifo (x : Ctx) (src dst : Eng) : Ctx :=
  { x with fifos := vset x.fifos (fifoIdx src dst) ((x.fifo src dst).drop 1) }

/-- A TKRECV.d or VTKRECV.d of engine e from a source is pending (04 R151). -/
def Ctx.awaiting (x : Ctx) (src e : Eng) : Bool :=
  x.pend.any fun p => p.eng == e && (match p.what with | .token d _ => d == src | _ => false)

/-- A storage error with its structure in ADDR[46:44] (13 R410). -/
def storageFault (structure_ : Nat) (reg : Option Nat) (addr : Nat) (classJ : Bool) : Trap :=
  { flt 0x10 with reg := reg, addr := some (structure_ * 2 ^ 44 + addr), classJ := classJ }

/-- A stream acquires what some releases at core scope or wider pass on (09 R316). -/
def Stream.acquire (vs : List View) (r : Stream) : Stream := { r with view := vs.foldl View.join r.view }

/-- What the streams of some engines have seen, as a release passes it on. -/
def Ctx.released (x : Ctx) (es : List Eng) : List View := es.map fun e => (x.stream e).view.everyForm

/-- Engine e of core c acquires from the streams of some engines of the core (09 R316). -/
def State.acquireFrom (s : State) (c : CoreId) (e : Eng) (es : List Eng) : State :=
  if es = [] then s else s.modCtx c fun x => x.modStream e (Stream.acquire (x.released es))

/-- A stream from which no access of a job has come yet, and which must see what a view holds (09 R316; log entry 91). -/
def Stream.fresh (v : View) (r : Stream) : Stream :=
  { r with view := v, observed := [], rel := [], snap := [], done := none }

/-- What the pop of a word gives. -/
inductive Popped where
  | got (v : Option Entry) (s : State)
  | wait
  | bad (t : Trap) (s : State)

/-- The pop of a word (03 R92, R93): a held entry is used in place of a pop; an empty FIFO, and one a pending receipt
waits on, make the word wait; an uncorrectable entry faults (13 R415). The pop is an acquire at core scope (09 R316). -/
def takePop (c : CoreId) (e : Eng) (pop : BitVec 3) (s : State) : Popped :=
  let x := s.ctx c
  match Eng.ofCode pop.toNat with
  | none => .got none s
  | some src =>
    match (x.stream e).held with
    | some v => .got (some v) s
    | none =>
      if x.awaiting src e then .wait
      else match x.fifo src e with
        | [] => .wait
        | h :: _ =>
          if h.ecc = .double then .bad (storageFault 3 (some src.code) 0 true) s
          else
            let s1 := s.modCtx c fun y =>
              (y.dropFifo src e).modStream e fun r => { r.acquire [h.view] with held := some h.v }
            .got (some h.v) (if h.ecc = .single then s1.count c 10 1 else s1)

/-- The value a popped entry reads as in the value-taking words: a bare token reads as `bare` (04 R151). -/
def popVal (bare : Nat) (v : Option Entry) : Nat :=
  match v with
  | some (some n) => n.toNat
  | _ => bare

/-! Own accesses still to be performed. -/

/-- A deferred write that has not bound its value yet. -/
def Pend.unbound (p : Pend) : Bool :=
  match p.what with
  | .load _ => true
  | .collate _ => true
  | .amo => true
  | _ => false

/-- Every store of the stream has left the send buffer. -/
def storesDone (e : Eng) (x : Ctx) : Bool := x.sb.all fun b => b.eng != e

/-- Every load of the stream has its value. -/
def loadsDone (e : Eng) (x : Ctx) : Bool := x.pend.all fun p => p.eng != e || !p.unbound

/-- Nothing of the stream is in flight. -/
def drained (e : Eng) (x : Ctx) : Bool := storesDone e x && loadsDone e x

/-! Loop levels. -/

/-- The loop levels the engine uses now: S has a second bank for trap mode (04 R124). -/
def loopsOf (x : Ctx) (e : Eng) : Vector Loop 4 :=
  if e = Eng.s ∧ x.cr.tm = true then x.bank1 else (x.stream e).loops

/-- Those levels replaced. -/
def setLoops (x : Ctx) (e : Eng) (ls : Vector Loop 4) : Ctx :=
  if e = Eng.s ∧ x.cr.tm = true then { x with bank1 := ls } else x.modStream e fun r => { r with loops := ls }

/-- The loop-end test of 04 R125 (for V also 05 R175: an exhausted level loses its rot and epi) over the given levels: the levels after it and the level that branches. -/
def loopEnd (ls : Vector Loop 4) (a : Nat) : List Nat → Vector Loop 4 × Option Loop
  | [] => (ls, none)
  | k :: ks =>
    let l := vget ls k
    if l.active = true ∧ l.last.toNat = a then
      if 1 < l.count.toNat then
        let l' := { l with count := l.count - 1 }
        (vset ls k l', some l')
      else loopEnd (vset ls k { l with count := 0, active := false, rot := false, epi := 0 }) a ks
    else loopEnd ls a ks

/-- Physical number of logical stage predicate j (05 R167). -/
def qPhys (rrb : BitVec 5) (j : Nat) : Nat := (j + rrb.toNat) % 8

/-- A rotation taken with a loop level (05 R169). -/
def rotate (l : Loop) (v : VState) : VState :=
  let rrb := v.rrb - 1
  let new : W64 := if l.epi.toNat < l.count.toNat then BitVec.allOnes 64 else 0
  { v with rrb := rrb, q := vset v.q (qPhys rrb 0) new }

/-- The stream goes on after the word at pc retires (04 R125). -/
def goOn (e : Eng) (pc : W64) (size : Nat) (x : Ctx) : Ctx :=
  let r := loopEnd (loopsOf x e) pc.toNat [3, 2, 1, 0]
  let x1 := setLoops x e r.1
  match r.2 with
  | none => x1.modStream e fun t => { t with pc := pc + BitVec.ofNat 64 size }
  | some l =>
    let x2 := x1.modStream e fun t => { t with pc := l.start.zeroExtend 64 }
    if e = Eng.v ∧ l.rot = true then { x2 with v := rotate l x2.v } else x2

/-! Issue. -/

/-- A word of engine e may push as its field says: its stream's accesses are performed, and the FIFO has room (04 R141; 01
R44; 03 R92). -/
def pushReady (e : Eng) (push : BitVec 3) (x : Ctx) : Bool :=
  match Eng.ofCode push.toNat with
  | none => true
  | some d => !x.fifoFull e d && drained e x

/-- A word retires: its push, its count, and the release of its held entry. A held entry that the word did not take for its
own, which a handler can leave by moving the address its stream resumes at, goes with the first word that retires (DESIGN
CHOICE, log entry 30). -/
def retireWord (c : CoreId) (e : Eng) (push : BitVec 3) (v : Entry) (quiet : Option Nat) (s : State) : State :=
  let s0 := match Eng.ofCode push.toNat with
    | none => s
    | some d => s.modCtx c fun y => y.pushFifo e d v
  let s1 := (s0.count c (e.num.val + 1) 1).modCtx c fun y => y.modStream e fun r =>
    { r with held := none, done := none, snap := [] }
  match quiet with
  | none => s1
  | some n => s1.modCtx c fun y => { y with cr := { y.cr with pmc := vset y.cr.pmc n (vget (s0.ctx c).cr.pmc n) } }

/-- A word that has had its effects retires, and its stream goes on. -/
def leaveWord (c : CoreId) (e : Eng) (d : Done) (s : State) : State :=
  let s1 := retireWord c e d.push d.v d.quiet s
  match d.onto with
  | none => s1.modCtx c (goOn e d.pc d.size)
  | some t => s1.modCtx c fun y => y.modStream e fun r => { r with pc := t }

/-- A word that has had its effects waits to retire; nothing of its effect is made again (01 R44; log entry 22). -/
def parkWord (c : CoreId) (e : Eng) (d : Done) (s : State) : State :=
  s.modCtx c fun y => y.modStream e fun r => { r with done := some d, snap := [] }

/-- A word that has had its effects retires where it may push, or waits for that. -/
def finishWord (c : CoreId) (e : Eng) (d : Done) (s : State) : State :=
  if pushReady e d.push (s.ctx c) then leaveWord c e d s else parkWord c e d s

/-- The word at a stream's PC that has had its effects and waits to retire. -/
def Stream.parked (r : Stream) : Option Done := r.done.filter fun d => d.pc == r.pc

/-- The state after a word whose effect is known; s is the state after its pop, in which a word that waits stays with the
popped entry held (03 R92, R93; 01 R44). During the remapping step a page walk waits, so that a word without a translation
waits (11 R365). -/
def settle (k : Wd) (e : Eng) (push : BitVec 3) (s : State) (o : Out) : State :=
  match o with
  | .wait => s
  | .hold s1 => s1
  | .fault t s1 =>
    if t.code = 0x04 ∧ s.dev.remapGo = true then s else raise k.c e { t with pc := k.pc, resume := k.pc + t.resume } s1
  | .retire v s1 => finishWord k.c e ⟨k.pc, k.size, push, v, none, none⟩ s1
  | .quiet n s1 => finishWord k.c e ⟨k.pc, k.size, push, none, none, some n⟩ s1
  | .jump t s1 => finishWord k.c e ⟨k.pc, k.size, push, none, some t, none⟩ s1
  | .last s1 f =>
    if pushReady e push (s1.ctx k.c) then f ((retireWord k.c e push none none s1).modCtx k.c (goOn e k.pc k.size)) else s
  | .ret s1 f => if pushReady e push (s1.ctx k.c) then f (retireWord k.c e push none none s1) else s

/-- A word of engine e on the core in turn: rows 4 and 5 of 03 R88, the pop, then the word's own effect. -/
def issue (e : Eng) (w : Common) (ok bad : Bool) (body : Wd → State → Out) (s : State) : State :=
  let c := s.cur
  let pc := ((s.ctx c).stream e).pc
  let k : Wd := ⟨c, pc, if s.patched then 4 else 8, none⟩
  if !ok then raise c e (Trap.plain 0x01 pc) s
  else if bad then raise c e (Trap.plain 0x02 pc) s
  else match takePop c e w.pop s with
    | .wait => s
    | .bad t s1 => settle k e w.push s1 (.fault t s1)
    | .got v s1 => settle k e w.push s1 (body { k with got := v } s1)

/-- A word with nothing but its tokens: the no-operations and every other hint (03 R88 row 2, 04 R159). -/
def issueHint (e : Eng) (w : Common) (ok : Bool) (s : State) : State :=
  issue e w ok false (fun _ s => .retire none s) s

end Sys2Proof.Machine
end

