-- ==== Sys2Proof/Machine/Num.lean ====
section
/-! DEFINITION. Exact values and their rounding (02 R53–R60, R66–R71): floating-point formats, integers, and the
stochastic generators. -/

namespace Sys2Proof.Machine

/-- An exact value: NaN, an infinity, or (−1)^neg · m · 2^e, a zero with its sign. -/
inductive Ext where
  | nan
  | inf (neg : Bool)
  | fin (neg : Bool) (m : Nat) (e : Int)
  deriving DecidableEq, Repr, Inhabited

/-- A rounding mode (02 R66); the stochastic one with the 16 bits its generator gave. -/
inductive Rm where
  | rne | rtz | rup | rdn
  | rsto (r : Nat)
  deriving DecidableEq, Repr, Inhabited

/-- The mode of an rm field other than 4. -/
def Rm.ofCode (n : Nat) : Rm :=
  if n = 1 then .rtz else if n = 2 then .rup else if n = 3 then .rdn else .rne

/-- One step of a generator (02 R68). -/
def lfsrStep (s : W32) : W32 := if s.getLsbD 0 then (s >>> 1) ^^^ 0x80200003 else s >>> 1

/-- Seed of a generator for job index n (02 R68). -/
def lfsrSeed (base : W32) (n : Nat) : W32 :=
  let v := base ^^^ BitVec.ofNat 32 n
  if v = 0 then 1 else v

/-- 2^n as used with an Int exponent that is not negative. -/
def pow2 (n : Int) : Nat := 2 ^ n.toNat

/-! Exact arithmetic. -/

/-- A zero with a sign. -/
def Ext.zero (neg : Bool) : Ext := .fin neg 0 0

/-- An exact integer. -/
def Ext.ofInt (i : Int) : Ext := .fin (decide (i < 0)) i.natAbs 0

/-- The sign flipped. -/
def Ext.neg : Ext → Ext
  | .nan => .nan
  | .inf n => .inf !n
  | .fin n m e => .fin (!n) m e

/-- The magnitude. -/
def Ext.abs : Ext → Ext
  | .nan => .nan
  | .inf _ => .inf false
  | .fin _ m e => .fin false m e

/-- The signed coefficient of a finite value at exponent q ≤ e. -/
def coef (n : Bool) (m : Nat) (e q : Int) : Int :=
  let c : Int := (m * pow2 (e - q) : Nat)
  if n then -c else c

/-- An exact sum; `rdn` asks for the sign rule of rounding toward negative (02 R56). -/
def Ext.addZ (rdn : Bool) : Ext → Ext → Ext
  | .nan, _ => .nan
  | _, .nan => .nan
  | .inf a, .inf b => if a = b then .inf a else .nan
  | .inf a, _ => .inf a
  | _, .inf b => .inf b
  | .fin n1 m1 e1, .fin n2 m2 e2 =>
    let q := if e1 ≤ e2 then e1 else e2
    let c := coef n1 m1 e1 q + coef n2 m2 e2 q
    if c = 0 then .fin (if m1 = 0 ∧ m2 = 0 ∧ n1 = n2 then n1 else rdn) 0 0
    else .fin (decide (c < 0)) c.natAbs q

/-- An exact sum. -/
def Ext.add (a b : Ext) : Ext := Ext.addZ false a b

/-- An exact product (02 R72). -/
def Ext.mul : Ext → Ext → Ext
  | .nan, _ => .nan
  | _, .nan => .nan
  | .inf a, .inf b => .inf (a != b)
  | .inf a, .fin n m _ => if m = 0 then .nan else .inf (a != n)
  | .fin n m _, .inf b => if m = 0 then .nan else .inf (n != b)
  | .fin n1 m1 e1, .fin n2 m2 e2 => .fin (n1 != n2) (m1 * m2) (e1 + e2)

/-- The value times a power of two. -/
def Ext.scale (k : Int) : Ext → Ext
  | .fin n m e => .fin n m (e + k)
  | x => x

/-- Numeric a < b; false with a NaN. -/
def Ext.lt : Ext → Ext → Bool
  | .nan, _ => false
  | _, .nan => false
  | .inf a, .inf b => a && !b
  | .inf a, .fin _ _ _ => a
  | .fin _ _ _, .inf b => !b
  | .fin n1 m1 e1, .fin n2 m2 e2 =>
    let q := if e1 ≤ e2 then e1 else e2
    decide (coef n1 m1 e1 q < coef n2 m2 e2 q)

/-- The sign bit of a value other than NaN. -/
def Ext.isNeg : Ext → Bool
  | .nan => false
  | .inf n => n
  | .fin n _ _ => n

/-- The value is zero. -/
def Ext.isZero : Ext → Bool
  | .fin _ 0 _ => true
  | _ => false

/-- The value is infinite. -/
def Ext.isInf : Ext → Bool
  | .inf _ => true
  | _ => false

/-- a below b in the order that puts −0 below +0 (02 R56). -/
def Ext.below (a b : Ext) : Bool := a.lt b || (!b.lt a && a.isNeg && !b.isNeg)

/-- Maximum, NaN if an operand is (02 R56, R77). -/
def Ext.max (a b : Ext) : Ext :=
  if a = .nan ∨ b = .nan then .nan else if a.below b then b else a

/-- Minimum, NaN if an operand is. -/
def Ext.min (a b : Ext) : Ext :=
  if a = .nan ∨ b = .nan then .nan else if b.below a then b else a

/-- Bits needed for the quotient and root below: every format has fewer. -/
def extraBits : Nat := 72

/-- 1 / a, with a last bit that says whether lower bits were cut (05 R179). -/
def Ext.rcp : Ext → Ext
  | .nan => .nan
  | .inf n => .fin n 0 0
  | .fin n m e =>
    if m = 0 then .inf n
    else
      let k := m.log2 + extraBits
      .fin n (2 ^ k / m * 2 + (if 2 ^ k % m = 0 then 0 else 1)) (-e - (k : Nat) - 1)

/-- Integer square root by bits b − 1 down to 0, added to acc. -/
def isqrtGo (n : Nat) : Nat → Nat → Nat
  | 0, acc => acc
  | b + 1, acc =>
    let r := acc + 2 ^ b
    isqrtGo n b (if r * r ≤ n then r else acc)

/-- Integer square root. -/
def isqrt (n : Nat) : Nat := isqrtGo n (n.log2 / 2 + 1) 0

/-- 1 / sqrt(a), with a last bit that says whether lower bits were cut (05 R179). -/
def Ext.rsq : Ext → Ext
  | .nan => .nan
  | .inf n => if n then .nan else .fin false 0 0
  | .fin n m e =>
    if m = 0 then .inf n
    else if n then .nan
    else
      let odd := e % 2 = 1
      let m1 := if odd then m * 2 else m
      let e1 := if odd then e - 1 else e
      let k := m1.log2 + extraBits
      let r := isqrt (2 ^ (2 * k) / m1)
      .fin false (r * 2 + (if r * r * m1 = 2 ^ (2 * k) then 0 else 1)) (-(e1 / 2) - (k : Nat) - 1)

/-! Rounding a magnitude. -/

/-- Whether a magnitude hi + rem / 2^k on its grid goes up to hi + 1 (02 R66, R68). -/
def roundsUp (rm : Rm) (neg : Bool) (hi rem k : Nat) : Bool :=
  match rm with
  | .rne => decide (2 ^ k < 2 * rem) || (2 * rem == 2 ^ k && hi % 2 == 1)
  | .rtz => false
  | .rup => !neg && rem != 0
  | .rdn => neg && rem != 0
  | .rsto r => decide (2 ^ 16 ≤ rem * 2 ^ 16 / 2 ^ k + r)

/-- A magnitude m · 2^e rounded to p significant bits on a grid no finer than 2^lo: coefficient and exponent. -/
def roundMag (p : Nat) (lo : Int) (rm : Rm) (neg : Bool) (m : Nat) (e : Int) : Nat × Int :=
  let top : Int := e + (m.log2 : Nat) + 1 - (p : Nat)
  let q := if top < lo then lo else top
  if q ≤ e then (m * pow2 (e - q), q)
  else
    let k := (q - e).toNat
    let hi := m / 2 ^ k
    (if roundsUp rm neg hi (m % 2 ^ k) k then hi + 1 else hi, q)

/-! Floating-point formats (02 R53, R54). -/

/-- A format: significand bits, fraction-bit exponent of the subnormals, exponent-field bits, largest finite value,
whether it has infinities, and its canonical NaN. -/
structure FFmt where
  p : Nat
  lo : Int
  ebits : Nat
  maxM : Nat
  maxE : Int
  hasInf : Bool
  nan : Nat
  deriving DecidableEq, Repr, Inhabited

def fp32 : FFmt := ⟨24, -149, 8, 2 ^ 24 - 1, 104, true, 0x7FC00000⟩
def fp16 : FFmt := ⟨11, -24, 5, 2 ^ 11 - 1, 5, true, 0x7E00⟩
def bf16 : FFmt := ⟨8, -133, 8, 2 ^ 8 - 1, 120, true, 0x7FC0⟩
def e4m3 : FFmt := ⟨4, -9, 4, 14, 5, false, 0x7F⟩
def e5m2 : FFmt := ⟨3, -16, 5, 7, 13, true, 0x7E⟩

/-- The format of a code 0–4 (03 R94). -/
def ffmtOf (code : Nat) : FFmt :=
  if code = 1 then fp16 else if code = 2 then bf16 else if code = 3 then e4m3 else if code = 4 then e5m2 else fp32

/-- Sign-bit position of a format. -/
def FFmt.signBit (f : FFmt) : Nat := f.ebits + f.p - 1

/-- The value of a pattern (02 R54). -/
def FFmt.val (f : FFmt) (v : Nat) : Ext :=
  let neg := v.testBit f.signBit
  let e := fld v (f.p - 1) f.ebits
  let m := v % 2 ^ (f.p - 1)
  if e = 2 ^ f.ebits - 1 ∧ (f.hasInf = true ∨ m = 2 ^ (f.p - 1) - 1) then
    (if f.hasInf = true ∧ m = 0 then .inf neg else .nan)
  else if e = 0 then .fin neg m f.lo
  else .fin neg (2 ^ (f.p - 1) + m) (f.lo + (e : Nat) - 1)

/-- A pattern from its sign and the rest. -/
def FFmt.signed (f : FFmt) (neg : Bool) (rest : Nat) : Nat := if neg then 2 ^ f.signBit + rest else rest

/-- Largest finite pattern with a sign. -/
def FFmt.largest (f : FFmt) (neg : Bool) : Nat :=
  f.signed neg (if f.hasInf then (2 ^ f.ebits - 1) * 2 ^ (f.p - 1) - 1 else 2 ^ f.signBit - 2)

/-- Pattern of an infinity; a format without one has the canonical NaN in its place (02 R70). -/
def FFmt.infinite (f : FFmt) (sat neg : Bool) : Nat :=
  if sat then f.largest neg
  else if f.hasInf then f.signed neg ((2 ^ f.ebits - 1) * 2 ^ (f.p - 1))
  else f.nan

/-- Pattern of a coefficient and exponent that are on the format's grid and not above its largest finite value. -/
def FFmt.encode (f : FFmt) (neg : Bool) (m : Nat) (q : Int) : Nat :=
  f.signed neg ((q - f.lo).toNat * 2 ^ (f.p - 1) + m)

/-- The mode leaves an overflowed magnitude at the largest finite value (02 R70). -/
def Rm.stays (rm : Rm) (neg : Bool) : Bool :=
  match rm with
  | .rtz => true
  | .rup => neg
  | .rdn => !neg
  | _ => false

/-- An exact value rounded to a format (02 R69–R71), with `.sat`. -/
def FFmt.round (f : FFmt) (rm : Rm) (sat : Bool) (x : Ext) : Nat :=
  match x with
  | .nan => f.nan
  | .inf n => f.infinite sat n
  | .fin n m e =>
    if m = 0 then f.signed n 0
    else
      let r := roundMag f.p f.lo rm n m e
      if (Ext.fin false f.maxM f.maxE).lt (.fin false r.1 r.2) then
        (if rm.stays n then f.largest n else f.infinite sat n)
      else f.encode n r.1 r.2

/-- FP32, nearest even: the rounding of every accumulation. -/
def rne32 (x : Ext) : W32 := BitVec.ofNat 32 (fp32.round .rne false x)

/-- The value of an FP32 pattern. -/
def val32 (w : W32) : Ext := fp32.val w.toNat

/-- The value of a BF16 pattern. -/
def valBf (n : Nat) : Ext := bf16.val n

/-! Integers (02 R60, R71). -/

/-- Width of an integer format code 8–13. -/
def intBits (code : Nat) : Nat := if code = 8 ∨ code = 11 then 8 else if code = 9 ∨ code = 12 then 16 else 32

/-- The format is signed: I8, I16, I32. -/
def intSigned (code : Nat) : Bool := decide (code ≤ 10)

/-- The value of the low n bits, signed or not. -/
def intVal (signed : Bool) (n v : Nat) : Int :=
  let u := v % 2 ^ n
  if signed ∧ 2 ^ (n - 1) ≤ u then (u : Int) - (2 ^ n : Nat) else u

/-- A value clamped to the range of an n-bit format. -/
def clampInt (signed : Bool) (n : Nat) (x : Int) : Int :=
  let lo : Int := if signed then -((2 ^ (n - 1) : Nat) : Int) else 0
  let hi : Int := if signed then ((2 ^ (n - 1) : Nat) : Int) - 1 else ((2 ^ n : Nat) : Int) - 1
  if x < lo then lo else if hi < x then hi else x

/-- The low n bits of a value, extended to `wide` bits by its signedness (05 R164). -/
def intEnc (signed : Bool) (n wide : Nat) (x : Int) : Nat :=
  let u := (x % ((2 ^ n : Nat) : Int)).toNat
  if signed ∧ 2 ^ (n - 1) ≤ u then u + 2 ^ wide - 2 ^ n else u

/-- An exact value rounded to an integer and clamped (02 R71). -/
def toInt (signed : Bool) (n : Nat) (rm : Rm) (x : Ext) : Int :=
  match x with
  | .nan => 0
  | .inf neg => clampInt signed n (if neg then -((2 ^ 64 : Nat) : Int) else ((2 ^ 64 : Nat) : Int))
  | .fin neg m e =>
    if m = 0 then 0
    else
      let r := roundMag (m.log2 + e.toNat + 2) 0 rm neg m e
      let v : Int := (r.1 * pow2 r.2 : Nat)
      clampInt signed n (if neg then -v else v)

end Sys2Proof.Machine
end

