-- ==== Sys2Proof/Machine/Spf.lean ====
section
/-! DEFINITION. Scaled probabilities (02 R61–R63), block-scaled elements (02 R57–R59), reduction identities and nodes
(02 R73, R77; 08 R291). -/

namespace Sys2Proof.Machine

/-- Flags of SPFSTAT as they are set: NEG 1, UFL 2, OFL 4, INV 8 (02 R64). -/
abbrev SpfFlags := Nat

/-- Flag sets joined. -/
def orFlags (a b : SpfFlags) : SpfFlags := a ||| b

/-- The value of an SPF word: overflow as +∞, invalid as NaN, non-canonical words as zero (02 R61, R71). -/
def spfVal (w : W32) : Ext :=
  let e := w.toNat % 4096
  let f := w.toNat / 4096
  if e = 0 then .fin false 0 0
  else if e = 4095 then (if f = 0 then .inf false else .nan)
  else .fin false (2 ^ 20 + f) ((e : Nat) - 4032 - 20)

/-- SPF zero, overflow, invalid and the largest finite word. -/
def spfZero : W32 := 0
def spfOver : W32 := 0x00000FFF
def spfInvalid : W32 := 0xFFFFFFFF
def spfLargest : W32 := 0xFFFFFFFE

/-- A result in SPF from its exact value, and the flags it sets (02 R62, R70). -/
def spfRound (rm : Rm) (x : Ext) : W32 × SpfFlags :=
  match x with
  | .nan => (spfInvalid, 8)
  | .inf n => if n then (spfZero, 1) else (spfOver, 4)
  | .fin n m e =>
    if m = 0 then (spfZero, 0)
    else if n then (spfZero, 1)
    else
      let r := roundMag 21 (-1000000) rm false m e
      if (Ext.fin false (2 ^ 21 - 1) 42).lt (.fin false r.1 r.2) then
        (if rm.stays false then spfLargest else spfOver, 4)
      else if (Ext.fin false r.1 r.2).lt (.fin false 1 (-4031)) then (spfZero, 2)
      else
        let k : Nat × Int := if r.1 = 2 ^ 21 then (2 ^ 20, r.2 + 1) else r
        (BitVec.ofNat 32 ((k.1 - 2 ^ 20) * 4096 + (k.2 + 20 + 4032).toNat), 0)

/-! P's two node formats (02 R76): FP32, and SPF with its flags. -/

/-- A value read as a node operand in the mode's format. -/
def nodeVal (spf : Bool) (w : W32) : Ext := if spf then spfVal w else val32 w

/-- A node result in the mode's format, rounded once, with the flags it sets. -/
def nodeRound (spf : Bool) (x : Ext) : W32 × SpfFlags := if spf then spfRound .rne x else (rne32 x, 0)

/-! Block-scaled formats: MXINT8, MXINT6, MXINT4 are codes 5, 6, 7 (02 R58). -/

/-- Bits of an element. -/
def mxBits (code : Nat) : Nat := if code = 5 then 8 else if code = 6 then 6 else 4

/-- The value of an element pattern: the most negative one reads as the negative of the largest (02 R58). -/
def mxElem (code v : Nat) : Ext :=
  let n := mxBits code
  let i := intVal true n v
  let j := if i = -((2 ^ (n - 1) : Nat) : Int) then i + 1 else i
  .fin (decide (j < 0)) j.natAbs (2 - (n : Nat))

/-- The value of an element under its scale byte (02 R57, R58). -/
def mxVal (code v scale : Nat) : Ext :=
  if scale = 0xFF then .nan else (mxElem code v).scale ((scale : Nat) - 127)

/-- floor(log2) of a positive finite magnitude. -/
def floorLog2 : Ext → Int
  | .fin _ m e => (m.log2 : Nat) + e
  | _ => 0

/-- Scale byte of a block from its values, and the exponent the elements are divided by; none where the elements are
written as zero (02 R59). -/
def mxScale (vs : List Ext) : Nat × Option Int :=
  if vs.any fun v => v == .nan || v.isInf then (0xFF, none)
  else
    let mx := vs.foldl (fun a v => if a.lt v.abs then v.abs else a) (.fin false 0 0)
    if mx.isZero then (0, none)
    else
      let x := floorLog2 mx
      let x1 := if x < -127 then -127 else x
      ((x1 + 127).toNat, some x1)

/-- Element pattern of a value divided by 2^x, rounded and saturated (02 R59). -/
def mxQuant (code : Nat) (rm : Rm) (x : Int) (v : Ext) : Nat :=
  let n := mxBits code
  let i := toInt true 16 rm (v.scale ((n : Nat) - 2 - x))
  let big : Int := ((2 ^ (n - 1) : Nat) : Int) - 1
  let j := if big < i then big else if i < -big then -big else i
  (j % ((2 ^ n : Nat) : Int)).toNat

/-! Reduction nodes of 08 R291 over 32-bit words; codes as there. -/

/-- Identity of an operation (02 R73). -/
def colIdentity (op : Nat) : W32 :=
  if op ≤ 1 then 0x80000000
  else if op ≤ 3 then 0
  else if op = 4 then 0xFF800000
  else if op = 5 then 0x7F800000
  else if op = 6 then 0x80000000
  else if op = 7 then 0x7FFFFFFF
  else if op = 8 then 0
  else if op = 9 then 0xFFFFFFFF
  else if op = 10 then 0xFFFFFFFF
  else 0

/-- A node: two inputs combined, rounded once where the operation is a float one (02 R77, 08 R291). -/
def colNode (op : Nat) (a b : W32) : W32 :=
  if op ≤ 1 then rne32 ((val32 a).add (val32 b))
  else if op = 2 then a + b
  else if op = 3 then BitVec.ofInt 32 (clampInt true 32 (a.toInt + b.toInt))
  else if op = 4 then rne32 ((val32 a).max (val32 b))
  else if op = 5 then rne32 ((val32 a).min (val32 b))
  else if op = 6 then (if a.toInt < b.toInt then b else a)
  else if op = 7 then (if b.toInt < a.toInt then b else a)
  else if op = 8 then (if a.toNat < b.toNat then b else a)
  else if op = 9 then (if b.toNat < a.toNat then b else a)
  else if op = 10 then a &&& b
  else if op = 11 then a ||| b
  else a ^^^ b

/-- Bytes of a member value (08 R291). -/
def colBytes (op : Nat) : Nat := if op = 1 then 2 else 4

/-- A BF16 pattern widened to FP32: exact, and the canonical NaN for any NaN (02 R55, R71). -/
def widenBf16 (w : Nat) : W32 :=
  if 0x7F80 < w % 2 ^ 15 then 0x7FC00000 else BitVec.ofNat 32 (w % 2 ^ 16 * 2 ^ 16)

/-- A member's value from its bytes: BF16 widens (08 R291). -/
def colMember (op : Nat) (bs : List Byte) : W32 :=
  if op = 1 then widenBf16 (leNat bs) else BitVec.ofNat 32 (leNat bs)

/-- One level of the tree: adjacent values pair up, an unpaired last one passes (02 R77). -/
def treeLevel (f : W32 → W32 → W32) : List W32 → List W32
  | a :: b :: t => f a b :: treeLevel f t
  | l => l

/-- The root of the tree, by at most `fuel` levels. -/
def treeRoot (f : W32 → W32 → W32) : Nat → List W32 → W32
  | 0, l => l.headD 0
  | n + 1, l => treeRoot f n (treeLevel f l)

/-- A collating result over member values in order (02 R77). -/
def collateTree (op : Nat) (l : List W32) : W32 := treeRoot (colNode op) 12 l

/-- A result extended to 64 bits for an s register (08 R292). -/
def colExtend (op : Nat) (w : W32) : W64 :=
  if op = 2 ∨ op = 3 ∨ op = 6 ∨ op = 7 then w.signExtend 64 else w.zeroExtend 64

end Sys2Proof.Machine
end

