-- ==== Sys2Proof/Machine/Flags.lean ====
section
/-! DEFINITION. Conditions and status registers: the tests of 03 R97 and 05 R183, SPFSTAT (02 R64, R65) and COLSTAT (08
R298). -/

namespace Sys2Proof.Machine

/-- The condition of BR, BRI and CMP over two values read as numbers of w bits (03 R97, 04 R142, R145). -/
def condS (cond w : Nat) (a b : W64) : Bool :=
  let ua := a.toNat % 2 ^ w
  let ub := b.toNat % 2 ^ w
  let sa := intVal true w ua
  let sb := intVal true w ub
  if cond = 0 then decide (ua = ub)
  else if cond = 1 then decide (ua ≠ ub)
  else if cond = 2 then decide (sa < sb)
  else if cond = 3 then decide (sb ≤ sa)
  else if cond = 4 then decide (ua < ub)
  else decide (ub ≤ ua)

/-- The condition of VCMP over float values (05 R183). -/
def condF (cond : Nat) (a b : Ext) : Bool :=
  let uo := a == .nan || b == .nan
  let eq := !uo && !a.lt b && !b.lt a
  if cond = 0 then eq
  else if cond = 1 then !eq
  else if cond = 2 then a.lt b
  else if cond = 3 then !uo && !b.lt a
  else if cond = 4 then b.lt a
  else if cond = 5 then !uo && !a.lt b
  else uo

/-- The condition of VCMP over integers (05 R183). -/
def condI (cond : Nat) (a b : Int) : Bool :=
  if cond = 0 then decide (a = b)
  else if cond = 1 then decide (a ≠ b)
  else if cond = 2 then decide (a < b)
  else if cond = 3 then decide (a ≤ b)
  else if cond = 4 then decide (b < a)
  else if cond = 5 then decide (b ≤ a)
  else false

/-- Flags of SPFSTAT set (02 R64: sticky). -/
def setSpf (flags : SpfFlags) (x : Ctx) : Ctx :=
  { x with cr := { x.cr with spfstat := x.cr.spfstat ||| BitVec.ofNat 64 (flags % 16) } }

/-- SPFSTAT.SHIFT written (02 R64). -/
def setShift (n : Int) (x : Ctx) : Ctx :=
  { x with cr := { x.cr with spfstat :=
      (x.cr.spfstat &&& 0xFFFFFFFF0000FFFF) ||| BitVec.ofNat 64 ((n % 65536).toNat * 65536) } }

/-- Absent cores noted in COLSTAT with the group index (08 R295, R298). -/
def setColstat (gidx : Nat) (absent : List Nat) (x : Ctx) : Ctx :=
  if absent = [] then x
  else
    let bits : W64 := absent.foldl (fun a c => a ||| BitVec.ofNat 64 (2 ^ (c % 48))) 0
    { x with cr := { x.cr with colstat :=
        (x.cr.colstat &&& 0x0000FFFFFFFFFFFF) ||| bits ||| BitVec.ofNat 64 (gidx % 256 * 2 ^ 56) } }

end Sys2Proof.Machine
end

