-- ==== Sys2Proof/Machine/Xlat.lean ====
section
/-! DEFINITION. Address forms (08 R265, R266), translation (08 R268, R269; 11 R354–R358), the targets of 08 R267, and
the checks of 08 R281 that turn an access into places of memory. -/

namespace Sys2Proof.Machine

/-- What an access does to its page (11 R355). -/
inductive Use where
  | read | write | amo
  deriving DecidableEq, Repr, Inhabited

/-- An access that passed its checks: its bytes as pieces in ascending address. -/
structure Ref where
  pieces : List Piece
  deriving DecidableEq, Repr, Inhabited

/-- The result of the checks of an access: places, or the code that 08 R281 names. -/
inductive Checked where
  | ok (r : Ref)
  | bad (code : Nat)
  deriving DecidableEq, Repr, Inhabited

/-! The job's space. -/

/-- Page-table root of the job on core c. -/
def State.rootOf (s : State) (c : CoreId) : Nat :=
  match (s.core c).job with
  | none => 0
  | some j => j.root

/-- Footprint of the job on core c in bytes per lane (08 R266). -/
def State.footprint (s : State) (c : CoreId) : Nat :=
  match (s.core c).job with
  | none => 0
  | some j => 4096 * j.tk.tower

/-! Capacities. -/

/-- Set bits among the low n bits of a number. -/
def bitCount (v : Nat) : Nat → Nat
  | 0 => 0
  | n + 1 => v % 2 + bitCount (v / 2) n

/-- Live pseudo-channels. -/
def State.liveCount (s : State) : Nat := bitCount s.dev.live.toNat 512

/-- Live capacity of own HBM in bytes (08 R278). -/
def State.hbmCap (s : State) : Nat := s.liveCount * (768 * 2 ^ 20)

/-- The live pseudo-channels in ascending order, L of 08 R278. -/
def State.liveChannels (s : State) : List Nat := (upTo 512).filter fun p => s.dev.live.getLsbD p

/-- Where a region-0 offset lies: its pseudo-channel, the granule within it, the byte (08 R278). -/
def State.hbmPlace (s : State) (off : Nat) : Nat × Nat × Nat :=
  let l := s.liveChannels
  let g := off / 512
  (l.getD (g % l.length) 0, g / l.length, off % 512)

/-- The listed CXL ports in ascending order (08 R279). -/
def State.ports (s : State) : List Nat := (upTo 8).filter fun p => s.dev.cxlList.getLsbD p

/-- Capacity of the second tier in bytes (08 R279). -/
def State.tierCap (s : State) : Nat := s.ports.length * (s.dev.cxlCap.toNat * 2 ^ 30)

/-- The port a second-tier offset maps to (08 R279). -/
def State.portOf (s : State) (off : Nat) : Nat :=
  let l := s.ports
  if l = [] then 0 else l.getD (off / 4096 % l.length) 0

/-- The capacity in bytes that the routing entry of a device records; a device without REACH has none (14 R439). -/
def State.route (s : State) (dev : Nat) : Option Nat :=
  s.dev.routes.lookup dev

/-! Page tables. -/

/-- A page-table entry at a physical address: own HBM below the live capacity, aligned to n (11 R355). -/
def State.tableOk (s : State) (a n : Nat) : Bool := a % n == 0 && decide (a + n ≤ s.hbmCap)

/-- The 64-bit word at a key. -/
def State.word64 (s : State) (k : Nat) : Nat := leNat (readCells s.mem k 8)

/-- A leaf entry as a translation of the page of `size` bytes that holds va. -/
def leafOf (root va size e : Nat) : TlbEnt :=
  { root := root, va := va / size * size, size := size, r := e.testBit 4, w := e.testBit 5, a := e.testBit 6,
    kind := fld e 2 2, frame := fld e 16 36 * 2 ^ 16, pub := if e.testBit 7 then some (fld e 8 8) else none }

/-- Address of the next table named by a table entry (11 R354). -/
def nextTable (e : Nat) : Nat := fld e 8 44 * 256

/-- The walk of 11 R355: the translation of va under a root, none where it ends in a page fault. -/
def State.walk (s : State) (root va : Nat) : Option TlbEnt :=
  let e1 := s.word64 (root + 8 * (va / 2 ^ 30))
  if !s.tableOk root 4096 || !e1.testBit 0 then none
  else if e1.testBit 1 then
    (if fld e1 16 14 = 0 then some (leafOf root va (2 ^ 30) e1) else none)
  else
    let t2 := nextTable e1
    let e2 := s.word64 (t2 + 8 * (va / 2 ^ 21 % 512))
    if !s.tableOk t2 4096 || !e2.testBit 0 then none
    else if e2.testBit 1 then
      (if fld e2 16 5 = 0 then some (leafOf root va (2 ^ 21) e2) else none)
    else
      let t3 := nextTable e2
      let e3 := s.word64 (t3 + 8 * (va / 2 ^ 16 % 32))
      if !s.tableOk t3 256 || !e3.testBit 0 || !e3.testBit 1 then none
      else some (leafOf root va (2 ^ 16) e3)

/-- The entry of a walk's level that covers `size` bytes around va, at a key: from the walker's cache, which may have lost
it, or from memory, a valid one being kept (08 R269; 11 R357, R358; log entry 9). -/
def State.levelEntry (s : State) (cl : ClusterId) (root va size key : Nat) : Nat × State :=
  let now := s.word64 key
  let base := va / size * size
  let (e, s1) := match (s.cluster cl).walks.find? fun w => w.root == root && w.va == base && w.size == size with
    | none => (now, s)
    | some w => if w.entry = now then (now, s) else let (kept, s1) := s.drawBool; (if kept then w.entry else now, s1)
  if e.testBit 0 then
    (e, s1.modCluster cl fun k =>
      { k with walks := ⟨root, base, size, e⟩ ::
                 k.walks.filter (fun w => !(w.root == root && w.va == base && w.size == size)) })
  else (e, s1)

/-- The walk of 11 R355 by the walker of a cluster. -/
def State.walkFor (s : State) (cl : ClusterId) (root va : Nat) : Option TlbEnt × State :=
  if !s.tableOk root 4096 then (none, s)
  else
    let (e1, s1) := s.levelEntry cl root va (2 ^ 30) (root + 8 * (va / 2 ^ 30))
    if !e1.testBit 0 then (none, s1)
    else if e1.testBit 1 then (if fld e1 16 14 = 0 then some (leafOf root va (2 ^ 30) e1) else none, s1)
    else if !s.tableOk (nextTable e1) 4096 then (none, s1)
    else
      let (e2, s2) := s1.levelEntry cl root va (2 ^ 21) (nextTable e1 + 8 * (va / 2 ^ 21 % 512))
      if !e2.testBit 0 then (none, s2)
      else if e2.testBit 1 then (if fld e2 16 5 = 0 then some (leafOf root va (2 ^ 21) e2) else none, s2)
      else if !s.tableOk (nextTable e2) 256 then (none, s2)
      else
        let (e3, s3) := s2.levelEntry cl root va (2 ^ 16) (nextTable e2 + 8 * (va / 2 ^ 16 % 32))
        (if e3.testBit 0 && e3.testBit 1 then some (leafOf root va (2 ^ 16) e3) else none, s3)

/-- A cached translation of va under a root. -/
def tlbFind (l : List TlbEnt) (root va : Nat) : Option TlbEnt :=
  l.find? fun t => t.root == root && decide (t.va ≤ va) && decide (va < t.va + t.size)

/-- A translation entered into a TLB of n entries; in a full one it replaces an entry of the device's choice (log entry
17). -/
def tlbAdd (l : List TlbEnt) (n : Nat) (t : TlbEnt) (pick : Nat) : List TlbEnt :=
  if l.length < n then t :: l else t :: l.eraseIdx (pick % l.length)

/-- The translation of va for core c under a root: from the core's TLB, the cluster's, or a walk (08 R269); misses and
walks are counted (12 R402). During the remapping step nothing is walked, and what needs a walk finds no translation and
waits (11 R365). -/
def State.translate (s : State) (c : CoreId) (root va : Nat) : Option TlbEnt × State :=
  match tlbFind (s.core c).tlb root va with
  | some t => (some t, s)
  | none =>
    if s.dev.remapGo then (none, s) else
    let s1 := s.count c 16 1
    let fill (t : TlbEnt) (s : State) : State :=
      let (p, s2) := if (s.core c).tlb.length < 256 then (0, s) else s.drawNat
      s2.modCore c fun k => { k with tlb := tlbAdd k.tlb 256 t p }
    match tlbFind (s1.cluster (clusterOf c)).tlb root va with
    | some t => (some t, fill t s1)
    | none =>
      let s2 := s1.count c 17 1
      match s2.walkFor (clusterOf c) root va with
      | (none, s3) => (none, s3)
      | (some t, s3) =>
        let (p, s3) := if (s3.cluster (clusterOf c)).tlb.length < 8192 then (0, s3) else s3.drawNat
        let s4 := s3.modCluster (clusterOf c) fun k => { k with tlb := tlbAdd k.tlb 8192 t p }
        (some t, fill t s4)

/-! Targets (08 R267). -/

/-- The page permits the use (11 R355). -/
def TlbEnt.permits (t : TlbEnt) : Use → Bool
  | .read => t.r
  | .write => t.w
  | .amo => t.r && t.w && t.a

/-- Core and cluster of a scratchpad-window offset exist and bits [47:31] are zero (08 R267). -/
def windowOk (off : Nat) : Bool := decide (off < 2 ^ 31) && decide (off / 2 ^ 26 < 24) && decide (off / 2 ^ 20 % 64 < 48)

/-- The check of an access to a scratchpad through the window: its form, and a cluster that is not in Testing (14 R449). -/
def State.windowCode (s : State) (off : Nat) : Nat :=
  if windowOk off && (s.cluster (clusterAt (off / 2 ^ 26))).service != .testing then 0 else 0x05

/-- Whether n bytes at a physical address lie in their target, and the page kind is one the target allows: 0, or the
code of check 4 (08 R267, R281; 14 R438, R439). Kind 1 is SO. -/
def State.targetCode (s : State) (pa n kind : Nat) (use : Use) : Nat :=
  let off := pa % 2 ^ 48
  let t := pa / 2 ^ 48
  if t = 0 then (if off + n ≤ s.hbmCap then 0 else 0x05)
  else if t = 1 then
    if kind = 1 ∨ s.tierCap < off + n then 0x05
    else if (upTo n).any fun i => s.dev.cxlDown.getLsbD (s.portOf (off + i)) then 0x13
    else 0
  else if t = 2 then (if use = .amo ∨ 2 ^ 48 < off + n then 0x05 else 0)
  else if t = 3 then
    match s.route (off / 2 ^ 40) with
    | none => 0x05
    | some cap =>
      if off.testBit 39 then
        (if s.dev.devnum.map (·.toNat) = some (off / 2 ^ 40) then s.windowCode (off % 2 ^ 39)
         else if windowOk (off % 2 ^ 39) then 0 else 0x05)
      else if off % 2 ^ 39 + n ≤ cap then 0 else 0x05
  else if t = 4 then s.windowCode off
  else 0x05

/-- The side of a shadow destination that an access reaches (09 R318; 11 R356, R366): the visible one; the hidden one, as a
command's writes do; or that of a drain of core c through stream os, hidden where the entry names both. -/
inductive Side where
  | visible
  | hidden
  | drain (c : CoreId) (os : Nat)
  deriving DecidableEq, Repr, Inhabited

/-- An access reaches the hidden side of publish entry e. -/
def State.hides (s : State) (side : Side) (e : Nat) : Bool :=
  match side with
  | .visible => false
  | .hidden => true
  | .drain c os => match s.dev.pubs.lookup e with
    | none => false
    | some q => q.mstr.getLsbD (os - 32) && q.mcore == c.val

/-- Place of n bytes at va in a page: through the publish entry for a PUB page (11 R356), on the side that the access
reaches (09 R318). -/
def State.placeIn (s : State) (t : TlbEnt) (va n : Nat) (use : Use) (ordered : Bool) (side : Side) : Loc × Nat :=
  let kindBad := t.kind == 3 || !t.permits use || (ordered && t.kind == 2)
  match t.pub with
  | none =>
    let pa := t.frame + (va - t.va)
    (.phys (s.keyOfPa pa), if kindBad then 0x05 else s.targetCode pa n t.kind use)
  | some e =>
    let hidden := s.hides side e
    match s.dev.pubs.lookup e with
    | none => (.pub e 0 hidden, 0x05)
    | some p =>
      let off := va - p.vabase
      (.pub e off hidden,
        if kindBad || !s.dev.pactive.getLsbD e || decide (va < p.vabase) || decide (p.vabase + p.len * 2 ^ 16 < va + n)
        then 0x05
        else s.targetCode (s.sideBase e p hidden + off) n t.kind use)

/-- The form in which a page names its bytes: the target of its frame, or of the side an access reaches (09 R303). -/
def State.viaIn (s : State) (t : TlbEnt) (side : Side) : Nat :=
  match t.pub with
  | none => t.frame / 2 ^ 48
  | some e => match s.dev.pubs.lookup e with
    | none => 0
    | some p => s.sideBase e p (s.hides side e) / 2 ^ 48

/-- n bytes at va cut at the 64 KiB boundaries, the smallest page size. -/
def cutPages (va n : Nat) : Nat → List (Nat × Nat)
  | 0 => []
  | fuel + 1 =>
    if n = 0 then []
    else
      let m := min n (2 ^ 16 - va % 2 ^ 16)
      (va, m) :: cutPages (va + m) (n - m) fuel

/-- A piece cut into its bytes (08 R280). -/
def Piece.bytes (p : Piece) : List Piece :=
  (upTo p.n).map fun i =>
    match p.loc with
    | .phys k => { p with loc := .phys (k + i), n := 1 }
    | .pub e o h => { p with loc := .pub e (o + i) h, n := 1 }

/-- Translations of the parts of an access, none where one has none (check 3 of 08 R281). -/
def State.translateAll (s : State) (c : CoreId) (root : Nat) : List (Nat × Nat) → Option (List TlbEnt) × State
  | [] => (some [], s)
  | (va, _) :: ps =>
    match s.translate c root va with
    | (none, s1) => (none, s1)
    | (some t, s1) =>
      match s1.translateAll c root ps with
      | (none, s2) => (none, s2)
      | (some ts, s2) => (some (t :: ts), s2)

/-- Checks 3 and 4 over the parts with their translations; each part keeps the kind of its own page (09 R308). -/
def State.placeAll (s : State) (parts : List (Nat × Nat)) (ts : List TlbEnt) (use : Use) (ordered : Bool)
    (side : Side) : Checked :=
  let rs := (parts.zip ts).map fun p =>
    let r := s.placeIn p.2 p.1.1 p.1.2 use ordered side
    ((⟨r.1, p.1.2, s.viaIn p.2 side, p.2.kind == 1⟩ : Piece), r.2)
  match rs.find? fun r => r.2 != 0 with
  | some r => .bad r.2
  | none => .ok ⟨rs.map (·.1)⟩

/-- A global access of n bytes at va by core c (08 R281 checks 1, 3 and 4). -/
def State.globalRef (s : State) (c : CoreId) (root va n : Nat) (use : Use) (ordered : Bool) (side : Side) : Checked × State :=
  if 2 ^ 48 < va + n then (.bad 0x05, s)
  else
    let parts := cutPages va n (n / 2 ^ 16 + 2)
    match s.translateAll c root parts with
    | (none, s1) => (.bad 0x04, s1)
    | (some ts, s1) => (s1.placeAll parts ts use ordered side, s1)

/-- A scratchpad address of n bytes: its core field and form (08 R265). -/
def spForm (a n : Nat) : Bool :=
  decide (a < 2 ^ 26) && (decide (a / 2 ^ 20 < 48) || a / 2 ^ 20 == 63) && decide (a % 2 ^ 20 + n ≤ 2 ^ 20)

/-- Key of a scratchpad address in the form of 08 R265; a core field of 63 names the own core. -/
def spAddrKey (c : CoreId) (a : Nat) : Nat :=
  if a / 2 ^ 20 = 63 then spKey c (a % 2 ^ 20)
  else 4 * 2 ^ 48 + (clusterOf c).val * 2 ^ 26 + a

/-- Key of an offset of the own scratchpad. -/
def ownSp (c : CoreId) (off : Nat) : Nat := spKey c off

/-- n bytes at a key that `.sp` space names. -/
def spPiece (k n : Nat) : Piece := ⟨.phys k, n, 5, false⟩

/-- n bytes at a key that tower space names. -/
def twPiece (k n : Nat) : Piece := ⟨.phys k, n, 6, false⟩

/-- A scratchpad access (08 R281 check 1). -/
def spRef (c : CoreId) (a n : Nat) : Checked :=
  if spForm a n then .ok ⟨[spPiece (spAddrKey c a) n]⟩ else .bad 0x05

/-- A tower access of n bytes at an offset of a lane, its form already checked: footprint and availability (08 R281
checks 5 and 6). -/
def State.towerRef (s : State) (c : CoreId) (lane off n : Nat) : Checked :=
  if s.footprint c < off + n then .bad 0x05
  else if !(vget (s.core c).imp lane).av then .bad 0x12
  else .ok ⟨[twPiece (s.laneKey c lane off) n]⟩

/-- The pieces of an access, cut into bytes where it is not aligned (08 R280). -/
def Checked.split (k : Checked) (a n : Nat) : Checked :=
  match k with
  | .ok r => if a % n = 0 then .ok r else .ok ⟨(r.pieces.map Piece.bytes).flatten⟩
  | .bad c => .bad c

/-- The checks of 08 R281 for an access of n bytes at address a in a space, by S (tower addresses name their lane): the
places, or the code. `align` asks for natural alignment, `ordered` marks order ≠ 0. -/
def State.scalarRef (s : State) (c : CoreId) (space a n : Nat) (use : Use) (align ordered : Bool) : Checked × State :=
  if space = 1 then
    (if !spForm a n then .bad 0x05
     else if align && a % n != 0 then .bad 0x06
     else (spRef c a n).split a n, s)
  else if space = 2 then
    (if !(decide (a < 2 ^ 24) && decide (a % 2 ^ 18 + n ≤ 2 ^ 18)) then .bad 0x05
     else if a % n != 0 then .bad 0x06
     else s.towerRef c (a / 2 ^ 18) (a % 2 ^ 18) n, s)
  else if 2 ^ 48 < a + n then (.bad 0x05, s)
  else if align && a % n != 0 then (.bad 0x06, s)
  else
    let (k, s1) := s.globalRef c (s.rootOf c) a n use ordered .visible
    (k.split a n, s1)

/-- The same for one lane of a V word: tower addresses are offsets in the lane's own tower, every access is aligned
(08 R265, R280, R286). -/
def State.laneRef (s : State) (c : CoreId) (space lane a n : Nat) (use : Use) (ordered : Bool) : Checked × State :=
  if space = 2 then
    (if 2 ^ 18 < a + n then .bad 0x05
     else if a % n != 0 then .bad 0x06
     else s.towerRef c lane a n, s)
  else s.scalarRef c space a n use true ordered

end Sys2Proof.Machine
end

