-- ==== Sys2Proof/Machine/Order.lean ====
section
/-! DEFINITION. The order in which a stream's accesses are performed (09 R304–R314): the send buffer (13 R417), loads
in flight (04 R121, 05 R165), what a load sees of its own stream's earlier stores, and atomic operations (08 R285). -/

namespace Sys2Proof.Machine

/-- Two runs share a key. -/
def spansMeet (a b : Span) : Bool := decide (a.lo < b.lo + b.n) && decide (b.lo < a.lo + a.n)

/-- Both runs lie in one physical tower, whose requests of one source keep their order (08 R273). -/
def sameTower (a b : Span) : Bool :=
  decide (towerBase ≤ a.lo) && decide (a.lo < imemBase) && decide (towerBase ≤ b.lo) && decide (b.lo < imemBase)
    && (a.lo - towerBase) / 2 ^ 18 == (b.lo - towerBase) / 2 ^ 18

/-- Two runs name one byte in the same address form (09 R303). -/
def sameBytes (a b : Span) : Bool := a.via == b.via && spansMeet a b

/-- Two accesses of one stream must keep their order: to one byte in one form, to one tower, or both SO (08 R273; 09
R303–R306). -/
def conflicts (a b : Span) : Bool := sameBytes a b || sameTower a b || (a.so && b.so)

/-- Keys of a piece now. -/
def State.spanOf (s : State) (p : Piece) : Span := ⟨s.keyOf p.loc, p.n, p.via, p.so⟩

/-- Keys of a chunk now. -/
def State.chunkSpan (s : State) (c : Chunk) : Span := ⟨s.keyOf c.loc, c.bytes.length, c.via, c.so⟩

/-- Keys a buffered entry still has to reach. -/
def State.entrySpans (s : State) (b : SbEntry) : List Span :=
  b.chunks.map s.chunkSpan ++ (match b.amo with | none => [] | some a => [s.spanOf a.piece])

/-- Keys of member m of a collating load: of the loader's own scratchpad in the form of `.sp` (09 R303). -/
def colSpan (e : ColEl) (m : Nat) : Span :=
  ⟨spKey (coreAt m) e.off, colBytes e.op, if m = e.own then 5 else 7, false⟩

/-- Keys of the members of a collating load. -/
def ColEl.spans (e : ColEl) : List Span := e.members.map fun m => colSpan e m.1

/-- Keys a load in flight still has to read, or the first i of its accesses. -/
def State.whatSpans (s : State) (w : What) (i : Nat) : List Span :=
  match w with
  | .load els => (els.take i).map fun e => s.spanOf e.piece
  | .collate els => ((els.take i).map ColEl.spans).flatten
  | _ => []

/-- Keys a load in flight still has to read. -/
def State.pendSpans (s : State) (p : Pend) : List Span :=
  match p.what with
  | .load els => els.map fun e => s.spanOf e.piece
  | .collate els => (els.map ColEl.spans).flatten
  | _ => []

/-! What an observer may read (09 R305–R313; log entry 91). -/

/-- The superseded byte that stood at key k after write number τ. -/
def oldByte : List OldByte → Nat → Nat → Option Byte
  | [], _, _ => none
  | o :: t, k, τ =>
    match oldByte t k τ with
    | some b => some b
    | none => if o.key = k ∧ τ < o.until_ then some o.byte else none

/-- The byte at a key after write number τ. -/
def State.byteAsOf (s : State) (τ k : Nat) : Byte :=
  if s.stamp ≤ τ then readCell s.mem k else (oldByte s.old k τ).getD (readCell s.mem k)

/-- n bytes from a key on after write number τ. -/
def State.cellsAsOf (s : State) (τ k n : Nat) : List Byte :=
  if s.stamp ≤ τ then readCells s.mem k n else (upTo n).map fun i => s.byteAsOf τ (k + i)

/-- The write number below which an observer may not read a run: the writes it must see in any form, and its own
accesses in the run's form. Form 8 in a view stands for every form. -/
def View.bound (v : View) (sp : Span) : Nat :=
  v.seen.foldl (fun b e => if (e.1.via == sp.via || e.1.via == 8) && spansMeet e.1 sp then max b e.2 else b) v.floor

/-- An access of a run at write number τ noted; one to a tower keeps its place before every later one to that tower (08
R273). -/
def View.note (v : View) (sp : Span) (τ : Nat) : View :=
  if τ ≤ v.floor then v
  else if sp.via = 6 then
    { v with seen := ({ sp with lo := sp.lo / 2 ^ 18 * 2 ^ 18, n := 2 ^ 18 }, τ) :: v.seen }
  else { v with seen := (sp, τ) :: v.seen }

/-- Core d lies in the instance of a scope around core c (09 R309). -/
def inScope (scope : Nat) (c d : CoreId) : Bool :=
  if 3 ≤ scope then true else if scope = 2 then clusterOf c == clusterOf d else decide (scope = 1 ∧ c = d)

/-- The scope that marks the swap of a PUBLISH, one event for all observers (09 R320). -/
def swapScope : Nat := 5

/-- Observers outside the cores (09 R309): the host, and after it the other devices by their numbers. -/
def hostObs : Nat := 1152
def deviceObs (dev : Nat) : Nat := hostObs + 1 + dev

/-- The narrowest scope that includes an observer outside the cores (09 R309). -/
def outerScope (o : Nat) : Nat := if o = hostObs then 3 else 4

/-- A release and an acquire or fence of core c at a scope include each other (09 R311). -/
def RelTag.mutual (t : RelTag) (c : CoreId) (scope : Nat) : Bool :=
  decide (t.scope = swapScope ∧ scope ≠ 0)
    || if hostObs ≤ t.core then decide (outerScope t.core ≤ scope)
       else inScope t.scope (coreAt t.core) c && inScope scope c (coreAt t.core)

/-- The view joined with what the releases pass on that include core c at a scope. -/
def View.acquire (v : View) (l : List RelTag) (c : CoreId) (scope : Nat) : View :=
  l.foldl (fun v t => if t.mutual c scope then v.join t.view else v) v

/-- The releases a read of a run at write number τ returns a value of (09 R311). -/
def State.tagsAt (s : State) (sp : Span) (τ : Nat) : List RelTag :=
  (s.rels.filter fun r =>
    decide (r.lo < sp.lo + sp.n) && decide (sp.lo < r.lo + r.n) && decide (r.from_ ≤ τ)
      && (match r.until_ with | none => true | some u => decide (τ < u))).map (·.tag)

/-- Some byte of a run was superseded after write number b. -/
def State.stale (s : State) (sp : Span) (b : Nat) : Bool :=
  s.old.any fun o => decide (sp.lo ≤ o.key) && decide (o.key < sp.lo + sp.n) && decide (b < o.until_)

/-- The write number at which an observer with a view reads a run: the last for an SO access, else any its view admits
(DESIGN CHOICE, log entry 91). -/
def State.readTime (s : State) (v : View) (sp : Span) : Nat × State :=
  let b := v.bound sp
  if sp.so || !s.stale sp b then (s.stamp, s)
  else
    let (d, s1) := s.drawNat
    (b + d % (s.stamp + 1 - b), s1)

/-- A read of a run by engine e at write number τ: what it saw it may not miss later, and the releases it read from it
acquires at its scope, if it has one. -/
def State.readNoted (s : State) (c : CoreId) (e : Eng) (acq : Nat) (sp : Span) (τ : Nat) : State :=
  let tags := s.tagsAt sp τ
  let choice := s.stale sp (((s.ctx c).stream e).view.bound sp)
  if choice = false ∧ tags = [] then s
  else s.modCtx c fun x => x.modStream e fun r =>
    { r with view := (if choice then r.view.note sp τ else r.view).acquire tags c acq,
             observed := r.observed ++ tags }

/-- A write of a run by engine e has been performed: it is seen by its stream, and carries its release and those of the
stream's `.rel` fences (09 R310, R314). -/
def State.writeNoted (s : State) (c : CoreId) (e : Eng) (rel : Nat) (sp : Span) : State :=
  let r := (s.ctx c).stream e
  let own : List RelTag := if rel = 0 then [] else [⟨c.val, rel, r.view.everyForm⟩]
  let tags := own ++ r.rel
  let runs := tags.map fun t => (⟨sp.lo, sp.n, s.stamp, none, t⟩ : RelRun)
  { s with rels := runs ++ s.rels }.modCtx c fun x =>
    x.modStream e fun r => { r with view := r.view.note sp s.stamp }

/-- What an observer outside the cores has seen. -/
def State.outerView (s : State) (o : Nat) : View := (s.dev.outer.lookup o).getD ⟨0, [], []⟩

/-- The view of such an observer changed. -/
def State.setOuter (s : State) (o : Nat) (v : View) : State :=
  s.modDev fun d => { d with outer := (o, v) :: d.outer.filter fun p => p.1 != o }

/-- Such an observer has read a run at write number τ, as an acquire or not (09 R310, R311; 14 R434). -/
def State.outerSaw (s : State) (o : Nat) (acq : Bool) (sp : Span) (τ : Nat) : State :=
  let tags := (s.tagsAt sp τ).filter fun t => t.scope == swapScope || (acq && decide (outerScope o ≤ t.scope))
  s.setOuter o (tags.foldl (fun v t => v.join t.view) ((s.outerView o).note sp τ))

/-- Such an observer writes bytes, as a release or not (09 R310; 14 R434). -/
def State.outerWrite (s : State) (o : Nat) (rel : Bool) (k : Nat) (bs : List Byte) : State :=
  let s1 := s.putBytes k bs
  let tag : RelTag := ⟨o, outerScope o, (s.outerView o).everyForm⟩
  let s2 : State := if rel then { s1 with rels := ⟨k, bs.length, s.stamp + 1, none, tag⟩ :: s1.rels } else s1
  s2.setOuter o ((s2.outerView o).note ⟨k, bs.length, 8, false⟩ s2.stamp)

/-- An atomic add at a key, a release of core c at a scope (09 R311). -/
def State.addReleased (s : State) (k n inc c scope : Nat) (v : View) : State :=
  let s1 := s.putBytes k (leBytes n (leNat (readCells s.mem k n) + inc))
  { s1 with rels := ⟨k, n, s1.stamp, none, ⟨c, scope, v⟩⟩ :: atomicRuns s.rels k n s1.stamp ++ s1.rels }

/-- The single-copy atomic parts of a run of n bytes at a key: 16 bytes of a tower, else 8 (08 R280). -/
def atomicParts (k via : Nat) : Nat → Nat → List (Nat × Nat)
  | 0, _ => []
  | fuel + 1, n =>
    let g := if via = 6 then 16 else 8
    let m := min n (g - k % g)
    if n = 0 then [] else (k, m) :: atomicParts (k + m) via fuel (n - m)

/-- Parts of a run read in turn by such an observer, each at a write number of its own (09 R312; log entry 91). -/
def State.outerParts (s : State) (o : Nat) (acq : Bool) : List (Nat × Nat) → List Byte × State
  | [] => ([], s)
  | (k, n) :: ps =>
    let sp : Span := ⟨k, n, 8, false⟩
    let (τ, s1) := s.readTime (s.outerView o) sp
    let r := (s1.outerSaw o acq sp τ).outerParts o acq ps
    (s1.cellsAsOf τ k n ++ r.1, r.2)

/-- A read of n bytes at a key by such an observer. -/
def State.outerRead (s : State) (o : Nat) (acq : Bool) (k n : Nat) : List Byte × State :=
  let sp : Span := ⟨k, n, 8, false⟩
  s.outerParts o acq (if s.stale sp ((s.outerView o).bound sp) then atomicParts k 8 n n else [(k, n)])

/-! What a stream sees of its own stores. -/

/-- The byte a buffered entry has for a key in a form. -/
def State.chunkByte (s : State) (via k : Nat) : List Chunk → Option Byte → Option Byte
  | [], r => r
  | c :: t, r =>
    let b := s.keyOf c.loc
    s.chunkByte via k t (if c.via = via ∧ b ≤ k ∧ k < b + c.bytes.length then c.bytes[k - b]? else r)

/-- A byte as a stream sees it: its own buffered stores before place q in program order lie over memory as of write
number τ (09 R305). -/
def State.byteFor (s : State) (x : Ctx) (e : Eng) (q via τ k : Nat) : Byte :=
  let laid := x.sb.foldl (fun r b => if b.eng = e ∧ b.seq < q then s.chunkByte via k b.chunks r else r) none
  laid.getD (s.byteAsOf τ k)

/-- n bytes from a key on as a stream sees them in a form. -/
def State.runFor (s : State) (x : Ctx) (e : Eng) (q via τ k n : Nat) : List Byte :=
  if x.sb.any fun b => b.eng == e then (upTo n).map fun i => s.byteFor x e q via τ (k + i) else s.cellsAsOf τ k n

/-- Bytes of a piece as a stream sees them over the last write. -/
def State.bytesFor (s : State) (x : Ctx) (e : Eng) (q : Nat) (p : Piece) : List Byte :=
  s.runFor x e q p.via s.stamp (s.keyOf p.loc) p.n

/-- Parts of a run read in turn, each at a write number of its own. -/
def State.readParts (s : State) (c : CoreId) (e : Eng) (q acq : Nat) (sp : Span) : List (Nat × Nat) → List Byte × State
  | [] => ([], s)
  | (k, n) :: ps =>
    let part : Span := { sp with lo := k, n := n }
    let (τ, s1) := s.readTime ((s.ctx c).stream e).view part
    let bs := s1.runFor (s1.ctx c) e q sp.via τ k n
    let (rest, s2) := (s1.readNoted c e acq part τ).readParts c e q acq sp ps
    (bs ++ rest, s2)

/-- A read of a piece by engine e at place q, an acquire at its scope where that is not 0. -/
def State.readPiece (s : State) (c : CoreId) (e : Eng) (q acq : Nat) (p : Piece) : List Byte × State :=
  let sp := s.spanOf p
  let ps := if s.stale sp (((s.ctx c).stream e).view.bound sp) then atomicParts sp.lo sp.via p.n p.n else [(sp.lo, p.n)]
  s.readParts c e q acq sp ps

/-- Reads of pieces in order, acquires at a scope where that is not 0. -/
def State.readPieces (s : State) (c : CoreId) (e : Eng) (q acq : Nat) : List Piece → List Byte × State
  | [] => ([], s)
  | p :: ps =>
    let (bs, s1) := s.readPiece c e q acq p
    let (rest, s2) := s1.readPieces c e q acq ps
    (bs ++ rest, s2)

/-- Plain reads of several references in order. -/
def State.readRefs (s : State) (c : CoreId) (e : Eng) (q : Nat) : List Ref → List (List Byte) × State
  | [] => ([], s)
  | r :: rs =>
    let (bs, s1) := s.readPieces c e q 0 r.pieces
    let (rest, s2) := s1.readRefs c e q rs
    (bs :: rest, s2)

/-- A piece cut into parts of n bytes. -/
def cutPiece (p : Piece) (n : Nat) : List Piece :=
  (upTo (ceilDiv p.n n)).map fun i =>
    let m := min n (p.n - n * i)
    match p.loc with
    | .phys k => { p with loc := .phys (k + n * i), n := m }
    | .pub e off h => { p with loc := .pub e (off + n * i) h, n := m }

/-- A store of the stream, buffered before place q, covers unit u whole in a form: its code is fresh to the stream (08
R283). -/
def State.renewed (s : State) (x : Ctx) (e : Eng) (q via u : Nat) : Bool :=
  x.sb.any fun b => b.eng == e && decide (b.seq < q) && b.chunks.any fun c =>
    c.via == via && decide (s.keyOf c.loc ≤ u) && decide (u + unitLen u ≤ s.keyOf c.loc + c.bytes.length)

/-- Data of n bytes from key k on are uncorrectable as a stream sees them. -/
def State.badFor (s : State) (x : Ctx) (e : Eng) (q via k n : Nat) : Bool :=
  (upTo n).any fun i => markOf s.memErr (unitOf (k + i)) == .double && !s.renewed x e q via (unitOf (k + i))

/-- Uncorrectable data among the pieces as a stream sees them: the code it is reported with (08 R282). -/
def State.refBadFor (s : State) (x : Ctx) (e : Eng) (q : Nat) (r : Ref) : Option Nat :=
  (r.pieces.find? fun p => s.badFor x e q p.via (s.keyOf p.loc) p.n).map fun p => keyCode (s.keyOf p.loc)

/-- Uncorrectable data among the pieces: the code it is reported with (08 R282). -/
def State.refBad (s : State) (r : Ref) : Option Nat :=
  (r.pieces.find? s.badPiece).map fun p => keyCode (s.keyOf p.loc)

/-- Single-bit words of the pieces corrected and counted for core c (08 R271). -/
def State.touchRef (s : State) (c : CoreId) (r : Ref) : State :=
  r.pieces.foldl (fun s p => s.touch c (s.keyOf p.loc) p.n) s

/-- The physical layer q of a tower is occupied by a sweep step, or its contents are still on their way: in a plain
sweep step k occupies layer k; in a rotation the contents of layer 7 wait in the buffer from step 0 to the end of step 8,
and those of layer 7 − k move in step k (08 R274). -/
def SweepRun.busy (w : SweepRun) (q : Nat) : Bool :=
  if w.rotation then q == 7 || q + w.step == 7 else q == w.step

/-- A byte of a physical tower must wait for the sweep of its core: `q` is the layer that held its logical layer when
the sweep began (08 R274, R275). -/
def State.towerBusy (s : State) (key : Nat) : Bool :=
  let n := (key - towerBase) / 2 ^ 18
  let r := (s.core (coreAt (n / 68))).refresh
  let q := ((key - towerBase) % 2 ^ 18 / 2 ^ 15 + (vget r.phase (n % 68)).val) % 8
  decide (towerBase ≤ key) && decide (key < imemBase) && !(r.stopped.any fun m => m.2 == n % 68)
    && (match r.sweep with | none => false | some w => w.busy q)

/-- An access to a run must wait: for the remapping step where it is own HBM (11 R365), or for a sweep of its tower. -/
def State.stalled (s : State) (a : Span) : Bool :=
  (s.dev.remapGo && decide (a.lo < 2 ^ 48)) || s.towerBusy a.lo

/-- Some of the pieces of an access must wait. -/
def State.anyStalled (s : State) (ps : List Piece) : Bool := ps.any fun p => s.stalled (s.spanOf p)

/-! Fences (09 R314). -/

/-- A later access of a stream at place q waits behind a fence: any behind `.acq` and `.ar`, a write behind `.rel`. -/
def fenceHolds (x : Ctx) (e : Eng) (q : Nat) (write : Bool) : Bool :=
  x.fences.any fun m => m.eng == e && decide (m.seq < q) && (write || m.kind != 2)

/-- What a fence waits for has been performed: the earlier reads, and for `.rel` and `.ar` the earlier writes. -/
def FenceMark.met (m : FenceMark) (x : Ctx) : Bool :=
  (x.pend.all fun p => p.eng != m.eng || decide (m.seq ≤ p.seq) || !p.unbound)
    && (m.kind == 1 || x.sb.all fun b => b.eng != m.eng || decide (m.seq ≤ b.seq))

/-- A fence takes effect: `.acq` acquires what the stream's reads returned, `.rel` makes its later writes releases, and
`.ar` does both and takes its place in the one order of such fences. -/
def State.passFence (s : State) (c : CoreId) (m : FenceMark) : State :=
  let r := (s.ctx c).stream m.eng
  let v1 := if m.kind = 2 then r.view else r.view.acquire r.observed c m.scope
  let v2 := if m.kind = 0 then (v1.acquire s.scs c m.scope).everyForm else v1
  let mine : RelTag := ⟨c.val, m.scope, v2.everyForm⟩
  { s with scs := if m.kind = 0 then mine :: s.scs else s.scs }.modCtx c fun x => x.modStream m.eng fun r =>
    { r with view := v2,
             rel := if m.kind = 1 then r.rel else mine :: r.rel.filter fun t => decide (m.scope < t.scope) }

/-- The fences of core c whose conditions are met take effect, the oldest first. -/
def State.settleFences (s : State) (c : CoreId) : State :=
  let x := s.ctx c
  if x.fences = [] then s
  else
    let s1 := (x.fences.filter fun m => m.met x).foldl (fun s m => s.passFence c m) s
    s1.modCtx c fun y => { y with fences := x.fences.filter fun m => !m.met x }

/-! Reads performed at issue. -/

/-- A load of the stream still to be performed keeps its place before a later read: it is an acquire, or it may meet the
read's bytes (08 R273; 09 R305, R306, R310). -/
def State.loadBefore (s : State) (x : Ctx) (e : Eng) (r : Ref) : Bool :=
  x.pend.any fun q =>
    q.eng == e && q.unbound
      && (q.acq != 0 || r.pieces.any fun p => (s.pendSpans q).any fun d => conflicts d (s.spanOf p))

/-- An earlier store must be performed before a later read: to the same tower, both SO, or an atomic to the same bytes;
of any other store the read sees the data (09 R305, R306). -/
def State.storeBefore (s : State) (b : SbEntry) (sp : Span) : Bool :=
  (match b.amo with | none => false | some a => conflicts (s.spanOf a.piece) sp)
    || b.chunks.any fun c => sameTower (s.chunkSpan c) sp || (c.so && sp.so)

/-- A read that is performed at its issue must wait: for a sweep or the remapping step, for a fence, or for an earlier
access that keeps its place. -/
def State.mustHold (s : State) (x : Ctx) (e : Eng) (r : Ref) : Bool :=
  s.anyStalled r.pieces || fenceHolds x e x.seq false || s.loadBefore x e r
    || x.sb.any fun b => b.eng == e && r.pieces.any fun p => s.storeBefore b (s.spanOf p)

/-! Loads in flight. -/

/-- Load element i of a pending write may be performed now. Of the bytes of an unaligned access and the lanes of a V word
those that R305 or R306 orders, and those of one tower, go in ascending order (08 R273, R280, R287; 09 R305–R308, R310,
R314). -/
def State.canBind (s : State) (x : Ctx) (p : Pend) (i : Nat) (sp : Span) : Bool :=
  (x.pend.all fun q =>
    q.eng != p.eng || decide (p.seq ≤ q.seq) || !q.unbound
      || (q.acq == 0 && (s.pendSpans q).all fun r => !conflicts r sp))
    && (x.sb.all fun b => b.eng != p.eng || decide (p.seq ≤ b.seq) || !s.storeBefore b sp)
    && !fenceHolds x p.eng p.seq false
    && ((s.whatSpans p.what i).all fun r => !conflicts r sp) && !s.stalled sp

/-- Member m of a group of registers that starts at physical register r; one in v32–v63 wraps within it (03 R104). -/
def groupReg (r m : Nat) : Nat := if r < 32 then r + m else 32 + (r - 32 + m) % 32

/-- An element of a physical V register written as data arrive: its code is fresh and its proof flag 0 (05 R173). -/
def VState.setElem (v : VState) (r lane : Nat) (w : W32) : VState :=
  { v with regs := vset v.regs r (vset (vget v.regs r) lane w),
           proof := vset v.proof r ((vget v.proof r) &&& ~~~ (BitVec.ofNat 64 (2 ^ lane))) }

/-- Marks of an element's code removed. -/
def freshElem (errs : List (Site × Bool)) (r lane : Nat) : List (Site × Bool) :=
  errs.filter fun m => m.1 != .vel r lane

/-- Bytes of a load land in their destination: bytes sh .. of an s register, or one element of each register of a V
group, the last zero-extended. -/
def landBytes (p : Pend) (lane sh : Nat) (bs : List Byte) (x : Ctx) : Ctx :=
  match p.eng with
  | .v =>
    (upTo ((bs.length + 3) / 4)).foldl
      (fun x m =>
        let r := groupReg p.reg m
        { x with v := x.v.setElem r lane (BitVec.ofNat 32 (leNat ((bs.drop (4 * m)).take 4))),
                 errs := freshElem x.errs r lane }) x
  | _ =>
    if p.reg = 0 then x
    else
      let old := leBytes 8 (vget x.sreg p.reg).toNat
      { x with sreg := vset x.sreg p.reg (BitVec.ofNat 64 (leNat (old.take sh ++ bs ++ old.drop (sh + bs.length)))),
               errs := x.errs.filter fun m => m.1 != .sreg p.reg }

/-- The full/empty bit of every register of a pending write. -/
def setFill (p : Pend) (f : Fill) (x : Ctx) : Ctx :=
  match p.eng with
  | .v => (upTo p.regs).foldl (fun x m => { x with v := { x.v with fill := vset x.v.fill (groupReg p.reg m) f } }) x
  | _ => if p.reg = 0 then x else { x with sfill := vset x.sfill p.reg f }

/-- A pending write with every element landed fills its registers, or poisons them (08 R282). -/
def finishPend (p : Pend) (x : Ctx) : Ctx :=
  setFill p (match p.poison with | none => .full | some k => .poisoned k) x

/-- The poison of the lowest lane of two (08 R282). -/
def lowerPoison (a : Option Poison) (b : Poison) : Option Poison :=
  match a with
  | none => some b
  | some k => if b.lane.toNat < k.lane.toNat then some b else some k

/-- Element i of a list replaced, or dropped. -/
def replaceAt {α : Type} (l : List α) (i : Nat) (r : Option α) : List α :=
  match r with
  | none => l.eraseIdx i
  | some a => l.set i a

/-- A load element is performed: it reads what its stream sees and lands; uncorrectable data poison the destination. Words
with a single wrong bit are corrected either way (08 R271). -/
def State.bindLoad (s : State) (c : CoreId) (p : Pend) (e : LoadEl) : State × Pend :=
  let k := s.keyOf e.piece.loc
  if s.badFor (s.ctx c) p.eng p.seq e.piece.via k e.piece.n then
    (s.touch c k e.piece.n,
      { p with poison := lowerPoison p.poison ⟨BitVec.ofNat 8 (keyCode k), e.addr, BitVec.ofNat 6 e.lane⟩ })
  else
    let r := s.readPiece c p.eng p.seq p.acq e.piece
    ((r.2.touch c k e.piece.n).modCtx c (landBytes p e.lane e.sh r.1), p)

/-! Collating loads (08 R294–R297). -/

/-- A lane's result written once every member value is in. -/
def landCollate (p : Pend) (e : ColEl) (ws : List W32) (x : Ctx) : Ctx :=
  let w := collateTree e.op ws
  match p.eng with
  | .v => landBytes p e.lane 0 (leBytes 4 w.toNat) x
  | _ => landBytes p 0 0 (leBytes 8 (colExtend e.op w).toNat) x

/-- The members of a lane read, each at a moment of its own (08 R296, R297; 09 R322): their values, the identity for an
absent one (08 R295), with the first whose value is uncorrectable. -/
def State.memberValues (s : State) (c : CoreId) (p : Pend) (e : ColEl) : List (Nat × Bool) → (List W32 × Option Nat) × State
  | [] => (([], none), s)
  | (m, gone) :: ms =>
    if gone then
      let r := s.memberValues c p e ms
      ((colIdentity e.op :: r.1.1, r.1.2), r.2)
    else
      let sp := colSpan e m
      let bad := s.badFor (s.ctx c) p.eng p.seq sp.via sp.lo sp.n
      let v := s.readPiece c p.eng p.seq 0 ⟨.phys sp.lo, sp.n, sp.via, false⟩
      let r := (v.2.touch c sp.lo sp.n).memberValues c p e ms
      ((colMember e.op v.1 :: r.1.1, if bad then some m else r.1.2), r.2)

/-- A lane's collating load is performed: an uncorrectable member value poisons with code 0x31 and names the lowest
such member (08 R296). -/
def State.bindCollate (s : State) (c : CoreId) (p : Pend) (e : ColEl) : State × Pend :=
  let r := s.memberValues c p e e.members
  match r.1.2 with
  | some m =>
    let k : Poison := ⟨0x31, BitVec.ofNat 48 (coreIn (coreAt m) * 2 ^ 20 + e.off), BitVec.ofNat 6 e.lane⟩
    (r.2, { p with poison := lowerPoison p.poison k })
  | none => (r.2.modCtx c (landCollate p e r.1.1), p)

/-! Atomic operations (08 R285). -/

/-- New value of an AMO of n bytes from the old value and the operand. -/
def amoNew (op n o b cmp : Nat) : Nat :=
  let m := 2 ^ (8 * n)
  let so := intVal true (8 * n) o
  let sb := intVal true (8 * n) b
  if op = 0 then b % m
  else if op = 1 then (o + b) % m
  else if op = 2 then o &&& (b % m)
  else if op = 3 then o ||| (b % m)
  else if op = 4 then o ^^^ (b % m)
  else if op = 5 then (if sb < so then b % m else o)
  else if op = 6 then (if so < sb then b % m else o)
  else if op = 7 then (if b % m < o then b % m else o)
  else if op = 8 then (if o < b % m then b % m else o)
  else if op = 9 then (if o = cmp % m then b % m else o)
  else (rne32 ((val32 (BitVec.ofNat 32 o)).add (val32 (BitVec.ofNat 32 b)))).toNat

/-- An AMO of engine e performed at its target, one event: the old value, or the code its uncorrectable target is
reported with; that target is not written (08 R285). It reads the last write, whose releases it hands on (09 R311). -/
def State.performAmo (s : State) (c : CoreId) (e : Eng) (rel : Nat) (a : AmoReq) : Except Nat Nat × State :=
  let sp := s.spanOf a.piece
  if s.badData sp.lo sp.n then (.error (keyCode sp.lo), s)
  else
    let o := leNat (readCells s.mem sp.lo sp.n)
    let s1 := (s.readNoted c e a.acq sp s.stamp).touch c sp.lo sp.n
    let s2 := s1.store c sp.lo (leBytes sp.n (amoNew a.op sp.n o a.b.toNat a.cmp.toNat))
    (.ok o, { s2 with rels := atomicRuns s1.rels sp.lo sp.n s2.stamp ++ s2.rels }.writeNoted c e rel sp)

/-- The pending write of an AMO takes its old value, or its poison. -/
def amoLands (eng : Eng) (seq : Nat) (r : Except Nat Nat) (addr : BitVec 48) (x : Ctx) : Ctx :=
  { x with pend := x.pend.map fun p =>
      if p.eng = eng ∧ p.seq = seq ∧ p.what = .amo then
        match r with
        | .ok o => { p with what := .value (BitVec.ofNat 64 o) }
        | .error code => { p with what := .value 0, poison := some ⟨BitVec.ofNat 8 code, addr, 0⟩ }
      else p }

/-! The send buffer. -/

/-- Entries the send buffer holds (13 R417). -/
def sbDepth : Nat := 64

/-- The send buffer has no room. -/
def sbFull (x : Ctx) : Bool := decide (sbDepth ≤ x.sb.length)

/-- Chunk i of a buffered entry (or its AMO) may be performed now. Of the bytes of an unaligned access, the lanes of a V word
and the rows of M those that R305 or R306 orders, and those of one tower, go in ascending order (08 R273, R280, R287; 09
R305–R308, R310, R314). -/
def State.canDepart (s : State) (x : Ctx) (b : SbEntry) (i : Nat) (sp : Span) : Bool :=
  (x.pend.all fun q =>
    q.eng != b.eng || decide (b.seq ≤ q.seq) || !q.unbound
      || (q.acq == 0 && b.rel == 0 && (s.pendSpans q).all fun r => !conflicts r sp))
    && (x.sb.all fun d =>
      d.eng != b.eng || decide (b.seq ≤ d.seq)
        || (b.rel == 0 && (s.entrySpans d).all fun r => !conflicts r sp))
    && !fenceHolds x b.eng b.seq true && !s.stalled sp
    && (b.chunks.take i).all fun ch => !conflicts (s.chunkSpan ch) sp

/-- A write of a chunk by engine e, a release at a scope where that is not 0. -/
def State.perform (s : State) (c : CoreId) (e : Eng) (rel : Nat) (ch : Chunk) : State :=
  (s.storeChunk c ch).writeNoted c e rel (s.chunkSpan ch)

/-- A departure of chunk i of entry j: the write is performed, and an entry with nothing left is gone. -/
def State.departChunk (s : State) (c : CoreId) (j i : Nat) (b : SbEntry) (ch : Chunk) : State :=
  let s1 := s.perform c b.eng b.rel ch
  let rest := b.chunks.eraseIdx i
  (s1.modCtx c fun x =>
    { x with sb := replaceAt x.sb j (if rest = [] then none else some { b with chunks := rest }) }).settleFences c

/-- A departure of the AMO of entry j. -/
def State.departAmo (s : State) (c : CoreId) (j : Nat) (b : SbEntry) (a : AmoReq) : State :=
  let r := s.performAmo c b.eng b.rel a
  (r.2.modCtx c fun x => amoLands b.eng b.seq r.1 a.addr { x with sb := x.sb.eraseIdx j }).settleFences c

/-- The next place in program order. -/
def Ctx.bump (x : Ctx) : Ctx := { x with seq := x.seq + 1 }

/-- A chunk goes to the hidden side of a publish entry. -/
def Chunk.hidden (c : Chunk) : Bool := match c.loc with | .pub _ _ h => h | .phys _ => false

/-- The next number of a command or drain, which stream e of core c has issued (09 R319). -/
def State.numbered (s : State) (c : CoreId) (e : Eng) : State :=
  (s.modDev fun d => { d with issues := d.issues + 1 }).modCtx c fun x => x.modStream e fun r =>
    { r with view := { r.view with issued := s.dev.issues :: r.view.issued } }

/-- A store of chunks issued by engine e enters the send buffer; one to a hidden side takes a number. -/
def State.issueStore (s : State) (c : CoreId) (e : Eng) (rel : Nat) (chunks : List Chunk) : State :=
  if chunks = [] then s
  else
    let s1 := if chunks.any Chunk.hidden then s.numbered c e else s
    s1.modCtx c fun x => { x.bump with sb := x.sb ++ [⟨e, x.seq, rel, chunks, none, s.dev.issues⟩] }

/-- The chunks of a list of bytes over the pieces of an access. -/
def chunksOf : List Piece → List Byte → List Chunk
  | [], _ => []
  | p :: ps, bs => ⟨p.loc, bs.take p.n, p.via, p.so⟩ :: chunksOf ps (bs.drop p.n)

/-- The destination of a deferred write of S reads 0 until its bytes land (no read of it sees this). -/
def clearDest (p : Pend) (x : Ctx) : Ctx :=
  match p.eng with
  | .v => x
  | _ => if p.reg = 0 then x else { x with sreg := vset x.sreg p.reg 0 }

/-- A deferred write issued: its registers go empty and the write is pending. -/
def State.issuePend (s : State) (c : CoreId) (p : Pend) : State :=
  (s.modCtx c fun x => clearDest p (setFill p .empty x)).modCtx c fun x =>
    { x.bump with pend := x.pend ++ [{ p with seq := x.seq }] }

/-- A pending write with its value known lands in its s register. -/
def landValue (p : Pend) (v : W64) (x : Ctx) : Ctx := finishPend p (landBytes p 0 0 (leBytes 8 v.toNat) x)

/-- An AMO issued by S: it waits in the send buffer with its destination pending. -/
def State.issueAmo (s : State) (c : CoreId) (rel : Nat) (reg : Nat) (a : AmoReq) : State :=
  let p : Pend := ⟨.s, reg, 1, (s.ctx c).seq, a.acq, none, .amo⟩
  (s.modCtx c (setFill p .empty)).modCtx c fun x =>
    { x.bump with pend := x.pend ++ [p], sb := x.sb ++ [⟨.s, x.seq, rel, [], some a, 0⟩] }

end Sys2Proof.Machine
end

