-- ==== Sys2Proof/Machine/Operands.lean ====
section
/-! DEFINITION. The operands of S and V words: reading registers under their empty policies with the checks of 04 R122
and 05 R166, R174, S values at their width (04 R142), lane selection (05 R170) and writing results. -/

namespace Sys2Proof.Machine

/-! S registers. -/

/-- A register source: register, operand index of 03 R91 (none for a guard), and whether its policy is trap. -/
structure Src where
  reg : Nat
  opnd : Option Nat
  trap : Bool
  deriving DecidableEq, Repr

/-- Source in fa. -/
def srcA (w : Common) (r : BitVec 6) : Src := ⟨r.toNat, some 0, w.epa⟩

/-- Source in fb. -/
def srcB (w : Common) (r : BitVec 6) : Src := ⟨r.toNat, some 1, w.epb⟩

/-- Source in fc. -/
def srcC (w : Common) (r : BitVec 6) : Src := ⟨r.toNat, some 2, w.epb⟩

/-- Source in fd: the data of a store (03 R91). -/
def srcD (w : Common) (r : BitVec 6) : Src := ⟨r.toNat, some 3, w.epb⟩

/-- Value of an s register; s0 reads 0 (03 R89). -/
def sval (x : Ctx) (r : Nat) : W64 := if r = 0 then 0 else vget x.sreg r

/-- Value of the s register in a field. -/
def sfield (x : Ctx) (r : BitVec 6) : W64 := sval x r.toNat

/-- Mark of a structure's code. -/
def siteMark : List (Site × Bool) → Site → Ecc
  | [], _ => .good
  | (a, d) :: t, k => if a = k then (if d then .double else .single) else siteMark t k

/-- Corrected marks of some sites removed and counted (13 R415). -/
def State.correct (s : State) (c : CoreId) (sites : List Site) : State :=
  let hit := (s.ctx c).errs.filter fun m => !m.2 && sites.contains m.1
  if hit = [] then s
  else (s.modCtx c fun x => { x with errs := x.errs.filter fun m => m.2 || !sites.contains m.1 }).count c 10 hit.length

/-- The fault of a poisoned register: the recorded code, address and lane (08 R282). Code 0x10 is a token entry's, whose
record holds the source engine in place of the lane, and ends the job (13 R410). -/
def poisonFault (p : Poison) (reg : Nat) (opnd : Option Nat) : Trap :=
  if p.code = 0x10 then storageFault 3 (some p.lane.toNat) 0 true
  else { flt p.code.toNat with
    reg := some reg, opnd := opnd, lane := some p.lane.toNat, addr := some p.addr.toNat }

/-- The check of a source of S (04 R122, 08 R282, 13 R410). -/
def chkS (x : Ctx) (r : Src) : Chk :=
  if r.reg = 0 then .ok
  else match vget x.sfill r.reg with
    | .empty => if r.trap then .bad { flt 0x03 with reg := some r.reg, opnd := r.opnd } else .wait
    | .poisoned p => .bad (poisonFault p r.reg r.opnd)
    | .full => if siteMark x.errs (.sreg r.reg) = .double then .bad (storageFault 1 (some r.reg) 0 false) else .ok

/-- The check of a destination of S: an empty one waits (04 R122). -/
def chkDest (x : Ctx) (r : BitVec 6) : Chk :=
  if r.toNat = 0 then .ok else match vget x.sfill r.toNat with | .empty => .wait | _ => .ok

/-- An s register written: full, its mark cleared; s0 discards (03 R89). -/
def writeS (r : BitVec 6) (v : W64) (x : Ctx) : Ctx :=
  if r.toNat = 0 then x
  else { x with sreg := vset x.sreg r.toNat v, sfill := vset x.sfill r.toNat .full,
                errs := x.errs.filter fun m => m.1 != .sreg r.toNat }

/-- A field written in the state. -/
def State.writeS (s : State) (c : CoreId) (r : BitVec 6) (v : W64) : State := s.modCtx c (Machine.writeS r v)

/-- Whether the S guard holds (03 R90). -/
def guardHolds (x : Ctx) (w : Common) : Bool := (sval x w.guard.toNat == 0) == w.ginv

/-- The checks of an S word's sources and destination, then its effect. -/
def sOperands (k : Wd) (srcs : List Src) (dest : Option (BitVec 6)) (body : Wd → State → Out) (s : State) : Out :=
  let x := s.ctx k.c
  match verdict (srcs.map (chkS x) ++ (match dest with | none => [] | some r => [chkDest x r])) with
  | .wait => .wait
  | .bad t => .fault t s
  | .ok => body k (s.correct k.c (srcs.map fun r => Site.sreg r.reg))

/-- The guard of an S word, then the rest (03 R90, R92). A word whose guard does not hold keeps its pop and its push; a TKSEND
then pushes a bare token, for it has no value to send (DESIGN CHOICE, log entry 105). -/
def sGuarded (w : Common) (srcs : List Src) (dest : Option (BitVec 6)) (body : Wd → State → Out) (k : Wd) (s : State) :
    Out :=
  if w.guard = 0 then sOperands k srcs dest body s
  else match chkS (s.ctx k.c) ⟨w.guard.toNat, none, false⟩ with
    | .wait => .wait
    | .bad t => .fault t s
    | .ok =>
      let s1 := s.correct k.c [.sreg w.guard.toNat]
      if guardHolds (s1.ctx k.c) w then sOperands k srcs dest body s1 else .retire none s1

/-- An S word: fields, guard, sources, destination, effect. -/
def sIssue (w : Common) (ok : Bool) (srcs : List Src) (dest : Option (BitVec 6)) (body : Wd → State → Out) (s : State) :
    State :=
  issue .s w ok false (sGuarded w srcs dest body) s

/-! S values at their width (04 R142). -/

/-- Width of an S format: 32 for I32 and N32, else 64. -/
def sWidth (fmt : BitVec 4) : Nat := if fmt = 15 then 64 else 32

/-- An operand as a signed number at the width. -/
def sInt (fmt : BitVec 4) (v : W64) : Int := intVal true (sWidth fmt) v.toNat

/-- An operand as an unsigned number at the width. -/
def sNat (fmt : BitVec 4) (v : W64) : Nat := v.toNat % 2 ^ sWidth fmt

/-- A result: clamped under `.sat`, else taken modulo 2^w, then extended to 64 bits (04 R143). -/
def sResult (fmt : BitVec 4) (sat : Bool) (x : Int) : W64 :=
  let w := sWidth fmt
  let y := if sat then clampInt (fmt != 13) w x else x
  if fmt = 10 then BitVec.ofNat 64 (intEnc true 32 64 y) else BitVec.ofNat 64 (intEnc false w 64 y)

/-! V registers. -/

/-- Physical register of a logical one (05 R167). -/
def vPhys (rrb : BitVec 5) (k : Nat) : Nat := if k < 32 then k else 32 + (k + 24 + rrb.toNat) % 32

/-- Physical register of a field now. -/
def vReg (x : Ctx) (r : BitVec 6) : Nat := vPhys x.v.rrb r.toNat

/-- A predicate by its code: p0–p7, then q0–q7 through RRB (03 R89, 05 R167). -/
def predOf (v : VState) (code : Nat) : W64 :=
  if code = 0 then BitVec.allOnes 64
  else if code < 8 then vget v.p code
  else vget v.q (qPhys v.rrb (code - 8))

/-- The mask of 05 R170: the top of the mask stack, all ones when it is empty. -/
def topMask (v : VState) : W64 := v.masks.headD (BitVec.allOnes 64)

/-- The lanes a word selects (05 R170). -/
def activeMask (v : VState) (w : Common) : W64 :=
  let g : W64 := if w.guard = 0 then BitVec.allOnes 64
    else if w.ginv then ~~~ (predOf v w.guard.toNat) else predOf v w.guard.toNat
  topMask v &&& g

/-- Lane i is set in a mask. -/
def laneOn (m : W64) (i : Nat) : Bool := m.getLsbD i

/-- Lane numbers in ascending order. -/
def lanes : List Nat := upTo 64

/-- The lanes of a mask in ascending order. -/
def onLanes (m : W64) : List Nat := lanes.filter (laneOn m)

/-- A register source of V: logical register, operand index, policy, and the lanes whose elements are read, given the
active ones. -/
structure VSrc where
  reg : Nat
  opnd : Nat
  trap : Bool
  reads : W64 → W64

/-- Sources in fa, fb, fc and fd, read on the active lanes. -/
def vA (w : Common) (r : BitVec 6) : VSrc := ⟨r.toNat, 0, w.epa, id⟩
def vB (w : Common) (r : BitVec 6) : VSrc := ⟨r.toNat, 1, w.epb, id⟩
def vC (w : Common) (r : BitVec 6) : VSrc := ⟨r.toNat, 2, w.epb, id⟩
def vD (w : Common) (r : BitVec 6) : VSrc := ⟨r.toNat, 3, w.epb, id⟩

/-- A source read on other lanes than the active ones. -/
def VSrc.on (r : VSrc) (f : W64 → W64) : VSrc := { r with reads := f }

/-- A mask of one lane. -/
def oneLane (i : Nat) : W64 := BitVec.ofNat 64 (2 ^ (i % 64))

/-- Reads that take no part of an active lane's own: some lanes of a word that has an active lane, and every lane where
it has none (05 R202; DESIGN CHOICE, log entry 94). -/
def looseReads (f : W64 → W64) (act : W64) : W64 := if act = 0 then BitVec.allOnes 64 else f act

/-- The check of a V register as a whole (05 R166, R202; 08 R282). -/
def chkV (x : Ctx) (r : VSrc) : Chk :=
  match vget x.v.fill (vPhys x.v.rrb r.reg) with
  | .full => .ok
  | .empty => if r.trap then .bad { flt 0x03 with reg := some r.reg, opnd := some r.opnd } else .wait
  | .poisoned p => .bad (poisonFault p r.reg (some r.opnd))

/-- The check of a V destination: an empty one waits (05 R166). -/
def chkVDest (x : Ctx) (r : Nat) : Chk :=
  match vget x.v.fill (vPhys x.v.rrb r) with | .empty => .wait | _ => .ok

/-- The check of one element's code (05 R174). -/
def chkElem (x : Ctx) (r : VSrc) (i : Nat) : Chk :=
  let phys := vPhys x.v.rrb r.reg
  let proof := laneOn (vget x.v.proof phys) i
  let bad : Chk := .bad
    { flt 0x10 with
      reg := some r.reg, opnd := some r.opnd, lane := some i,
      addr := some ((if proof then 0 else 2 ^ 43) + (vget x.v.writer phys).toNat) }
  match siteMark x.errs (.vel phys i) with
  | .good => .ok
  | .double => bad
  | .single => if proof then bad else .ok

/-- The checks of the elements of a source on some lanes. -/
def chkElems (x : Ctx) (r : VSrc) (m : W64) : Chk :=
  if x.errs = [] then .ok else firstBad ((onLanes m).map (chkElem x r))

/-- The elements read: their corrections. -/
def velSites (x : Ctx) (r : VSrc) (m : W64) : List Site :=
  if x.errs = [] then [] else (onLanes m).map fun i => Site.vel (vPhys x.v.rrb r.reg) i

/-- A V word's checks of its sources, destinations and elements, then its effect on the active lanes. Of several
elements in error the first in operand order, then the lowest lane, is named, after every check of a register as a whole
(DESIGN CHOICE, log entry 93). -/
def vOperands (srcs : List VSrc) (dests : List Nat) (body : Wd → W64 → State → Out) (w : Common) (k : Wd) (s : State) :
    Out :=
  let x := s.ctx k.c
  let act := activeMask x.v w
  match verdict (srcs.map (chkV x) ++ dests.map (chkVDest x) ++ srcs.map fun r => chkElems x r (r.reads act)) with
  | .wait => .wait
  | .bad t => .fault t s
  | .ok => body k act (s.correct k.c (srcs.map fun r => velSites x r (r.reads act)).flatten)

/-- A V word: fields, sources, destinations, effect. -/
def vIssue (w : Common) (ok bad : Bool) (srcs : List VSrc) (dests : List Nat) (body : Wd → W64 → State → Out)
    (s : State) : State :=
  issue .v w ok bad (vOperands srcs dests body w) s

/-- Element i of a logical register. -/
def vElem (x : Ctx) (r : BitVec 6) (i : Nat) : W32 := vget (vget x.v.regs (vReg x r)) i

/-- Elements of a physical register written on some lanes: their codes and proof flags, the writer PC, and the
full/empty bit (05 R163, R173; 08 R282). -/
def writeV (k : Wd) (phys : Nat) (m : W64) (proof : Bool) (f : Nat → W32) (x : Ctx) : Ctx :=
  if m = 0 then x
  else
    let old := vget x.v.regs phys
    let v := { x.v with
      regs := vset x.v.regs phys (Vector.ofFn fun i : Fin 64 => if laneOn m i.val then f i.val else old.get i),
      proof := vset x.v.proof phys (if proof then vget x.v.proof phys ||| m else vget x.v.proof phys &&& ~~~m),
      writer := vset x.v.writer phys (BitVec.ofNat 15 k.pc.toNat),
      fill := vset x.v.fill phys .full }
    { x with v := v, errs := x.errs.filter fun e =>
        match e.1 with | .vel r i => !(r == phys && laneOn m i) | _ => true }

/-- A field's register written on some lanes. -/
def State.writeV (s : State) (k : Wd) (r : BitVec 6) (m : W64) (proof : Bool) (f : Nat → W32) : State :=
  s.modCtx k.c fun x => Machine.writeV k (vReg x r) m proof f x

/-- Bits of a predicate written on some lanes; p0 discards (05 R163, R182). -/
def writePred (code : Nat) (m bits : W64) (x : Ctx) : Ctx :=
  let new (old : W64) : W64 := (old &&& ~~~m) ||| (bits &&& m)
  if code = 0 then x
  else if code < 8 then { x with v := { x.v with p := vset x.v.p code (new (vget x.v.p code)) } }
  else
    let j := qPhys x.v.rrb (code - 8)
    { x with v := { x.v with q := vset x.v.q j (new (vget x.v.q j)) } }

/-- A mask from a test of each lane. -/
def maskOf (f : Nat → Bool) : W64 :=
  BitVec.ofNat 64 (lanes.foldl (fun a i => if f i then a + 2 ^ i else a) 0)

/-- The 16 bits a stochastic conversion draws for each active lane in ascending order, and the generator after it (02
R68). -/
def drawLanes : List Nat → W32 → List (Nat × Nat) × W32
  | [], g => ([], g)
  | i :: t, g =>
    let g1 := lfsrStep g
    let r := drawLanes t g1
    ((i, g1.toNat % 65536) :: r.1, r.2)

/-- The mode of a lane: the drawn bits under rm 4. -/
def laneMode (rm : BitVec 3) (draws : List (Nat × Nat)) (i : Nat) : Rm :=
  if rm = 4 then .rsto ((draws.lookup i).getD 0) else Rm.ofCode rm.toNat

end Sys2Proof.Machine
end

