-- ==== Sys2Proof/Machine/Blocks.lean ====
section
/-! DEFINITION. Control blocks and the cache that holds them (09 R323–R325, R493), and reads of tables by physical
address. -/

namespace Sys2Proof.Machine

/-- What a control-block read gives. -/
inductive BlockRead where
  | bytes (bs : List Byte)
  /-- A check of 08 R281 failed. -/
  | bad (code : Nat)
  /-- Uncorrectable data: the code of the structure and the address of the lowest bad word (09 R493). -/
  | storage (code addr : Nat)
  /-- An earlier access of the stream must be performed first. -/
  | wait

/-- Offset, among the bytes of an access, of the lowest uncorrectable word that is not renewed, with the code it is
reported with. -/
def State.firstBadByte (s : State) (renewed : Nat → Nat → Bool) : List Piece → Nat → Option (Nat × Nat)
  | [], _ => none
  | p :: ps, off =>
    let k := s.keyOf p.loc
    match (upTo p.n).find? fun i =>
        markOf s.memErr (unitOf (k + i)) == .double && !renewed p.via (unitOf (k + i)) with
    | some i => some (off + (unitOf (k + i) - k), keyCode k)
    | none => s.firstBadByte renewed ps (off + p.n)

/-- The write number a stream may not miss of any of some pieces. -/
def State.boundOf (s : State) (c : CoreId) (e : Eng) (ps : List Piece) : Nat :=
  ps.foldl (fun b p => max b (((s.ctx c).stream e).view.bound (s.spanOf p))) 0

/-- The one moment at which a block in some pieces is read, as a plain read: any that its reader's view admits, and the last
write of an access to an SO page (09 R306, R323; DESIGN CHOICE, log entry 17). -/
def State.blockTime (s : State) (c : CoreId) (e : Eng) (ps : List Piece) : Nat × State :=
  let b := s.boundOf c e ps
  if ps.any (·.so) || !(ps.any fun p => s.stale (s.spanOf p) b) then (s.stamp, s)
  else
    let (d, s1) := s.drawNat
    (b + d % (s.stamp + 1 - b), s1)

/-- A read of a block from memory by stream e as of write number τ, past any cache: its own earlier stores are seen, and what
it saw it may not miss later (09 R305). `at_` gives the address of a byte of the block. -/
def State.fetchVersion (s : State) (c : CoreId) (e : Eng) (at_ : Nat → Nat) (r : Ref) (τ : Nat) : BlockRead × State :=
  let x := s.ctx c
  if s.mustHold x e r then (.wait, s)
  else match s.firstBadByte (s.renewed x e x.seq) r.pieces 0 with
    | some (off, code) => (.storage code (at_ off / 8 * 8), s)
    | none =>
      (.bytes (r.pieces.map fun p => s.runFor x e x.seq p.via τ (s.keyOf p.loc) p.n).flatten,
        (r.pieces.foldl (fun s p => s.readNoted c e 0 (s.spanOf p) τ) s).touchRef c r)

/-- A read of a block at an address from memory by stream e. -/
def State.fetchBlock (s : State) (c : CoreId) (e : Eng) (addr : Nat) (r : Ref) : BlockRead × State :=
  let t := s.blockTime c e r.pieces
  t.2.fetchVersion c e (addr + ·) r t.1

/-! Group and interpolation entries are updated live, and are seen whole (11 R372). -/

/-- The last write of a byte of some pieces up to write number τ. -/
def State.lastWrite (s : State) (ps : List Piece) (τ : Nat) : Nat :=
  s.old.foldl (fun m o => if decide (o.until_ ≤ τ) && ps.any (fun p =>
    decide (s.keyOf p.loc ≤ o.key) && decide (o.key < s.keyOf p.loc + p.n)) then max m o.until_ else m) 0

/-- The write numbers at which an entry in some pieces is whole: the last that its reader must see, the present one where at
most one write has changed the entry since, and each release that followed what had been written to the entry by then (11
R372; DESIGN CHOICE, log entry 17). -/
def State.wholeTimes (s : State) (c : CoreId) (e : Eng) (ps : List Piece) : List Nat :=
  let b := s.boundOf c e ps
  let after := (s.old.filter fun o => decide (b < o.until_) && ps.any fun p =>
    decide (s.keyOf p.loc ≤ o.key) && decide (o.key < s.keyOf p.loc + p.n)).map (·.until_)
  let released := s.rels.filter fun r => decide (b < r.from_) && ps.all fun p =>
    decide (s.lastWrite [p] (r.from_ - 1) ≤ r.tag.view.bound (s.spanOf p))
  b :: ((if after.eraseDups.length ≤ 1 then [s.stamp] else []) ++ released.map (·.from_))

/-- The moment at which such an entry is read: `at_` gives its pieces as of a write number, which may name more than its
head does. -/
def State.entryTime (s : State) (c : CoreId) (e : Eng) (head : Piece) (at_ : Nat → List Piece) : Nat × State :=
  let ps := at_ (s.boundOf c e [head])
  if !(ps.any fun p => s.stale (s.spanOf p) (s.boundOf c e ps)) then (s.stamp, s)
  else
    let (d, s1) := s.drawNat
    let ts := s.wholeTimes c e ps
    let τ := ts.getD (d % ts.length) s.stamp
    (if s.boundOf c e (at_ τ) ≤ τ then τ else s.stamp, s1)

/-- The address of a byte of an entry in the own scratchpad, whose pieces stand where they do. -/
def State.ownOffset (s : State) (c : CoreId) : List Piece → Nat → Nat
  | [], n => n
  | p :: ps, n => if n < p.n then s.keyOf p.loc - spKey c 0 + n else s.ownOffset c ps (n - p.n)

/-- A read of such an entry of the own scratchpad from memory. -/
def State.fetchEntry (s : State) (c : CoreId) (e : Eng) (head : Piece) (at_ : State → Nat → List Piece) :
    BlockRead × State :=
  let t := s.entryTime c e head (at_ s)
  let ps := at_ s t.1
  t.2.fetchVersion c e (s.ownOffset c ps) ⟨ps⟩ t.1

/-- A read of the last data by stream e, for a WAIT (04 R149): no older version can satisfy it later than the bound that
the rule gives. -/
def State.readNow (s : State) (c : CoreId) (e : Eng) (addr : Nat) (r : Ref) : BlockRead × State :=
  let x := s.ctx c
  if s.mustHold x e r then (.wait, s)
  else match s.firstBadByte (s.renewed x e x.seq) r.pieces 0 with
    | some (off, code) => (.storage code ((addr + off) / 8 * 8), s)
    | none => (.bytes (r.pieces.map (s.bytesFor x e x.seq)).flatten, s.touchRef c r)

/-- The last data of a reference acquired at a scope (09 R311, R316). -/
def State.acquireNow (s : State) (c : CoreId) (e : Eng) (scope : Nat) (r : Ref) : State :=
  r.pieces.foldl (fun s p => s.readNoted c e scope (s.spanOf p) s.stamp) s

/-- A block read through the core's cache: a hit returns the cached copy, unless the device chose to evict it first; a
miss reads memory and caches what it read (09 R324; DESIGN CHOICE, log entry 17). -/
def State.readCached (s : State) (c : CoreId) (hit : CBlock → Bool) (copy : List Byte → CBlock)
    (fetch : State → BlockRead × State) : BlockRead × State :=
  let fill (s : State) : BlockRead × State :=
    match fetch s with
    | (.bytes bs, s1) => (.bytes bs, s1.modCore c fun k => { k with cbc := copy bs :: k.cbc })
    | q => q
  match (s.core c).cbc.find? hit with
  | none => fill s
  | some b =>
    let (kept, s1) := s.drawBool
    if kept then (.bytes b.bytes, s1)
    else fill (s1.modCore c fun k => { k with cbc := k.cbc.filter fun d => !hit d })

/-- A cached copy is one of n bytes at an address. -/
def CBlock.isAt (space root addr n : Nat) (b : CBlock) : Bool :=
  b.space == space && b.root == root && b.addr == addr && b.bytes.length == n

/-- A block of n bytes at an address. -/
def State.readBlock (s : State) (c : CoreId) (e : Eng) (space root addr n : Nat) (r : Ref) : BlockRead × State :=
  s.readCached c (CBlock.isAt space root addr n) (⟨space, root, addr, ·⟩) fun s => s.fetchBlock c e addr r

/-- A block of the own scratchpad that is never cached: a copy descriptor (09 R323). -/
def State.ownFresh (s : State) (c : CoreId) (e : Eng) (off n : Nat) : BlockRead × State :=
  s.fetchBlock c e off ⟨[spPiece (spKey c off) n]⟩

/-- A little-endian field of a block. -/
def blockNat (bs : List Byte) (off n : Nat) : Nat := leNat ((bs.drop off).take n)

/-- A global read of n bytes under a root, as a control block that is not cached: the bytes, or what stopped it. -/
def State.readGlobal (s : State) (c : CoreId) (root va n : Nat) : BlockRead × State :=
  match s.globalRef c root va n .read false .visible with
  | (.bad code, s1) => (.bad code, s1)
  | (.ok r, s1) =>
    match s1.firstBadByte (fun _ _ => false) r.pieces 0 with
    | some (off, code) => (.storage code ((va + off) / 8 * 8), s1)
    | none => (.bytes ((r.pieces.map s1.bytesAt).flatten), s1)

/-- Cached copies of core c that overlap the 128 bytes around a global address are discarded (09 R325). -/
def discardAround (va : Nat) (l : List CBlock) : List CBlock :=
  let lo := va / 128 * 128
  l.filter fun b => b.space != 0 || decide (b.addr + b.bytes.length ≤ lo) || decide (lo + 128 ≤ b.addr)

end Sys2Proof.Machine
end

