-- ==== Sys2Proof/Machine/Legal.lean ====
section
/-! DEFINITION. The static checks of rows 4 and 5 of 03 R88: which field values the spec calls illegal (0x01), and
which register pairs and groups it calls illegal operands (0x02). The dynamic conditions of row 4 (ERET outside trap
mode) stand with their instruction. -/

namespace Sys2Proof.Machine

/-- A token code a word of engine e may carry (03 R85): 0 to 5, never its own engine. -/
def tokOk (e : Eng) (n : BitVec 3) : Bool := decide (n.toNat ≤ 5) && n.toNat != e.code

/-- Push and pop fields both obey 03 R85. -/
def toksOk (e : Eng) (w : Common) : Bool := tokOk e w.push && tokOk e w.pop

/-- Tokens legal and guard 0, as every M, P and C word needs (03 R90) and some V words. -/
def plainOk (e : Eng) (w : Common) : Bool := toksOk e w && w.guard == 0

/-- An s register code (03 R89). -/
def sReg (r : BitVec 6) : Bool := decide (r.toNat < 32)

/-- A predicate code (03 R89). -/
def pReg (r : BitVec 6) : Bool := decide (r.toNat < 16)

/-- A predicate code that may be written: p0 is not (05 R178). -/
def pDest (r : BitVec 6) : Bool := pReg r && r != 0

/-- A tile code (03 R89). -/
def tReg (r : BitVec 6) : Bool := decide (r.toNat < 16)

/-- An operand stream code (03 R89). -/
def osReg (r : BitVec 6) : Bool := decide (32 ≤ r.toNat) && decide (r.toNat < 40)

/-- An accumulator code (03 R89). -/
def aReg (r : BitVec 6) : Bool := decide (r.toNat < 8)

/-- Signed parcel offset at least 2, as loop forms need (04 R146, 05 R196). -/
def loopOff (f : FBr) : Bool := decide (2 ≤ f.off.toInt)

/-- Scope is read only with order ≠ 0, and codes 5–7 are illegal (03 R98). -/
def scopeOk (f : FMem) : Bool := f.order == 0 || decide (f.scope.toNat ≤ 4)

/-- rm 5–7 are reserved and rm 4 belongs to VCVT, VQNT and MDRAINT (02 R67). -/
def rm03 (rm : BitVec 3) : Bool := decide (rm.toNat ≤ 3)

/-- Formats of S arithmetic: I32, N32 and 64-bit (04 R142). -/
def sFmt (f : BitVec 4) : Bool := f == 10 || f == 13 || f == 15

/-- FP32, FP16, BF16. -/
def fFmt (f : BitVec 4) : Bool := decide (f.toNat ≤ 2)

/-- I8 to N32. -/
def iFmt (f : BitVec 4) : Bool := decide (8 ≤ f.toNat) && decide (f.toNat ≤ 13)

/-- Every format a V word may name (05 R178). -/
def anyFmt (f : BitVec 4) : Bool := f != 15

/-- Formats VCVT accepts on either side (05 R189). -/
def cvtFmt (f : BitVec 4) : Bool := decide (f.toNat ≤ 4) || (decide (8 ≤ f.toNat) && decide (f.toNat ≤ 14))

/-- MXINT8, MXINT6, MXINT4. -/
def mxFmt (f : BitVec 4) : Bool := decide (5 ≤ f.toNat) && decide (f.toNat ≤ 7)

/-! S words. -/

/-- F-RRR of S with operands fa and fb (04 R142, R143). -/
def sRrr2Ok (satOk : Bool) (f : FRrr) : Bool :=
  toksOk .s f.w && sReg f.fd && sReg f.fa && sReg f.fb && sFmt f.fmt && rm03 f.rm && (satOk || !f.sat)

/-- F-RRR of S with the one operand fa: CLZ, CTZ, POPC, MOV (04 R143). -/
def sRrr1Ok (f : FRrr) : Bool :=
  toksOk .s f.w && sReg f.fd && sReg f.fa && sFmt f.fmt && rm03 f.rm && !f.sat

/-- SEL reads fc too (04 R143). -/
def selOk (f : FRrr) : Bool := sRrr2Ok false f && sReg f.fc

/-- CMP with sub 6 or 7 is illegal (04 R143). -/
def cmpOk (f : FRrr) : Bool := sRrr2Ok false f && decide (f.sub.toNat ≤ 5)

/-- F-RRI of S (04 R142, R144). -/
def sRriOk (f : FRri) : Bool := toksOk .s f.w && sReg f.fd && sReg f.fa && sFmt f.fmt

/-- LI accepts fmt 15 only and ignores fa (04 R142, R144). -/
def liOk (f : FRri) : Bool := toksOk .s f.w && sReg f.fd && f.fmt == 15

/-- LIH with sub 0 or 1 (04 R144). -/
def lihOk (f : FRri) : Bool := toksOk .s f.w && sReg f.fd && sReg f.fa && f.fmt == 15 && decide (f.sub.toNat ≤ 1)

def brOk (f : FBr) : Bool := toksOk .s f.w && sReg f.fa && sReg f.fb && decide (f.cond.toNat ≤ 5)
def briOk (f : FBr) : Bool := toksOk .s f.w && sReg f.fa && decide (f.cond.toNat ≤ 5)
def jmpOk (f : FBr) : Bool := toksOk .s f.w
def jmprOk (f : FBr) : Bool := toksOk .s f.w && sReg f.fd && sReg f.fa
def callOk (f : FBr) : Bool := toksOk .s f.w && sReg f.fd
def retOk (f : FBr) : Bool := toksOk .s f.w && sReg f.fa
def loopOk (f : FBr) : Bool := toksOk .s f.w && loopOff f
def looprOk (f : FBr) : Bool := toksOk .s f.w && loopOff f && sReg f.fa

/-- Base and, in the indexed modes, index register of an S memory word (03 R98). -/
def sAddrOk (f : FMem) : Bool := sReg f.fa && decide (f.mode.toNat ≤ 2) && (f.mode == 0 || sReg f.fb)

def ldOk (f : FMem) : Bool :=
  toksOk .s f.w && sReg f.fd && sAddrOk f && f.space != 3 && decide (f.size.toNat ≤ 3) && decide (f.order.toNat ≤ 1)
    && scopeOk f
def stOk (f : FMem) : Bool :=
  toksOk .s f.w && sReg f.fd && sAddrOk f && f.space != 3 && decide (f.size.toNat ≤ 3)
    && (f.order == 0 || f.order == 2) && scopeOk f

/-- Operation code of an AMO, disp[13:10] (08 R285). -/
def amoOp (f : FMem) : Nat := fld f.disp.toNat 10 4

def amoOk (f : FMem) : Bool :=
  toksOk .s f.w && sReg f.fd && sReg f.fa && sReg f.fb && f.mode == 0 && decide (amoOp f ≤ 10)
    && decide (f.space.toNat ≤ 1) && (f.size == 3 || f.size == 2) && (amoOp f != 10 || f.size == 2) && scopeOk f

/-- Collating operation code of a group-space word, parcel 1 [21:17] (03 R98, 08 R291). -/
def colOp (f : FMem) : Nat := f.size.toNat * 4 + f.order.toNat

/-- Group-space form: space 3, mode 0, operation 0–12 (03 R98, 08 R291). -/
def groupOk (f : FMem) : Bool := f.space == 3 && f.mode == 0 && decide (colOp f ≤ 12)

def lcolOk (f : FMem) : Bool := toksOk .s f.w && sReg f.fd && sReg f.fa && sReg f.fb && groupOk f

/-- imm12[3:0]: engine mask V, M, P, C (04 R147). -/
def engMask (f : FSys) : Nat := fld f.imm12.toNat 0 4

def forkOk (f : FSys) : Bool :=
  toksOk .s f.w && f.sub == 0 && sReg f.fa && engMask f != 0 && fld f.imm12.toNat 4 8 == 0
def forkIOk (f : FSys) : Bool :=
  toksOk .s f.w && f.sub == 1 && decide (2 ≤ f.fd.toNat) && decide (f.fd.toNat ≤ 5)
def joinOk (f : FSys) : Bool := toksOk .s f.w && sReg f.fd && engMask f != 0
def waitOk (f : FSys) : Bool := toksOk .s f.w && sReg f.fd && sReg f.fa && sReg f.fb && decide (f.sub.toNat ≤ 1)
def tksendOk (f : FSys) : Bool := toksOk .s f.w && sReg f.fa && f.w.push != 0

/-- imm12[2:0]: an engine code. -/
def srcCode (f : FSys) : Nat := fld f.imm12.toNat 0 3

def tkrecvOk (f : FSys) : Bool := toksOk .s f.w && sReg f.fd && f.sub == 0 && f.w.pop != 0
def tkrecvDOk (f : FSys) : Bool :=
  toksOk .s f.w && sReg f.fd && f.sub == 1 && f.w.pop == 0 && decide (2 ≤ srcCode f) && decide (srcCode f ≤ 5)
def tmsetOk (f : FSys) : Bool :=
  toksOk .s f.w && sReg f.fa && decide (1 ≤ srcCode f) && decide (srcCode f ≤ 5)
    && ((f.sub == 0 && fld f.cr.toNat 6 6 == 0) || (f.sub == 1 && sReg f.fb))

/-- Control-register numbers of 04 R127. -/
def crListed (n : Nat) : Bool :=
  [0x000, 0x001, 0x002, 0x003, 0x010, 0x011, 0x012, 0x013, 0x040, 0x041, 0x042, 0x043, 0x044, 0x045, 0x050, 0x060,
    0x070, 0x071, 0x072, 0x073, 0x080, 0x081, 0x090, 0x091].contains n
    || (decide (0x020 ≤ n) && decide (n ≤ 0x02F)) || (decide (0x0A0 ≤ n) && decide (n ≤ 0x0A7))

def crdOk (f : FSys) : Bool := toksOk .s f.w && sReg f.fd && crListed f.cr.toNat
def cwrOk (f : FSys) : Bool := toksOk .s f.w && sReg f.fa && crListed f.cr.toNat

/-- Fields shared by FENCE, VFENCE, MFENCE, PFENCE, CFENCE (04 R154, 09 R314, R315): kind 0–2, scope 0–4. -/
def fenceFields (f : FSys) : Bool := f.sub != 3 && decide (fld f.imm12.toNat 0 3 ≤ 4)

def fenceOk (f : FSys) : Bool := toksOk .s f.w && fenceFields f
def publishOk (f : FSys) : Bool :=
  toksOk .s f.w && sReg f.fa && decide (1 ≤ fld f.imm12.toNat 0 3) && decide (fld f.imm12.toNat 0 3 ≤ 4)
def cbsyncOk (f : FSys) : Bool := toksOk .s f.w && f.sub == 0 && sReg f.fa
def cbsyncAllOk (f : FSys) : Bool := toksOk .s f.w && f.sub == 1
def trapOk (f : FSys) : Bool := toksOk .s f.w
def eretOk (f : FSys) : Bool := toksOk .s f.w
def haltOk (f : FSys) : Bool := toksOk .s f.w && f.sub == 0
def haltChainOk (f : FSys) : Bool := toksOk .s f.w && f.sub == 1 && sReg f.fa

/-- imm12[3] of LAUNCH: the own cluster (10 R332). -/
def launchOwn (f : FSys) : Bool := fld f.imm12.toNat 3 1 == 1

def launchOk (f : FSys) : Bool := toksOk .s f.w && sReg f.fd && sReg f.fa && (launchOwn f || sReg f.fb)
def barOk (f : FSys) : Bool := toksOk .s f.w && sReg f.fd && f.sub == 0 && decide (fld f.imm12.toNat 0 3 ≤ 4)
def pacqOk (f : FSys) : Bool := toksOk .s f.w && sReg f.fd && f.sub == 0
def prelOk (f : FSys) : Bool := toksOk .s f.w && f.sub == 0
def boostOk (f : FSys) : Bool := toksOk .s f.w && sReg f.fd && f.sub == 0
def refdefOk (f : FSys) : Bool := toksOk .s f.w && sReg f.fd && sReg f.fa && decide (f.sub.toNat ≤ 1)

/-! V words (05 R178). -/

/-- The columns rm, sat, prf and fmt of 05 R178. -/
def vCols (f : FRrr) (fmt sat prf : Bool) : Bool :=
  toksOk .v f.w && fmt && (sat || !f.sat) && (prf || !f.prf)

def vFloatOk (f : FRrr) : Bool := vCols f (fFmt f.fmt) true true && rm03 f.rm && f.sub == 0
def vMinMaxOk (f : FRrr) : Bool := vCols f (fFmt f.fmt || iFmt f.fmt) false true && rm03 f.rm && f.sub == 0
def vAbsNegOk (f : FRrr) : Bool := vCols f (fFmt f.fmt || iFmt f.fmt) true true && rm03 f.rm && f.sub == 0
def vtipOk (f : FRrr) : Bool :=
  vCols f (fFmt f.fmt) true true && rm03 f.rm && f.sub == 0 && decide (f.aux.toNat < 16)

/-- Source format of VCVT, aux[3:0] (05 R189). -/
def cvtSrc (f : FRrr) : BitVec 4 := BitVec.ofNat 4 f.aux.toNat

def vcvtOk (f : FRrr) : Bool :=
  vCols f (cvtFmt f.fmt && cvtFmt (cvtSrc f)) true true && decide (f.rm.toNat ≤ 4) && f.sub == 0
    && decide (f.aux.toNat < 16)
def vqntOk (f : FRrr) : Bool := vCols f (mxFmt f.fmt) false false && (f.rm == 0 || f.rm == 4) && f.sub == 0
def vqntBad (f : FRrr) : Bool := f.aux == f.fd
def vdqntOk (f : FRrr) : Bool := vCols f (mxFmt f.fmt) false false && rm03 f.rm && f.sub == 0
def vspl3Ok (f : FRrr) : Bool := vCols f (f.fmt == 0) false false && rm03 f.rm && f.sub == 0

/-- A group of three registers stays within v0–v31 or v32–v63 (03 R104). -/
def group3Bad (k : BitVec 6) : Bool := decide (k.toNat > 61) || k == 30 || k == 31

/-- A group of two registers starts at an even one (03 R104). -/
def group2Bad (k : BitVec 6) : Bool := k.toNat % 2 != 0

/-- A group of four registers starts at a multiple of four (03 R104). -/
def group4Bad (k : BitVec 6) : Bool := k.toNat % 4 != 0

def vIntOk (f : FRrr) : Bool := vCols f (iFmt f.fmt) true true && rm03 f.rm && f.sub == 0

/-- sub[0]: predicate form of the bitwise words (05 R182). -/
def predForm (f : FRrr) : Bool := f.sub.toNat % 2 == 1

def vBitOk (subMax : Nat) (unary : Bool) (f : FRrr) : Bool :=
  vCols f (anyFmt f.fmt) false (!predForm f) && rm03 f.rm && decide (f.sub.toNat ≤ subMax)
    && (!predForm f || (pDest f.fd && pReg f.fa && (unary || pReg f.fb)))
def vShiftOk (f : FRrr) : Bool := vCols f (anyFmt f.fmt) false true && rm03 f.rm && decide (f.sub.toNat ≤ 1)
def vcmpOk (f : FRrr) : Bool :=
  vCols f (fFmt f.fmt || iFmt f.fmt) false false && rm03 f.rm && f.sub != 7 && pDest f.fd
def vselOk (f : FRrr) : Bool := vCols f (anyFmt f.fmt) false false && rm03 f.rm && f.sub == 0 && pReg f.aux
def vmovOk (f : FRrr) : Bool :=
  vCols f (anyFmt f.fmt) false false && rm03 f.rm
    && (f.sub == 0 || (f.sub == 1 && pReg f.fa) || (f.sub == 2 && pDest f.fd)
      || (f.sub == 4 && pDest f.fd && pReg f.fa))
def vmovIotaOk (f : FRrr) : Bool := vCols f (anyFmt f.fmt) false false && rm03 f.rm && f.sub == 3
def vbcastOk (k : BitVec 3) (f : FRrr) : Bool := vCols f (anyFmt f.fmt) false false && rm03 f.rm && f.sub == k
def vpermOk (f : FRrr) : Bool := vCols f (anyFmt f.fmt) false false && rm03 f.rm && f.sub == 0
def vshiftOk (k : BitVec 3) (f : FRrr) : Bool := vCols f (anyFmt f.fmt) false false && rm03 f.rm && f.sub == k
def vredOk (f : FRrr) : Bool :=
  vCols f (anyFmt f.fmt) (f.sub == 3) false && rm03 f.rm
    && ((f.sub == 0 && fFmt f.fmt) || ((f.sub == 1 || f.sub == 2) && (fFmt f.fmt || iFmt f.fmt))
      || (f.sub == 3 && iFmt f.fmt) || f.sub == 4 || f.sub == 5 || f.sub == 6)
def vmpushOk (k : BitVec 3) (f : FRrr) : Bool :=
  vCols f (anyFmt f.fmt) false false && rm03 f.rm && f.w.guard == 0 && f.sub == k && pReg f.fa
def vmstackOk (f : FRrr) : Bool :=
  vCols f (anyFmt f.fmt) false false && rm03 f.rm && f.w.guard == 0 && f.sub == 0
def vbrOk (f : FBr) : Bool := plainOk .v f.w && pReg f.fa
def vjmpOk (f : FBr) : Bool := plainOk .v f.w
def vloopOk (f : FBr) : Bool := plainOk .v f.w && loopOff f

def vMemOk (f : FMem) (load : Bool) : Bool :=
  toksOk .v f.w && decide (f.mode.toNat ≤ 2) && (f.order == 0 || f.order == (if load then 1 else 2)) && scopeOk f
def vldOk (f : FMem) : Bool := vMemOk f true && decide (f.space.toNat ≤ 1) && decide (f.size.toNat ≤ 2)
def vstOk (f : FMem) : Bool := vMemOk f false && decide (f.space.toNat ≤ 1) && decide (f.size.toNat ≤ 2)
def vstxOk (f : FMem) : Bool := vMemOk f false && decide (f.space.toNat ≤ 2) && decide (f.size.toNat ≤ 2)
def vGlobalBad (f : FMem) : Bool := f.space == 0 && group2Bad f.fa
def vtSize (f : FMem) : Bool := decide (f.size.toNat ≤ 2) || f.size == 4
def vtldOk (f : FMem) : Bool := vMemOk f true && f.space == 2 && vtSize f
def vtstOk (f : FMem) : Bool := vMemOk f false && f.space == 2 && vtSize f
def vtBad (f : FMem) : Bool := f.size == 4 && group4Bad f.fd
def vlcolOk (f : FMem) : Bool := toksOk .v f.w && groupOk f

def vtksendOk (f : FSys) : Bool := plainOk .v f.w && f.w.push != 0 && f.sub == 0
def vtkrecvOk (f : FSys) : Bool := toksOk .v f.w && f.sub == 0 && f.w.pop != 0
def vtkrecvDOk (f : FSys) : Bool :=
  toksOk .v f.w && f.sub == 1 && f.w.pop == 0
    && (srcCode f == 1 || srcCode f == 3 || srcCode f == 4 || srcCode f == 5)
def vfenceOk (f : FSys) : Bool := plainOk .v f.w && fenceFields f

/-- Registers VCRD reads (05 R199). -/
def vcrReadable (n : Nat) : Bool :=
  [0x000, 0x001, 0x002, 0x003, 0x010, 0x011, 0x012, 0x013, 0x060, 0x070, 0x071, 0x072, 0x073, 0x080, 0x081, 0x090,
    0x091, 0x0C0, 0x0C1].contains n
    || (decide (0x020 ≤ n) && decide (n ≤ 0x02F)) || (decide (0x0A0 ≤ n) && decide (n ≤ 0x0A7))

/-- Registers VCWR accepts (05 R199). -/
def vcrWritable (n : Nat) : Bool :=
  [0x081, 0x090, 0x091, 0x0C0, 0x0C1].contains n || (decide (0x0A0 ≤ n) && decide (n ≤ 0x0A7))

def vcrdOk (f : FSys) : Bool := toksOk .v f.w && decide (f.sub.toNat ≤ 1) && vcrReadable f.cr.toNat
def vcwrOk (f : FSys) : Bool := plainOk .v f.w && decide (f.sub.toNat ≤ 1) && vcrWritable f.cr.toNat
def vendOk (f : FSys) : Bool := plainOk .v f.w

/-! M words (06 R223–R234). -/

/-- rm, sat and spar of an F-MMA word that does not convert. -/
def mmaFields (f : FMma) : Bool := plainOk .m f.w && aReg f.fd && rm03 f.rm && decide (f.spar.toNat ≤ 1)

/-- Operand formats of MMA: 1–7 and equal, E4M3 with E5M2 in either order (06 R224). -/
def mmaPair (a b : Nat) : Bool :=
  decide (1 ≤ a) && decide (a ≤ 7) && decide (1 ≤ b) && decide (b ≤ 7) && (a == b || (a == 3 && b == 4) || (a == 4 && b == 3))

/-- A format encoded for a tile operand must be 1–7 (06 R224). -/
def mmaFmt1 (a : Nat) : Bool := decide (1 ≤ a) && decide (a ≤ 7)

def mmaOk (f : FMma) : Bool :=
  mmaFields f && f.rm == 0 && !f.sat && (tReg f.fa || osReg f.fa) && (tReg f.fb || osReg f.fb)
    && (!tReg f.fa || mmaFmt1 f.fmta.toNat) && (!tReg f.fb || mmaFmt1 f.fmtb.toNat)
    && (!(tReg f.fa && tReg f.fb) || mmaPair f.fmta.toNat f.fmtb.toNat)
def maccOk (f : FMma) : Bool :=
  mmaFields f && f.fa == 0 && f.fb == 0 && f.fmta == 0 && f.fmtb == 0 && f.spar == 0 && f.rm == 0 && !f.sat && !f.clr
def mdrainOk (f : FMma) : Bool := mmaFields f && osReg f.fa && decide (f.fb.toNat ≤ 1)

/-- An 8-bit drain format. -/
def drain8 (f : FMma) : Bool := f.fmta == 3 || f.fmta == 4

def mdraintOk (f : FMma) : Bool :=
  plainOk .m f.w && aReg f.fd && decide (f.rm.toNat ≤ 4) && decide (f.spar.toNat ≤ 1)
    && decide (1 ≤ f.fmta.toNat) && decide (f.fmta.toNat ≤ 4)
    && (tReg f.fb || osReg f.fb)
    && (if tReg f.fb && drain8 f then decide (f.fa.toNat ≤ 1) else f.fa == 0)

def mMemOk (f : FMem) : Bool := plainOk .m f.w && f.mode == 0 && f.space != 3 && scopeOk f
def mtldOk (f : FMem) : Bool := mMemOk f && tReg f.fd && osReg f.fa && f.size == 5
def mosldOk (f : FMem) : Bool := mMemOk f && osReg f.fd && (osReg f.fa || f.fa == 0)
def mossetOk (f : FSys) : Bool :=
  plainOk .m f.w && osReg f.fd && decide (f.fa.toNat ≤ 10) && decide (f.sub.toNat ≤ 1)
def mossetAddOk (f : FSys) : Bool :=
  plainOk .m f.w && osReg f.fd && f.sub == 2 && (f.fa == 0 || f.fa == 4 || f.fa == 5 || f.fa == 8)
def mmodeOk (k : BitVec 2) (f : FSys) : Bool := plainOk .m f.w && f.sub == k
def mtksendOk (f : FSys) : Bool :=
  plainOk .m f.w && f.w.push != 0
    && (f.sub == 0 || (f.sub == 1 && aReg f.fa && decide (fld f.imm12.toNat 6 6 ≤ 32)
      && decide (fld f.imm12.toNat 0 6 ≤ 32)))
def mtkrecvOk (f : FSys) : Bool := plainOk .m f.w && f.w.pop != 0 && f.sub == 0
def mfenceOk (f : FSys) : Bool := plainOk .m f.w && fenceFields f
def mloopOk (f : FBr) : Bool := plainOk .m f.w && loopOff f
def mjmpOk (f : FBr) : Bool := plainOk .m f.w
def mendOk (f : FSys) : Bool := plainOk .m f.w && f.sub == 0

/-! P words (07 R250–R260, 08 R290). -/

def pSpeOk (f : FSpe) : Bool := plainOk .p f.w
def pmodeOk (f : FSys) : Bool := plainOk .p f.w && f.sub == 0 && fld f.imm12.toNat 0 2 != 3
def ptksendOk (f : FSys) : Bool := plainOk .p f.w && f.w.push != 0 && decide (f.sub.toNat ≤ 1)
def ptkrecvOk (f : FSys) : Bool := plainOk .p f.w && f.w.pop != 0 && decide (f.sub.toNat ≤ 1)
def ploopOk (f : FBr) : Bool := plainOk .p f.w && loopOff f
def pjmpOk (f : FBr) : Bool := plainOk .p f.w
def pfenceOk (f : FSys) : Bool := plainOk .p f.w && fenceFields f
def pendOk (f : FSys) : Bool := plainOk .p f.w && f.sub == 0
def pMemOk (f : FMem) (load : Bool) : Bool :=
  plainOk .p f.w && f.mode == 0 && f.space == 1 && (f.order == 0 || f.order == (if load then 1 else 2)) && scopeOk f
    && fld f.fa.toNat 2 4 == 0
def pWords (f : FMem) : Bool := decide (2 ≤ f.size.toNat) && decide (f.size.toNat ≤ 5)
def pldOk (f : FMem) : Bool := pMemOk f true && pWords f && fld f.fa.toNat 1 1 == 0
def pldShapeOk (f : FMem) : Bool := pMemOk f true && f.size == 4 && fld f.fa.toNat 1 1 == 1
def pstOk (f : FMem) : Bool := pMemOk f false && pWords f && fld f.fa.toNat 1 1 == 0

/-! C words (03 R102, 10 R346, R349). -/

/-- A command word: unit at most umax; ix needs a pop (03 R102). -/
def cpyOk (umax : Nat) (f : FCpy) : Bool := plainOk .c f.w && decide (f.unit.toNat ≤ umax) && (!f.ix || f.w.pop != 0)
def cwaitOk (k : BitVec 6) (f : FCpy) : Bool := plainOk .c f.w && f.unit == k && !f.ix
def cloopOk (f : FBr) : Bool := plainOk .c f.w && loopOff f
def cjmpOk (f : FBr) : Bool := plainOk .c f.w
def ctksendOk (k : BitVec 2) (f : FSys) : Bool := plainOk .c f.w && f.w.push != 0 && f.sub == k
def ctkrecvOk (f : FSys) : Bool := plainOk .c f.w && f.w.pop != 0 && f.sub == 0
def cfenceOk (f : FSys) : Bool := plainOk .c f.w && fenceFields f
def cendOk (f : FSys) : Bool := plainOk .c f.w && f.sub == 0

end Sys2Proof.Machine
end

