-- ==== Sys2Proof/Machine/Groups.lean ====
section
/-! DEFINITION. Group tables (11 R369, R370) and collating loads at their issue (08 R291–R298). -/

namespace Sys2Proof.Machine

/-- A group-table entry (11 R369). -/
structure Group where
  valid : Bool
  level : Nat
  fault : Bool
  tmo : Nat
  set : Nat
  listOff : Nat
  deriving DecidableEq, Repr, Inhabited

/-- The fields of an entry's 32 bytes. -/
def parseGroup (b : List Byte) : Group :=
  let ctl := blockNat b 0 4
  { valid := ctl.testBit 0, level := fld ctl 1 2, fault := ctl.testBit 3, tmo := fld ctl 16 16,
    set := blockNat b 8 8, listOff := blockNat b 0x10 4 }

/-- Bytes of an entry (11 R369). -/
def groupSize : Nat := 32

/-- Offset of entry g in the own scratchpad (11 R369). -/
def groupOff (g : Nat) : Nat := 0xF6000 + 32 * (g % 256)

/-- Entry g read as a control block (09 R323). -/
def State.readGroup (s : State) (c : CoreId) (e : Eng) (g : Nat) : BlockRead × State :=
  let p := spPiece (spKey c (groupOff g)) groupSize
  s.readCached c (CBlock.isAt 1 0 (groupOff g) groupSize) (⟨1, 0, groupOff g, ·⟩) fun s =>
    s.fetchEntry c e p fun _ _ => [p]

/-- Core mask of a cluster-level entry. -/
def Group.members (g : Group) : Nat := g.set % 2 ^ 48

/-- A cluster-level entry that may be used. -/
def Group.clusterOk (g : Group) : Bool := g.valid && g.level == 0 && g.members != 0

/-- Device-wide cores of a mask of cluster cl, ascending. -/
def maskCores (cl : ClusterId) (mask : Nat) : List Nat :=
  ((upTo 48).filter fun i => mask.testBit i).map fun i => cl.val * 48 + i

/-- A member is absent: power-gated, drained or under repair (08 R295). -/
def State.absent (s : State) (c : CoreId) : Bool :=
  let k := s.core c
  let sv := (s.cluster (clusterOf c)).service
  k.power != .on || k.hold || k.logicFailed || k.tripped || sv == .drained || sv == .testing || sv == .returning

/-- What a lane's collating load comes to at issue. -/
inductive ColStart where
  | ok (e : ColEl) (absent : List Nat) (s : State)
  | bad (t : Trap) (s : State)
  | wait

/-- The checks of the offset of a collating load (08 R292). -/
def colOffset (op : Nat) (lane : Option Nat) (off : Nat) : Option Trap :=
  if 2 ^ 20 < off + colBytes op then some (accessFault 0x05 off lane 0)
  else if off % colBytes op ≠ 0 then some (accessFault 0x06 off lane 0)
  else none

/-- A collating load with its entry read: the checks of the entry and of absent members (08 R294, R295). -/
def State.collateWith (s : State) (c : CoreId) (op : Nat) (lane : Option Nat) (off g : Nat) (b : List Byte) : ColStart :=
  let t := parseGroup b
  if !t.clusterOk then .bad (fltAddr 0x02 (g % 256)) s
  else
    let cores := maskCores (clusterOf c) t.members
    let gone := cores.filter fun m => s.absent (coreAt m)
    if t.fault && !gone.isEmpty then .bad { fltAddr 0x30 (gone.headD 0 % 48) with lane := some (lane.getD 0) } s
    else .ok ⟨c.val, lane.getD 0, op, off, cores.map fun m => (m, gone.contains m)⟩ (gone.map fun m => m % 48) s

/-- The issue of one collating load of engine e: offset checks, the entry, absent members (08 R292–R295). -/
def State.startCollate (s : State) (c : CoreId) (e : Eng) (op : Nat) (lane : Option Nat) (off g : Nat) : ColStart :=
  match colOffset op lane off with
  | some t => .bad t s
  | none =>
    match s.readGroup c e g with
    | (.wait, _) => .wait
    | (.bad code, s1) => .bad (fltAddr code (groupOff g)) s1
    | (.storage code a, s1) => .bad (fltAddr code a) s1
    | (.bytes b, s1) => s1.collateWith c op lane off g b

/-! Entries with a member list (11 R369). -/

/-- Cluster masks of a device-level list: each cluster of the set with its word. -/
def clusterMasks (set : Nat) (list : List Byte) : List (Nat × Nat) :=
  let cls := (upTo 24).filter fun i => set.testBit i
  ((upTo cls.length).zip cls).map fun p => (p.2, blockNat list (8 * p.1) 8 % 2 ^ 48)

/-- Strictly ascending. -/
def ascending : List Nat → Bool
  | a :: b :: t => decide (a < b) && ascending (b :: t)
  | _ => true

/-- Bytes of the member list of an entry at device or fabric level. -/
def Group.listLen (g : Group) : Nat := if g.level = 1 then 8 * bitCount (g.set % 2 ^ 24) 24 else g.set % 512

/-- The members a list names: device-wide cores, or devices (11 R369). -/
def Group.named (g : Group) (list : List Byte) : List Nat :=
  if g.level = 1 then ((clusterMasks (g.set % 2 ^ 24) list).map fun p => maskCores (clusterAt p.1) p.2).flatten
  else list.map (·.toNat)

/-- The list is in form: no zero mask, or ascending devices. -/
def Group.listOk (g : Group) (list : List Byte) : Bool :=
  if g.level = 1 then (clusterMasks (g.set % 2 ^ 24) list).all fun p => p.2 != 0 else ascending (list.map (·.toNat))

/-- The entry is valid at device or fabric level but for its list (11 R369). -/
def Group.deviceOk (g : Group) : Bool :=
  g.valid && (g.level == 1 || g.level == 2) && g.tmo != 0 && decide (0 < g.listLen)
    && (g.level == 1 || decide (g.set % 512 ≤ 256)) && (g.level == 2 || g.listOff % 8 == 0)
    && decide (g.listOff + g.listLen ≤ 2 ^ 20)

/-- The address space under which an entry with its list is cached as one block. -/
def entrySpace : Nat := 5

/-- The pieces of the entry at an offset and of its list as they stood at write number τ, the list where the entry may have
one. -/
def State.entryPieces (s : State) (c : CoreId) (e : Eng) (a τ : Nat) : List Piece :=
  let x := s.ctx c
  let p := spPiece (spKey c a) groupSize
  let g := parseGroup (s.runFor x e x.seq 5 τ (spKey c a) groupSize)
  p :: if g.deviceOk then [spPiece (spKey c g.listOff) g.listLen] else []

/-- A group entry with its member list, read by stream e at one moment as one control block, through the core's cache (09
R324; 11 R369, R372): the bytes of the entry, then those of its list. A cached copy of the entry alone serves where it has no
list. -/
def State.readEntry (s : State) (c : CoreId) (e : Eng) (gi : Nat) : BlockRead × State :=
  let a := groupOff gi
  let alone (b : CBlock) : Bool := b.isAt 1 0 a groupSize && !(parseGroup b.bytes).deviceOk
  s.readCached c (fun b => alone b || b.space == entrySpace && b.addr == a) (⟨entrySpace, 0, a, ·⟩) fun s =>
    s.fetchEntry c e (spPiece (spKey c a) groupSize) fun s τ => s.entryPieces c e a τ

end Sys2Proof.Machine
end

