-- ==== Sys2Proof/Machine/Cmds.lean ====
section
/-! DEFINITION. Copy and column commands: their descriptors, ranges, units and places (10 R343–R346), and collectives (10
R348, 11 R369, R370; 14 R442). -/

namespace Sys2Proof.Machine

/-- An address of a command: in global (0) or scratchpad (1) space, or in a lane's tower of a core named as 0–47 or 63 for
the own core (10 R345). -/
inductive CAddr where
  | mem (space addr : Nat)
  | tower (core lane off : Nat)
  deriving DecidableEq, Repr, Inhabited

/-- A range of a command. -/
structure Run where
  place : CAddr
  n : Nat
  deriving DecidableEq, Repr, Inhabited

/-- The same place n bytes on. -/
def CAddr.plus (a : CAddr) (n : Nat) : CAddr :=
  match a with
  | .mem sp x => .mem sp (x + n)
  | .tower c l o => .tower c l (o + n)

/-- The address as a record holds it: the S form for towers (08 R265, 10 R345). -/
def CAddr.value : CAddr → Nat
  | .mem _ x => x
  | .tower _ l o => l * 2 ^ 18 + o

/-! Descriptor fields (10 R345). -/

/-- LANES as lane numbers, ascending. -/
def laneList (d : List Byte) : List Nat := (upTo 64).filter fun i => (blockNat d 0x18 8).testBit i

/-- The cores a CPYBC of column k names, ascending. -/
def colCores (d : List Byte) (k : Nat) : List Nat :=
  ((upTo 6).filter fun i => (blockNat d 0x10 1).testBit i).map fun i => 6 * k + i

/-- The selected (core, lane) pairs of a CPYBC, ascending. -/
def colPairs (d : List Byte) (k : Nat) : List (Nat × Nat) :=
  ((colCores d k).map fun c => (laneList d).map fun l => (c, l)).flatten

/-- Address of row r of a CPY2D side. -/
def rowAt (base pitch r : Nat) : Nat := (base + r * ((pitch + 2 ^ 64 - if 2 ^ 31 ≤ pitch then 2 ^ 32 else 0) % 2 ^ 64)) % 2 ^ 64

/-- A non-zero multiple of 16. -/
def len16 (n : Nat) : Bool := n != 0 && n % 16 == 0

/-- Core field of CPYEX. -/
def coreField (n : Nat) : Bool := decide (n ≤ 47) || n == 63

/-- Byte offset of the lowest field out of range (10 R343 step 3, R345). -/
def fieldBad (op : CmdOp) (d : List Byte) : Option Nat :=
  let n (o len : Nat) : Nat := blockNat d o len
  let len4 (v : Nat) : Bool := v != 0 && v % 4 == 0
  let ssp := n 0x14 1
  let spaces := decide (ssp % 4 ≤ 1) && decide (ssp / 4 % 4 ≤ 1)
  let checks : List (Nat × Bool) := match op with
    | .cpy => [(0, n 0 8 % 4 == 0), (8, n 8 8 % 4 == 0), (0x10, len4 (n 0x10 4) && decide (n 0x10 4 ≤ 2 ^ 24)),
        (0x14, spaces)]
    | .cpy2d => [(0, n 0 8 % 4 == 0), (8, n 8 8 % 4 == 0), (0x10, len4 (n 0x10 4)), (0x14, spaces),
        (0x16, n 0x16 2 != 0), (0x18, n 0x18 4 % 4 == 0), (0x1C, n 0x1C 4 % 4 == 0)]
    | .cpys => [(8, n 8 8 % 4 == 0), (0x10, len4 (n 0x10 4) && decide (n 0x10 4 ≤ 2 ^ 24)),
        (0x14, decide (ssp / 4 % 4 ≤ 1))]
    | .cpytw => [(8, n 8 4 % 16 == 0), (0x0C, n 0x0C 4 % 16 == 0 && decide (n 0x10 4 ≤ n 0x0C 4)),
        (0x10, len16 (n 0x10 4)), (0x14, decide (ssp ≤ 1)), (0x18, n 0x18 8 != 0)]
    | .cpyex => [(0, n 0 4 % 16 == 0), (4, n 4 4 % 16 == 0), (8, coreField (n 8 1)), (9, coreField (n 9 1)),
        (0x0A, decide (n 0x0A 1 ≤ 63)), (0x10, len16 (n 0x10 4)), (0x18, n 0x18 8 != 0)]
    | .cpybc => [(0, n 0 8 % 64 == 0), (8, n 8 4 % 64 == 0), (0x0C, n 0x0C 4 != 0 && decide (n 0x0C 4 ≤ 65535)),
        (0x10, n 0x10 1 % 64 != 0), (0x11, decide (n 0x11 1 ≤ 1)), (0x18, n 0x18 8 != 0)]
    | .ccoll => [(0x10, n 0x10 4 != 0 && decide (n 0x10 4 ≤ 2 ^ 20)), (0x14, decide (n 0x14 1 ≤ 12)),
        (0x15, n 0x15 1 == 1 || n 0x15 1 == 2)]
  (checks.find? fun c => !c.2).map (·.1)

/-- Source ranges, in the order of the units. -/
def srcRuns (op : CmdOp) (d : List Byte) : List Run :=
  let n (o len : Nat) : Nat := blockNat d o len
  match op with
  | .cpy => [⟨.mem (n 0x14 1 % 4) (n 0 8), n 0x10 4⟩]
  | .cpy2d => (upTo (n 0x16 2)).map fun r => ⟨.mem (n 0x14 1 % 4) (rowAt (n 0 8) (n 0x18 4) r), n 0x10 4⟩
  | .cpys => []
  | .cpytw => (laneList d).map fun i =>
      if n 0x14 1 = 0 then ⟨.tower 63 i (n 8 4), n 0x10 4⟩ else ⟨.mem 0 (n 0 8 + i * n 0x0C 4), n 0x10 4⟩
  | .cpyex => (laneList d).map fun i => ⟨.tower (n 8 1) i (n 0 4), n 0x10 4⟩
  | .cpybc => [⟨.mem 0 (n 0 8), 64 * n 0x0C 4⟩]
  | .ccoll => []

/-- Destination ranges, in the order of the units; those of a CPYBC are its towers, and those of a CCOLL hold a word of 4 bytes
per element, also where the members' elements have 2 (DESIGN CHOICE, log entry 110). -/
def dstRuns (op : CmdOp) (d : List Byte) (col : Nat) : List Run :=
  let n (o len : Nat) : Nat := blockNat d o len
  match op with
  | .cpy => [⟨.mem (n 0x14 1 / 4 % 4) (n 8 8), n 0x10 4⟩]
  | .cpy2d => (upTo (n 0x16 2)).map fun r => ⟨.mem (n 0x14 1 / 4 % 4) (rowAt (n 8 8) (n 0x1C 4) r), n 0x10 4⟩
  | .cpys => [⟨.mem (n 0x14 1 / 4 % 4) (n 8 8), n 0x10 4⟩]
  | .cpytw => (laneList d).map fun i =>
      if n 0x14 1 = 0 then ⟨.mem 0 (n 0 8 + i * n 0x0C 4), n 0x10 4⟩ else ⟨.tower 63 i (n 8 4), n 0x10 4⟩
  | .cpyex => (laneList d).map fun i => ⟨.tower (n 9 1) ((i + n 0x0A 1) % 64) (n 4 4), n 0x10 4⟩
  | .cpybc =>
    let ps := colPairs d col
    let m := ps.length
    let slices (p : Nat) : Nat := if n 0x11 1 = 0 then n 0x0C 4 else (n 0x0C 4 + (m - 1 - p)) / m
    ((upTo m).zip ps).map fun q => ⟨.tower q.2.1 q.2.2 (n 8 4), 64 * slices q.1⟩
  | .ccoll => [⟨.mem 0 (n 8 8), 4 * n 0x10 4⟩]

/-- Bytes of one unit (10 R344). -/
def unitSize : Nat := 64

/-- Units of a command. -/
def Cmd.total (c : Cmd) : Nat :=
  let runs := dstRuns c.op c.desc c.col
  match c.op with
  | .cpybc => blockNat c.desc 0x0C 4
  | _ => (runs.map fun r => ceilDiv r.n unitSize).foldl (· + ·) 0

/-- What one unit moves: n bytes from a source to one or more destinations. -/
structure Move where
  src : CAddr
  dsts : List CAddr
  n : Nat
  deriving DecidableEq, Repr, Inhabited

/-- Unit u of runs of one length, in run order then ascending offset. -/
def runUnit (srcs dsts : List Run) (u : Nat) : Move :=
  let len := (dsts.headD default).n
  let per := ceilDiv len unitSize
  let r := u / per
  let off := unitSize * (u % per)
  ⟨(srcs.getD r default).place.plus off, [(dsts.getD r default).place.plus off], min unitSize (len - off)⟩

/-- Unit u of a command (10 R346). -/
def Cmd.move (c : Cmd) (u : Nat) : Move :=
  match c.op with
  | .cpybc =>
    let n (o len : Nat) : Nat := blockNat c.desc o len
    let ps := colPairs c.desc c.col
    let at_ (p : Nat × Nat) (s : Nat) : CAddr := .tower p.1 p.2 (n 8 4 + 64 * s)
    let dsts := if n 0x11 1 = 0 then ps.map fun p => at_ p u
      else [at_ (ps.getD (u % ps.length) (0, 0)) (u / ps.length)]
    ⟨.mem 0 (n 0 8 + 64 * u), dsts, 64⟩
  | _ => runUnit (srcRuns c.op c.desc) (dstRuns c.op c.desc c.col) u

/-! Overlap (10 R344). -/

/-- Two address fields name the same scratchpad byte form: 63 is the own core (09 R303). -/
def ownForm (c : CoreId) (a : Nat) : Nat := if a / 2 ^ 20 = 63 then coreIn c * 2 ^ 20 + a % 2 ^ 20 else a

/-- A range as a space, a tower identity, a start and a length, in one form. -/
def Run.form (c : CoreId) (r : Run) : Nat × Nat × Nat × Nat :=
  match r.place with
  | .mem sp x => (sp, 0, if sp = 1 then ownForm c x else x, r.n)
  | .tower t l o => (2, (if t = 63 then coreIn c else t) * 64 + l, o, r.n)

/-- Two ranges overlap through the same space and address form. -/
def runsMeet (c : CoreId) (a b : Run) : Bool :=
  let p := a.form c
  let q := b.form c
  p.1 == q.1 && p.2.1 == q.2.1 && decide (p.2.2.1 < q.2.2.1 + q.2.2.2) && decide (q.2.2.1 < p.2.2.1 + p.2.2.2)

/-- Some source meets some destination. -/
def overlaps (c : CoreId) (op : CmdOp) (d : List Byte) (col : Nat) : Bool :=
  (srcRuns op d).any fun a => (dstRuns op d col).any (runsMeet c a)

/-! Range checks (10 R343 step 4, R346). -/

/-- What the checks of a command's ranges come to: the translations they took, or the fault. -/
inductive RunCheck where
  | ok (pages : List TlbEnt) (s : State)
  | bad (t : Trap) (s : State)

/-- The device-wide core a tower field names. -/
def namedCore (c : CoreId) (f : Nat) : CoreId := if f = 63 then c else coreAt ((clusterOf c).val * 48 + f)

/-- The jobs on two cores belong to one gang: the jobs of one launch whose ticket says so (01 R37). -/
def State.gangMates (s : State) (c d : CoreId) : Bool :=
  match (s.core c).job, (s.core d).job with
  | some a, some b => a.tk.gang && b.tk.gang && a.launch == b.launch
  | _, _ => false

/-- A fault of a range: its address, and OPND 0 for a source and 1 for a destination. -/
def runFault (code addr opnd : Nat) : Trap := { fltAddr code addr with opnd := some opnd }

/-- The global pages of a range, ascending. -/
def State.checkPages (s : State) (c : CoreId) (root : Nat) (use : Use) (opnd : Nat) :
    List (Nat × Nat) → List TlbEnt → RunCheck
  | [], pages => .ok pages s
  | (va, n) :: ps, pages =>
    if 2 ^ 48 < va + n then .bad (runFault 0x05 va opnd) s
    else match s.translate c root va with
      | (none, s1) => .bad (runFault 0x04 va opnd) s1
      | (some t, s1) =>
        let r := s1.placeIn t va n use false (if use = .write then .hidden else .visible)
        if r.2 ≠ 0 then .bad (runFault r.2 va opnd) s1
        else s1.checkPages c root use opnd ps (if pages.contains t then pages else t :: pages)

/-- One range checked (08 R281). -/
def State.checkRun (s : State) (c : CoreId) (root : Nat) (use : Use) (opnd : Nat) (r : Run) (pages : List TlbEnt) :
    RunCheck :=
  match r.place with
  | .mem sp a =>
    if r.n = 0 then .ok pages s
    else if sp = 1 then (if spForm a r.n then .ok pages s else .bad (runFault 0x05 a opnd) s)
    else s.checkPages c root use opnd (cutPages a r.n (r.n / 2 ^ 16 + 2)) pages
  | .tower f lane off =>
    let d := namedCore c f
    let a := r.place.value
    if d ≠ c ∧ s.gangMates c d = false then .bad (runFault 0x05 f opnd) s
    else if r.n = 0 then .ok pages s
    else if 2 ^ 18 < off + r.n then .bad (runFault 0x05 a opnd) s
    else if s.footprint d < off + r.n then .bad (runFault 0x05 a opnd) s
    else if !(vget (s.core d).imp lane).av then .bad { runFault 0x12 a opnd with lane := some lane } s
    else .ok pages s

/-- Ranges checked in order. -/
def State.checkRuns (s : State) (c : CoreId) (root : Nat) (use : Use) (opnd : Nat) : List Run → List TlbEnt → RunCheck
  | [], pages => .ok pages s
  | r :: rs, pages =>
    match s.checkRun c root use opnd r pages with
    | .bad t s1 => .bad t s1
    | .ok p s1 => s1.checkRuns c root use opnd rs p

/-- Address of a range. -/
def Run.addr (r : Run) : Nat := r.place.value

/-- An element put before the first whose key is not below its own; a list in ascending order of its keys. -/
def insertUp {α : Type} (key : α → Nat) (a : α) : List α → List α
  | [] => [a]
  | b :: t => if key a ≤ key b then a :: b :: t else b :: insertUp key a t
def sortUp {α : Type} (key : α → Nat) (l : List α) : List α := l.foldr (insertUp key) []

/-- The ranges of one side of a command checked: those of a CPY2D, whose rows may descend, by ascending address, and in
global space page by page (10 R343 step 4). -/
def State.checkSide (s : State) (c : CoreId) (root : Nat) (op : CmdOp) (use : Use) (opnd : Nat) (rs : List Run)
    (pages : List TlbEnt) : RunCheck :=
  if op = .cpy2d then
    let up := sortUp Run.addr rs
    match rs with
    | ⟨.mem 0 _, _⟩ :: _ =>
      let parts := (up.map fun r => cutPages r.addr r.n (r.n / 2 ^ 16 + 2)).flatten
      s.checkPages c root use opnd (sortUp (·.1) parts) pages
    | _ => s.checkRuns c root use opnd up pages
  else s.checkRuns c root use opnd rs pages

/-- Sources, then destinations. -/
def State.checkCmd (s : State) (c : CoreId) (root : Nat) (op : CmdOp) (d : List Byte) (col : Nat) : RunCheck :=
  match s.checkSide c root op .read 0 (srcRuns op d) [] with
  | .bad t s1 => .bad t s1
  | .ok pages s1 => s1.checkSide c root op .write 1 (dstRuns op d col) pages

/-! Collectives. -/

/-- The group entry and member list a CCOLL reads at issue: members by device-wide core or device number, with absent ones
marked. -/
inductive CollRead where
  | ok (g : Group) (members : List (Nat × Nat)) (s : State)
  | bad (t : Trap) (s : State)
  | wait

/-- A member of an entry is absent: a core that 08 R295 calls so. A device is not: its member reads are accesses to target 3
under the checks of 14 R439. -/
def State.memberGone (s : State) (g : Group) (m : Nat) : Bool := g.level == 1 && s.absent (coreAt m)

/-- The group of a CCOLL descriptor (10 R348, 11 R369). -/
def State.readCollective (s : State) (c : CoreId) (d : List Byte) : CollRead :=
  let gi := blockNat d 0x16 1
  match s.readEntry c .c gi with
  | (.storage code a, s1) => .bad (fltAddr code a) s1
  | (.bad code, s1) => .bad (fltAddr code (groupOff gi)) s1
  | (.wait, _) => .wait
  | (.bytes b, s1) =>
    let g := parseGroup b
    let l := b.drop groupSize
    if !g.deviceOk || g.level != blockNat d 0x15 1 || !g.listOk l then .bad (fltAddr 0x02 gi) s1
    else
      let ms := g.named l
      match g.fault, ms.find? (s1.memberGone g) with
      | true, some m => .bad (fltAddr 0x30 m) s1
      | _, _ => .ok g (ms.map fun m => (m, if s1.memberGone g m then 1 else 0)) s1

/-- The range of a collective's destination lies in the range of an active publish entry (10 R348). -/
def State.inPublished (s : State) (va n : Nat) : Bool :=
  s.dev.pubs.any fun p =>
    s.dev.pactive.getLsbD p.1 && decide (p.2.vabase ≤ va) && decide (va + n ≤ p.2.vabase + p.2.len * 2 ^ 16)

/-- Bytes one member contributes from its first element on. -/
def collBytes (d : List Byte) : Nat := blockNat d 0x10 4 * colBytes (blockNat d 0x14 1)

/-- The source range fits its space: the scratchpad, or in each device what its routing entry records, of this one the live
HBM (08 R281 row 4; 14 R439). -/
def State.collSource (s : State) (d : List Byte) (members : List (Nat × Nat)) : Bool :=
  let o := blockNat d 0 8
  if blockNat d 0x15 1 = 1 then decide (o + collBytes d ≤ 2 ^ 20)
  else members.all fun m =>
    let cap := if s.dev.devnum.map (·.toNat) = some m.1 then some s.hbmCap else s.route m.1
    decide (o + collBytes d ≤ 2 ^ 39) && (match cap with | none => false | some n => decide (o + collBytes d ≤ n))

/-- The reduction is made in the switches: a fabric-level source inside the window (14 R442). -/
def State.switched (s : State) (d : List Byte) : Bool :=
  let o := blockNat d 0 8
  let lo := s.dev.rwbase.toNat * 2 ^ 21
  blockNat d 0x15 1 == 2 && decide (lo ≤ o) && decide (o + collBytes d ≤ lo + s.dev.rwlen.toNat * 2 ^ 21)

/-- Key of element k of a member: elements of the size of the members' format (10 R348; log entry 110). -/
def State.memberKey (s : State) (c : Cmd) (m k : Nat) : Nat :=
  let o := blockNat c.desc 0 8 + k * colBytes (blockNat c.desc 0x14 1)
  if blockNat c.desc 0x15 1 = 1 then spKey (coreAt m) o else s.keyOfPa (3 * 2 ^ 48 + m * 2 ^ 40 + o)

/-- The members of a tree grouped under one level more: by cluster, by leaf switch, or all together (11 R370, 14 R442). -/
def Cmd.branches (c : Cmd) : List (List (Nat × Nat)) :=
  let live := c.members.filter fun m => m.2 != 2
  let split (f : Nat → Nat) : List (List (Nat × Nat)) :=
    let keys := (sortUp (fun q => q) (live.map fun m => f m.1)).eraseDups
    keys.map fun q => live.filter fun m => f m.1 == q
  if blockNat c.desc 0x15 1 = 1 then split (· / 48)
  else if c.inSwitch then split Config.leafSwitch
  else live.map fun m => [m]

/-- Element k of member m as a run, in the form the read names it by (09 R303). -/
def State.memberSpan (s : State) (c : Cmd) (m k : Nat) : Span :=
  let dev := blockNat c.desc 0x15 1 == 1
  ⟨s.memberKey c m k, colBytes (blockNat c.desc 0x14 1), if dev then (if m = c.core.val then 5 else 7) else 3, false⟩

/-! What a command's accesses see (09 R317; log entry 91). -/

/-- One run read by a command under a view, part by part, each at a write number of its own; a tower as it stands when the
read is performed (08 R273). -/
def State.cmdParts (s : State) (d : Cmd) (v : View) (sp : Span) : List (Nat × Nat) → (List Byte × Cmd) × State
  | [] => (([], d), s)
  | (k, n) :: ps =>
    let part : Span := { sp with lo := k, n := n }
    let (τ, s1) := if sp.via = 6 then (s.stamp, s) else s.readTime v part
    let seen := if s1.stale part (v.bound part) then d.seen.note part τ else d.seen
    let r := s1.cmdParts { d with seen := seen, observed := d.observed ++ s1.tagsAt part τ } v sp ps
    ((s1.cellsAsOf τ k n ++ r.1.1, r.1.2), r.2)

/-- One run read by a command under a view. -/
def State.cmdRun (s : State) (d : Cmd) (v : View) (sp : Span) : (List Byte × Cmd) × State :=
  s.cmdParts d v sp (if s.stale sp (v.bound sp) then atomicParts sp.lo sp.via sp.n sp.n else [(sp.lo, sp.n)])

/-- Element k of each live member read in turn. -/
def State.memberVals (s : State) (d : Cmd) (v : View) (k : Nat) : List (Nat × Nat) → (List (Nat × W32) × Cmd) × State
  | [] => (([], d), s)
  | m :: ms =>
    let op := blockNat d.desc 0x14 1
    let r : (W32 × Cmd) × State :=
      if m.2 = 1 then ((colIdentity op, d), s)
      else
        let q := s.cmdRun d v (s.memberSpan d m.1 k)
        ((colMember op q.1.1, q.1.2), q.2)
    let rest := r.2.memberVals r.1.2 v k ms
    (((m.1, r.1.1) :: rest.1.1, rest.1.2), rest.2)

/-- Element k of the result. -/
def State.collElem (s : State) (d : Cmd) (v : View) (k : Nat) : (W32 × Cmd) × State :=
  let op := blockNat d.desc 0x14 1
  let r := s.memberVals d v k (d.members.filter fun m => m.2 != 2)
  let val (m : Nat × Nat) : W32 := (r.1.1.lookup m.1).getD (colIdentity op)
  ((collateTree op (d.branches.map fun b => collateTree op (b.map val)), r.1.2), r.2)

/-- Elements of the result, each as its bytes. -/
def State.collElems (s : State) (d : Cmd) (v : View) : List Nat → (List Byte × Cmd) × State
  | [] => (([], d), s)
  | k :: ks =>
    let q := s.collElem d v k
    let r := q.2.collElems q.1.2 v ks
    ((leBytes 4 q.1.1.toNat ++ r.1.1, r.1.2), r.2)

/-- Elements of the chunk that starts at unit u: at most 4 KiB of results. -/
def Cmd.chunkElems (c : Cmd) (u : Nat) : List Nat :=
  let first := u * 16
  (upTo (min 1024 (blockNat c.desc 0x10 4 - first))).map (first + ·)

/-- The first uncorrectable member value of a chunk: its code and offset. -/
def State.chunkBad (s : State) (c : Cmd) (u : Nat) : Option (Nat × Nat) :=
  let n := colBytes (blockNat c.desc 0x14 1)
  let hit (k : Nat) : Option (Nat × Nat) :=
    (c.members.find? fun m => m.2 == 0 && s.badData (s.memberKey c m.1 k) n).map
      fun m => (keyCode (s.memberKey c m.1 k), blockNat c.desc 0 8 + k * n)
  (c.chunkElems u).findSome? hit

end Sys2Proof.Machine
end

