-- ==== Sys2Proof/Machine/CCopy.lean ====
section
/-! DEFINITION. The copy and column command words of C (10 R343, R345, R346, R348; 03 R102). -/

namespace Sys2Proof.Machine

/-- The commands of a queue. -/
def Cluster.cmds (k : Cluster) (u : CopyUnit) : List Cmd :=
  match u with
  | .engine i => k.engines.get i
  | .column i => k.columns.get i

/-- The commands of a queue replaced. -/
def Cluster.setCmds (k : Cluster) (u : CopyUnit) (l : List Cmd) : Cluster :=
  match u with
  | .engine i => { k with engines := k.engines.set i.val l i.isLt }
  | .column i => { k with columns := k.columns.set i.val l i.isLt }

/-- Slots of a queue (10 R326). -/
def queueDepth : CopyUnit → Nat
  | .engine _ => 16
  | .column _ => 8

/-- The queue has a free slot. -/
def Cluster.hasSlot (k : Cluster) (u : CopyUnit) : Bool := decide ((k.cmds u).length < queueDepth u)

/-- The queue a command enters: the one named, or for unit 8 the lowest engine with a free slot (10 R343). -/
def Cluster.pickQueue (k : Cluster) (op : CmdOp) (unit : Nat) : Option CopyUnit :=
  let named : CopyUnit := if op = .cpybc then .column (Fin.ofNat 8 unit) else .engine (Fin.ofNat 8 unit)
  if unit = 8 then ((upTo 8).map fun i => CopyUnit.engine (Fin.ofNat 8 i)).find? k.hasSlot
  else if k.hasSlot named then some named else none

/-- A command counted by its tag: OUT rises, and DONE starts anew from an OUT of 0 (10 R343). -/
def tagIssue (tag : Nat) (x : Ctx) : Ctx :=
  { x with tags := vmod x.tags tag fun t => { t with out := t.out + 1, done := if t.out = 0 then 0 else t.done },
           cseq := x.cseq + 1 }

/-- A command entered in a queue with its tag counted (10 R343 step 6), and with its number, which C has issued. -/
def State.enterCmd (s : State) (cl : ClusterId) (u : CopyUnit) (d : Cmd) : State :=
  ((s.modCluster cl fun q => q.setCmds u (q.cmds u ++ [{ d with id := s.dev.issues }])).modCtx d.core
    (tagIssue d.tag)).numbered d.core .c

/-- A command with nothing performed yet. -/
def newCmd (f : FCpy) (op : CmdOp) (d : List Byte) (members : List (Nat × Nat)) (pages : List TlbEnt) (c : CoreId)
    (s : State) : Cmd :=
  { core := c, op := op, tag := f.tag.toNat, desc := d, col := f.unit.toNat, root := s.rootOf c, pages := pages, unit := 0,
    seq := (s.ctx c).cseq, fences := (s.ctx c).cfences, members := members, tries := 0,
    inSwitch := op == .ccoll && s.switched d, chunk := [], buf := [], wrote := false, view := ((s.ctx c).stream .c).view,
    seen := ⟨0, [], []⟩, observed := [], failed := false, ahead := [], id := 0 }

/-- What a command that waits for a slot keeps of its issue: its descriptor, its translations, its members (10 R343). -/
def cmdSnap (d : List Byte) (members : List (Nat × Nat)) (pages : List TlbEnt) : List Snap :=
  .block d :: pages.map Snap.page ++ members.map fun m => Snap.member m.1 m.2

/-- The translations kept. -/
def snapPages (l : List Snap) : List TlbEnt := l.filterMap fun e => match e with | .page t => some t | _ => none

/-- The members kept. -/
def snapMembers (l : List Snap) : List (Nat × Nat) := l.filterMap fun e => match e with | .member m g => some (m, g) | _ => none

/-- Steps 5 and 6 of a command that has passed its checks: it waits for a slot with what it has read and checked, and
enters (10 R343). -/
def queueBody (f : FCpy) (op : CmdOp) (d : List Byte) (members : List (Nat × Nat)) (pages : List TlbEnt) (k : Wd)
    (s : State) : Out :=
  match (s.cluster (clusterOf k.c)).pickQueue op f.unit.toNat with
  | none => .hold (s.modCtx k.c fun x => x.modStream .c fun r => { r with snap := cmdSnap d members pages })
  | some u => .retire none (s.enterCmd (clusterOf k.c) u (newCmd f op d members pages k.c s))

/-- Step 4 of a command whose descriptor is in range, then the steps after it (10 R343). -/
def enterBody (f : FCpy) (op : CmdOp) (d : List Byte) (members : List (Nat × Nat)) (k : Wd) (s : State) : Out :=
  match s.checkCmd k.c (s.rootOf k.c) op d f.unit.toNat with
  | .bad t s1 => .fault t s1
  | .ok pages s1 => queueBody f op d members pages k s1

/-- A CCOLL: its group and its destination, then the steps every command takes (10 R348). -/
def collectiveBody (f : FCpy) (d : List Byte) (k : Wd) (s : State) : Out :=
  match s.readCollective k.c d with
  | .wait => .wait
  | .bad t s1 => .fault t s1
  | .ok _ ms s1 =>
    if !s1.inPublished (blockNat d 8 8) (4 * blockNat d 0x10 4) then .fault (fltAddr 0x02 (blockNat d 8 8)) s1
    else if !s1.collSource d ms then .fault (runFault 0x05 (blockNat d 0 8) 0) s1
    else enterBody f .ccoll d ms k s1

/-- The descriptor offset: dsc, plus the popped value under ix, a bare token adding 0xFFFF_FFFF (03 R102). -/
def descOffset (f : FCpy) (k : Wd) : Nat := f.dsc.toNat + if f.ix then popVal 0xFFFFFFFF (k.got.getD none) else 0

/-- The first issue of a command word: steps 1 to 4 (10 R343). The range of its descriptor comes before the alignment, as
in every check of 08 R281, so that a bare token fails it (03 R102). -/
def descBody (f : FCpy) (op : CmdOp) (k : Wd) (s : State) : Out :=
  let off := descOffset f k
  if 2 ^ 20 < off + 32 then .fault (fltAddr 0x05 off) s
  else if off % 32 ≠ 0 then .fault (fltAddr 0x06 off) s
  else match s.ownFresh k.c .c off 32 with
    | (.wait, _) => .wait
    | (.bad code, s1) => .fault (fltAddr code off) s1
    | (.storage code a, s1) => .fault (fltAddr code a) s1
    | (.bytes d, s1) =>
      match fieldBad op d with
      | some o => .fault { fltAddr 0x02 off with reg := some o } s1
      | none =>
        if overlaps k.c op d f.unit.toNat then .fault (fltAddr 0x02 off) s1
        else if op = .ccoll then collectiveBody f d k s1
        else enterBody f op d [] k s1

/-- A command word (10 R343): its first issue, or the end of its wait for a slot with the snapshot it took (09 R323). -/
def copyBody (f : FCpy) (op : CmdOp) (k : Wd) (s : State) : Out :=
  match ((s.ctx k.c).stream .c).snap with
  | .block d :: l => queueBody f op d (snapMembers l) (snapPages l) k s
  | _ => descBody f op k s

/-- A command word as issued. -/
def copyWord (f : FCpy) (umax : Nat) (op : CmdOp) (s : State) : State :=
  issue .c f.w (cpyOk umax f) false (copyBody f op) s

def execCpy (f : FCpy) (s : State) : Host.Outcome State Fault Refusal := .next (copyWord f 8 .cpy s)

def execCpy2d (f : FCpy) (s : State) : Host.Outcome State Fault Refusal := .next (copyWord f 8 .cpy2d s)

def execCpys (f : FCpy) (s : State) : Host.Outcome State Fault Refusal := .next (copyWord f 8 .cpys s)

def execCpytw (f : FCpy) (s : State) : Host.Outcome State Fault Refusal := .next (copyWord f 7 .cpytw s)

def execCpyex (f : FCpy) (s : State) : Host.Outcome State Fault Refusal := .next (copyWord f 7 .cpyex s)

def execCpybc (f : FCpy) (s : State) : Host.Outcome State Fault Refusal := .next (copyWord f 7 .cpybc s)

def execCcoll (f : FCpy) (s : State) : Host.Outcome State Fault Refusal := .next (copyWord f 7 .ccoll s)

end Sys2Proof.Machine
end

