-- ==== Sys2Proof/Machine/SBranch.lean ====
section
/-! DEFINITION. Control transfer of S and the loop words of every engine (04 R145, R146; 05 R196). -/

namespace Sys2Proof.Machine

/-- Own address + 4 × off (03 R97). -/
def target (pc : W64) (off : BitVec 20) : W64 := pc + (off.signExtend 64 <<< 2)

/-- Address of the word that follows (03 R108). -/
def nextPc (k : Wd) : W64 := k.pc + BitVec.ofNat 64 k.size

/-- Size of the word at an address of an engine's instruction memory: 4 for a patch word, else 8 (03 R83). -/
def State.wordSize (s : State) (c : CoreId) (e : Eng) (a : W64) : Nat :=
  if a.toNat + 4 ≤ imemSize e ∧ (readCell s.mem (imemKey c e (a.toNat + 3))).toNat ≥ 128 then 4 else 8

/-- Trip count fa:fb of the loop forms (03 R97). -/
def tripCount (f : FBr) : Nat := f.fa.toNat * 64 + f.fb.toNat

/-- A loop word of engine e with a count, and for V the rot and epi fields: a zero count skips the body and changes no
level (04 R146, 05 R196). A rotating level's total, the count and the epilogue together, is kept modulo 2^32 (DESIGN CHOICE,
log entry 101). -/
def loopBody (e : Eng) (f : FBr) (count : Nat) (rot : Bool) (epi : Nat) (k : Wd) (s : State) : Out :=
  let last := target k.pc f.off
  if count = 0 then .jump (last + BitVec.ofNat 64 (s.wordSize k.c e last)) s
  else
    let l : Loop :=
      { count := BitVec.ofNat 32 (count + if rot then epi else 0), start := (nextPc k).truncate 16,
        last := last.truncate 16, active := true, rot := rot, epi := BitVec.ofNat 3 epi }
    .retire none (s.modCtx k.c fun x =>
      let x1 := setLoops x e (vset (loopsOf x e) f.lvl.toNat l)
      if rot then { x1 with v := { x1.v with q := vset x1.v.q (qPhys x1.v.rrb 0) (BitVec.allOnes 64) } } else x1)

/-- A conditional branch on two values (04 R145). -/
def branchOn (f : FBr) (b : Ctx → W64) (k : Wd) (s : State) : Out :=
  let x := s.ctx k.c
  if condS f.cond.toNat 64 (sfield x f.fa) (b x) then .jump (target k.pc f.off) s else .retire none s

def execBr (f : FBr) (s : State) : Host.Outcome State Fault Refusal :=
  .next (sIssue f.w (brOk f) [srcA f.w f.fa, srcB f.w f.fb] none (branchOn f fun x => sfield x f.fb) s)

def execBri (f : FBr) (s : State) : Host.Outcome State Fault Refusal :=
  .next (sIssue f.w (briOk f) [srcA f.w f.fa] none (branchOn f fun _ => f.fb.signExtend 64) s)

def execJmp (f : FBr) (s : State) : Host.Outcome State Fault Refusal :=
  .next (sIssue f.w (jmpOk f) [] none (fun k s => .jump (target k.pc f.off) s) s)

/-- A register target that is not a multiple of 4 raises 0x06 (04 R145). -/
def registerJump (t : W64) (s : State) (go : State) : Out :=
  if t.toNat % 4 ≠ 0 then .fault (fltAddr 0x06 t.toNat) s else .jump t go

def execJmpr (f : FBr) (s : State) : Host.Outcome State Fault Refusal :=
  .next (sIssue f.w (jmprOk f) [srcA f.w f.fa] (some f.fd)
    (fun k s => registerJump (sfield (s.ctx k.c) f.fa + (f.off.signExtend 64 <<< 2)) s
      (s.writeS k.c f.fd (nextPc k))) s)

def execCall (f : FBr) (s : State) : Host.Outcome State Fault Refusal :=
  .next (sIssue f.w (callOk f) [] (some f.fd)
    (fun k s => .jump (target k.pc f.off) (s.writeS k.c f.fd (nextPc k))) s)

def execRet (f : FBr) (s : State) : Host.Outcome State Fault Refusal :=
  .next (sIssue f.w (retOk f) [srcA f.w f.fa] none (fun k s => registerJump (sfield (s.ctx k.c) f.fa) s s) s)

def execLoop (f : FBr) (s : State) : Host.Outcome State Fault Refusal :=
  .next (sIssue f.w (loopOk f) [] none (loopBody .s f (tripCount f) false 0) s)

def execLoopr (f : FBr) (s : State) : Host.Outcome State Fault Refusal :=
  .next (sIssue f.w (looprOk f) [srcA f.w f.fa] none
    (fun k s => loopBody .s f ((sfield (s.ctx k.c) f.fa).toNat % 2 ^ 32) false 0 k s) s)

end Sys2Proof.Machine
end

