-- ==== Sys2Proof/Machine/Image.lean ====
section
/-! DEFINITION. Images and the loader (03 R115–R117; 01 R32; 09 R493). -/

namespace Sys2Proof.Machine

/-- An overlay record of an image header: image offset, length, load address. -/
structure Overlay where
  off : Nat
  len : Nat
  load : Nat
  deriving DecidableEq, Repr, Inhabited

/-- A preload record: image offset, first index, count. -/
structure Preload where
  off : Nat
  first : Nat
  count : Nat
  deriving DecidableEq, Repr, Inhabited

/-- An image header (03 R115); lists are in engine order. -/
structure Image where
  magic : Nat
  version : Nat
  hsize : Nat
  isize : Nat
  trailer : Nat
  present : Nat
  entry : Nat
  tower : Nat
  scratch : Nat
  ovl : List Overlay
  tmpl : List Preload
  shapes : Preload
  dataOff : Nat
  dataLen : Nat
  dataAt : Nat
  deriving DecidableEq, Repr, Inhabited

/-- Bytes of an image header. -/
def headerBytes : Nat := 192

/-- The preload record at an offset. -/
def preloadAt (b : List Byte) (o : Nat) : Preload := ⟨blockNat b o 4, blockNat b (o + 4) 1, blockNat b (o + 5) 1⟩

/-- The fields of a header (03 R115). -/
def parseImage (b : List Byte) : Image :=
  { magic := blockNat b 0 4, version := blockNat b 4 2, hsize := blockNat b 6 2, isize := blockNat b 8 4,
    trailer := blockNat b 0x0C 1, present := blockNat b 0x0D 1, entry := blockNat b 0x10 4,
    tower := blockNat b 0x14 4, scratch := blockNat b 0x18 4,
    ovl := (upTo 5).map fun i =>
      let o := 0x20 + 16 * i
      ⟨blockNat b o 4, blockNat b (o + 4) 4, blockNat b (o + 8) 4⟩,
    tmpl := (upTo 5).map fun i => preloadAt b (0x70 + 8 * i), shapes := preloadAt b 0x98,
    dataOff := blockNat b 0xA0 4, dataLen := blockNat b 0xA4 4, dataAt := blockNat b 0xA8 4 }

/-- Engine e has an overlay. -/
def Image.has (m : Image) (e : Eng) : Bool := m.present.testBit e.num.val

/-- Overlay record of an engine. -/
def Image.overlay (m : Image) (e : Eng) : Overlay := m.ovl.getD e.num.val default

/-- Template preload of an engine. -/
def Image.templates (m : Image) (e : Eng) : Preload := m.tmpl.getD e.num.val default

/-- The limits on one present overlay (03 R116). -/
def overlayOk (m : Image) (e : Eng) : Bool :=
  let o := m.overlay e
  !m.has e || (o.off % 4 == 0 && o.len % 4 == 0 && o.load % 4 == 0 && decide (o.load + o.len ≤ imemSize e)
    && decide (o.off + o.len ≤ m.isize))

/-- The limits on a preload of entries of n bytes (03 R116). An empty one has no range and no bytes, and passes whatever
its first index and image offset are, while a present overlay of length 0 keeps every limit: 03 R116 does not say how an
empty item is checked (DESIGN CHOICE, log entry 96). -/
def preloadOk (m : Image) (p : Preload) (n : Nat) : Bool :=
  p.count == 0 || (decide (p.first + p.count ≤ 64) && decide (p.off + p.count * n ≤ m.isize))

/-- The loader accepts the image (03 R115, R116). Of an empty data section the scratchpad offset keeps its limit and the image
offset, which names no byte, has none (DESIGN CHOICE, log entry 96). -/
def imageOk (m : Image) : Bool :=
  m.magic == 0x4D494E56 && m.version == 1 && m.hsize == 0x00C0 && decide (headerBytes ≤ m.isize)
    && m.trailer % 2 == 1 && m.present % 2 == 1 && decide (m.trailer < 32) && decide (m.present < 32)
    && m.entry % 4 == 0 && m.tower % 4096 == 0 && decide (m.tower ≤ 262144) && decide (m.scratch ≤ 1048576)
    && engines.all (overlayOk m) && engines.all (fun e => preloadOk m (m.templates e) 8)
    && preloadOk m m.shapes 16 && decide (m.dataAt + m.dataLen ≤ 2 ^ 20)
    && (m.dataLen == 0 || decide (m.dataOff + m.dataLen ≤ m.isize))

/-- What the loader came to: done, or a code and address that end the job. -/
inductive Loaded where
  | ok (s : State)
  | bad (code addr : Nat) (s : State)
  /-- A read must wait for an earlier access of S. -/
  | wait

/-- The next step of a load, where the one before was done. -/
def Loaded.next (r : Loaded) (f : State → Loaded) : Loaded :=
  match r with
  | .ok s => f s
  | b => b

/-- A block of the image read by the loader (09 R323, R493). -/
def State.imageBlock (s : State) (c : CoreId) (root va n : Nat) : BlockRead × State :=
  match s.globalRef c root va n .read false .visible with
  | (.bad code, s1) => if code = 0x04 ∧ s.dev.remapGo = true then (.wait, s) else (.bad code, s1)
  | (.ok r, s1) => s1.readBlock c .s 0 root va n r

/-- What the read of a header comes to. -/
inductive HeaderRead where
  | ok (m : Image) (s : State)
  | bad (code addr : Nat) (s : State)
  /-- The read must wait for an earlier access of S. -/
  | wait

/-- The code of uncorrectable data in an image, wherever the data stand (09 R493). -/
def imageStorage : Nat := 0x13

/-- The header, or what stopped its read. -/
def State.readHeader (s : State) (c : CoreId) (root handle : Nat) : HeaderRead :=
  match s.imageBlock c root handle headerBytes with
  | (.bytes b, s1) => .ok (parseImage b) s1
  | (.bad code, s1) => .bad code handle s1
  | (.storage _ a, s1) => .bad imageStorage a s1
  | (.wait, _) => .wait

/-- A store of S to the bytes of a reference is still in the send buffer. -/
def storesMeet (s : State) (c : CoreId) (r : Ref) : Bool :=
  (s.ctx c).sb.any fun b => b.eng == .s && (s.entrySpans b).any fun d => r.pieces.any fun p => spansMeet d (s.spanOf p)

/-- Pieces of an image read by S's stream, or for it by the loader, and written to keys from dst on. -/
def State.copyPieces (s : State) (c : CoreId) : List Piece → Nat → State
  | [], _ => s
  | p :: ps, dst =>
    let r := s.readPiece c .s (s.ctx c).seq 0 p
    ((r.2.touch c (s.keyOf p.loc) p.n).storeMoved c (s.keyOf p.loc) dst p.n r.1).copyPieces c ps (dst + p.n)

/-- Image bytes copied to keys from dst on, once every store of S to them has been performed. -/
def State.copyIn (s : State) (c : CoreId) (root va n dst : Nat) : Loaded :=
  if n = 0 then .ok s
  else match s.globalRef c root va n .read false .visible with
    | (.bad code, s1) => if code = 0x04 ∧ s.dev.remapGo = true then .wait else .bad code va s1
    | (.ok r, s1) =>
      if s1.mustHold (s1.ctx c) .s r || storesMeet s1 c r then .wait
      else .ok (s1.copyPieces c r.pieces dst)

/-- The overlay of engine e written at its load address (03 R116). -/
def State.loadOverlay (s : State) (c : CoreId) (root handle : Nat) (m : Image) (e : Eng) : Loaded :=
  if !m.has e then .ok s
  else
    let o := m.overlay e
    (s.copyIn c root (handle + o.off) o.len (imemKey c e o.load)).next fun s1 =>
      .ok (s1.modCore c fun k => { k with resident := k.resident.set e.num.val (some (root, handle)) e.num.isLt })

/-- The template table of engine e cleared, then its preload written (03 R107). -/
def State.loadTemplates (s : State) (c : CoreId) (root handle : Nat) (m : Image) (e : Eng) : Loaded :=
  let p := m.templates e
  let put (s : State) (b : List Byte) : State := s.modCtx c fun x =>
    let table : Vector W64 64 := (upTo p.count).foldl
      (fun t i => vset t (p.first + i) (BitVec.ofNat 64 (blockNat b (8 * i) 8))) (Vector.replicate 64 0)
    let x1 := x.modStream e fun r => { r with tmpl := table }
    { x1 with errs := x1.errs.filter fun q => match q.1 with | .tmpl d _ => d != e | _ => true }
  if p.count = 0 then .ok (put s [])
  else match s.imageBlock c root (handle + p.off) (8 * p.count) with
    | (.bytes b, s1) => .ok (put s1 b)
    | (.bad code, s1) => .bad code (handle + p.off) s1
    | (.storage _ a, s1) => .bad imageStorage a s1
    | (.wait, _) => .wait

/-- A shape entry written, its code fresh. -/
def writeShape (k : Nat) (v : BitVec 128) (x : Ctx) : Ctx :=
  { x with p := { x.p with shapes := vset x.p.shapes k v }, errs := x.errs.filter fun q => q.1 != .shape k }

/-- The shape preload (03 R115). -/
def State.loadShapes (s : State) (c : CoreId) (root handle : Nat) (m : Image) : Loaded :=
  let p := m.shapes
  if p.count = 0 then .ok s
  else match s.imageBlock c root (handle + p.off) (16 * p.count) with
    | (.bytes b, s1) => .ok (s1.modCtx c fun x =>
        (upTo p.count).foldl (fun x i => writeShape (p.first + i) (BitVec.ofNat 128 (blockNat b (16 * i) 16)) x) x)
    | (.bad code, s1) => .bad code (handle + p.off) s1
    | (.storage _ a, s1) => .bad imageStorage a s1
    | (.wait, _) => .wait

/-- Steps of a load over some engines. -/
def Loaded.each (r : Loaded) (f : State → Eng → Loaded) (es : List Eng) : Loaded :=
  es.foldl (fun r e => r.next fun s => f s e) r

/-- The loader's work of 03 R116 and R117: overlays of some engines, templates of some engines, shapes, data. -/
def State.loadImage (s : State) (c : CoreId) (root handle : Nat) (m : Image) (overlays tables : List Eng) (shapes : Bool) :
    Loaded :=
  ((((Loaded.ok s).each (fun s e => s.loadOverlay c root handle m e) overlays).each
    (fun s e => s.loadTemplates c root handle m e) tables).next fun s =>
      if shapes then s.loadShapes c root handle m else .ok s).next fun s =>
        s.copyIn c root (handle + m.dataOff) m.dataLen (spKey c m.dataAt)

end Sys2Proof.Machine
end

