-- ==== Sys2Proof/Machine/CtlRegs.lean ====
section
/-! DEFINITION. Control registers as CRD, CWR, VCRD and VCWR see them (04 R127–R140, 05 R168, R199, 12 R379). -/

namespace Sys2Proof.Machine

/-- The record in force in a cluster (11 R373). -/
def Cluster.rec_ (k : Cluster) : OpRec := vget k.table k.recNum

/-- THALLOW's band: 3 under records 1 and 3, else the sensors' (12 R381). -/
def thallowBand (cl : Cluster) (k : Core) : Nat := if cl.recNum % 2 = 1 then 3 else k.refresh.thBand

/-- THALLOW's rate (12 R386). -/
def thallowRate (cl : Cluster) (k : Core) : Nat :=
  let b := thallowBand cl k
  if b = 0 then cl.rec_.thal0 else if b = 1 then cl.rec_.thal1 else cl.rec_.thal2

/-- Busy, done and fault of a stream (01 R28). -/
def strmBits : Strm → Nat
  | .idle => 0
  | .running => 1
  | .done => 2
  | .stopped => 1
  | .faulted => 4

/-- State of engine e as ENGSTATE reports it: S is Faulted from a fault of its own until ERET (01 R28). -/
def reported (x : Ctx) (e : Eng) : Strm :=
  if e = .s ∧ (x.cr.tm || x.trapping.isSome) = true ∧ fld x.cr.trapeng.toNat 0 3 = Eng.s.code then .faulted
  else (x.stream e).st

/-- ENGSTATE (04 R139). -/
def engstate (x : Ctx) : Nat :=
  (engines.map fun e => strmBits (reported x e) * 8 ^ e.num.val).foldl (· + ·) 0

/-- STATUS (04 R130). -/
def statusOf (r : CtlRegs) : Nat := r.rst.toNat * 128 + r.epri.toNat * 32 + r.pri.toNat * 8 + r.tm.toNat

/-- PWRLEVEL (12 R379). -/
def pwrlevelOf (cl : Cluster) (k : Core) : Nat :=
  (cl.bud % 256).toNat * 2 ^ 32 + cl.ftgt % 256 * 2 ^ 24 + cl.fstep % 256 * 2 ^ 16 + k.pwr.susp.toNat * 8
    + k.pwr.wait.toNat * 4 + k.pwr.level % 4

/-- BOOSTLEASE (12 R379). -/
def boostleaseOf (cl : Cluster) (k : Core) : Nat :=
  cl.permits % 128 * 2 ^ 32 + k.lease.act.toNat * 2 ^ 31 + (if 90 < cl.ftgt then 2 ^ 30 else 0)
    + k.lease.req % 256 * 256 + k.lease.rem % 256

/-- REFDEADLINE (12 R379, R380). -/
def refdeadlineOf (cl : Cluster) (k : Core) : Nat :=
  (if cl.rec_.refForce then 3 else k.refresh.band % 4) * 2 ^ 48 + k.refresh.due % 2 ^ 48

/-- REFDEFER (12 R379). -/
def refdeferOf (k : Core) : Nat :=
  k.refresh.notify.toNat * 2 ^ 63 + k.refresh.act.toNat * 2 ^ 62 + k.refresh.until_ % 2 ^ 48

/-- The value of control register n for core c (04 R127; 05 R168 for 0x0C0 and 0x0C1). -/
def State.crRead (s : State) (c : CoreId) (n : Nat) : W64 :=
  let k := s.core c
  let x := k.ctx
  let cl := s.cluster (clusterOf c)
  let r := x.cr
  if n = 0x000 then BitVec.ofNat 64 (statusOf r)
  else if n = 0x001 then BitVec.ofNat 64 (coreIn c)
  else if n = 0x002 then BitVec.ofNat 64 ((plateOf (clusterOf c)).val * 256 + (clusterOf c).val)
  else if n = 0x003 then r.jobid
  else if 0x010 ≤ n ∧ n ≤ 0x013 then vget r.dommask (n - 0x010)
  else if 0x020 ≤ n ∧ n ≤ 0x02F then vget r.mbox (n - 0x020)
  else if n = 0x040 then r.trapcause
  else if n = 0x041 then r.trappc
  else if n = 0x042 then r.trapinfo0
  else if n = 0x043 then r.trapinfo1
  else if n = 0x044 then r.trapvec
  else if n = 0x045 then r.trapeng
  else if n = 0x050 then BitVec.ofNat 64 (engstate x)
  else if n = 0x060 then s.dev.ticks
  else if n = 0x070 then BitVec.ofNat 64 (pwrlevelOf cl k)
  else if n = 0x071 then BitVec.ofNat 64 (boostleaseOf cl k)
  else if n = 0x072 then BitVec.ofNat 64 (thallowBand cl k * 1024 + thallowRate cl k % 1024)
  else if n = 0x073 then BitVec.ofNat 64 (k.tok % 512)
  else if n = 0x080 then BitVec.ofNat 64 (refdeadlineOf cl k)
  else if n = 0x081 then BitVec.ofNat 64 (refdeferOf k)
  else if n = 0x090 then r.colstat
  else if n = 0x091 then r.spfstat
  else if 0x0A0 ≤ n ∧ n ≤ 0x0A7 then vget r.pmc (n - 0x0A0)
  else if n = 0x0C0 then BitVec.ofNat 64 x.v.rrb.toNat
  else if n = 0x0C1 then BitVec.ofNat 64 x.v.masks.length
  else 0

/-- The RW bits of a control register (04 R130–R138; 12 R379; 02 R64; 05 R168). -/
def crRw (n : Nat) : W64 :=
  if n = 0x010 then 0x0000FFFFFFFFFFFF
  else if n = 0x011 then 0x3F
  else if n = 0x012 then 0xFFFFFF
  else if n = 0x013 then 0x1FF
  else if 0x020 ≤ n ∧ n ≤ 0x02F then BitVec.allOnes 64
  else if n = 0x040 then 0xFF
  else if n = 0x041 then 0xFFFFFFFF
  else if n = 0x042 then 0xF000FFFFFFFF3FFF
  else if n = 0x043 then BitVec.allOnes 64
  else if n = 0x044 then 0x800000000000FFFC
  else if n = 0x045 then 0x0000FFFFFFFF0000
  else if n = 0x081 then 0x8000000000000000
  else if n = 0x091 then 0xFFFF0000
  else if 0x0A0 ≤ n ∧ n ≤ 0x0A7 then 0xFF00FFFFFFFFFFFF
  else if n = 0x0C0 then 0x1F
  else 0

/-- The W1C bits of a control register (04 R130; 02 R64; 08 R298). -/
def crW1c (n : Nat) : W64 :=
  if n = 0x000 then 0x80 else if n = 0x090 then 0x0000FFFFFFFFFFFF else if n = 0x091 then 0xF else 0

/-- A register after a write of v to the bits of sel: RW bits take it, W1C bits are cleared by a 1, others stay (00
R9). -/
def crMerge (n : Nat) (sel old v : W64) : W64 :=
  let rw := crRw n &&& sel
  ((old &&& ~~~rw) ||| (v &&& rw)) &&& ~~~(v &&& crW1c n &&& sel)

/-- A register's storage replaced; registers that software cannot change have none here. -/
def crStore (n : Nat) (v : W64) (k : Core) : Core :=
  let x := k.ctx
  let r := x.cr
  let put (r : CtlRegs) : Core := { k with ctx := { x with cr := r } }
  if n = 0x000 then put { r with rst := v.getLsbD 7 }
  else if 0x010 ≤ n ∧ n ≤ 0x013 then put { r with dommask := vset r.dommask (n - 0x010) v }
  else if 0x020 ≤ n ∧ n ≤ 0x02F then put { r with mbox := vset r.mbox (n - 0x020) v }
  else if n = 0x040 then put { r with trapcause := v }
  else if n = 0x041 then put { r with trappc := v }
  else if n = 0x042 then put { r with trapinfo0 := v }
  else if n = 0x043 then put { r with trapinfo1 := v }
  else if n = 0x044 then put { r with trapvec := v }
  else if n = 0x045 then put { r with trapeng := v }
  else if n = 0x081 then { k with refresh := { k.refresh with notify := v.getLsbD 63 } }
  else if n = 0x090 then put { r with colstat := v }
  else if n = 0x091 then put { r with spfstat := v }
  else if 0x0A0 ≤ n ∧ n ≤ 0x0A7 then put { r with pmc := vset r.pmc (n - 0x0A0) v }
  else if n = 0x0C0 then { k with ctx := { x with v := { x.v with rrb := BitVec.ofNat 5 v.toNat } } }
  else k

/-- A write of v to the bits of sel of register n by core c: of a register whose fields are all RO, no operation (04
R128). -/
def State.crWrite (s : State) (c : CoreId) (n : Nat) (sel v : W64) : State :=
  if crRw n = 0 ∧ crW1c n = 0 then s
  else
  let new := crMerge n sel (s.crRead c n) v
  (s.modCore c (crStore n new)).modCtx c fun x => { x with errs := x.errs.filter fun m => m.1 != .creg n }

/-- The check of a control register's code at a read (13 R410). -/
def chkCr (x : Ctx) (n : Nat) : Chk :=
  if siteMark x.errs (.creg n) = .double then .bad (storageFault 1 (some 0xFF) n false) else .ok

/-- Some control registers read by a word for its own effect: their codes are checked and corrected (13 R415). -/
def withCrs (ns : List Nat) (body : Wd → State → Out) (k : Wd) (s : State) : Out :=
  match firstBad (ns.map (chkCr (s.ctx k.c))) with
  | .bad t => .fault t s
  | _ => body k (s.correct k.c (ns.map Site.creg))

/-- Registers whose CWR is serialising (04 R129). -/
def crSerial (n : Nat) : Bool := n == 0x000 || (decide (0x010 ≤ n) && decide (n ≤ 0x013)) || n == 0x044 || n == 0x045

/-- Every deferred write of an engine but a token receipt has landed (04 R141, 05 R176). -/
def settled (e : Eng) (x : Ctx) : Bool :=
  x.pend.all fun p => p.eng != e || (match p.what with | .token _ _ => true | _ => false)

/-- Number of the performance counter a register is, with a write to its COUNT (12 R402). -/
def pmcOf (n : Nat) (sel : W64) : Option Nat :=
  if 0x0A0 ≤ n ∧ n ≤ 0x0A7 ∧ sel &&& 0x0000FFFFFFFFFFFF ≠ 0 then some (n - 0x0A0) else none

/-- A word that writes a control register retires; a counter it wrote does not count it (12 R402). -/
def crRetire (n : Nat) (sel : W64) (s : State) : Out :=
  match pmcOf n sel with
  | some i => .quiet i s
  | none => .retire none s

end Sys2Proof.Machine
end

