-- ==== Sys2Proof/Machine/SEngine.lean ====
section
/-! DEFINITION. S words that start and join engines, wait, move token values and fill templates (04 R147–R152). -/

namespace Sys2Proof.Machine

/-- The engines of a mask whose bit 0 is V (04 R147). -/
def maskEngines (m : Nat) : List Eng :=
  [Eng.v, Eng.m, Eng.p, Eng.c].filter fun e => m.testBit (e.num.val - 1)

/-- A stream started by FORK: its loop levels cleared, its PC at the entry (04 R147); FORK is a release toward it of what S
has seen (09 R316). -/
def startStream (seen : View) (entry : Nat) (r : Stream) : Stream :=
  { r.acquire [seen] with st := .running, pc := BitVec.ofNat 64 entry, loops := Vector.replicate 4 Loop.reset,
                          done := none, observed := [], rel := [], snap := [] }

/-- Done or Idle. -/
def atRest (st : Strm) : Bool := st == .done || st == .idle

/-- FORK of engines with their entries: a misaligned entry starts none; S waits until each is Done or Idle, and until
its own earlier accesses are performed, since FORK is a release (04 R141, R147; 09 R316). -/
def forkBody (ents : List (Eng × Nat)) (k : Wd) (s : State) : Out :=
  let x := s.ctx k.c
  match ents.find? fun p => p.2 % 4 != 0 with
  | some p => .fault (fltAddr 0x06 p.2) s
  | none =>
    if (ents.all fun p => atRest (x.stream p.1).st) && drained .s x then
      .retire none (s.modCtx k.c fun y => ents.foldl (fun y p => y.modStream p.1 (startStream (x.stream .s).view.everyForm p.2)) y)
    else .wait

def execFork (f : FSys) (s : State) : Host.Outcome State Fault Refusal :=
  .next (sIssue f.w (forkOk f) [srcA f.w f.fa] none
    (fun k s =>
      let v := (sfield (s.ctx k.c) f.fa).toNat
      forkBody ((maskEngines (engMask f)).map fun e => (e, fld v (16 * (e.num.val - 1)) 16)) k s) s)

def execForkI (f : FSys) (s : State) : Host.Outcome State Fault Refusal :=
  .next (sIssue f.w (forkIOk f) [] none
    (fun k s =>
      forkBody (((Eng.ofCode f.fd.toNat).toList).map fun e => (e, f.cr.toNat * 4096 + f.imm12.toNat)) k s) s)

/-- JOIN: waits until every named engine is Done or Idle, returns the Done ones to Idle and gives their mask (04 R148);
an acquire from them (09 R316). -/
def execJoin (f : FSys) (s : State) : Host.Outcome State Fault Refusal :=
  .next (sIssue f.w (joinOk f) [] (some f.fd)
    (fun k s =>
      let x := s.ctx k.c
      let es := maskEngines (engMask f)
      if es.all fun e => atRest (x.stream e).st then
        let ds := es.filter fun e => (x.stream e).st == .done
        let m := (ds.map fun e => 2 ^ (e.num.val - 1)).foldl (· + ·) 0
        .retire none (((s.modCtx k.c fun y => ds.foldl (fun y e => y.modStream e fun r => { r with st := .idle }) y).acquireFrom
          k.c .s ds).writeS k.c f.fd (BitVec.ofNat 64 m))
      else .wait) s)

/-! WAIT (04 R149). -/

/-- Slot j of the four conditions. -/
def waitSlot (v : W64) (j : Nat) : Nat := fld v.toNat (16 * j) 16

/-- A slot reads memory. -/
def slotMem (n : Nat) : Bool := n / 8192 == 4 || n / 8192 == 5

/-- Whether the condition of a slot holds; `mem` is the word at s[fb]. -/
def slotHolds (x : Ctx) (all : Bool) (mem : Nat) (n : Nat) : Bool :=
  let kind := n / 8192
  let arg := n % 8192
  if kind = 0 then all
  else if kind = 1 then
    (match Eng.ofCode (arg % 8) with
      | none => false
      | some e => e != Eng.s && !(x.fifo e .s).isEmpty)
  else if kind = 2 then arg % 32 == 0 || vget x.sfill (arg % 32) == .full
  else if kind = 3 then (maskEngines (arg % 16)).all fun e => atRest (x.stream e).st
  else if kind = 4 then decide ((sval x (arg % 32)).toNat ≤ mem)
  else if kind = 5 then mem != (sval x (arg % 32)).toNat
  else false

/-- Timeout of a WAIT: cr:imm12, none for all ones. -/
def waitTimeoutOf (f : FSys) : Option Nat :=
  let t := f.cr.toNat * 4096 + f.imm12.toNat
  if t = 0xFFFFFF then none else some t

/-- The registers a memory condition compares with are sources under epb. They stand in no operand field, for which alone
03 R91 gives codes; such a register that is empty or poisoned is reported with OPND 1, the code of fb, whose word it is
compared with (DESIGN CHOICE, log entry 95). -/
def waitSrcs (f : FSys) (v : W64) : List Src :=
  ((upTo 4).filter fun j => slotMem (waitSlot v j)).map fun j => ⟨waitSlot v j % 32, some 1, f.w.epb⟩

/-- The evaluation of a WAIT with the memory word read: it completes when the combination holds, or when its time is over;
otherwise it waits, its deadline fixed at its first issue. The tick of the deadline does not pass without an evaluation
(Machine/EvTime.lean), at which the combination counts; after it the timeout has come first. A memory condition that holds
acquires. -/
def waitEval (f : FSys) (k : Wd) (mem : Nat) (acquire : State → State) (s : State) : Out :=
  let x := s.ctx k.c
  let all := f.sub == 1
  let v := sfield x f.fa
  let now := s.dev.ticks.toNat
  let holds := (upTo 4).map fun j => slotHolds x all mem (waitSlot v j)
  let ok := if all then holds.all id else holds.any id
  let deadline := x.waitEnd.getD ((waitTimeoutOf f).map fun t => now + t)
  let late := match deadline with | none => false | some d => decide (d ≤ now)
  let past := match deadline with | none => false | some d => decide (d < now)
  if ok || late then
    let bits := ((upTo 4).map fun j => if holds.getD j false then 2 ^ j else 0).foldl (· + ·) 0
    let s1 := if (upTo 4).any fun j => slotMem (waitSlot v j) && holds.getD j false then acquire s else s
    .retire none ((s1.modCtx k.c fun y => { y with waitEnd := none }).writeS k.c f.fd
      (BitVec.ofNat 64 (bits + if ok && !past then 0 else 16)))
  else .hold (s.modCtx k.c fun y => { y with waitEnd := some deadline })

def execWait (f : FSys) (s : State) : Host.Outcome State Fault Refusal :=
  .next (sIssue f.w (waitOk f) [srcA f.w f.fa] (some f.fd)
    (fun k s =>
      let v := sfield (s.ctx k.c) f.fa
      if (upTo 4).any fun j => slotMem (waitSlot v j) then
        sOperands k (srcB f.w f.fb :: waitSrcs f v) none
          (fun k s =>
            let a := (sfield (s.ctx k.c) f.fb).toNat
            if a % 8 ≠ 0 then .fault (accessFault 0x06 a none 1) s
            else match s.scalarRef k.c 0 a 8 .read true false with
              | (.bad code, s1) => .fault (accessFault code a none 1) s1
              | (.ok r, s1) =>
                match s1.readNow k.c .s a r with
                | (.bytes bs, s2) => waitEval f k (leNat bs) (fun s => s.acquireNow k.c .s 4 r) s2
                | (.storage code addr, s2) => .fault (fltAddr code addr) s2
                | (.bad code, s2) => .fault (accessFault code a none 1) s2
                | (.wait, _) => .wait) s
      else waitEval f k 0 id s) s)

/-! Tokens and templates. -/

/-- TKSEND: bits [31:0] of s[fa] pushed as a value (04 R150). -/
def execTksend (f : FSys) (s : State) : Host.Outcome State Fault Refusal :=
  .next (sIssue f.w (tksendOk f) [srcA f.w f.fa] none
    (fun k s => .retire (some ((sfield (s.ctx k.c) f.fa).truncate 32)) s) s)

/-- What the value-taking words of S write for an entry: 2^32 for a bare token (04 R151). -/
def tokenS (v : Option Entry) : W64 := BitVec.ofNat 64 (popVal (2 ^ 32) v)

def execTkrecv (f : FSys) (s : State) : Host.Outcome State Fault Refusal :=
  .next (sIssue f.w (tkrecvOk f) [] (some f.fd)
    (fun k s => .retire none (s.writeS k.c f.fd (tokenS k.got))) s)

/-- TKRECV.d: the next entry from a source fills the register; it waits for an earlier one from that source (04
R151). -/
def execTkrecvD (f : FSys) (s : State) : Host.Outcome State Fault Refusal :=
  .next (sIssue f.w (tkrecvDOk f) [] (some f.fd)
    (fun k s =>
      match Eng.ofCode (srcCode f) with
      | none => .fault (flt 0x01) s
      | some e =>
        if (s.ctx k.c).awaiting e .s then .wait
        else .retire none (s.issuePend k.c ⟨.s, f.fd.toNat, 1, 0, 0, none, .token e 0⟩)) s)

/-- TMSET: s[fa] written to a template entry of an engine; the index stands in cr[5:0] or in s[fb] (04 R152). -/
def execTmset (f : FSys) (s : State) : Host.Outcome State Fault Refusal :=
  .next (sIssue f.w (tmsetOk f) (srcA f.w f.fa :: if f.sub = 1 then [srcB f.w f.fb] else []) none
    (fun k s =>
      let x := s.ctx k.c
      let i := if f.sub = 1 then (sfield x f.fb).toNat % 64 else f.cr.toNat % 64
      match Eng.ofCode (srcCode f) with
      | none => .fault (flt 0x01) s
      | some e => .retire none (s.modCtx k.c fun y =>
          { y.modStream e fun r => { r with tmpl := vset r.tmpl i (sfield x f.fa) } with
            errs := y.errs.filter fun m => m.1 != .tmpl e i })) s)

end Sys2Proof.Machine
end

