-- ==== Sys2Proof/Machine/SCtl.lean ====
section
/-! DEFINITION. S words on control registers, ordering, traps and halting (04 R153–R158; 09 R314, R319, R325). -/

namespace Sys2Proof.Machine

/-- The number of ENGSTATE. -/
def crEngstate : Nat := 0x050

/-- A control register sampled by S. Some engine seen Done is acquired from (04 R160, 09 R316). -/
def crdBody (f : FSys) (k : Wd) (s : State) : Out :=
  let v := s.crRead k.c f.cr.toNat
  let done := if f.cr.toNat = crEngstate then [Eng.v, Eng.m, Eng.p, Eng.c].filter fun e => v.getLsbD (3 * e.num.val + 1) else []
  .retire none ((s.acquireFrom k.c .s done).writeS k.c f.fd v)

/-- CRD (04 R153): the register is sampled at issue (04 R160). -/
def execCrd (f : FSys) (s : State) : Host.Outcome State Fault Refusal :=
  .next (sIssue f.w (crdOk f) [] (some f.fd) (withCrs [f.cr.toNat] (crdBody f)) s)

/-- CWR; one of STATUS, DOMMASK, TRAPVEC or TRAPENG is serialising (04 R128, R129, R153). -/
def execCwr (f : FSys) (s : State) : Host.Outcome State Fault Refusal :=
  .next (sIssue f.w (cwrOk f) [srcA f.w f.fa] none
    (fun k s =>
      let x := s.ctx k.c
      if crSerial f.cr.toNat && !settled .s x then .wait
      else
        let all : W64 := BitVec.allOnes 64
        crRetire f.cr.toNat all (s.crWrite k.c f.cr.toNat all (sfield x f.fa))) s)

/-! Fences (09 R314). -/

/-- A fence word: it retires and leaves its mark, behind which the accesses it orders wait; at stream scope it orders
nothing (09 R309). One whose accesses are performed takes effect at once. -/
def fenceBody (f : FSys) (e : Eng) (k : Wd) (s : State) : Out :=
  let scope := fld f.imm12.toNat 0 3
  if scope = 0 then .retire none s
  else .retire none ((s.modCtx k.c fun x =>
    { x.bump with fences := x.fences ++ [⟨e, x.seq, f.sub.toNat, scope⟩] }).settleFences k.c)

def execFence (f : FSys) (s : State) : Host.Outcome State Fault Refusal :=
  .next (sIssue f.w (fenceOk f) [] none (fenceBody f .s) s)

/-- An earlier acquire or acquire fence of S has not taken effect (09 R310, R324). -/
def acquiring (x : Ctx) : Bool :=
  (x.pend.any fun p => p.eng == .s && p.acq != 0 && p.unbound) || x.fences.any fun m => m.eng == .s && m.kind != 2

/-- CBSYNC of the block at a global address (09 R325): after every earlier acquire, so that no copy older than it is
cached again (09 R324). -/
def execCbsync (f : FSys) (s : State) : Host.Outcome State Fault Refusal :=
  .next (sIssue f.w (cbsyncOk f) [srcA f.w f.fa] none
    (fun k s => if acquiring (s.ctx k.c) then .wait else
      let a := (sfield (s.ctx k.c) f.fa).toNat
      .retire none (s.modCore k.c fun q => { q with cbc := discardAround a q.cbc })) s)

/-- CBSYNC of every cached block (09 R325). -/
def execCbsyncAll (f : FSys) (s : State) : Host.Outcome State Fault Refusal :=
  .next (sIssue f.w (cbsyncAllOk f) [] none
    (fun k s =>
      if acquiring (s.ctx k.c) then .wait else .retire none (s.modCore k.c fun q => { q with cbc := [] })) s)

/-! Traps and halting. -/

/-- TRAP: code 0x7F, the following word as resume address, imm12 as ADDR; serialising (04 R155). Its pop acts as that of every word
(04 R162; DEDUCED, log entry 97). -/
def execTrap (f : FSys) (s : State) : Host.Outcome State Fault Refusal :=
  .next (sIssue f.w (trapOk f) [] none
    (fun k s =>
      if settled .s (s.ctx k.c) then
        .fault { fltAddr 0x7F f.imm12.toNat with resume := BitVec.ofNat 64 k.size } s
      else .wait) s)

/-- ERET: illegal outside trap mode; serialising (04 R157). It reads TRAPPC and TRAPENG. Its pop and push act as those of every
word (04 R162; DEDUCED, log entry 97). -/
def execEret (f : FSys) (s : State) : Host.Outcome State Fault Refusal :=
  .next (sIssue f.w (eretOk f && (s.ctx s.cur).cr.tm) [] none
    (fun k s =>
      if settled .s (s.ctx k.c) then
        withCrs [0x041, 0x045] (fun k s => .ret s fun s => s.modCtx k.c trapReturn) k s
      else .wait) s)

/-- Every engine of a list is Done or Idle. -/
def allAtRest (x : Ctx) (es : List Eng) : Bool := es.all fun e => atRest (x.stream e).st

/-- The end of a job by HALT in the handler (04 R158, 13 R412). -/
def haltInfo (x : Ctx) (s : State) : EndInfo :=
  let cause := BitVec.ofNat 8 x.cr.trapcause.toNat
  { code := cause, gang := false, nested := false, novec := false, hhalt := true, kill := false, disp := false,
    prior := cause, info0 := x.cr.trapinfo0, info1 := x.cr.trapinfo1, eng := x.cr.trapeng, ticks := s.dev.ticks.toNat }

/-- HALT in the handler ends the job; the record takes TRAPCAUSE, TRAPINFO0, TRAPINFO1 and TRAPENG as they stand. -/
def haltTrapped : Wd → State → Out :=
  withCrs [0x040, 0x042, 0x043, 0x045] fun k s => .last s (endJob k.c (haltInfo (s.ctx k.c) s))

/-- HALT: in the handler it ends the job; else it waits for the other engines and retires the job (04 R158, 01 R34). Its
pop and push act as those of every word (04 R162; DEDUCED, log entry 97). -/
def execHalt (f : FSys) (s : State) : Host.Outcome State Fault Refusal :=
  .next (sIssue f.w (haltOk f) [] none
    (fun k s =>
      let x := s.ctx k.c
      if !settled .s x then .wait
      else if x.cr.tm then haltTrapped k s
      else if allAtRest x [.v, .m, .p, .c] then
        .last s fun s => s.modCore k.c fun q => { q with phase := .retiring }
      else .wait) s)

/-- A fault that ends the job whatever TRAPVEC holds. -/
def jobFault (code addr : Nat) : Trap := { (if code = 0x01 then flt 0x01 else fltAddr code addr) with classJ := true }

/-- The record of a job whose image has uncorrectable data at an address: DISP, no PC, S as the engine (09 R493). -/
def imageInfo (c : CoreId) (addr : Nat) (s : State) : EndInfo :=
  { code := BitVec.ofNat 8 imageStorage, gang := false, nested := false, novec := false, hhalt := false, kill := false,
    disp := true, prior := 0,
    info0 := { Trap.plain imageStorage 0xFFFFFFFF with addr := some addr }.info0 c Eng.s.code,
    info1 := BitVec.ofNat 64 (addr % 2 ^ 48), eng := 0, ticks := s.dev.ticks.toNat }

/-- A chain that meets a code and address ends the job: with the record of its image's storage error, or as the fault of
the HALT (03 R117, 09 R493). -/
def chainFault (code addr : Nat) (k : Wd) (s : State) : Out :=
  if code = imageStorage then .hold (endJob k.c (imageInfo k.c addr s) s) else .fault (jobFault code addr) s

/-- The task boundary (03 R117, 01 R43): the incoming image replaces the overlays of S and of the engines of the
outgoing trailer mask; it is an acquire from them (09 R321). -/
def chainBody (handle : Nat) (k : Wd) (s : State) : Out :=
  match (s.core k.c).job with
  | none => .fault (jobFault 0x01 0) s
  | some j =>
    let named := [Eng.v, Eng.m, Eng.p, Eng.c].filter fun e => j.trailer.getLsbD e.num.val
    if !allAtRest (s.ctx k.c) named then .wait
    else match (s.acquireFrom k.c .s named).readHeader k.c j.root handle with
      | .wait => .wait
      | .bad code a s1 => chainFault code a k s1
      | .ok m s1 =>
        if !imageOk m || ([Eng.v, Eng.m, Eng.p, Eng.c].any fun e => m.has e && !named.contains e)
            || decide (4096 * j.tk.tower < m.tower) then .fault (jobFault 0x01 0) s1
        else match s1.loadImage k.c j.root handle m (.s :: named) (.s :: named) (named.contains .p) with
          | .wait => .wait
          | .bad code a s2 => chainFault code a k s2
          | .ok s2 =>
            .jump (BitVec.ofNat 64 m.entry)
              (s2.modCore k.c fun q => { q with job := some { j with trailer := BitVec.ofNat 5 m.trailer } })

/-- HALT.chain (04 R158); its pop and push act as those of every word (04 R162; DEDUCED, log entry 97). -/
def execHaltChain (f : FSys) (s : State) : Host.Outcome State Fault Refusal :=
  .next (sIssue f.w (haltChainOk f) [srcA f.w f.fa] none
    (fun k s =>
      let x := s.ctx k.c
      if !settled .s x then .wait
      else if x.cr.tm then haltTrapped k s
      else chainBody (sfield x f.fa).toNat k s) s)

def execNop (w : Common) (s : State) : Host.Outcome State Fault Refusal := .next (issueHint .s w (toksOk .s w) s)

end Sys2Proof.Machine
end

