-- ==== Sys2Proof/Machine/VFloat.lean ====
section
/-! DEFINITION. V words on element values: floating-point arithmetic, conversion, quantisation and interpolation (05
R179, R180, R189–R193; 11 R371). -/

namespace Sys2Proof.Machine

/-- The value of an element in format code 0–4 or 8–14 (05 R164). -/
def elemVal (fmt : Nat) (w : W32) : Ext :=
  if fmt ≤ 4 then (ffmtOf fmt).val w.toNat
  else if fmt = 14 then spfVal w
  else .ofInt (intVal (intSigned fmt) (intBits fmt) w.toNat)

/-- A float result rounded once and placed in its element (05 R164, R179). -/
def floatElem (fmt : Nat) (rm : Rm) (sat : Bool) (x : Ext) : W32 := BitVec.ofNat 32 ((ffmtOf fmt).round rm sat x)

/-- An integer result taken modulo 2^n, or clamped, and placed in its element (05 R164, R181). -/
def intElem (fmt : Nat) (sat : Bool) (x : Int) : W32 :=
  let n := intBits fmt
  BitVec.ofNat 32 (intEnc (intSigned fmt) n 32 (if sat then clampInt (intSigned fmt) n x else x))

/-- The element of a field's register in lane i, as a number of an integer format. -/
def intOf (fmt : Nat) (w : W32) : Int := intVal (intSigned fmt) (intBits fmt) w.toNat

/-- A word that writes each active lane of v[fd] from that lane's operands. -/
def vMap (f : FRrr) (ok bad : Bool) (srcs : List VSrc) (g : Ctx → Nat → W32) (s : State) : State :=
  vIssue f.w ok bad srcs [f.fd.toNat]
    (fun k act s => .retire none (s.writeV k f.fd act f.prf (g (s.ctx k.c)))) s

/-- The mode of an rm field. -/
def rmOf (f : FRrr) : Rm := Rm.ofCode f.rm.toNat

/-- A float word of two operands (05 R179). -/
def vFloat2 (f : FRrr) (op : Ext → Ext → Ext) (s : State) : State :=
  vMap f (vFloatOk f) false [vA f.w f.fa, vB f.w f.fb]
    (fun x i =>
      floatElem f.fmt.toNat (rmOf f) f.sat (op (elemVal f.fmt.toNat (vElem x f.fa i)) (elemVal f.fmt.toNat (vElem x f.fb i))))
    s

/-- The sign rule of an exact zero sum needs to know rounding toward negative (02 R56). -/
def isRdn (f : FRrr) : Bool := f.rm == 3

/-- A float word of three operands (05 R179). -/
def vFloat3 (f : FRrr) (op : Ext → Ext → Ext → Ext) (s : State) : State :=
  vMap f (vFloatOk f) false [vA f.w f.fa, vB f.w f.fb, vC f.w f.fc]
    (fun x i =>
      floatElem f.fmt.toNat (rmOf f) f.sat
        (op (elemVal f.fmt.toNat (vElem x f.fa i)) (elemVal f.fmt.toNat (vElem x f.fb i))
          (elemVal f.fmt.toNat (vElem x f.fc i)))) s

/-- A float word of one operand (05 R179). -/
def vFloat1 (f : FRrr) (op : Ext → Ext) (s : State) : State :=
  vMap f (vFloatOk f) false [vA f.w f.fa]
    (fun x i => floatElem f.fmt.toNat (rmOf f) f.sat (op (elemVal f.fmt.toNat (vElem x f.fa i)))) s

def execVadd (f : FRrr) (s : State) : Host.Outcome State Fault Refusal :=
  .next (vFloat2 f (Ext.addZ (isRdn f)) s)

def execVsub (f : FRrr) (s : State) : Host.Outcome State Fault Refusal :=
  .next (vFloat2 f (fun a b => Ext.addZ (isRdn f) a b.neg) s)

def execVmul (f : FRrr) (s : State) : Host.Outcome State Fault Refusal := .next (vFloat2 f Ext.mul s)

def execVfma (f : FRrr) (s : State) : Host.Outcome State Fault Refusal :=
  .next (vFloat3 f (fun a b c => Ext.addZ (isRdn f) (a.mul b) c) s)

def execVfms (f : FRrr) (s : State) : Host.Outcome State Fault Refusal :=
  .next (vFloat3 f (fun a b c => Ext.addZ (isRdn f) (a.mul b) c.neg) s)

def execVrcp (f : FRrr) (s : State) : Host.Outcome State Fault Refusal := .next (vFloat1 f Ext.rcp s)

def execVrsq (f : FRrr) (s : State) : Host.Outcome State Fault Refusal := .next (vFloat1 f Ext.rsq s)

/-- VMIN and VMAX: the operand chosen is not rounded (05 R180). -/
def vMinMax (f : FRrr) (fl : Ext → Ext → Ext) (it : Int → Int → Int) (s : State) : State :=
  vMap f (vMinMaxOk f) false [vA f.w f.fa, vB f.w f.fb]
    (fun x i =>
      let a := vElem x f.fa i
      let b := vElem x f.fb i
      let n := f.fmt.toNat
      if n ≤ 2 then floatElem n .rne false (fl (elemVal n a) (elemVal n b))
      else intElem n false (it (intOf n a) (intOf n b))) s

def execVmin (f : FRrr) (s : State) : Host.Outcome State Fault Refusal := .next (vMinMax f Ext.min min s)

def execVmax (f : FRrr) (s : State) : Host.Outcome State Fault Refusal := .next (vMinMax f Ext.max max s)

/-- VABS and VNEG: `.sat` acts on integers only (05 R180). -/
def vAbsNeg (f : FRrr) (fl : Ext → Ext) (it : Int → Int) (s : State) : State :=
  vMap f (vAbsNegOk f) false [vA f.w f.fa]
    (fun x i =>
      let a := vElem x f.fa i
      let n := f.fmt.toNat
      if n ≤ 2 then floatElem n .rne false (fl (elemVal n a)) else intElem n f.sat (it (intOf n a))) s

def execVabs (f : FRrr) (s : State) : Host.Outcome State Fault Refusal :=
  .next (vAbsNeg f Ext.abs (fun i => (i.natAbs : Int)) s)

def execVneg (f : FRrr) (s : State) : Host.Outcome State Fault Refusal :=
  .next (vAbsNeg f Ext.neg (fun i => -i) s)

/-! Conversion (05 R189). -/

/-- A value converted to format code 0–4 or 8–14, with the SPFSTAT flags it sets (02 R71). `.sat` does not act on SPF
(DEDUCED, log entry 31). -/
def convert (dst : Nat) (rm : Rm) (sat : Bool) (x : Ext) : W32 × SpfFlags :=
  if dst ≤ 4 then (floatElem dst rm sat x, 0)
  else if dst = 14 then spfRound rm x
  else (intElem dst false (toInt (intSigned dst) (intBits dst) rm x), 0)

/-- VCVT: under rm 4 the generator advances once per active lane (02 R68). -/
def execVcvt (f : FRrr) (s : State) : Host.Outcome State Fault Refusal :=
  .next (vIssue f.w (vcvtOk f) false [vA f.w f.fa] [f.fd.toNat]
    (fun k act s =>
      let x := s.ctx k.c
      let d := if f.rm = 4 then drawLanes (onLanes act) x.v.lfsr else ([], x.v.lfsr)
      let res := fun i =>
        convert f.fmt.toNat (laneMode f.rm d.1 i) f.sat (elemVal (cvtSrc f).toNat (vElem x f.fa i))
      let flags := (onLanes act).foldl (fun a i => orFlags a (res i).2) 0
      .retire none ((s.modCtx k.c fun y => setSpf flags { y with v := { y.v with lfsr := d.2 } }).writeV k f.fd act f.prf
        fun i => (res i).1)) s)

/-! Block-scaled formats. -/

/-- Active lanes of block b. -/
def blockLanes (act : W64) (b : Nat) : List Nat := (onLanes act).filter fun i => i / 32 == b

/-- Scale of block b of VQNT over FP32 elements of its active lanes (02 R59, 05 R190). -/
def blockScale (x : Ctx) (f : FRrr) (act : W64) (b : Nat) : Nat × Option Int :=
  mxScale ((blockLanes act b).map fun i => val32 (vElem x f.fa i))

/-- Lanes 0 and 32 of the blocks that have an active lane. -/
def blockHeads (act : W64) : W64 :=
  (if (blockLanes act 0).isEmpty then 0 else oneLane 0) ||| (if (blockLanes act 1).isEmpty then 0 else oneLane 32)

/-- VQNT (05 R190); aux = fd breaks no rule of 03 R103 or R104, so its 0x02 is a fault of row 8 of 03 R88, after the
pop. -/
def execVqnt (f : FRrr) (s : State) : Host.Outcome State Fault Refusal :=
  .next (vIssue f.w (vqntOk f) false [vA f.w f.fa] [f.fd.toNat, f.aux.toNat]
    (fun k act s => if vqntBad f then .fault (flt 0x02) s else
      let x := s.ctx k.c
      let d := if f.rm = 4 then drawLanes (onLanes act) x.v.lfsr else ([], x.v.lfsr)
      let sc := fun b => blockScale x f act b
      let elem := fun i =>
        match (sc (i / 32)).2 with
        | none => (0 : W32)
        | some e => BitVec.ofNat 32 (mxQuant f.fmt.toNat (laneMode f.rm d.1 i) e (val32 (vElem x f.fa i)))
      let s1 := s.modCtx k.c fun y => { y with v := { y.v with lfsr := d.2 } }
      .retire none ((s1.writeV k f.fd act false elem).writeV k f.aux (blockHeads act) false fun i =>
        BitVec.ofNat 32 (sc (i / 32)).1)) s)

/-- VDQNT: the scale stands in the first lane of the block (05 R191). -/
def execVdqnt (f : FRrr) (s : State) : Host.Outcome State Fault Refusal :=
  .next (vMap f (vdqntOk f) false [vA f.w f.fa, (vB f.w f.fb).on blockHeads]
    (fun x i =>
      rne32 (mxVal f.fmt.toNat (vElem x f.fa i).toNat ((vElem x f.fb (i / 32 * 32)).toNat % 256))) s)

/-- The three parts of VSPL3 (02 R78). -/
def split3 (w : W32) : Nat × Nat × Nat :=
  let x := val32 w
  let hi := bf16.round .rne false x
  if x.isInf then (hi, 0, 0)
  else if (valBf hi).isInf then (hi, bf16.round .rne false .nan, bf16.round .rne false .nan)
  else
    let r1 := x.add (valBf hi).neg
    let mid := bf16.round .rne false r1
    (hi, mid, bf16.round .rne false (r1.add (valBf mid).neg))

/-- VSPL3 writes its group of three (05 R192, 03 R104). -/
def execVspl3 (f : FRrr) (s : State) : Host.Outcome State Fault Refusal :=
  .next (vIssue f.w (vspl3Ok f) (group3Bad f.fd) [vA f.w f.fa] [f.fd.toNat, f.fd.toNat + 1, f.fd.toNat + 2]
    (fun k act s =>
      let x := s.ctx k.c
      let part := fun i => split3 (vElem x f.fa i)
      .retire none
        (((s.writeV k f.fd act false fun i => BitVec.ofNat 32 (part i).1).writeV k (f.fd + 1) act false fun i =>
          BitVec.ofNat 32 (part i).2.1).writeV k (f.fd + 2) act false fun i => BitVec.ofNat 32 (part i).2.2)) s)

/-! Table interpolation (05 R193; 11 R371). -/

/-- An interpolation-table entry. -/
structure Tip where
  valid : Bool
  below : Nat
  above : Nat
  nseg : Nat
  x0 : Ext
  lh : Int
  y : List W32
  deriving DecidableEq, Repr, Inhabited

/-- Segments of an entry, from its control word. -/
def tipSegs (ctl : Nat) : Nat := fld ctl 16 9

/-- Bytes of an entry that are read (11 R371). -/
def tipBytes (ctl : Nat) : Nat := 16 + (if 1 ≤ tipSegs ctl ∧ tipSegs ctl ≤ 256 then 4 * (tipSegs ctl + 1) else 0)

/-- The fields of an entry; one outside its limits is not valid. -/
def parseTip (b : List Byte) : Tip :=
  let ctl := blockNat b 0 4
  let n := tipSegs ctl
  let x0 := val32 (BitVec.ofNat 32 (blockNat b 4 4))
  let lh := intVal true 8 (blockNat b 8 1)
  { valid := ctl.testBit 0 && decide (1 ≤ n) && decide (n ≤ 256) && x0 != .nan && !x0.isInf && decide (-32 ≤ lh)
      && decide (lh ≤ 31),
    below := fld ctl 1 2, above := fld ctl 3 2, nseg := n, x0 := x0, lh := lh,
    y := (upTo (n + 1)).map fun i => BitVec.ofNat 32 (blockNat b (16 + 4 * i) 4) }

/-- Offset of entry k in the own scratchpad. -/
def tipOff (k : Nat) : Nat := 0xF8000 + 2048 * (k % 16)

/-- Entry k read as a control block: a cached copy, or memory up to the last node value that the entry has (09 R324; 11 R371,
R372). -/
def State.readTip (s : State) (c : CoreId) (k : Nat) : BlockRead × State :=
  let off := tipOff k
  let piece (n : Nat) : Piece := spPiece (spKey c off) n
  s.readCached c (fun b => b.space == 1 && b.addr == off) (⟨1, 0, off, ·⟩) fun s =>
    s.fetchEntry c .v (piece 16) fun s τ =>
      let x := s.ctx c
      [piece (tipBytes (leNat (s.runFor x .v x.seq 5 τ (spKey c off) 4)))]

/-- floor of a value that is not negative. -/
def floorNat : Ext → Nat
  | .fin _ m e => if 0 ≤ e then m * pow2 e else m / pow2 (-e)
  | _ => 0

/-- The value on a segment with ends a and b at t, u being the position (05 R193). -/
def tipSegment (rdn : Bool) (a b u t : Ext) : Ext :=
  let odd := a == .nan || b == .nan || a.isInf || b.isInf
  if odd then
    (if t.isZero then a
     else if a = .nan ∨ b = .nan then .nan
     else if a.isInf && b.isInf then (if a = b then a else .nan)
     else if a.isInf then a else b)
  else
    let d := Ext.addZ rdn b a.neg
    if u.isInf then (if d.isZero then a else .inf (d.isNeg != u.isNeg))
    else Ext.addZ rdn a (t.mul d)

/-- The function of an entry at x (05 R193). -/
def tipValue (rdn : Bool) (e : Tip) (x : Ext) : Ext :=
  if x = .nan then .nan
  else
    let u := (x.add e.x0.neg).scale (-e.lh)
    let y := fun i => val32 (e.y.getD i 0)
    let low := u.lt (.zero false)
    let high := (Ext.ofInt e.nseg).lt u
    let mode := if low then e.below else if high then e.above else 4
    if mode = 1 then x
    else if mode = 2 then .zero false
    else if mode = 0 then (if low then y 0 else y e.nseg)
    else
      let j := if low then 0 else if high then e.nseg - 1 else min (floorNat u) (e.nseg - 1)
      tipSegment rdn (y j) (y (j + 1)) u (u.add (Ext.ofInt (-(j : Int))))

/-- VTIP (05 R193). -/
def execVtip (f : FRrr) (s : State) : Host.Outcome State Fault Refusal :=
  .next (vIssue f.w (vtipOk f) false [vA f.w f.fa] [f.fd.toNat]
    (fun k act s =>
      let n := f.aux.toNat % 16
      match s.readTip k.c n with
      | (.wait, _) => .wait
      | (.bad code, s1) => .fault (fltAddr code (tipOff n)) s1
      | (.storage code a, s1) => .fault (fltAddr code a) s1
      | (.bytes b, s1) =>
        let e := parseTip b
        if !e.valid then .fault (fltAddr 0x02 n) s1
        else
          let x := s1.ctx k.c
          .retire none (s1.writeV k f.fd act f.prf fun i =>
            floatElem f.fmt.toNat (rmOf f) f.sat (tipValue (isRdn f) e (elemVal f.fmt.toNat (vElem x f.fa i))))) s)

end Sys2Proof.Machine
end

