-- ==== Sys2Proof/Machine/VInt.lean ====
section
/-! DEFINITION. V integer, bitwise, shift, compare, select and move words (05 R181–R185). -/

namespace Sys2Proof.Machine

/-- An integer word of two operands, formed exactly (05 R181). -/
def vInt2 (f : FRrr) (op : Int → Int → Int) (s : State) : State :=
  vMap f (vIntOk f) false [vA f.w f.fa, vB f.w f.fb]
    (fun x i =>
      intElem f.fmt.toNat f.sat (op (intOf f.fmt.toNat (vElem x f.fa i)) (intOf f.fmt.toNat (vElem x f.fb i)))) s

def execViadd (f : FRrr) (s : State) : Host.Outcome State Fault Refusal := .next (vInt2 f (· + ·) s)

def execVisub (f : FRrr) (s : State) : Host.Outcome State Fault Refusal := .next (vInt2 f (· - ·) s)

def execVimul (f : FRrr) (s : State) : Host.Outcome State Fault Refusal := .next (vInt2 f (· * ·) s)

/-- A word that writes a predicate on its active lanes (05 R182–R184). -/
def vToPred (f : FRrr) (ok : Bool) (srcs : List VSrc) (g : Ctx → W64) (s : State) : State :=
  vIssue f.w ok false srcs []
    (fun k act s => .retire none (s.modCtx k.c fun y => writePred f.fd.toNat act (g y) y)) s

/-- A bitwise word of two operands in its vector or predicate form (05 R182). -/
def vBit2 (f : FRrr) (subMax : Nat) (vec : W32 → W32 → W32) (pr : W64 → W64 → W64) (s : State) : State :=
  if predForm f then
    vToPred f (vBitOk subMax false f) [] (fun y => pr (predOf y.v f.fa.toNat) (predOf y.v f.fb.toNat)) s
  else
    vMap f (vBitOk subMax false f) false [vA f.w f.fa, vB f.w f.fb]
      (fun x i => vec (vElem x f.fa i) (vElem x f.fb i)) s

/-- VAND, and with sub[1] = 1 VAND.n. -/
def execVand (f : FRrr) (s : State) : Host.Outcome State Fault Refusal :=
  .next (if f.sub = 2 then
    vMap f (vBitOk 2 false f) false [vA f.w f.fa, vB f.w f.fb] (fun x i => vElem x f.fa i &&& ~~~(vElem x f.fb i)) s
  else vBit2 f 2 (· &&& ·) (· &&& ·) s)

def execVor (f : FRrr) (s : State) : Host.Outcome State Fault Refusal := .next (vBit2 f 1 (· ||| ·) (· ||| ·) s)

def execVxor (f : FRrr) (s : State) : Host.Outcome State Fault Refusal := .next (vBit2 f 1 (· ^^^ ·) (· ^^^ ·) s)

def execVnot (f : FRrr) (s : State) : Host.Outcome State Fault Refusal :=
  .next (if predForm f then vToPred f (vBitOk 1 true f) [] (fun y => ~~~(predOf y.v f.fa.toNat)) s
    else vMap f (vBitOk 1 true f) false [vA f.w f.fa] (fun x i => ~~~(vElem x f.fa i)) s)

/-- A shift: by v[fb](i)[4:0] or by aux[4:0] (05 R182). -/
def vShiftBy (f : FRrr) (op : W32 → Nat → W32) (s : State) : State :=
  vMap f (vShiftOk f) false (vA f.w f.fa :: if f.sub = 0 then [vB f.w f.fb] else [])
    (fun x i =>
      op (vElem x f.fa i) ((if f.sub = 0 then (vElem x f.fb i).toNat else f.aux.toNat) % 32)) s

def execVshl (f : FRrr) (s : State) : Host.Outcome State Fault Refusal := .next (vShiftBy f (fun a n => a <<< n) s)

def execVshr (f : FRrr) (s : State) : Host.Outcome State Fault Refusal := .next (vShiftBy f (fun a n => a >>> n) s)

def execVsra (f : FRrr) (s : State) : Host.Outcome State Fault Refusal := .next (vShiftBy f (fun a n => a.sshiftRight n) s)

/-- VCMP (05 R183). -/
def execVcmp (f : FRrr) (s : State) : Host.Outcome State Fault Refusal :=
  .next (vToPred f (vcmpOk f) [vA f.w f.fa, vB f.w f.fb]
    (fun x =>
      let n := f.fmt.toNat
      maskOf fun i =>
        if n ≤ 2 then condF f.sub.toNat (elemVal n (vElem x f.fa i)) (elemVal n (vElem x f.fb i))
        else condI f.sub.toNat (intOf n (vElem x f.fa i)) (intOf n (vElem x f.fb i))) s)

/-- VSEL (05 R184). The elements of both sources are checked on every active lane, whichever the predicate chooses (DESIGN
CHOICE, log entry 100). -/
def execVsel (f : FRrr) (s : State) : Host.Outcome State Fault Refusal :=
  .next (vMap f (vselOk f) false [vA f.w f.fa, vB f.w f.fb]
    (fun x i => if laneOn (predOf x.v f.aux.toNat) i then vElem x f.fa i else vElem x f.fb i) s)

/-- VMOV between registers and predicates (05 R184). -/
def execVmov (f : FRrr) (s : State) : Host.Outcome State Fault Refusal :=
  .next (if f.sub = 1 then
      vMap f (vmovOk f) false [] (fun x i => if laneOn (predOf x.v f.fa.toNat) i then 1 else 0) s
    else if f.sub = 2 then
      vToPred f (vmovOk f) [vA f.w f.fa] (fun x => maskOf fun i => vElem x f.fa i != 0) s
    else if f.sub = 4 then vToPred f (vmovOk f) [] (fun x => predOf x.v f.fa.toNat) s
    else vMap f (vmovOk f) false [vA f.w f.fa] (fun x i => vElem x f.fa i) s)

def execVmovIota (f : FRrr) (s : State) : Host.Outcome State Fault Refusal :=
  .next (vMap f (vmovIotaOk f) false [] (fun _ i => BitVec.ofNat 32 i) s)

/-- imm18 of VBCAST: fb:fc:aux (05 R185). -/
def imm18 (f : FRrr) : BitVec 18 := f.fb ++ f.fc ++ f.aux

/-- VBCAST of one element, read whether or not its lane is active (05 R185). -/
def execVbcast (f : FRrr) (s : State) : Host.Outcome State Fault Refusal :=
  .next (vMap f (vbcastOk 0 f) false [(vA f.w f.fa).on fun _ => oneLane f.aux.toNat]
    (fun x _ => vElem x f.fa f.aux.toNat) s)

def execVbcastI (f : FRrr) (s : State) : Host.Outcome State Fault Refusal :=
  .next (vMap f (vbcastOk 1 f) false [] (fun _ _ => (imm18 f).signExtend 32) s)

def execVbcastH (f : FRrr) (s : State) : Host.Outcome State Fault Refusal :=
  .next (vMap f (vbcastOk 2 f) false [] (fun _ _ => (imm18 f).zeroExtend 32 <<< 14) s)

end Sys2Proof.Machine
end

