-- ==== Sys2Proof/Machine/VTok.lean ====
section
/-! DEFINITION. V tokens, fence, control registers and end (05 R177, R197–R200). -/

namespace Sys2Proof.Machine

/-- Lane named by imm12[5:0]. -/
def sysLane (f : FSys) : Nat := fld f.imm12.toNat 0 6

/-- VTKSEND: one element pushed as a value, whatever lanes are active (05 R197). -/
def execVtksend (f : FSys) (s : State) : Host.Outcome State Fault Refusal :=
  .next (vIssue f.w (vtksendOk f) false [(vA f.w f.fa).on fun _ => oneLane (sysLane f)] []
    (fun k _ s => .retire (some (vElem (s.ctx k.c) f.fa (sysLane f))) s) s)

/-- What VTKRECV writes for an entry: all ones for a bare token (05 R197). -/
def tokenV (v : Option Entry) : W32 := BitVec.ofNat 32 (popVal 0xFFFFFFFF v)

def execVtkrecv (f : FSys) (s : State) : Host.Outcome State Fault Refusal :=
  .next (vIssue f.w (vtkrecvOk f) false [] [f.fd.toNat]
    (fun k act s => .retire none (s.writeV k f.fd act false fun _ => tokenV k.got)) s)

/-- VTKRECV.d: armed for the lanes active at its issue (05 R197). -/
def execVtkrecvD (f : FSys) (s : State) : Host.Outcome State Fault Refusal :=
  .next (vIssue f.w (vtkrecvDOk f) false [] [f.fd.toNat]
    (fun k act s =>
      match Eng.ofCode (srcCode f) with
      | none => .fault (flt 0x01) s
      | some e =>
        let x := s.ctx k.c
        if x.awaiting e .v then .wait
        else
          let s1 := s.modCtx k.c fun y => if act = 0 then y else
            { y with v := { y.v with writer := vset y.v.writer (vReg x f.fd) (BitVec.ofNat 15 k.pc.toNat) } }
          .retire none (s1.issuePend k.c ⟨.v, vReg x f.fd, 1, 0, 0, none, .token e act⟩)) s)

def execVfence (f : FSys) (s : State) : Host.Outcome State Fault Refusal :=
  .next (vIssue f.w (vfenceOk f) false [] [] (fun k _ s => fenceBody f .v k s) s)

/-- The half of a control register that sub names (05 R199). -/
def halfSel (f : FSys) : W64 := if f.sub = 0 then 0x00000000FFFFFFFF else 0xFFFFFFFF00000000

/-- VCRD: a half of a register to every active lane (05 R199). -/
def execVcrd (f : FSys) (s : State) : Host.Outcome State Fault Refusal :=
  .next (vIssue f.w (vcrdOk f) false [] [f.fd.toNat]
    (fun k act s =>
      match chkCr (s.ctx k.c) f.cr.toNat with
      | .bad t => .fault t s
      | .wait => .wait
      | .ok =>
        let s1 := s.correct k.c [.creg f.cr.toNat]
        let v := s.crRead k.c f.cr.toNat
        .retire none (s1.writeV k f.fd act false fun _ => (if f.sub = 0 then v else v >>> 32).truncate 32)) s)

/-- VCWR: an element to a half of a register; RRB's is serialising (05 R176, R199). -/
def execVcwr (f : FSys) (s : State) : Host.Outcome State Fault Refusal :=
  .next (vIssue f.w (vcwrOk f) false [(vA f.w f.fa).on fun _ => oneLane (sysLane f)] []
    (fun k _ s =>
      let x := s.ctx k.c
      let e := (vElem x f.fa (sysLane f)).zeroExtend 64
      let v : W64 := if f.sub = 0 then e else e <<< 32
      if f.cr = 0x0C0 && !settled .v x then .wait
      else crRetire f.cr.toNat (halfSel f) (s.crWrite k.c f.cr.toNat (halfSel f) v)) s)

/-- The stream of engine e enters Done (01 R28). -/
def enterDone (c : CoreId) (e : Eng) (s : State) : State :=
  s.modCtx c fun x => x.modStream e fun r => { r with st := .done }

/-- VEND: every deferred write has landed and every store is performed (05 R177). Its pop and push act as those of every word
(05 R203; DEDUCED, log entry 97). -/
def execVend (f : FSys) (s : State) : Host.Outcome State Fault Refusal :=
  .next (vIssue f.w (vendOk f) false [] []
    (fun k _ s =>
      let x := s.ctx k.c
      if (x.pend.all fun p => p.eng != .v) && storesDone .v x then .last s (enterDone k.c .v) else .wait) s)

def execVnop (w : Common) (s : State) : Host.Outcome State Fault Refusal := .next (issueHint .v w (toksOk .v w) s)

end Sys2Proof.Machine
end

