-- ==== Sys2Proof/Machine/CCtl.lean ====
section
/-! DEFINITION. Waiting, tokens, loops, fences and the end of C (09 R315; 10 R349). -/

namespace Sys2Proof.Machine

/-- The fault of a tag that holds an error: REG the tag, the recorded address, and the lane of a tower (10 R349). -/
def tagFault (tag : Nat) (p : Poison) : Trap :=
  { fltAddr p.code.toNat p.addr.toNat with
    reg := some tag, lane := if p.code = 0x12 then some p.lane.toNat else none }

/-- The lowest of some tags that holds an error. -/
def errorTag (x : Ctx) : List Nat → Option (Nat × Poison)
  | [] => none
  | k :: ks => match (vget x.tags k).err with
    | some p => some (k, p)
    | none => errorTag x ks

/-- A wait on tags: until OUT is 0 for each; then an error is raised and cleared, else the word goes on (10 R349). -/
def waitTags (tags : List Nat) (done : State → Out) (k : Wd) (s : State) : Out :=
  let x := s.ctx k.c
  if !(tags.all fun t => (vget x.tags t).out == 0) then .wait
  else match errorTag x tags with
    | some (t, p) =>
      .fault (tagFault t p) (s.modCtx k.c fun y => { y with tags := vmod y.tags t fun q => { q with err := none } })
    | none => done s

def execCwait (f : FCpy) (s : State) : Host.Outcome State Fault Refusal :=
  .next (issue .c f.w (cwaitOk 0 f) false (waitTags [f.tag.toNat] (.retire none)) s)

def execCwaitAll (f : FCpy) (s : State) : Host.Outcome State Fault Refusal :=
  .next (issue .c f.w (cwaitOk 1 f) false (waitTags (upTo 64) (.retire none)) s)

def execCloop (f : FBr) (s : State) : Host.Outcome State Fault Refusal :=
  .next (issue .c f.w (cloopOk f) false (loopBody .c f (tripCount f) false 0) s)

def execCjmp (f : FBr) (s : State) : Host.Outcome State Fault Refusal :=
  .next (issue .c f.w (cjmpOk f) false (fun k s => .jump (target k.pc f.off) s) s)

/-- A tag's status: ERR code, OUT, DONE (10 R349). -/
def tagStatus (t : Tag) : W32 :=
  (match t.err with | none => 0 | some p => p.code) ++ t.out ++ t.done

def execCtksend (f : FSys) (s : State) : Host.Outcome State Fault Refusal :=
  .next (issue .c f.w (ctksendOk 0 f) false
    (fun k s => .retire (some (tagStatus (vget (s.ctx k.c).tags (fld f.imm12.toNat 0 6)))) s) s)

def execCtksendI (f : FSys) (s : State) : Host.Outcome State Fault Refusal :=
  .next (issue .c f.w (ctksendOk 1 f) false (fun _ s => .retire (some (f.imm12.zeroExtend 32)) s) s)

def execCtkrecv (f : FSys) (s : State) : Host.Outcome State Fault Refusal :=
  .next (issue .c f.w (ctkrecvOk f) false (fun _ s => .retire none s) s)

/-- CFENCE: commands issued after it wait for what they are ordered behind; at stream scope it orders nothing (09 R309,
R315). A later one of its kind and scope takes the place of an earlier one, whose commands are among its own. -/
def execCfence (f : FSys) (s : State) : Host.Outcome State Fault Refusal :=
  .next (issue .c f.w (cfenceOk f) false
    (fun k s => .retire none (s.modCtx k.c fun x =>
      let scope := fld f.imm12.toNat 0 3
      if scope = 0 then x
      else { x with cfences := ⟨x.cseq, f.sub.toNat, scope⟩ ::
               x.cfences.filter fun m => !(m.kind == f.sub.toNat && m.scope == scope) })) s)

/-- CEND: every command of C has completed (10 R349). -/
def execCend (f : FSys) (s : State) : Host.Outcome State Fault Refusal :=
  .next (issue .c f.w (cendOk f) false
    (fun k s => waitTags (upTo 64) (fun s => .last s (enterDone k.c .c)) k s) s)

def execCnop (w : Common) (s : State) : Host.Outcome State Fault Refusal := .next (issueHint .c w (toksOk .c w) s)

/-- Every hint but the no-operations (03 R88 row 2). -/
def execHint (e : Eng) (_op : BitVec 7) (w : Common) (s : State) : Host.Outcome State Fault Refusal :=
  .next (issueHint e w (toksOk e w) s)

/-- A word whose opcode the engine's map does not assign (03 R88 row 3). -/
def execUnassignedOpcode (e : Eng) (_op : BitVec 7) (w : Common) (s : State) : Host.Outcome State Fault Refusal :=
  .next (issue e w false false (fun _ s => .retire none s) s)

end Sys2Proof.Machine
end

