-- ==== Sys2Proof/Machine/Mgmt.lean ====
section
/-! DEFINITION. Management events and interrupt vectors (14 R435, R436). -/

namespace Sys2Proof.Machine

/-- An MSI-X vector raised (14 R435): counted. -/
def State.msi (s : State) (v : Nat) : State := s.modDev fun d => { d with msi := vmod d.msi v (· + 1) }

/-- Events the ring holds. -/
def ringSize : Nat := 64

/-- A management event logged; in a full ring it overwrites the oldest (14 R436). -/
def State.logEvent (s : State) (code src arg : Nat) : State :=
  let put (m : Mailbox) : Mailbox :=
    let t := m.tail.toNat % ringSize
    let next := (t + 1) % ringSize
    { m with ring := vset m.ring t ⟨code, src, arg⟩, tail := BitVec.ofNat 16 next,
             head := if m.head.toNat % ringSize = next then BitVec.ofNat 16 ((next + 1) % ringSize) else m.head }
  (s.modDev fun d => { d with mail := put d.mail }).msi 2

end Sys2Proof.Machine
end

