-- ==== Sys2Proof/Machine/SMem.lean ====
section
/-! DEFINITION. S loads, stores, atomics and collating loads (08 R284, R285, R292). -/

namespace Sys2Proof.Machine

/-- Bytes of an access: 2^size. -/
def memBytes (f : FMem) : Nat := 2 ^ f.size.toNat

/-- The index term of the three modes: nothing, the index, or the index scaled (03 R98). -/
def indexTerm (mode : BitVec 2) (b : W64) (n : Nat) : W64 :=
  if mode = 0 then 0 else if mode = 1 then b else b * BitVec.ofNat 64 n

/-- Address of an S memory word (08 R284). -/
def sAddr (x : Ctx) (f : FMem) : Nat :=
  (sfield x f.fa + indexTerm f.mode (sfield x f.fb) (memBytes f) + f.disp.signExtend 64).toNat

/-- Sources of the address: the base and, in the indexed modes, the index. -/
def sAddrSrcs (f : FMem) : List Src := srcA f.w f.fa :: if f.mode = 0 then [] else [srcB f.w f.fb]

/-- The load elements of an access, in ascending address. -/
def loadEls (lane addr : Nat) : List Piece → Nat → List LoadEl
  | [], _ => []
  | p :: ps, sh => ⟨lane, sh, p, BitVec.ofNat 48 addr⟩ :: loadEls lane addr ps (sh + p.n)

/-- Scope at which an access is an acquire: .acq or .ar; 0 where it is none or its scope is the stream's (09 R309, R310). -/
def acqScope (f : FMem) : Nat := if f.order = 1 ∨ f.order = 3 then f.scope.toNat else 0

/-- Scope at which an access is a release: .rel or .ar (09 R309, R310). -/
def relScope (f : FMem) : Nat := if f.order = 2 ∨ f.order = 3 then f.scope.toNat else 0

/-- LD: a deferred write (08 R284). -/
def execLd (f : FMem) (s : State) : Host.Outcome State Fault Refusal :=
  .next (sIssue f.w (ldOk f) (sAddrSrcs f) (some f.fd)
    (fun k s =>
      let a := sAddr (s.ctx k.c) f
      match s.scalarRef k.c f.space.toNat a (memBytes f) .read (f.order != 0) (f.order != 0) with
      | (.bad code, s1) => .fault (accessFault code a none 0) s1
      | (.ok r, s1) =>
        if sbFull (s1.ctx k.c) then .wait
        else .retire none (s1.issuePend k.c ⟨.s, f.fd.toNat, 1, 0, acqScope f, none, .load (loadEls 0 a r.pieces 0)⟩)) s)

/-- ST: the low bytes of s[fd] through the send buffer (08 R283, R284). -/
def execSt (f : FMem) (s : State) : Host.Outcome State Fault Refusal :=
  .next (sIssue f.w (stOk f) (sAddrSrcs f ++ [srcD f.w f.fd]) none
    (fun k s =>
      let x := s.ctx k.c
      let a := sAddr x f
      match s.scalarRef k.c f.space.toNat a (memBytes f) .write (f.order != 0) (f.order != 0) with
      | (.bad code, s1) => .fault (accessFault code a none 0) s1
      | (.ok r, s1) =>
        if sbFull (s1.ctx k.c) then .wait
        else .retire none (s1.issueStore k.c .s (relScope f)
          (chunksOf r.pieces (leBytes (memBytes f) (sfield x f.fd).toNat)))) s)

/-- Displacement of an AMO: disp[9:0], signed (08 R285). -/
def amoDisp (f : FMem) : W64 := (f.disp.truncate 10 : BitVec 10).signExtend 64

/-- AMO; `.cas` reads s[fd] too (08 R285). -/
def execAmo (f : FMem) (s : State) : Host.Outcome State Fault Refusal :=
  .next (sIssue f.w (amoOk f) (srcA f.w f.fa :: srcB f.w f.fb :: if amoOp f = 9 then [srcD f.w f.fd] else [])
    (some f.fd)
    (fun k s =>
      let x := s.ctx k.c
      let a := (sfield x f.fa + amoDisp f).toNat
      match s.scalarRef k.c f.space.toNat a (memBytes f) .amo true (f.order != 0) with
      | (.bad code, s1) => .fault (accessFault code a none 0) s1
      | (.ok r, s1) =>
        if sbFull (s1.ctx k.c) then .wait
        else
          let req : AmoReq :=
            { op := amoOp f, acq := acqScope f, piece := r.pieces.headD default, b := sfield x f.fb, cmp := sfield x f.fd,
              addr := BitVec.ofNat 48 a }
          .retire none (s1.issueAmo k.c (relScope f) f.fd.toNat req)) s)

/-- LCOL: one collating load, a deferred write (08 R292). -/
def execLcol (f : FMem) (s : State) : Host.Outcome State Fault Refusal :=
  .next (sIssue f.w (lcolOk f) [srcA f.w f.fa, srcB f.w f.fb] (some f.fd)
    (fun k s =>
      let x := s.ctx k.c
      let off := (sfield x f.fa + f.disp.signExtend 64).toNat
      let g := (sfield x f.fb).toNat % 256
      match s.startCollate k.c .s (colOp f) none off g with
      | .wait => .wait
      | .bad t s1 => .fault t s1
      | .ok el gone s1 =>
        .retire none (((s1.modCtx k.c (setColstat g gone)).count k.c 15 1).issuePend k.c ⟨.s, f.fd.toNat, 1, 0, 0, none, .collate [el]⟩)) s)

end Sys2Proof.Machine
end

