-- ==== Sys2Proof/Machine/SQueue.lean ====
section
/-! DEFINITION. LAUNCH and BAR (10 R332, R338–R340; 01 R39–R41). -/

namespace Sys2Proof.Machine

/-- Slots of a ring: 2^SIZE, SIZE 4–16, any other value acting as 4 (10 R331). -/
def Queue.slots (q : Queue) : Nat := if 4 ≤ q.size.toNat ∧ q.size.toNat ≤ 16 then 2 ^ q.size.toNat else 16

/-- Address of a queue's level-1 page table (10 R331). -/
def Queue.rootAddr (q : Queue) : Nat := q.root.toNat * 4096

/-- Virtual address of slot i (10 R331). -/
def Queue.slotVa (q : Queue) (i : Nat) : Nat := q.base.toNat * 128 + 128 * i

/-- A write of TAIL, a release of what its writer has seen, makes a selection pass due (09 R316; 10 R333). -/
def Cluster.setTail (k : Cluster) (n : Nat) (t : BitVec 16) (v : View) : Cluster :=
  { k with queues := vmod k.queues n fun q => { q with tail := t, seen := q.seen.join v.everyForm }, passDue := true }

/-- Keys of the bytes of a reference now, in order. -/
def State.refKeys (s : State) (r : Ref) : List Nat :=
  (r.pieces.map fun p => (upTo p.n).map fun i => s.keyOf p.loc + i).flatten

/-- The bytes of a reference read and then written to another, with their marks (13 R415). -/
def State.copyRef (s : State) (c : CoreId) (src dst : Ref) : State :=
  let bs := (src.pieces.map s.bytesAt).flatten
  let moved := ((((s.refKeys src).zip (s.refKeys dst)).filter fun k => markOf s.memErr (unitOf k.1) == .double).map
    fun k => unitOf k.2).eraseDups.map fun u => (u, true)
  let s1 := (chunksOf dst.pieces bs).foldl (fun s ch => s.storeChunk c ch) (s.touchRef c src)
  { s1 with memErr := s1.memErr.filter (fun m => !moved.contains (m.1, true)) ++ moved }

/-- A LAUNCH that has reached its queue is taken at the next tick; those taken together are served in the order of their
cores, after every one taken before (10 R332, 01 R494). -/
def State.launchServed (s : State) (c : CoreId) (q : LaunchReq) : Bool :=
  decide (q.tick < s.dev.ticks.toNat)
    && (s.cores.toList.zip (upTo 1152)).all fun d => match d.1.ctx.launchReq with
      | none => true
      | some r => r.cl != q.cl || r.q != q.q || decide (d.2 = c.val)
          || decide (q.tick < r.tick) || (r.tick == q.tick && decide (c.val < d.2))

/-- The slot and the tail written by a LAUNCH whose turn it is (10 R332): a release at device scope, seen by S. -/
def launchWrite (f : FSys) (cl : ClusterId) (n : Nat) (src : Ref) (k : Wd) (s : State) : Out :=
  let q := vget (s.cluster cl).queues n
  let done (s : State) : State := s.modCtx k.c fun x => { x with launchReq := none }
  if (q.tail.toNat + 1) % q.slots = q.head.toNat then
    .retire none ((done s).writeS k.c f.fd (BitVec.allOnes 64))
  else
    let va := q.slotVa q.tail.toNat
    match s.scalarRef k.c 0 va 128 .write true false with
    | (.bad code, s1) => .fault (fltAddr code va) s1
    | (.ok dst, s1) =>
      if sbFull (s1.ctx k.c) || s1.anyStalled (src.pieces ++ dst.pieces) then .wait
      else
        let s2 := dst.pieces.foldl (fun s p => s.writeNoted k.c .s 3 (s.spanOf p)) (s1.copyRef k.c src dst)
        .retire none
          (((done s2).modCluster cl fun x => x.setTail n (BitVec.ofNat 16 ((q.tail.toNat + 1) % q.slots))
            ((s2.ctx k.c).stream .s).view).writeS k.c
            f.fd (q.tail.zeroExtend 64))

/-- The part of LAUNCH after the queue is known (10 R332): its checks, then its turn at the queue. -/
def launchInto (f : FSys) (cl : ClusterId) (n a : Nat) (k : Wd) (s : State) : Out :=
  let q := vget (s.cluster cl).queues n
  if !q.owner || !q.en || q.rootAddr != s.rootOf k.c then .fault (fltAddr 0x05 a) s
  else match s.scalarRef k.c 0 a 128 .read true false with
    | (.bad code, s1) => .fault (accessFault code a none 0) s1
    | (.ok src, s1) =>
      match (s.ctx k.c).launchReq with
      | none => .hold (s1.modCtx k.c fun x => { x with launchReq := some ⟨cl.val, n, s.dev.ticks.toNat⟩ })
      | some r => if s.launchServed k.c r then launchWrite f cl n src k s1 else .wait

/-- LAUNCH: serialising, its writes ordered after every earlier access of S (10 R332). -/
def execLaunch (f : FSys) (s : State) : Host.Outcome State Fault Refusal :=
  .next (sIssue f.w (launchOk f) (srcA f.w f.fa :: if launchOwn f then [] else [srcB f.w f.fb]) (some f.fd)
    (fun k s =>
      let x := s.ctx k.c
      let a := (sfield x f.fa).toNat
      let b := (sfield x f.fb).toNat
      let n := fld f.imm12.toNat 0 3
      if !launchOwn f && decide (24 ≤ b) then .fault { flt 0x02 with opnd := some 1 } s
      else if !settled .s x || !drained .s x then .wait
      else launchInto f (if launchOwn f then clusterOf k.c else clusterAt b) n a k s) s)

/-! Barriers. -/

/-- Level of a BAR. -/
def barLevel (f : FSys) : Nat := fld f.imm12.toNat 0 3

/-- The membership check of 10 R339 for level n ≥ 1. -/
def State.barMember (s : State) (c : CoreId) (n : Nat) : Bool :=
  let r := (s.ctx c).cr
  let cl := (clusterOf c).val
  (match (s.core c).job with | none => false | some j => j.tk.gang)
    && (n != 1 || (vget r.dommask 0).getLsbD (coreIn c))
    && (n != 2 || (vget r.dommask 1).getLsbD (cl % 6))
    && (n != 3 || (vget r.dommask 2).getLsbD cl)
    && (n != 4 || (vget r.dommask 3).getLsbD 8)

/-- Arrival at a barrier of level n, with the group entry that BAR.D4 has read: the instance is the job's count of arrivals
at the level (10 R339, 01 R41). -/
def State.arrive (s : State) (c : CoreId) (n : Nat) (group : List Byte) : State :=
  let now := s.dev.ticks.toNat
  let k := s.core c
  let inst := match k.job with | none => 0 | some j => vget j.bars n
  let a : Arrival :=
    { level := n, inst := inst, tick := now, order := s.dev.arrivals, core := c.val,
      since := k.ctx.pacqSince.getD now, rank := none, group := group }
  (s.modDev fun d => { d with arrivals := d.arrivals + 1 }).modCore c fun k =>
    { k with ctx := { k.ctx with bar := some a, pacqSince := none },
             job := k.job.map fun j => { j with bars := vset j.bars n (inst + 1) } }

/-- The control registers the membership check of a level reads: that level's DOMMASK. -/
def barCrs (n : Nat) : List Nat := if n = 0 then [] else [0x00F + n]

/-- DOMMASK4.GIDX (04 R133). -/
def Ctx.gidx (x : Ctx) : Nat := fld (vget x.cr.dommask 3).toNat 0 8

/-- S arrives. BAR.D4 reads its group entry with the list as one control block at its issue (11 R369, R372); one with
uncorrectable data is not used, and stops the word as it stops the other words that read it (09 R493; DESIGN CHOICE, log entry
72). -/
def barArrive (n : Nat) (k : Wd) (s : State) : Out :=
  if n ≠ 4 then .hold (s.arrive k.c n [])
  else
    let g := (s.ctx k.c).gidx
    match s.readEntry k.c .s g with
    | (.bytes b, s1) => .hold (s1.arrive k.c n b)
    | (.storage code a, s1) => .fault (fltAddr code a) s1
    | (.bad code, s1) => .fault (fltAddr code (groupOff g)) s1
    | (.wait, _) => .wait

/-- BAR at level 1 or above: S arrives once its earlier accesses are performed and retires with its rank once the instance
is complete and its units are held again (10 R339, R340; 12 R396). -/
def barAbove (f : FSys) (k : Wd) (s : State) : Out :=
  match (s.ctx k.c).bar with
  | none =>
    if !s.barMember k.c (barLevel f) then .fault (fltAddr 0x02 (barLevel f)) s
    else if drained .s (s.ctx k.c) then barArrive (barLevel f) k s
    else .wait
  | some a =>
    match a.rank with
    | none => .wait
    | some r =>
      if (s.core k.c).pwr.susp then .wait
      else .retire none ((s.modCtx k.c fun y => { y with bar := none }).writeS k.c f.fd (BitVec.ofNat 64 r))

/-- BAR: D0 waits until no other engine is Running; an acquire from them (10 R338, R339; 09 R316). -/
def execBar (f : FSys) (s : State) : Host.Outcome State Fault Refusal :=
  .next (sIssue f.w (barOk f) [] (some f.fd)
    (fun k s =>
      let x := s.ctx k.c
      if barLevel f = 0 then
        (if runningMask x .s = 0 ∧ drained .s x = true then .retire none ((s.acquireFrom k.c .s [.v, .m, .p, .c]).writeS k.c f.fd 0)
         else .wait)
      else withCrs (barCrs (barLevel f)) (barAbove f) k s) s)

end Sys2Proof.Machine
end

