-- ==== Sys2Proof/Machine/EvCopy.lean ====
section
/-! DEFINITION. The copy engines and broadcast columns at work (10 R344–R348; 09 R315, R317; 14 R443). -/

namespace Sys2Proof.Machine

/-- Every unit of a command is performed, or it has ended. -/
def Cmd.finished (d : Cmd) : Bool := d.failed || decide (d.total ≤ d.unit)

/-- A command has started: it has read for its first unit, or ended. -/
def Cmd.started (d : Cmd) : Bool :=
  decide (0 < d.unit) || !d.buf.isEmpty || !d.ahead.isEmpty || !d.chunk.isEmpty || d.failed

/-- Bytes of piece j of unit v that a command has read before its other accesses of that unit. -/
def Cmd.readAt (d : Cmd) (v j : Nat) : Option (List Byte) :=
  (d.ahead.find? fun a => a.1 == v && a.2.1 == j).map (·.2.2)

/-- A command has read unit v whole and has not written it. -/
def Cmd.unitRead (d : Cmd) (v : Nat) : Bool :=
  (d.ahead.map fun a => if a.1 = v then a.2.2.length else 0).foldl (· + ·) 0 == (d.move v).n

/-- A command has performed a write (10 R347). -/
def Cmd.hasWritten (d : Cmd) : Bool := decide (0 < d.unit) || d.wrote

/-- Every read of a command has its value (09 R315). -/
def Cmd.allRead (d : Cmd) : Bool :=
  let now := if d.buf.isEmpty then 0 else 1
  d.finished || d.op == .cpys
    || (if d.op = .ccoll then decide (4 * blockNat d.desc 0x10 4 ≤ 64 * (d.unit + now) + d.chunk.length)
        else decide (d.total ≤ d.unit + now)
          || ((upTo d.total).drop (d.unit + now)).all d.unitRead)

/-- Every command of a cluster's queues. -/
def Cluster.allCmds (k : Cluster) : List Cmd := k.engines.toList.flatten ++ k.columns.toList.flatten

/-- The commands of d's core before a place in C's order that still stand in a queue. -/
def Cluster.earlier (k : Cluster) (d : Cmd) (limit : Nat) : List Cmd :=
  k.allCmds.filter fun e => e.core == d.core && decide (e.seq < limit)

/-- An access of d must wait behind a CFENCE: any behind `.acq` and `.ar`, until the reads of every earlier command have
their values, and a write behind `.rel` and `.ar`, until the accesses of every earlier command are performed (09 R315). -/
def Cluster.fenced (k : Cluster) (d : Cmd) (write : Bool) : Bool :=
  d.fences.any fun f => (k.earlier d f.limit).any fun e =>
    f.kind != 2 && !e.allRead || write && f.kind != 1 && !e.finished

/-- Command k of a queue may perform a read, or a write: those before it have started, and its fences let it (10 R344). -/
def Cluster.mayRun (q : Cluster) (u : CopyUnit) (k : Nat) (d : Cmd) (write : Bool) : Bool :=
  !d.finished && ((q.cmds u).take k).all Cmd.started && !q.fenced d write

/-- Places of n bytes at an address of a command now, with the translations it holds; writes reach the hidden side of a
shadow destination (09 R318). -/
def State.cmdRef (s : State) (d : Cmd) (a : CAddr) (n : Nat) (write : Bool) : Ref :=
  match a with
  | .tower f l o => ⟨[twPiece (s.laneKey (namedCore d.core f) l o) n]⟩
  | .mem sp x =>
    if sp = 1 then ⟨[spPiece (spAddrKey d.core x) n]⟩
    else
      let side : Side := if write then .hidden else .visible
      let part (p : Nat × Nat) : List Piece :=
        match tlbFind d.pages d.root p.1 with
        | none => []
        | some t =>
          [⟨(s.placeIn t p.1 p.2 (if write then .write else .read) false side).1, p.2, s.viaIn t side, t.kind == 1⟩]
      ⟨((cutPages x n (n / 2 ^ 16 + 2)).map part).flatten⟩

/-- A command of a queue replaced. -/
def State.setCmd (s : State) (cl : ClusterId) (u : CopyUnit) (k : Nat) (d : Cmd) : State :=
  s.modCluster cl fun q => q.setCmds u ((q.cmds u).set k d)

/-- A tag changed. -/
def State.modTag (s : State) (c : CoreId) (t : Nat) (f : Tag → Tag) : State :=
  s.modCtx c fun x => { x with tags := vmod x.tags t f }

/-- A command ended with an error, recorded in its tag (10 R346). -/
def State.failCmd (s : State) (cl : ClusterId) (u : CopyUnit) (k : Nat) (d : Cmd) (p : Poison) : State :=
  (s.setCmd cl u k { d with failed := true, buf := [], ahead := [] }).modTag d.core d.tag fun t => { t with err := some p }

/-- The lane of a tower source, 0 for any other. -/
def CAddr.lane : CAddr → Nat
  | .tower _ l _ => l
  | .mem _ _ => 0

/-- One unit counted in DONE. -/
def State.countUnit (s : State) (cl : ClusterId) (u : CopyUnit) (k : Nat) (d : Cmd) : State :=
  (s.setCmd cl u k { d with unit := d.unit + 1 }).modTag d.core d.tag fun t => { t with done := t.done + 1 }

/-! What a command's accesses see and pass on (09 R315, R317; log entry 91). -/

/-- What a command must see behind a fence: what C has seen, and what the earlier commands have. -/
def State.behind (s : State) (q : Cluster) (d : Cmd) (f : CFence) : View :=
  (q.earlier d f.limit).foldl (fun v e => v.join e.seen) ((s.ctx d.core).stream .c).view

/-- The view under which a command reads: C's at its issue, and behind an `.acq` or `.ar` fence what the fence adds. -/
def State.cmdView (s : State) (q : Cluster) (d : Cmd) : View :=
  d.fences.foldl (fun v f =>
    if f.kind = 2 then v
    else
      let tags := ((s.ctx d.core).stream .c).observed ++ ((q.earlier d f.limit).map (·.observed)).flatten
      (v.join (s.behind q d f)).acquire tags d.core f.scope) d.view

/-- The releases that a command's writes carry: of its `.rel` and `.ar` fences. -/
def State.cmdTags (s : State) (q : Cluster) (d : Cmd) : List RelTag :=
  (d.fences.filter fun f => f.kind != 1).map fun f => ⟨d.core.val, f.scope, (s.behind q d f).everyForm⟩

/-- The single-copy atomic parts of a piece (08 R277, R280). -/
def State.pieceParts (s : State) (p : Piece) : List Piece :=
  let k := s.keyOf p.loc
  (atomicParts k p.via p.n p.n).map fun q =>
    match p.loc with
    | .phys _ => { p with loc := .phys q.1, n := q.2 }
    | .pub e off h => { p with loc := .pub e (off + (q.1 - k)) h, n := q.2 }

/-- The writes of some bytes at the places of a unit's destinations. -/
def State.unitChunks (s : State) (d : Cmd) (dsts : List CAddr) (bs : List Byte) : List Chunk :=
  (dsts.map fun a => chunksOf (((s.cmdRef d a bs.length true).pieces.map s.pieceParts).flatten) bs).flatten

/-- Pieces read by a command in order. -/
def State.cmdRead (s : State) (d : Cmd) (v : View) : List Piece → (List Byte × Cmd) × State
  | [] => (([], d), s)
  | p :: ps =>
    let q := s.cmdRun d v (s.spanOf p)
    let r := q.2.cmdRead q.1.2 v ps
    ((q.1.1 ++ r.1.1, r.1.2), r.2)

/-! Units. -/

/-- The pieces of unit v's source that are still to be read, each with its place. -/
def State.cmdTodo (s : State) (d : Cmd) (v : Nat) : List (Nat × Piece) :=
  let m := d.move v
  let ps := (s.cmdRef d m.src m.n false).pieces
  ((upTo ps.length).zip ps).filter fun q => (d.readAt v q.1).isNone

/-- One of them read: its bytes are kept until the unit is written (09 R317). -/
def State.readAhead (s : State) (cl : ClusterId) (u : CopyUnit) (k v : Nat) (q : Nat × Piece) (d : Cmd) : State :=
  let r := s.cmdRead d (s.cmdView (s.cluster cl) d) [q.2]
  (r.2.touchRef d.core ⟨[q.2]⟩).setCmd cl u k { r.1.2 with ahead := r.1.2.ahead ++ [(v, q.1, r.1.1)] }

/-- The bytes of a unit's source, those read ahead among them: `now` holds the others in order. -/
def joinPieces (d : Cmd) (v : Nat) : List (Nat × Piece) → List Byte → List Byte
  | [], _ => []
  | (j, p) :: ps, now =>
    match d.readAt v j with
    | some bs => bs ++ joinPieces d v ps now
    | none => now.take p.n ++ joinPieces d v ps (now.drop p.n)

/-- The read of the current unit of a command that moves bytes (10 R344, R346): of several pieces on SO pages one at a time,
so that other accesses can come between in their one order (09 R306); with the last of them the unit is ready to be written.
Uncorrectable data end the command. -/
def State.readUnit (s : State) (cl : ClusterId) (u : CopyUnit) (k : Nat) (d : Cmd) : State :=
  let m := d.move d.unit
  let todo := s.cmdTodo d d.unit
  match s.refBad ⟨todo.map (·.2)⟩ with
  | some code => s.failCmd cl u k d ⟨BitVec.ofNat 8 code, BitVec.ofNat 48 m.src.value, BitVec.ofNat 6 m.src.lane⟩
  | none =>
    match todo.filter (·.2.so) with
    | q :: _ :: _ => s.readAhead cl u k d.unit q d
    | _ =>
      let ps := (s.cmdRef d m.src m.n false).pieces
      let q := s.cmdRead d (s.cmdView (s.cluster cl) d) (todo.map (·.2))
      let bs := joinPieces d d.unit ((upTo ps.length).zip ps) q.1.1
      (q.2.touchRef d.core ⟨todo.map (·.2)⟩).setCmd cl u k
        { q.1.2 with buf := q.2.unitChunks d m.dsts bs, ahead := q.1.2.ahead.filter fun a => a.1 != d.unit }

/-- A unit of a CPYS: the pattern. -/
def State.fillUnit (s : State) (cl : ClusterId) (u : CopyUnit) (k : Nat) (d : Cmd) : State :=
  let m := d.move d.unit
  let bs := ((upTo (m.n / 4)).map fun _ => leBytes 4 (blockNat d.desc 0 4)).flatten
  s.setCmd cl u k { d with buf := s.unitChunks d m.dsts bs }

/-- A chunk of a collective formed, where its values are good (10 R348). -/
def State.formChunk (s : State) (q : Cluster) (d : Cmd) : Cmd × State :=
  let r := s.collElems d (s.cmdView q d) (d.chunkElems d.unit)
  ({ r.1.2 with chunk := r.1.1, tries := 0 }, r.2)

/-- A unit of a CCOLL: at the start of a chunk it is formed whole; its bytes are then written unit by unit. -/
def State.collUnit (s : State) (cl : ClusterId) (u : CopyUnit) (k : Nat) (d : Cmd) : State :=
  match (if d.chunk = [] then s.chunkBad d d.unit else none) with
  | some (code, off) => s.failCmd cl u k d ⟨BitVec.ofNat 8 code, BitVec.ofNat 48 off, 0⟩
  | none =>
    let r := if d.chunk = [] then s.formChunk (s.cluster cl) d else (d, s)
    let n := min unitSize r.1.chunk.length
    let dst : CAddr := .mem 0 (blockNat d.desc 8 8 + unitSize * d.unit)
    r.2.setCmd cl u k { r.1 with buf := r.2.unitChunks d [dst] (r.1.chunk.take n), chunk := r.1.chunk.drop n }

/-- One write of a command's current unit performed; with the last one the unit counts in DONE (10 R344). -/
def State.writeChunk (s : State) (cl : ClusterId) (u : CopyUnit) (k i : Nat) (d : Cmd) : State :=
  match d.buf[i]? with
  | none => s
  | some ch =>
    let sp := s.chunkSpan ch
    let s1 := s.storeChunk d.core ch
    let runs := (s.cmdTags (s.cluster cl) d).map fun t => (⟨sp.lo, sp.n, s1.stamp, none, t⟩ : RelRun)
    let s2 : State := { s1 with rels := runs ++ s1.rels }
    let rest := d.buf.eraseIdx i
    let d1 := { d with buf := rest, wrote := rest != [], seen := d.seen.note sp s1.stamp }
    if rest = [] then s2.countUnit cl u k d1 else s2.setCmd cl u k d1

/-- The next access of a command waits for the remapping step or for a sweep (11 R365, 08 R275): the write i of its unit,
or the reads of its next unit. -/
def State.cmdStalled (s : State) (d : Cmd) (i : Nat) : Bool :=
  match d.buf[i]? with
  | some ch => s.stalled (s.chunkSpan ch)
  | none =>
    if d.op = .cpys then false
    else if d.op = .ccoll then
      (d.chunkElems d.unit).any fun k => d.members.any fun g => g.2 == 0 && s.stalled (s.memberSpan d g.1 k)
    else (s.cmdTodo d d.unit).any fun p => s.stalled (s.spanOf p.2)

/-- The next access of the current unit of command k of a queue, where it may be performed: its reads, or one of its writes,
in any order (09 R317). -/
def State.copyStep (s : State) (cl : ClusterId) (u : CopyUnit) (k : Nat) (d : Cmd) : State :=
  let (i, s1) := if d.buf.length ≤ 1 then (0, s) else let (n, s1) := s.drawNat; (n % d.buf.length, s1)
  if !(s.cluster cl).mayRun u k d !d.buf.isEmpty || s.cmdStalled d i then s
  else if d.buf ≠ [] then s1.writeChunk cl u k i d
  else match d.op with
    | .cpys => s.fillUnit cl u k d
    | .ccoll => s.collUnit cl u k d
    | _ => s.readUnit cl u k d

/-- Piece j of a unit not yet reached, or of the current one before its other accesses, read by a command that moves bytes: its
accesses are unordered among themselves, and only the writes of its units follow their order (09 R317; 10 R344). What is
uncorrectable is left for the unit's turn. -/
def State.copyAhead (s : State) (cl : ClusterId) (u : CopyUnit) (k v j : Nat) (d : Cmd) : State :=
  if d.op = .cpys ∨ d.op = .ccoll ∨ !(s.cluster cl).mayRun u k d false ∨ d.total ≤ v
      ∨ v < d.unit + (if d.buf.isEmpty then 0 else 1) then s
  else match (s.cmdTodo d v).find? fun q => q.1 == j with
    | none => s
    | some q =>
      if (s.refBad ⟨[q.2]⟩).isSome || s.stalled (s.spanOf q.2) then s else s.readAhead cl u k v q d

/-- COPY_UNIT: an access of command n mod 16 of a queue. With n / 16 = 0 it is the next access of its current unit; else it is
a read, of piece j of the unit i places after that one, where n / 16 = 1 + 2i + j. -/
def execCopyUnit (cl : ClusterId) (u : CopyUnit) (n : Nat) (s : State) : Host.Outcome State Fault Refusal :=
  let k := n % 16
  let i := n / 16
  .next (match ((s.cluster cl).cmds u)[k]? with
    | none => s
    | some d => if i = 0 then s.copyStep cl u k d else s.copyAhead cl u k (d.unit + (i - 1) / 2) ((i - 1) % 2) d)

/-- Writes of a command's current unit performed, the first of them each time. -/
def State.endUnit (cl : ClusterId) (u : CopyUnit) (k : Nat) : Nat → State → State
  | 0, s => s
  | n + 1, s =>
    match ((s.cluster cl).cmds u)[k]? with
    | none => s
    | some d => if d.buf = [] then s else State.endUnit cl u k n (s.writeChunk cl u k 0 d)

/-- COPY_COMPLETION: a finished command leaves its queue, and OUT falls (10 R344); what its accesses have seen C sees from
then on (09 R317). -/
def execCopyCompletion (cl : ClusterId) (u : CopyUnit) (k : Nat) (s : State) : Host.Outcome State Fault Refusal :=
  let q := s.cluster cl
  .next (match (q.cmds u)[k]? with
    | none => s
    | some d =>
      if !d.finished then s
      else ((s.modCluster cl fun q => q.setCmds u ((q.cmds u).eraseIdx k)).modTag d.core d.tag fun t =>
        { t with out := t.out - 1 }).modCtx d.core fun x => x.modStream .c fun r =>
          { r with view := r.view.join d.seen, observed := r.observed ++ d.observed })

/-- Times a chunk is formed again at most (10 R348). -/
def maxTries : Nat := 3

/-- The members that fail together: the one of that number, or, from 2^12 on, every one behind a leaf switch (14 R443). -/
def Cmd.failing (d : Cmd) (n : Nat) : List Nat :=
  ((d.members.filter fun m => m.2 == 0).map (·.1)).filter fun m =>
    if n < 2 ^ 12 then m == n else d.inSwitch && Config.leafSwitch m == n - 2 ^ 12

/-- COLLECTIVE_CHUNK_RETRY: a member, or a switch with every member behind it, fails while a chunk is formed; they are
dropped and the chunk formed again, or after the third time the command ends with 0x60, the lowest recorded (10 R348, 14
R443). -/
def execCollectiveChunkRetry (cl : ClusterId) (u : CopyUnit) (k : Nat) (member : Nat) (s : State) :
    Host.Outcome State Fault Refusal :=
  let q := s.cluster cl
  .next (match (q.cmds u)[k]? with
    | none => s
    | some d =>
      let gone := d.failing member
      if d.op ≠ .ccoll || !q.mayRun u k d false || d.chunk ≠ [] || d.buf ≠ [] || gone = [] then s
      else
        let drop := d.members.map fun m => if gone.contains m.1 then (m.1, 2) else m
        if maxTries ≤ d.tries then s.failCmd cl u k d ⟨0x60, BitVec.ofNat 48 (gone.headD 0), 0⟩
        else
          let s1 := s.setCmd cl u k { d with members := drop, tries := d.tries + 1 }
          if blockNat d.desc 0x15 1 = 2 then gone.foldl (fun s m => s.logEvent 5 cl.val (d.tag * 256 + m)) s1 else s1)

end Sys2Proof.Machine
end

