-- ==== Sys2Proof/Machine/Free.lean ====
section
/-! DEFINITION. Contents the spec writes "—": free values in their place (DESIGN CHOICE, log entry 14). -/

namespace Sys2Proof.Machine

/-- The first of n free draws, and the state with them counted. -/
def State.drawMany (s : State) (n : Nat) : Nat × State := (s.draw, { s with draw := s.draw + n })

/-- n free bytes from a draw on. -/
def freeBytes (d n : Nat) : List Byte := (upTo n).map fun i => BitVec.ofNat 8 (Config.freeNat (d + i))

/-- n bytes of memory from a key on take free values, their codes good. -/
def State.forget (s : State) (k n : Nat) : State :=
  let (d, s1) := s.drawMany n
  { s1 with mem := writeCells s1.mem k (freeBytes d n),
            memErr := s1.memErr.filter fun m => decide (m.1 < unitOf k) || decide (k + n ≤ m.1) }.renew k n

/-- Bytes of a tower. -/
def towerSize : Nat := 2 ^ 18

/-- Physical towers of a core. -/
def physTowers : Nat := 68

/-- Bytes of a scratchpad. -/
def spSize : Nat := 2 ^ 20

/-- The contents of a physical tower of a core are lost. -/
def State.forgetTower (s : State) (c : CoreId) (phys : Nat) : State := s.forget (towerKey c phys 0) towerSize

/-- The bank words of P take free values. -/
def State.forgetBanks (s : State) (c : CoreId) : State :=
  let (d, s1) := s.drawMany 8192
  s1.modCtx c fun x =>
    { x with p := { x.p with banks := Vector.ofFn fun i => Config.free32 (d + i.val) },
             errs := x.errs.filter fun q => match q.1 with | .bank _ => false | _ => true }

/-- A free word of w bits. -/
def freeBits (w d : Nat) : BitVec w := BitVec.ofNat w (Config.freeNat d)

/-- Contents of V with free registers, predicates and masks. -/
def freeV (d : Nat) (v : VState) : VState :=
  { v with regs := Vector.ofFn fun r => Vector.ofFn fun i => freeBits 32 (d + 64 * r.val + i.val),
           proof := Vector.ofFn fun r => freeBits 64 (d + 4096 + r.val), p := Vector.ofFn fun r => freeBits 64 (d + 4160 + r.val),
           q := Vector.ofFn fun r => freeBits 64 (d + 4168 + r.val), lfsr := freeBits 32 (d + 4176) }

/-- Contents of M with free tiles, scales and accumulators. -/
def freeM (d : Nat) (m : MState) : MState :=
  { m with tiles := Vector.ofFn fun t => Vector.ofFn fun r => freeBits 512 (d + 32 * t.val + r.val),
           scales := Vector.ofFn fun t => freeBits 512 (d + 512 + t.val),
           acc := Vector.ofFn fun a => Vector.ofFn fun i => freeBits 32 (d + 528 + 1089 * a.val + i.val),
           mv := freeBits 32 (d + 9240), tseed := freeBits 32 (d + 9241), lfsr := freeBits 32 (d + 9242) }

/-- The registers of core c take free values: of S, V and M, the template tables and the shape table (13 R427; 14 R445). -/
def State.forgetRegs (s : State) (c : CoreId) : State :=
  let (d, s1) := s.drawMany 14000
  s1.modCtx c fun x =>
    { x with sreg := Vector.ofFn fun r => freeBits 64 (d + r.val), v := freeV (d + 32) x.v, m := freeM (d + 4209) x.m,
             p := { x.p with shapes := Vector.ofFn fun k => freeBits 128 (d + 13452 + k.val) },
             str := Vector.ofFn fun e => { x.str.get e with tmpl := Vector.ofFn fun k => freeBits 64 (d + 13516 + 64 * e.val + k.val) } }

/-- The instruction memories of core c are lost, and no overlay is resident. -/
def State.forgetImem (s : State) (c : CoreId) : State :=
  let s1 := engines.foldl (fun s e => s.forget (imemKey c e 0) (imemSize e)) s
  s1.modCore c fun k => { k with resident := Vector.replicate 5 none }

end Sys2Proof.Machine
end

