-- ==== Sys2Proof/WellFormed.lean ====
section
/-! DEFINITION. Well-formed instructions: the words that pass rows 1 to 5 of 03 R88 and that the decoder gives for
some word. The steps of other agents: a host's command is well-formed where the value written starts the command the step names (its GO bit
and its operation field); every other guard is a condition on the state and stands in the step's meaning. -/

namespace Sys2Proof

open Machine

/-- The opcode is one of the hint region other than the engine's no-operation (03 R105). -/
def hintOp (op : BitVec 7) : Bool := decide (0x79 ≤ op.toNat)

/-- An opcode that the engine's map leaves unassigned (03 R106, R88 row 3). -/
def unassignedOp (e : Eng) (op : BitVec 7) : Bool :=
  decide (op.toNat < 0x78) &&
    match e with
    | .s => !(decide (op.toNat ≤ 0x1A) || (decide (0x20 ≤ op.toNat) && decide (op.toNat ≤ 0x28))
        || (decide (0x30 ≤ op.toNat) && decide (op.toNat ≤ 0x37)) || (decide (0x40 ≤ op.toNat) && decide (op.toNat ≤ 0x43))
        || (decide (0x50 ≤ op.toNat) && decide (op.toNat ≤ 0x63)))
    | .v => !(decide (op.toNat ≤ 0x23) || (decide (0x30 ≤ op.toNat) && decide (op.toNat ≤ 0x34))
        || (decide (0x40 ≤ op.toNat) && decide (op.toNat ≤ 0x47)) || (decide (0x50 ≤ op.toNat) && decide (op.toNat ≤ 0x55)))
    | .m => !(decide (op.toNat ≤ 0x06) || (decide (0x30 ≤ op.toNat) && decide (op.toNat ≤ 0x32))
        || (decide (0x40 ≤ op.toNat) && decide (op.toNat ≤ 0x43)) || (decide (0x50 ≤ op.toNat) && decide (op.toNat ≤ 0x55)))
    | .p => !(decide (op.toNat ≤ 0x04) || (decide (0x30 ≤ op.toNat) && decide (op.toNat ≤ 0x32))
        || (decide (0x40 ≤ op.toNat) && decide (op.toNat ≤ 0x41)) || (decide (0x50 ≤ op.toNat) && decide (op.toNat ≤ 0x54)))
    | .c => !(decide (op.toNat ≤ 0x07) || (decide (0x30 ≤ op.toNat) && decide (op.toNat ≤ 0x31))
        || (decide (0x50 ≤ op.toNat) && decide (op.toNat ≤ 0x53)))

/-- The value written starts a command: GO, bit 63, is 1 and the field at lo, len bits wide, satisfies the operation's
condition (11 R357, R360, R365, R367; 13 R419; 14 R436). -/
def starts (v : W64) (lo len : Nat) (op : Nat → Bool) : Bool := v.getLsbD 63 && op (fld v.toNat lo len)

/-- A DIR bit, bit 9, of a remapping command (11 R365). -/
def remapDirIs (v : W64) (dir : Bool) : Bool := v.getLsbD 63 && v.getLsbD 9 == dir

/-- Well-formedness. -/
def Instr.wf : Instr → Bool
  | .add f => sRrr2Ok true f
  | .sub f => sRrr2Ok true f
  | .mul f => sRrr2Ok true f
  | .mulh f => sRrr2Ok false f
  | .mulhu f => sRrr2Ok false f
  | .div f => sRrr2Ok true f
  | .divu f => sRrr2Ok false f
  | .rem f => sRrr2Ok false f
  | .remu f => sRrr2Ok false f
  | .and f => sRrr2Ok false f
  | .or f => sRrr2Ok false f
  | .xor f => sRrr2Ok false f
  | .andn f => sRrr2Ok false f
  | .shl f => sRrr2Ok false f
  | .shr f => sRrr2Ok false f
  | .sra f => sRrr2Ok false f
  | .rotr f => sRrr2Ok false f
  | .clz f => sRrr1Ok f
  | .ctz f => sRrr1Ok f
  | .popc f => sRrr1Ok f
  | .min f => sRrr2Ok false f
  | .max f => sRrr2Ok false f
  | .minu f => sRrr2Ok false f
  | .maxu f => sRrr2Ok false f
  | .sel f => selOk f
  | .mov f => sRrr1Ok f
  | .cmp f => cmpOk f
  | .addi f => sRriOk f
  | .andi f => sRriOk f
  | .ori f => sRriOk f
  | .xori f => sRriOk f
  | .shli f => sRriOk f
  | .shri f => sRriOk f
  | .srai f => sRriOk f
  | .li f => liOk f
  | .lihM f => lihOk f && f.sub == 0
  | .lihH f => lihOk f && f.sub == 1
  | .br f => brOk f
  | .bri f => briOk f
  | .jmp f => jmpOk f
  | .jmpr f => jmprOk f
  | .call f => callOk f
  | .ret f => retOk f
  | .loop f => loopOk f
  | .loopr f => looprOk f
  | .ld f => ldOk f
  | .st f => stOk f
  | .amo f => amoOk f
  | .lcol f => lcolOk f
  | .fork f => forkOk f
  | .forkI f => forkIOk f
  | .join f => joinOk f
  | .wait f => waitOk f
  | .tksend f => tksendOk f
  | .tkrecv f => tkrecvOk f
  | .tkrecvD f => tkrecvDOk f
  | .tmset f => tmsetOk f
  | .crd f => crdOk f
  | .cwr f => cwrOk f
  | .fence f => fenceOk f
  | .publish f => publishOk f
  | .cbsync f => cbsyncOk f
  | .cbsyncAll f => cbsyncAllOk f
  | .trap f => trapOk f
  | .eret f => eretOk f
  | .halt f => haltOk f
  | .haltChain f => haltChainOk f
  | .launch f => launchOk f
  | .bar f => barOk f
  | .pacq f => pacqOk f
  | .prel f => prelOk f
  | .boost f => boostOk f
  | .refdef f => refdefOk f
  | .nop w => toksOk .s w
  | .vnop w => toksOk .v w
  | .mnop w => toksOk .m w
  | .pnop w => toksOk .p w
  | .cnop w => toksOk .c w
  | .vadd f => vFloatOk f
  | .vsub f => vFloatOk f
  | .vmul f => vFloatOk f
  | .vfma f => vFloatOk f
  | .vfms f => vFloatOk f
  | .vmin f => vMinMaxOk f
  | .vmax f => vMinMaxOk f
  | .vabs f => vAbsNegOk f
  | .vneg f => vAbsNegOk f
  | .vrcp f => vFloatOk f
  | .vrsq f => vFloatOk f
  | .vtip f => vtipOk f
  | .vcvt f => vcvtOk f
  | .vqnt f => vqntOk f && !vqntBad f
  | .vdqnt f => vdqntOk f
  | .vspl3 f => vspl3Ok f && !group3Bad f.fd
  | .viadd f => vIntOk f
  | .visub f => vIntOk f
  | .vimul f => vIntOk f
  | .vand f => vBitOk 2 false f
  | .vor f => vBitOk 1 false f
  | .vxor f => vBitOk 1 false f
  | .vnot f => vBitOk 1 true f
  | .vshl f => vShiftOk f
  | .vshr f => vShiftOk f
  | .vsra f => vShiftOk f
  | .vcmp f => vcmpOk f
  | .vsel f => vselOk f
  | .vmov f => vmovOk f
  | .vmovIota f => vmovIotaOk f
  | .vbcast f => vbcastOk 0 f
  | .vbcastI f => vbcastOk 1 f
  | .vbcastH f => vbcastOk 2 f
  | .vperm f => vpermOk f
  | .vshiftRot f => vshiftOk 0 f
  | .vshiftUp f => vshiftOk 1 f
  | .vshiftDn f => vshiftOk 2 f
  | .vshiftTw f => vshiftOk 3 f
  | .vred f => vredOk f
  | .vmpush f => vmpushOk 0 f
  | .vmpushInv f => vmpushOk 1 f
  | .vminv f => vmstackOk f
  | .vmpop f => vmstackOk f
  | .vbz f => vbrOk f
  | .vbnz f => vbrOk f
  | .vjmp f => vjmpOk f
  | .vloop f => vloopOk f
  | .vloopr f => vloopOk f
  | .vld f => vldOk f && !vGlobalBad f
  | .vst f => vstOk f && !vGlobalBad f
  | .vldx f => vldOk f && !vGlobalBad f
  | .vstx f => vstxOk f && !vGlobalBad f
  | .vtld f => vtldOk f && !vtBad f
  | .vtst f => vtstOk f && !vtBad f
  | .vtldx f => vtldOk f && !vtBad f
  | .vlcol f => vlcolOk f
  | .vtksend f => vtksendOk f
  | .vtkrecv f => vtkrecvOk f
  | .vtkrecvD f => vtkrecvDOk f
  | .vfence f => vfenceOk f
  | .vcrd f => vcrdOk f
  | .vcwr f => vcwrOk f
  | .vend f => vendOk f
  | .mma f => mmaOk f
  | .mmas f => mmaOk f
  | .mzero f => maccOk f
  | .mts f => maccOk f
  | .mchk f => maccOk f
  | .mdrain f => mdrainOk f
  | .mdraint f => mdraintOk f
  | .mtld f => mtldOk f
  | .mtldt f => mtldOk f
  | .mtst f => mtldOk f
  | .mosld f => mosldOk f
  | .mosset f => mossetOk f
  | .mossetAdd f => mossetAddOk f
  | .mmode f => mmodeOk 0 f
  | .mmodeSeed f => mmodeOk 1 f
  | .mtksend f => mtksendOk f
  | .mtkrecv f => mtkrecvOk f
  | .mfence f => mfenceOk f
  | .mend f => mendOk f
  | .mloop f => mloopOk f
  | .mloopr f => mloopOk f
  | .mjmp f => mjmpOk f
  | .pup f => pSpeOk f
  | .pmaxup f => pSpeOk f
  | .pdn f => pSpeOk f
  | .pnorm f => pSpeOk f
  | .pzero f => pSpeOk f
  | .pmode f => pmodeOk f
  | .ptksend f => ptksendOk f
  | .ptkrecv f => ptkrecvOk f
  | .pfence f => pfenceOk f
  | .pend f => pendOk f
  | .ploop f => ploopOk f
  | .ploopr f => ploopOk f
  | .pjmp f => pjmpOk f
  | .pld f => pldOk f
  | .pldShape f => pldShapeOk f
  | .pst f => pstOk f
  | .cpy f => cpyOk 8 f
  | .cpy2d f => cpyOk 8 f
  | .cpys f => cpyOk 8 f
  | .cpytw f => cpyOk 7 f
  | .cpyex f => cpyOk 7 f
  | .cpybc f => cpyOk 7 f
  | .ccoll f => cpyOk 7 f
  | .cwait f => cwaitOk 0 f
  | .cwaitAll f => cwaitOk 1 f
  | .cloop f => cloopOk f
  | .cjmp f => cjmpOk f
  | .ctksend f => ctksendOk 0 f
  | .ctksendI f => ctksendOk 1 f
  | .ctkrecv f => ctkrecvOk f
  | .cfence f => cfenceOk f
  | .cend f => cendOk f
  | .hint e op w => hintOp op && toksOk e w
  | .unassignedOpcode e op _ => unassignedOp e op
  | .patch _ _ _ _ => true
  | .deferredWriteLand _ _ => true
  | .refreshDeadline _ => true
  | .timingErrorReplay _ _ => true
  | .sendBufferDeparture _ _ => true
  | .selectionPass _ => true
  | .jobDispatch _ => true
  | .jobRetirement _ => true
  | .jobEnd _ => true
  | .contextSave _ => true
  | .contextRestore _ => true
  | .barrierComplete _ => true
  | .grantSuspension _ => true
  | .plateGrant _ => true
  | .waitTimeout _ => true
  | .copyUnit _ _ _ => true
  | .copyCompletion _ _ _ => true
  | .collectiveChunkRetry _ _ _ _ => true
  | .referenceTick => true
  | .intervalStart => true
  | .temperatureSample _ _ _ => true
  | .sweep _ => true
  | .forcedSweep _ => true
  | .sweepStepEnd _ => true
  | .fllStep _ => true
  | .loopSample _ _ => true
  | .recordSelection => true
  | .idleGating _ => true
  | .coreWake _ => true
  | .wakeTestResult _ _ => true
  | .cxlPortDown _ => true
  | .deviceUnreachable _ => true
  | .barD4Timeout _ => true
  | .remoteAccess _ _ _ => true
  | .hostWindowWrite _ _ => true
  | .hostWindowRead _ _ => true
  | .moduleReset _ => true
  | .functionLevelReset _ => true
  | .qtailWrite _ _ _ => true
  | .fqheadWrite _ => true
  | .fqlostWrite _ => true
  | .registerWrite _ _ => true
  | .invalidationComplete => true
  | .impositionCommandDone _ => true
  | .remappingStepDone => true
  | .drainComplete _ => true
  | .bamaddrFirstWrite _ => true
  | .fabricGroupEnd _ _ _ _ => true
  | .fetchaddCompletion _ => true
  | .tlbInvalidateDevice v => starts v 0 2 fun n => n == 0 || n == 3
  | .tlbInvalidateRoot v => starts v 0 2 fun n => n == 1
  | .tlbInvalidateRange v => starts v 0 2 fun n => n == 2
  | .remapWithCopy _ v => starts v 56 3 fun n => n == 0
  | .remapWithoutCopy _ v => starts v 56 3 fun n => n == 1
  | .impositionRestore _ v => starts v 56 3 fun n => n == 2
  | .impositionRelease _ v => starts v 56 3 fun n => n == 3
  | .impcmdRejected _ v => starts v 56 3 fun n => decide (4 ≤ n)
  | .retirePseudoChannel v => remapDirIs v false
  | .returnPseudoChannel v => remapDirIs v true
  | .pactActivate v => !v.getLsbD 63
  | .pactDeactivate v => v.getLsbD 63
  | .jcmdHalt _ v => starts v 60 3 fun n => n == 0
  | .jcmdKill _ v => starts v 60 3 fun n => n == 1
  | .jcmdResume _ v => starts v 60 3 fun n => n == 2
  | .jcmdDiscardSlot _ v => starts v 60 3 fun n => n == 3
  | .jcmdRejected _ v => starts v 60 3 fun n => decide (4 ≤ n)
  | .attest v => starts v 0 16 fun n => n == 1
  | .warmReset v _ => starts v 0 16 fun n => n == 2
  | .drainCluster v => starts v 0 16 fun n => n == 3
  | .testCluster v _ => starts v 0 16 fun n => n == 4
  | .installIntoCluster v => starts v 0 16 fun n => n == 5
  | .returnCluster v => starts v 0 16 fun n => n == 6
  | .stageThafyFirmware v => starts v 0 16 fun n => n == 7
  | .retrainCxlPort v _ => starts v 0 16 fun n => n == 8
  | .gateCores v => starts v 0 16 fun n => n == 9
  | .wakeCores v => starts v 0 16 fun n => n == 10
  | .unknownCommand v => starts v 0 16 fun n => n == 0 || decide (10 < n)

end Sys2Proof
end

