-- ==== Sys2Proof/Decode.lean ====
section
/-! DEFINITION. The decoder of the five engines' words, total on any bytes, and the encoder beside it, both from the
layouts of 03 R83–R102 and the opcode map of 03 R106. -/

namespace Sys2Proof

/-- Bit n of a parcel. -/
def bitAt (p : W32) (n : Nat) : Bool := p.getLsbD n

/-- The common fields of a full word (03 R84). -/
def commonOf (p0 p1 : W32) : Common :=
  { guard := p0.extractLsb' 3 3, ginv := bitAt p0 2, push := p1.extractLsb' 29 3, pop := p1.extractLsb' 26 3,
    epa := bitAt p1 25, epb := bitAt p1 24 }

/-- F-RRR (03 R95). -/
def rrrOf (p0 p1 : W32) : FRrr :=
  { w := commonOf p0 p1, fd := p0.extractLsb' 18 6, fa := p0.extractLsb' 12 6, fb := p0.extractLsb' 6 6,
    fc := p1.extractLsb' 18 6, fmt := p1.extractLsb' 14 4, rm := p1.extractLsb' 11 3, sat := bitAt p1 10,
    prf := bitAt p1 9, sub := p1.extractLsb' 6 3, aux := p1.extractLsb' 0 6 }

/-- F-RRI (03 R96). -/
def rriOf (p0 p1 : W32) : FRri :=
  { w := commonOf p0 p1, fd := p0.extractLsb' 18 6, fa := p0.extractLsb' 12 6, sub := p0.extractLsb' 10 2,
    fmt := p0.extractLsb' 6 4, imm := p1.extractLsb' 0 24 }

/-- F-BR (03 R97). -/
def brOf (p0 p1 : W32) : FBr :=
  { w := commonOf p0 p1, fd := p0.extractLsb' 18 6, fa := p0.extractLsb' 12 6, fb := p0.extractLsb' 6 6,
    lvl := p0.extractLsb' 0 2, cond := p1.extractLsb' 20 4, off := p1.extractLsb' 0 20 }

/-- F-MEM (03 R98). -/
def memOf (p0 p1 : W32) : FMem :=
  { w := commonOf p0 p1, fd := p0.extractLsb' 18 6, fa := p0.extractLsb' 12 6, fb := p0.extractLsb' 6 6,
    mode := p0.extractLsb' 0 2, space := p1.extractLsb' 22 2, size := p1.extractLsb' 19 3,
    order := p1.extractLsb' 17 2, scope := p1.extractLsb' 14 3, disp := p1.extractLsb' 0 14 }

/-- F-SYS (03 R99). -/
def sysOf (p0 p1 : W32) : FSys :=
  { w := commonOf p0 p1, fd := p0.extractLsb' 18 6, fa := p0.extractLsb' 12 6, fb := p0.extractLsb' 6 6,
    sub := p0.extractLsb' 0 2, cr := p1.extractLsb' 12 12, imm12 := p1.extractLsb' 0 12 }

/-- F-MMA (03 R100). -/
def mmaOf (p0 p1 : W32) : FMma :=
  { w := commonOf p0 p1, fd := p0.extractLsb' 18 6, fa := p0.extractLsb' 12 6, fb := p0.extractLsb' 6 6,
    fmta := p1.extractLsb' 20 4, fmtb := p1.extractLsb' 16 4, spar := p1.extractLsb' 14 2,
    rm := p1.extractLsb' 11 3, sat := bitAt p1 10, clr := bitAt p1 9 }

/-- F-SPE (03 R101). -/
def speOf (p0 p1 : W32) : FSpe :=
  { w := commonOf p0 p1, shape := p0.extractLsb' 18 6, basew := p0.extractLsb' 9 9, flg := p0.extractLsb' 0 2,
    basel := p1.extractLsb' 15 9, baseo := p1.extractLsb' 6 9 }

/-- F-CPY (03 R102). -/
def cpyOf (p0 p1 : W32) : FCpy :=
  { w := commonOf p0 p1, unit := p0.extractLsb' 18 6, tag := p0.extractLsb' 12 6, ix := bitAt p1 23,
    dsc := p1.extractLsb' 0 20 }

/-- The format of an opcode with the constructor it stands for; where rows share an opcode, a field decides. -/
inductive Form where
  | rrr (mk : FRrr → Instr)
  | rri (mk : FRri → Instr)
  | br (mk : FBr → Instr)
  | mem (mk : FMem → Instr)
  | sys (mk : FSys → Instr)
  | mma (mk : FMma → Instr)
  | spe (mk : FSpe → Instr)
  | cpy (mk : FCpy → Instr)
  | hint (mk : Common → Instr)

/-- The opcode map of engine S (03 R106). -/
def mapS : List (Nat × Form) := [
  (0x00, .rrr .add),
  (0x01, .rrr .sub),
  (0x02, .rrr .mul),
  (0x03, .rrr .mulh),
  (0x04, .rrr .mulhu),
  (0x05, .rrr .div),
  (0x06, .rrr .divu),
  (0x07, .rrr .rem),
  (0x08, .rrr .remu),
  (0x09, .rrr .and),
  (0x0A, .rrr .or),
  (0x0B, .rrr .xor),
  (0x0C, .rrr .andn),
  (0x0D, .rrr .shl),
  (0x0E, .rrr .shr),
  (0x0F, .rrr .sra),
  (0x10, .rrr .rotr),
  (0x11, .rrr .clz),
  (0x12, .rrr .ctz),
  (0x13, .rrr .popc),
  (0x14, .rrr .min),
  (0x15, .rrr .max),
  (0x16, .rrr .minu),
  (0x17, .rrr .maxu),
  (0x18, .rrr .sel),
  (0x19, .rrr .mov),
  (0x1A, .rrr .cmp),
  (0x20, .rri .addi),
  (0x21, .rri .andi),
  (0x22, .rri .ori),
  (0x23, .rri .xori),
  (0x24, .rri .shli),
  (0x25, .rri .shri),
  (0x26, .rri .srai),
  (0x27, .rri .li),
  (0x28, .rri (fun f => if f.sub == 1 then .lihH f else .lihM f)),
  (0x30, .br .br),
  (0x31, .br .bri),
  (0x32, .br .jmp),
  (0x33, .br .jmpr),
  (0x34, .br .call),
  (0x35, .br .ret),
  (0x36, .br .loop),
  (0x37, .br .loopr),
  (0x40, .mem .ld),
  (0x41, .mem .st),
  (0x42, .mem .amo),
  (0x43, .mem .lcol),
  (0x50, .sys (fun f => if f.sub == 1 then .forkI f else .fork f)),
  (0x51, .sys .join),
  (0x52, .sys .wait),
  (0x53, .sys .fence),
  (0x54, .sys .crd),
  (0x55, .sys .cwr),
  (0x56, .sys .tmset),
  (0x57, .sys .tksend),
  (0x58, .sys (fun f => if f.sub == 1 then .tkrecvD f else .tkrecv f)),
  (0x59, .sys .launch),
  (0x5A, .sys .bar),
  (0x5B, .sys .pacq),
  (0x5C, .sys .prel),
  (0x5D, .sys .boost),
  (0x5E, .sys .refdef),
  (0x5F, .sys .publish),
  (0x60, .sys (fun f => if f.sub == 1 then .cbsyncAll f else .cbsync f)),
  (0x61, .sys .trap),
  (0x62, .sys .eret),
  (0x63, .sys (fun f => if f.sub == 1 then .haltChain f else .halt f)),
  (0x78, .hint .nop)]

/-- The opcode map of engine V (03 R106). -/
def mapV : List (Nat × Form) := [
  (0x00, .rrr .vadd),
  (0x01, .rrr .vsub),
  (0x02, .rrr .vmul),
  (0x03, .rrr .vfma),
  (0x04, .rrr .vfms),
  (0x05, .rrr .vmin),
  (0x06, .rrr .vmax),
  (0x07, .rrr .vabs),
  (0x08, .rrr .vneg),
  (0x09, .rrr .vrcp),
  (0x0A, .rrr .vrsq),
  (0x0B, .rrr .vtip),
  (0x0C, .rrr .vcvt),
  (0x0D, .rrr .vqnt),
  (0x0E, .rrr .vdqnt),
  (0x0F, .rrr .vspl3),
  (0x10, .rrr .viadd),
  (0x11, .rrr .visub),
  (0x12, .rrr .vimul),
  (0x13, .rrr .vand),
  (0x14, .rrr .vor),
  (0x15, .rrr .vxor),
  (0x16, .rrr .vnot),
  (0x17, .rrr .vshl),
  (0x18, .rrr .vshr),
  (0x19, .rrr .vsra),
  (0x1A, .rrr .vcmp),
  (0x1B, .rrr .vsel),
  (0x1C, .rrr (fun f => if f.sub == 3 then .vmovIota f else .vmov f)),
  (0x1D, .rrr (fun f => if f.sub == 1 then .vbcastI f else if f.sub == 2 then .vbcastH f else .vbcast f)),
  (0x1E, .rrr .vperm),
  (0x1F, .rrr (fun f => if f.sub == 1 then .vshiftUp f else if f.sub == 2 then .vshiftDn f
      else if f.sub == 3 then .vshiftTw f else .vshiftRot f)),
  (0x20, .rrr .vred),
  (0x21, .rrr (fun f => if f.sub == 1 then .vmpushInv f else .vmpush f)),
  (0x22, .rrr .vminv),
  (0x23, .rrr .vmpop),
  (0x30, .br .vbz),
  (0x31, .br .vbnz),
  (0x32, .br .vjmp),
  (0x33, .br .vloop),
  (0x34, .br .vloopr),
  (0x40, .mem .vld),
  (0x41, .mem .vst),
  (0x42, .mem .vldx),
  (0x43, .mem .vstx),
  (0x44, .mem .vtld),
  (0x45, .mem .vtst),
  (0x46, .mem .vtldx),
  (0x47, .mem .vlcol),
  (0x50, .sys .vtksend),
  (0x51, .sys (fun f => if f.sub == 1 then .vtkrecvD f else .vtkrecv f)),
  (0x52, .sys .vfence),
  (0x53, .sys .vcrd),
  (0x54, .sys .vcwr),
  (0x55, .sys .vend),
  (0x78, .hint .vnop)]

/-- The opcode map of engine M (03 R106). -/
def mapM : List (Nat × Form) := [
  (0x00, .mma .mma),
  (0x01, .mma .mmas),
  (0x02, .mma .mzero),
  (0x03, .mma .mdrain),
  (0x04, .mma .mdraint),
  (0x05, .mma .mchk),
  (0x06, .mma .mts),
  (0x30, .br .mloop),
  (0x31, .br .mloopr),
  (0x32, .br .mjmp),
  (0x40, .mem .mtld),
  (0x41, .mem .mtldt),
  (0x42, .mem .mtst),
  (0x43, .mem .mosld),
  (0x50, .sys (fun f => if f.sub == 2 then .mossetAdd f else .mosset f)),
  (0x51, .sys (fun f => if f.sub == 1 then .mmodeSeed f else .mmode f)),
  (0x52, .sys .mtksend),
  (0x53, .sys .mtkrecv),
  (0x54, .sys .mfence),
  (0x55, .sys .mend),
  (0x78, .hint .mnop)]

/-- The opcode map of engine P (03 R106). -/
def mapP : List (Nat × Form) := [
  (0x00, .spe .pup),
  (0x01, .spe .pdn),
  (0x02, .spe .pmaxup),
  (0x03, .spe .pnorm),
  (0x04, .spe .pzero),
  (0x30, .br .ploop),
  (0x31, .br .ploopr),
  (0x32, .br .pjmp),
  (0x40, .mem (fun f => if fld f.fa.toNat 1 1 == 1 then .pldShape f else .pld f)),
  (0x41, .mem .pst),
  (0x50, .sys .pmode),
  (0x51, .sys .ptksend),
  (0x52, .sys .ptkrecv),
  (0x53, .sys .pfence),
  (0x54, .sys .pend),
  (0x78, .hint .pnop)]

/-- The opcode map of engine C (03 R106). -/
def mapC : List (Nat × Form) := [
  (0x00, .cpy .cpy),
  (0x01, .cpy .cpy2d),
  (0x02, .cpy .cpybc),
  (0x03, .cpy .cpyex),
  (0x04, .cpy .cpytw),
  (0x05, .cpy .cpys),
  (0x06, .cpy .ccoll),
  (0x07, .cpy (fun f => if f.unit == 1 then .cwaitAll f else .cwait f)),
  (0x30, .br .cloop),
  (0x31, .br .cjmp),
  (0x50, .sys (fun f => if f.sub == 1 then .ctksendI f else .ctksend f)),
  (0x51, .sys .ctkrecv),
  (0x52, .sys .cfence),
  (0x53, .sys .cend),
  (0x78, .hint .cnop)]

/-- The opcode map of an engine. -/
def opMap : Eng → List (Nat × Form)
  | .s => mapS
  | .v => mapV
  | .m => mapM
  | .p => mapP
  | .c => mapC

/-- The opcode field of parcel 0. -/
def opcodeOf (p0 : W32) : BitVec 7 := p0.extractLsb' 24 7

/-- The instruction of a form and its two parcels. -/
def Form.build (fm : Form) (p0 p1 : W32) : Instr :=
  match fm with
  | .rrr mk => mk (rrrOf p0 p1)
  | .rri mk => mk (rriOf p0 p1)
  | .br mk => mk (brOf p0 p1)
  | .mem mk => mk (memOf p0 p1)
  | .sys mk => mk (sysOf p0 p1)
  | .mma mk => mk (mmaOf p0 p1)
  | .spe mk => mk (speOf p0 p1)
  | .cpy mk => mk (cpyOf p0 p1)
  | .hint mk => mk (commonOf p0 p1)

/-- A full word of engine e (03 R88 rows 2 and 3): an opcode of the map, another hint, or an unassigned opcode. -/
def decodeFull (e : Eng) (p0 p1 : W32) : Instr :=
  match (opMap e).lookup (opcodeOf p0).toNat with
  | some fm => fm.build p0 p1
  | none =>
    if 0x78 ≤ (opcodeOf p0).toNat then .hint e (opcodeOf p0) (commonOf p0 p1)
    else .unassignedOpcode e (opcodeOf p0) (commonOf p0 p1)

/-- A patch word of engine e (03 R86). -/
def decodePatch (e : Eng) (p : W32) : Instr :=
  .patch e (p.extractLsb' 25 6) (p.extractLsb' 20 5) (p.extractLsb' 0 16)

/-- The one reason bytes are no word: they end before it does. -/
inductive DecodeError where
  | truncated
  deriving DecidableEq, Repr

/-- The parcel of four bytes, little-endian (00 R6, 03 R83). -/
def parcelOf (b0 b1 b2 b3 : Byte) : W32 := b3 ++ b2 ++ b1 ++ b0

/-- The word at the front of a list of bytes, and the bytes after it (03 R83). -/
def decode (e : Eng) : List Byte → Except DecodeError (Instr × List Byte)
  | b0 :: b1 :: b2 :: b3 :: rest =>
    let p0 := parcelOf b0 b1 b2 b3
    if bitAt p0 31 then .ok (decodePatch e p0, rest)
    else
      match rest with
      | c0 :: c1 :: c2 :: c3 :: rest' => .ok (decodeFull e p0 (parcelOf c0 c1 c2 c3), rest')
      | _ => .error .truncated
  | _ => .error .truncated

/-- The bytes of an instruction whose bits are w, as the table numbers them: 4 where bit 31 is 1, else 8. -/
def tableBytes (w : Nat) : List Byte := if w.testBit 31 then leBytes 4 w else leBytes 8 w

/-- The instruction the decoder of S reads from a table word (bits above nbits are 0). -/
def decodeTableWord (nbits w : Nat) : Option Instr :=
  match decode .s (tableBytes (w % 2 ^ nbits)) with
  | .ok (i, _) => some i
  | .error _ => none

/-! The encoder. Reserved bits are written 0 (00 R10). -/

/-- Parcel 0 of a word: kind 0, opcode, three 6-bit fields, guard, ginv, and the format's low two bits. -/
def parcel0 (op : Nat) (a b c : BitVec 6) (w : Common) (low : BitVec 2) : W32 :=
  0#1 ++ BitVec.ofNat 7 op ++ a ++ b ++ c ++ w.guard ++ BitVec.ofBool w.ginv ++ low

/-- Parcel 1 of a word: push, pop, the empty policies and 24 bits of the format. -/
def parcel1 (w : Common) (x : BitVec 24) : W32 :=
  w.push ++ w.pop ++ BitVec.ofBool w.epa ++ BitVec.ofBool w.epb ++ x

def rrrWords (op : Nat) (f : FRrr) : List W32 :=
  [parcel0 op f.fd f.fa f.fb f.w 0,
    parcel1 f.w (f.fc ++ f.fmt ++ f.rm ++ BitVec.ofBool f.sat ++ BitVec.ofBool f.prf ++ f.sub ++ f.aux)]
def rriWords (op : Nat) (f : FRri) : List W32 := [parcel0 op f.fd f.fa (f.sub ++ f.fmt) f.w 0, parcel1 f.w f.imm]
def brWords (op : Nat) (f : FBr) : List W32 := [parcel0 op f.fd f.fa f.fb f.w f.lvl, parcel1 f.w (f.cond ++ f.off)]
def memWords (op : Nat) (f : FMem) : List W32 :=
  [parcel0 op f.fd f.fa f.fb f.w f.mode, parcel1 f.w (f.space ++ f.size ++ f.order ++ f.scope ++ f.disp)]
def sysWords (op : Nat) (f : FSys) : List W32 :=
  [parcel0 op f.fd f.fa f.fb f.w f.sub, parcel1 f.w (f.cr ++ f.imm12)]
def mmaWords (op : Nat) (f : FMma) : List W32 :=
  [parcel0 op f.fd f.fa f.fb f.w 0,
    parcel1 f.w (f.fmta ++ f.fmtb ++ f.spar ++ f.rm ++ BitVec.ofBool f.sat ++ BitVec.ofBool f.clr ++ 0#9)]
def speWords (op : Nat) (f : FSpe) : List W32 :=
  [0#1 ++ BitVec.ofNat 7 op ++ f.shape ++ f.basew ++ 0#3 ++ f.w.guard ++ BitVec.ofBool f.w.ginv ++ f.flg,
    parcel1 f.w (f.basel ++ f.baseo ++ 0#6)]
def cpyWords (op : Nat) (f : FCpy) : List W32 :=
  [parcel0 op f.unit f.tag 0 f.w 0, parcel1 f.w (BitVec.ofBool f.ix ++ 0#3 ++ f.dsc)]
def hintWords (op : Nat) (w : Common) : List W32 := [parcel0 op 0 0 0 w 0, parcel1 w 0]

/-- The parcels of an instruction; the steps of other agents have none. -/
def encode : Instr → List W32
  | .add f => rrrWords 0x00 f
  | .sub f => rrrWords 0x01 f
  | .mul f => rrrWords 0x02 f
  | .mulh f => rrrWords 0x03 f
  | .mulhu f => rrrWords 0x04 f
  | .div f => rrrWords 0x05 f
  | .divu f => rrrWords 0x06 f
  | .rem f => rrrWords 0x07 f
  | .remu f => rrrWords 0x08 f
  | .and f => rrrWords 0x09 f
  | .or f => rrrWords 0x0A f
  | .xor f => rrrWords 0x0B f
  | .andn f => rrrWords 0x0C f
  | .shl f => rrrWords 0x0D f
  | .shr f => rrrWords 0x0E f
  | .sra f => rrrWords 0x0F f
  | .rotr f => rrrWords 0x10 f
  | .clz f => rrrWords 0x11 f
  | .ctz f => rrrWords 0x12 f
  | .popc f => rrrWords 0x13 f
  | .min f => rrrWords 0x14 f
  | .max f => rrrWords 0x15 f
  | .minu f => rrrWords 0x16 f
  | .maxu f => rrrWords 0x17 f
  | .sel f => rrrWords 0x18 f
  | .mov f => rrrWords 0x19 f
  | .cmp f => rrrWords 0x1A f
  | .addi f => rriWords 0x20 f
  | .andi f => rriWords 0x21 f
  | .ori f => rriWords 0x22 f
  | .xori f => rriWords 0x23 f
  | .shli f => rriWords 0x24 f
  | .shri f => rriWords 0x25 f
  | .srai f => rriWords 0x26 f
  | .li f => rriWords 0x27 f
  | .lihM f => rriWords 0x28 f
  | .lihH f => rriWords 0x28 f
  | .br f => brWords 0x30 f
  | .bri f => brWords 0x31 f
  | .jmp f => brWords 0x32 f
  | .jmpr f => brWords 0x33 f
  | .call f => brWords 0x34 f
  | .ret f => brWords 0x35 f
  | .loop f => brWords 0x36 f
  | .loopr f => brWords 0x37 f
  | .ld f => memWords 0x40 f
  | .st f => memWords 0x41 f
  | .amo f => memWords 0x42 f
  | .lcol f => memWords 0x43 f
  | .fork f => sysWords 0x50 f
  | .forkI f => sysWords 0x50 f
  | .join f => sysWords 0x51 f
  | .wait f => sysWords 0x52 f
  | .fence f => sysWords 0x53 f
  | .crd f => sysWords 0x54 f
  | .cwr f => sysWords 0x55 f
  | .tmset f => sysWords 0x56 f
  | .tksend f => sysWords 0x57 f
  | .tkrecv f => sysWords 0x58 f
  | .tkrecvD f => sysWords 0x58 f
  | .launch f => sysWords 0x59 f
  | .bar f => sysWords 0x5A f
  | .pacq f => sysWords 0x5B f
  | .prel f => sysWords 0x5C f
  | .boost f => sysWords 0x5D f
  | .refdef f => sysWords 0x5E f
  | .publish f => sysWords 0x5F f
  | .cbsync f => sysWords 0x60 f
  | .cbsyncAll f => sysWords 0x60 f
  | .trap f => sysWords 0x61 f
  | .eret f => sysWords 0x62 f
  | .halt f => sysWords 0x63 f
  | .haltChain f => sysWords 0x63 f
  | .nop w => hintWords 0x78 w
  | .vadd f => rrrWords 0x00 f
  | .vsub f => rrrWords 0x01 f
  | .vmul f => rrrWords 0x02 f
  | .vfma f => rrrWords 0x03 f
  | .vfms f => rrrWords 0x04 f
  | .vmin f => rrrWords 0x05 f
  | .vmax f => rrrWords 0x06 f
  | .vabs f => rrrWords 0x07 f
  | .vneg f => rrrWords 0x08 f
  | .vrcp f => rrrWords 0x09 f
  | .vrsq f => rrrWords 0x0A f
  | .vtip f => rrrWords 0x0B f
  | .vcvt f => rrrWords 0x0C f
  | .vqnt f => rrrWords 0x0D f
  | .vdqnt f => rrrWords 0x0E f
  | .vspl3 f => rrrWords 0x0F f
  | .viadd f => rrrWords 0x10 f
  | .visub f => rrrWords 0x11 f
  | .vimul f => rrrWords 0x12 f
  | .vand f => rrrWords 0x13 f
  | .vor f => rrrWords 0x14 f
  | .vxor f => rrrWords 0x15 f
  | .vnot f => rrrWords 0x16 f
  | .vshl f => rrrWords 0x17 f
  | .vshr f => rrrWords 0x18 f
  | .vsra f => rrrWords 0x19 f
  | .vcmp f => rrrWords 0x1A f
  | .vsel f => rrrWords 0x1B f
  | .vmov f => rrrWords 0x1C f
  | .vmovIota f => rrrWords 0x1C f
  | .vbcast f => rrrWords 0x1D f
  | .vbcastI f => rrrWords 0x1D f
  | .vbcastH f => rrrWords 0x1D f
  | .vperm f => rrrWords 0x1E f
  | .vshiftRot f => rrrWords 0x1F f
  | .vshiftUp f => rrrWords 0x1F f
  | .vshiftDn f => rrrWords 0x1F f
  | .vshiftTw f => rrrWords 0x1F f
  | .vred f => rrrWords 0x20 f
  | .vmpush f => rrrWords 0x21 f
  | .vmpushInv f => rrrWords 0x21 f
  | .vminv f => rrrWords 0x22 f
  | .vmpop f => rrrWords 0x23 f
  | .vbz f => brWords 0x30 f
  | .vbnz f => brWords 0x31 f
  | .vjmp f => brWords 0x32 f
  | .vloop f => brWords 0x33 f
  | .vloopr f => brWords 0x34 f
  | .vld f => memWords 0x40 f
  | .vst f => memWords 0x41 f
  | .vldx f => memWords 0x42 f
  | .vstx f => memWords 0x43 f
  | .vtld f => memWords 0x44 f
  | .vtst f => memWords 0x45 f
  | .vtldx f => memWords 0x46 f
  | .vlcol f => memWords 0x47 f
  | .vtksend f => sysWords 0x50 f
  | .vtkrecv f => sysWords 0x51 f
  | .vtkrecvD f => sysWords 0x51 f
  | .vfence f => sysWords 0x52 f
  | .vcrd f => sysWords 0x53 f
  | .vcwr f => sysWords 0x54 f
  | .vend f => sysWords 0x55 f
  | .vnop w => hintWords 0x78 w
  | .mma f => mmaWords 0x00 f
  | .mmas f => mmaWords 0x01 f
  | .mzero f => mmaWords 0x02 f
  | .mdrain f => mmaWords 0x03 f
  | .mdraint f => mmaWords 0x04 f
  | .mchk f => mmaWords 0x05 f
  | .mts f => mmaWords 0x06 f
  | .mloop f => brWords 0x30 f
  | .mloopr f => brWords 0x31 f
  | .mjmp f => brWords 0x32 f
  | .mtld f => memWords 0x40 f
  | .mtldt f => memWords 0x41 f
  | .mtst f => memWords 0x42 f
  | .mosld f => memWords 0x43 f
  | .mosset f => sysWords 0x50 f
  | .mossetAdd f => sysWords 0x50 f
  | .mmode f => sysWords 0x51 f
  | .mmodeSeed f => sysWords 0x51 f
  | .mtksend f => sysWords 0x52 f
  | .mtkrecv f => sysWords 0x53 f
  | .mfence f => sysWords 0x54 f
  | .mend f => sysWords 0x55 f
  | .mnop w => hintWords 0x78 w
  | .pup f => speWords 0x00 f
  | .pdn f => speWords 0x01 f
  | .pmaxup f => speWords 0x02 f
  | .pnorm f => speWords 0x03 f
  | .pzero f => speWords 0x04 f
  | .ploop f => brWords 0x30 f
  | .ploopr f => brWords 0x31 f
  | .pjmp f => brWords 0x32 f
  | .pld f => memWords 0x40 f
  | .pldShape f => memWords 0x40 f
  | .pst f => memWords 0x41 f
  | .pmode f => sysWords 0x50 f
  | .ptksend f => sysWords 0x51 f
  | .ptkrecv f => sysWords 0x52 f
  | .pfence f => sysWords 0x53 f
  | .pend f => sysWords 0x54 f
  | .pnop w => hintWords 0x78 w
  | .cpy f => cpyWords 0x00 f
  | .cpy2d f => cpyWords 0x01 f
  | .cpybc f => cpyWords 0x02 f
  | .cpyex f => cpyWords 0x03 f
  | .cpytw f => cpyWords 0x04 f
  | .cpys f => cpyWords 0x05 f
  | .ccoll f => cpyWords 0x06 f
  | .cwait f => cpyWords 0x07 f
  | .cwaitAll f => cpyWords 0x07 f
  | .cloop f => brWords 0x30 f
  | .cjmp f => brWords 0x31 f
  | .ctksend f => sysWords 0x50 f
  | .ctksendI f => sysWords 0x50 f
  | .ctkrecv f => sysWords 0x51 f
  | .cfence f => sysWords 0x52 f
  | .cend f => sysWords 0x53 f
  | .cnop w => hintWords 0x78 w
  | .hint _ op w => hintWords op.toNat w
  | .unassignedOpcode _ op w => hintWords op.toNat w
  | .patch _ tidx fsel value => [1#1 ++ tidx ++ fsel ++ 0#4 ++ value]
  | _ => []

/-- The bytes of a list of parcels. -/
def parcelBytes : List W32 → List Byte
  | [] => []
  | p :: ps => p.extractLsb' 0 8 :: p.extractLsb' 8 8 :: p.extractLsb' 16 8 :: p.extractLsb' 24 8 :: parcelBytes ps

/-- The engine whose word an instruction is. -/
def Instr.eng : Instr → Option Eng
  | .add _ => some .s
  | .sub _ => some .s
  | .mul _ => some .s
  | .mulh _ => some .s
  | .mulhu _ => some .s
  | .div _ => some .s
  | .divu _ => some .s
  | .rem _ => some .s
  | .remu _ => some .s
  | .and _ => some .s
  | .or _ => some .s
  | .xor _ => some .s
  | .andn _ => some .s
  | .shl _ => some .s
  | .shr _ => some .s
  | .sra _ => some .s
  | .rotr _ => some .s
  | .clz _ => some .s
  | .ctz _ => some .s
  | .popc _ => some .s
  | .min _ => some .s
  | .max _ => some .s
  | .minu _ => some .s
  | .maxu _ => some .s
  | .sel _ => some .s
  | .mov _ => some .s
  | .cmp _ => some .s
  | .addi _ => some .s
  | .andi _ => some .s
  | .ori _ => some .s
  | .xori _ => some .s
  | .shli _ => some .s
  | .shri _ => some .s
  | .srai _ => some .s
  | .li _ => some .s
  | .lihM _ => some .s
  | .lihH _ => some .s
  | .br _ => some .s
  | .bri _ => some .s
  | .jmp _ => some .s
  | .jmpr _ => some .s
  | .call _ => some .s
  | .ret _ => some .s
  | .loop _ => some .s
  | .loopr _ => some .s
  | .ld _ => some .s
  | .st _ => some .s
  | .amo _ => some .s
  | .lcol _ => some .s
  | .fork _ => some .s
  | .forkI _ => some .s
  | .join _ => some .s
  | .wait _ => some .s
  | .fence _ => some .s
  | .crd _ => some .s
  | .cwr _ => some .s
  | .tmset _ => some .s
  | .tksend _ => some .s
  | .tkrecv _ => some .s
  | .tkrecvD _ => some .s
  | .launch _ => some .s
  | .bar _ => some .s
  | .pacq _ => some .s
  | .prel _ => some .s
  | .boost _ => some .s
  | .refdef _ => some .s
  | .publish _ => some .s
  | .cbsync _ => some .s
  | .cbsyncAll _ => some .s
  | .trap _ => some .s
  | .eret _ => some .s
  | .halt _ => some .s
  | .haltChain _ => some .s
  | .nop _ => some .s
  | .vadd _ => some .v
  | .vsub _ => some .v
  | .vmul _ => some .v
  | .vfma _ => some .v
  | .vfms _ => some .v
  | .vmin _ => some .v
  | .vmax _ => some .v
  | .vabs _ => some .v
  | .vneg _ => some .v
  | .vrcp _ => some .v
  | .vrsq _ => some .v
  | .vtip _ => some .v
  | .vcvt _ => some .v
  | .vqnt _ => some .v
  | .vdqnt _ => some .v
  | .vspl3 _ => some .v
  | .viadd _ => some .v
  | .visub _ => some .v
  | .vimul _ => some .v
  | .vand _ => some .v
  | .vor _ => some .v
  | .vxor _ => some .v
  | .vnot _ => some .v
  | .vshl _ => some .v
  | .vshr _ => some .v
  | .vsra _ => some .v
  | .vcmp _ => some .v
  | .vsel _ => some .v
  | .vmov _ => some .v
  | .vmovIota _ => some .v
  | .vbcast _ => some .v
  | .vbcastI _ => some .v
  | .vbcastH _ => some .v
  | .vperm _ => some .v
  | .vshiftRot _ => some .v
  | .vshiftUp _ => some .v
  | .vshiftDn _ => some .v
  | .vshiftTw _ => some .v
  | .vred _ => some .v
  | .vmpush _ => some .v
  | .vmpushInv _ => some .v
  | .vminv _ => some .v
  | .vmpop _ => some .v
  | .vbz _ => some .v
  | .vbnz _ => some .v
  | .vjmp _ => some .v
  | .vloop _ => some .v
  | .vloopr _ => some .v
  | .vld _ => some .v
  | .vst _ => some .v
  | .vldx _ => some .v
  | .vstx _ => some .v
  | .vtld _ => some .v
  | .vtst _ => some .v
  | .vtldx _ => some .v
  | .vlcol _ => some .v
  | .vtksend _ => some .v
  | .vtkrecv _ => some .v
  | .vtkrecvD _ => some .v
  | .vfence _ => some .v
  | .vcrd _ => some .v
  | .vcwr _ => some .v
  | .vend _ => some .v
  | .vnop _ => some .v
  | .mma _ => some .m
  | .mmas _ => some .m
  | .mzero _ => some .m
  | .mdrain _ => some .m
  | .mdraint _ => some .m
  | .mchk _ => some .m
  | .mts _ => some .m
  | .mloop _ => some .m
  | .mloopr _ => some .m
  | .mjmp _ => some .m
  | .mtld _ => some .m
  | .mtldt _ => some .m
  | .mtst _ => some .m
  | .mosld _ => some .m
  | .mosset _ => some .m
  | .mossetAdd _ => some .m
  | .mmode _ => some .m
  | .mmodeSeed _ => some .m
  | .mtksend _ => some .m
  | .mtkrecv _ => some .m
  | .mfence _ => some .m
  | .mend _ => some .m
  | .mnop _ => some .m
  | .pup _ => some .p
  | .pdn _ => some .p
  | .pmaxup _ => some .p
  | .pnorm _ => some .p
  | .pzero _ => some .p
  | .ploop _ => some .p
  | .ploopr _ => some .p
  | .pjmp _ => some .p
  | .pld _ => some .p
  | .pldShape _ => some .p
  | .pst _ => some .p
  | .pmode _ => some .p
  | .ptksend _ => some .p
  | .ptkrecv _ => some .p
  | .pfence _ => some .p
  | .pend _ => some .p
  | .pnop _ => some .p
  | .cpy _ => some .c
  | .cpy2d _ => some .c
  | .cpybc _ => some .c
  | .cpyex _ => some .c
  | .cpytw _ => some .c
  | .cpys _ => some .c
  | .ccoll _ => some .c
  | .cwait _ => some .c
  | .cwaitAll _ => some .c
  | .cloop _ => some .c
  | .cjmp _ => some .c
  | .ctksend _ => some .c
  | .ctksendI _ => some .c
  | .ctkrecv _ => some .c
  | .cfence _ => some .c
  | .cend _ => some .c
  | .cnop _ => some .c
  | .hint e _ _ => some e
  | .unassignedOpcode e _ _ => some e
  | .patch e _ _ _ => some e
  | _ => none

end Sys2Proof
end

