-- ==== Sys2Proof/Machine/Fetch.lean ====
section
/-! DEFINITION. Fetching a word of an engine stream (03 R83, R87; 01 R26), the templates of patch words (03 R108, R109), and
the trap S takes at an instruction boundary after a forced sweep (12 R384). -/

namespace Sys2Proof.Machine

/-- What a turn of an engine begins with: a word to execute, or a state in which the turn is over. -/
inductive Fetched where
  | word (i : Instr) (s : State)
  | stop (s : State)

/-- Address the PC names in instruction memory: parcels stand at multiples of 4 (03 R83). -/
def fetchAt (pc : W64) : Nat := pc.toNat / 4 * 4

/-- The parcel at an address of an engine's instruction memory. -/
def State.parcelAt (s : State) (c : CoreId) (e : Eng) (a : Nat) : W32 :=
  BitVec.ofNat 32 (leNat (readCells s.mem (imemKey c e a) 4))

/-- Bytes of the word at an address, its first parcel within the memory: 4 for a patch word, else 8. -/
def State.wordLen (s : State) (c : CoreId) (e : Eng) (a : Nat) : Nat :=
  if bitAt (s.parcelAt c e a) 31 then 4 else 8

/-- The word at an address lies in the engine's instruction memory (01 R26, 03 R87). -/
def State.fetchFits (s : State) (c : CoreId) (e : Eng) (a : Nat) : Bool :=
  decide (a + 4 ≤ imemSize e) && decide (a + s.wordLen c e a ≤ imemSize e)

/-- The instruction at an address (03 R83). -/
def State.wordAt (s : State) (c : CoreId) (e : Eng) (a : Nat) : Instr :=
  let p := s.parcelAt c e a
  if bitAt p 31 then decodePatch e p else decodeFull e p (s.parcelAt c e (a + 4))

/-! Patch words (03 R108, R109). -/

/-- Where a field of a template stands: parcel 1 or parcel 0, its low bit, its width. -/
structure FieldAt where
  second : Bool
  lo : Nat
  len : Nat
  deriving DecidableEq, Repr

/-- The field-select codes that every format has (03 R109). -/
def commonField (f : Nat) : Option FieldAt :=
  if f = 1 then some ⟨false, 18, 6⟩
  else if f = 2 then some ⟨false, 12, 6⟩
  else if f = 3 then some ⟨false, 6, 6⟩
  else if f = 4 then some ⟨false, 2, 4⟩
  else if f = 5 then some ⟨true, 0, 16⟩
  else if f = 6 then some ⟨true, 16, 8⟩
  else if f = 7 then some ⟨true, 26, 6⟩
  else none

/-- The empty policies. -/
def epField : FieldAt := ⟨true, 24, 2⟩

/-- The fields of codes 8 and up, in order, of each format (03 R109). -/
def formFields : Form → List FieldAt
  | .rrr _ => [⟨true, 18, 6⟩, ⟨true, 14, 4⟩, ⟨true, 11, 3⟩, ⟨true, 10, 1⟩, ⟨true, 9, 1⟩, ⟨true, 6, 3⟩, ⟨true, 0, 6⟩, epField]
  | .rri _ => [⟨false, 10, 2⟩, ⟨false, 6, 4⟩, epField]
  | .br _ => [⟨true, 20, 4⟩, ⟨true, 0, 16⟩, ⟨true, 16, 4⟩, ⟨false, 0, 2⟩, ⟨false, 6, 12⟩]
  | .mem _ => [⟨true, 22, 2⟩, ⟨true, 19, 3⟩, ⟨true, 17, 2⟩, ⟨true, 14, 3⟩, ⟨true, 0, 14⟩, ⟨false, 0, 2⟩, epField]
  | .sys _ => [⟨true, 12, 12⟩, ⟨true, 0, 12⟩, ⟨false, 0, 2⟩, epField]
  | .mma _ => [⟨true, 20, 4⟩, ⟨true, 16, 4⟩, ⟨true, 14, 2⟩, ⟨true, 11, 3⟩, ⟨true, 10, 1⟩, ⟨true, 9, 1⟩]
  | .spe _ => [⟨false, 18, 6⟩, ⟨false, 9, 9⟩, ⟨true, 15, 9⟩, ⟨true, 6, 9⟩, ⟨false, 0, 2⟩]
  | .cpy _ => [⟨false, 18, 6⟩, ⟨false, 12, 6⟩, ⟨true, 23, 1⟩, ⟨true, 0, 16⟩, ⟨true, 16, 4⟩]
  | .hint _ => []

/-- The field a code selects in a template of engine e; none where row 1 or row 3 of 03 R88 applies. -/
def patchField (e : Eng) (p0 : W32) (f : Nat) : Option FieldAt :=
  let op := (opcodeOf p0).toNat
  match (opMap e).lookup op with
  | some fm => if f < 8 then commonField f else (formFields fm)[f - 8]?
  | none => if 0x78 ≤ op && decide (f < 8) then commonField f else none

/-- Bits [lo + len − 1 : lo] of a parcel replaced by the low bits of a value. -/
def setBits (p : W32) (lo len v : Nat) : W32 :=
  let m := BitVec.ofNat 32 ((2 ^ len - 1) * 2 ^ lo)
  (p &&& ~~~m) ||| BitVec.ofNat 32 (v % 2 ^ len * 2 ^ lo)

/-- The two parcels of a template with a field replaced (03 R108); code 0 replaces none. -/
def amend (e : Eng) (t : W64) (f v : Nat) : Option (W32 × W32) :=
  let p0 : W32 := t.extractLsb' 0 32
  let p1 : W32 := t.extractLsb' 32 32
  if bitAt p0 31 then none
  else if f = 0 then some (p0, p1)
  else match patchField e p0 f with
    | none => none
    | some a => some (if a.second then (p0, setBits p1 a.lo a.len v) else (setBits p0 a.lo a.len v, p1))

/-- The full word that a word issues as: of a patch word the amended template, where it can be amended (03 R108). -/
def Ctx.realWord (x : Ctx) (i : Instr) : Option Instr :=
  match i with
  | .patch e tidx fsel value =>
    if siteMark x.errs (.tmpl e tidx.toNat) = .double then none
    else (amend e (vget (x.stream e).tmpl tidx.toNat) fsel.toNat value.toNat).map fun p => decodeFull e p.1 p.2
  | _ => some i

/-- Engine e of core c may issue: its job runs and the stream is Running. -/
def canIssue (k : Core) (e : Eng) : Bool := k.phase == .running && (k.ctx.stream e).st == .running

/-- The cores in device-wide order. -/
def allCores : List CoreId := (upTo 1152).map coreAt

/-- The clusters in order. -/
def allClusters : List ClusterId := (upTo 24).map clusterAt

/-- The jobs that are ended or saved with that of core c: the whole gang, or the job alone (01 R37; 10 R341). -/
def State.members (s : State) (c : CoreId) : List CoreId :=
  match (s.core c).job with
  | none => []
  | some j =>
    if !j.tk.gang then [c]
    else allCores.filter fun d => match (s.core d).job with
      | none => false
      | some i => i.launch == j.launch

/-- Core c may be stopped for a save: its job runs outside the handler, with no trap being taken and no boundary trap due
first (13 R424). -/
def State.canStop (s : State) (c : CoreId) : Bool :=
  let k := s.core c
  k.phase == .running && !k.ctx.cr.tm && k.ctx.trapping.isNone && k.refresh.pendingTrap.isNone

/-- A stop that was asked for reaches the engines of core c at this boundary: its job and every other of its gang can be
stopped (13 R421, R424). -/
def State.stopsNow (s : State) (c : CoreId) : Bool := (s.core c).stopReq.isSome && (s.members c).all s.canStop

/-- The trap of a forced sweep, due at S's next boundary outside the handler (12 R384, R403): 0x20 with DUE. -/
def takeDeadline (c : CoreId) (due : Nat) (s : State) : State :=
  let pc := ((s.ctx c).stream .s).pc
  (raise c .s { Trap.plain 0x20 pc with addr := some due } s).modCore c fun k =>
    { k with refresh := { k.refresh with pendingTrap := none } }

/-- A job suspended at a barrier that S leaves for a trap asks for its units again, ahead of every PACQ (12 R395, R396;
DEDUCED, log entry 21). -/
def State.reclaim (s : State) (c : CoreId) : State :=
  s.modPlate (plateOf (clusterOf c)) fun p =>
    if p.reqs.any fun r => r.core == c && r.reacquire then p
    else { p with reqs := p.reqs ++ [⟨c, levelUnits (s.core c).pwr.level, true, s.dev.ticks.toNat⟩] }

/-- S's turn while a trap is being taken: it enters the handler once its deferred writes have landed and its units are held
(04 R123, R156; 12 R396). -/
def trapTurn (c : CoreId) (s : State) : State :=
  if (s.core c).pwr.susp then s.reclaim c
  else if unsettled (s.ctx c) then s
  else s.modCtx c trapEnter

/-- The word that S may still execute although another engine's trap has been raised: a CRD of ENGSTATE in the clk of the
fault, a patch word's as well, which then returns the state after it (04 R160; DESIGN CHOICE, log entry 98). -/
def lateCrd (x : Ctx) (i : Instr) : Bool :=
  match x.realWord i with
  | some (.crd f) => f.cr == 0x050
  | _ => false

/-- The fetch of engine e of core c at its PC, its boundary traps taken. -/
def fetchPc (c : CoreId) (e : Eng) (s : State) : Fetched :=
  let pc := ((s.ctx c).stream e).pc
  let a := fetchAt pc
  if !s.fetchFits c e a then .stop (raise c e (Trap.plain 0x01 pc) s)
  else
    let n := s.wordLen c e a
    let key := imemKey c e a
    if s.badData key n then
      let t := storageFault 2 none (a + (s.badUnit key n - key)) true
      .stop (raise c e { t with pc := pc, resume := pc } s)
    else .word (s.wordAt c e a) (s.touch c key n)

/-- What a stream does at its PC: a word that has had its effects there retires, where it now may, else the word is
fetched. -/
def fetchNext (c : CoreId) (e : Eng) (s : State) : Fetched :=
  match ((s.ctx c).stream e).parked with
  | some d => .stop (finishWord c e d s)
  | none => fetchPc c e s

/-- S's turn while a trap of another engine is being taken, with a CRD of ENGSTATE first if the device chooses it. -/
def trapFetch (c : CoreId) (t : Trapping) (s : State) : Fetched :=
  let s1 := s.modCtx c fun x => { x with trapping := some { t with late := false } }
  match (if t.late && ((s.ctx c).stream .s).parked.isNone then fetchPc c .s s1 else .stop s1) with
  | .word i s2 =>
    let first := s2.drawBool
    if !lateCrd (s.ctx c) i then .stop (trapTurn c s1)
    else if first.1 then .word i first.2
    else .stop (trapTurn c { s1 with draw := first.2.draw })
  | .stop _ => .stop (trapTurn c s1)

/-- The fetch of engine e of core c. -/
def fetchWord (c : CoreId) (e : Eng) (s : State) : Fetched :=
  let k := s.core c
  if !canIssue k e then .stop s
  else match e, k.ctx.trapping with
    | .s, some t => trapFetch c t s
    | _, _ =>
      if s.stopsNow c then .stop s
      else match (if e = .s ∧ k.ctx.cr.tm = false then k.refresh.pendingTrap else none) with
        | some due => .stop (takeDeadline c due s)
        | none => fetchNext c e s

end Sys2Proof.Machine
end

