-- ==== Sys2Proof/Machine/Records.lean ====
section
/-! DEFINITION. Records to the host and the fault queue (13 R411, R412; 10 R334), and completion counters (12 R401). -/

namespace Sys2Proof.Machine

/-- Slots of the fault queue's ring (14 R433). -/
def Device.fqSlots (d : Device) : Nat := if 4 ≤ d.fqsize.toNat ∧ d.fqsize.toNat ≤ 16 then 2 ^ d.fqsize.toNat else 16

/-- The ring is full. -/
def Device.fqFull (d : Device) : Bool := (d.fqtail.toNat + 1) % d.fqSlots == d.fqhead.toNat

/-- Records that may wait on the bed (10 R334). -/
def fqWaiting : Nat := 32

/-- Bytes of a record. -/
def recordSize : Nat := 64

/-- A record written at TAIL, as one release at system scope (13 R411). -/
def State.writeRecord (s : State) (r : QRecord) : State :=
  let k := s.dev.fqbase.toNat * 128 + recordSize * s.dev.fqtail.toNat
  let s1 := s.poke k r.bytes
  let s2 : State := { s1 with rels := ⟨k, r.bytes.length, s1.stamp, none, r.tag⟩ :: s1.rels }
  (s2.modDev fun d => { d with fqtail := BitVec.ofNat 16 ((d.fqtail.toNat + 1) % d.fqSlots) }).msi 0

/-- Waiting records written while the ring has room; during the remapping step they wait (11 R365). -/
def flushRecords : List QRecord → State → State
  | [], s => s.modDev fun d => { d with fqwait := [] }
  | b :: bs, s => if s.dev.fqFull || s.dev.remapGo then s.modDev fun d => { d with fqwait := b :: bs } else flushRecords bs (s.writeRecord b)

/-- A record queued: written, kept waiting on the bed, or dropped and counted (10 R334). -/
def State.queueRecord (s : State) (r : QRecord) : State :=
  if s.dev.fqFull && decide (fqWaiting ≤ s.dev.fqwait.length) then
    let s1 := s.modDev fun d => { d with fqlost := d.fqlost + 1 }
    if s.dev.fqlost = 0 then s1.msi 0 else s1
  else flushRecords (s.dev.fqwait ++ [r]) s

/-- The CODE word of a record (13 R411). -/
def EndInfo.word (e : EndInfo) (ticket : Bool) : Nat :=
  e.code.toNat + e.gang.toNat * 256 + ticket.toNat * 512 + e.nested.toNat * 1024 + e.novec.toNat * 2048
    + e.hhalt.toNat * 4096 + e.kill.toNat * 8192 + e.disp.toNat * 16384

/-- The bytes of a record (13 R411). -/
def recordBytes (e : EndInfo) (ticket : Bool) (addr jobid dcore : Nat) : List Byte :=
  leBytes 4 (e.word ticket) ++ leBytes 4 e.prior.toNat ++ leBytes 8 addr ++ leBytes 8 jobid ++ leBytes 8 e.info0.toNat
    ++ leBytes 8 e.info1.toNat ++ leBytes 8 e.eng.toNat ++ leBytes 8 e.ticks ++ leBytes 4 dcore ++ leBytes 4 0

/-- JOBID (04 R132). -/
def Job.id (j : Job) : Nat := j.q.val * 2 ^ 48 + j.z % 2 ^ 16 * 2 ^ 32 + j.y % 2 ^ 16 * 2 ^ 16 + j.x % 2 ^ 16

/-- An ending of code 0 with no field filled. -/
def EndInfo.blank (ticks : Nat) : EndInfo :=
  { code := 0, gang := false, nested := false, novec := false, hhalt := false, kill := false, disp := false,
    prior := 0, info0 := 0, info1 := 0, eng := 0, ticks := ticks }

/-- TRAPINFO0 of an ending no word raised: PC, engine, core and cluster, with or without ADDR (13 R412). -/
def plainInfo0 (c : CoreId) (pc eng : Nat) (av : Bool) : W64 :=
  BitVec.ofNat 64 (av.toNat * 2 ^ 63 + pc % 2 ^ 32 * 2 ^ 16 + eng * 2 ^ 11 + coreIn c * 2 ^ 5 + (clusterOf c).val)

/-- The PC field of an ending outside any word. -/
def noPc : Nat := 0xFFFFFFFF

/-- A kill (13 R412). -/
def killInfo (c : CoreId) (s : State) : EndInfo :=
  { EndInfo.blank s.dev.ticks.toNat with kill := true, info0 := plainInfo0 c noPc 0 false }

/-- System scope (09 R309). -/
def systemScope : Nat := 4

/-- The record of a job that ended, with the JOBID its register holds; it releases what the job has seen. -/
def State.jobRecord (s : State) (e : EndInfo) (j : Job) (jobid : W64) (dcore : Nat) (v : View) : State :=
  s.queueRecord ⟨recordBytes e false j.tk.addr jobid.toNat dcore, ⟨dcore, systemScope, v⟩⟩

/-- The record of a rejected ticket (10 R330; 13 R412): no job, no core. -/
def State.ticketRecord (s : State) (code addr : Nat) (v : View) : State :=
  let e := EndInfo.blank s.dev.ticks.toNat
  s.queueRecord ⟨recordBytes { e with code := BitVec.ofNat 8 code, info1 := BitVec.ofNat 64 (addr % 2 ^ 48) } true addr 0 0,
    ⟨hostObs, systemScope, v⟩⟩

/-! Reads and writes of the dispatchers, under a root and outside any core's TLB. -/

/-- Places of an access of a dispatcher. -/
def State.walkRef (s : State) (root va n : Nat) (use : Use) : Option Ref :=
  if 2 ^ 48 < va + n then none
  else
    let parts := cutPages va n (n / 2 ^ 16 + 2)
    match parts.mapM fun p => s.walk root p.1 with
    | none => none
    | some ts =>
      match s.placeAll parts ts use false .visible with
      | .ok r => some r
      | .bad _ => none

/-- A page permits a use at an address: translation and permission only (10 R330). -/
def State.pagePermits (s : State) (root va : Nat) (use : Use) : Bool :=
  decide (va < 2 ^ 48) && match s.walk root va with
    | none => false
    | some t => t.permits use

/-- Every cluster's pass becomes due (10 R333). -/
def State.passAll (s : State) : State := { s with clusters := s.clusters.map fun k => { k with passDue := true } }

/-- The increment of a completion counter is not made (12 R401). -/
def State.counterLost (s : State) (addr : Nat) : State := s.logEvent 9 0 addr

/-- What the engines of a core have seen, as a release passes it on: what a retiring job's increment carries (09 R316). -/
def Ctx.allSeen (x : Ctx) : View := (x.str.map fun r => r.view.everyForm).toList.foldl View.join ⟨0, [], []⟩

/-- A completion counter raised by INC at its target, or a FetchAdd sent to the host: a release at device scope of what the
job of core c has seen (09 R316; 12 R401). -/
def State.bumpCounter (s : State) (root : Nat) (done : W64) (inc : W32) (c : Nat) (v : View) : State :=
  let va := done.toNat
  if va = 0 then s
  else if !s.pagePermits root va .amo then s.counterLost va
  else match s.walk root va with
    | none => s.counterLost va
    | some t =>
      let pa := t.frame + (va - t.va)
      if t.pub = none ∧ pa / 2 ^ 48 = 2 then
        s.modDev fun d => { d with fetchAdds := d.fetchAdds ++ [⟨pa, done, inc, v⟩] }
      else
        let p := s.placeIn t va 8 .amo false .visible
        if p.2 ≠ 0 then s.counterLost va
        else
          let k := s.keyOf p.1
          if s.badData k 8 then s.passAll else (s.addReleased k 8 inc.toNat c 3 v).passAll

/-- FETCHADD_COMPLETION: the oldest FetchAdd is performed by the host, or refused (12 R401). -/
def execFetchaddCompletion (ok : Bool) (s : State) : Host.Outcome State Fault Refusal :=
  .next (match s.dev.fetchAdds with
    | [] => s
    | f :: fs =>
      let s1 := s.modDev fun d => { d with fetchAdds := fs }
      if ok then
        (s1.addReleased f.addr 8 f.inc.toNat hostObs 3 f.view).passAll
      else s1.counterLost f.va.toNat)

/-- FQHEAD_WRITE: the host advances HEAD, and waiting records are written (10 R334). -/
def execFqheadWrite (v : W64) (s : State) : Host.Outcome State Fault Refusal :=
  .next (if s.dev.boot ≠ .done then s
    else
      let s1 := s.modDev fun d => { d with fqhead := BitVec.ofNat 16 (v.toNat % 2 ^ 16) }
      flushRecords s1.dev.fqwait s1)

/-- FQLOST_WRITE: a write of 0 clears the count, any other is ignored (14 R433). -/
def execFqlostWrite (v : W64) (s : State) : Host.Outcome State Fault Refusal :=
  .next (if s.dev.boot ≠ .done || fld v.toNat 0 32 != 0 then s else s.modDev fun d => { d with fqlost := 0 })

end Sys2Proof.Machine
end

