-- ==== Sys2Proof/Machine/SPower.lean ====
section
/-! DEFINITION. PACQ, PREL, BOOST and REFDEF (12 R385, R393, R394). -/

namespace Sys2Proof.Machine

/-! The target of a cluster's clock (12 R391, R398). -/

/-- The cores of a cluster, ascending. -/
def coresOf (cl : ClusterId) : List CoreId := (upTo 48).map fun i => coreAt (cl.val * 48 + i)

/-- Step 90, the nominal clock. -/
def nominalStep : Nat := 90

/-- The target of a cluster that is not boosted. -/
def Cluster.baseTarget (k : Cluster) : Nat := min k.rec_.fcap (Int.toNat (nominalStep + min k.bud 0))

/-- Some job of the cluster holds an active lease. -/
def State.leased (s : State) (cl : ClusterId) : Bool := (coresOf cl).any fun c => (s.core c).lease.act

/-- The boosted target (12 R391). -/
def State.boostTarget (s : State) (cl : ClusterId) : Nat :=
  let k := s.cluster cl
  if s.leased cl then k.rec_.fcap else min k.rec_.fcap (Int.toNat (nominalStep + k.bud))

/-- The target of a cluster within an interval, after a change of its record, leases, budget or slot. One that runs above
step 90 goes on while it holds a slot, its record allows boost, and a lease is active, which keeps the target under FCAP, or
BUD is positive; any other takes its base target (12 R391, R398; 11 R375). A new lease raises it only at the next interval
start (12 R393). -/
def State.targetNow (s : State) (cl : ClusterId) : Nat :=
  let k := s.cluster cl
  let t := s.boostTarget cl
  if nominalStep < k.ftgt && k.rec_.boostOk && (s.plate (plateOf cl)).slots.contains cl then
    if s.leased cl || k.spent == 2 && decide (0 < k.bud) then min k.ftgt t
    else if 0 < k.bud then t else k.baseTarget
  else k.baseTarget

/-- That target set. -/
def State.retarget (s : State) (cl : ClusterId) : State := s.modCluster cl fun k => { k with ftgt := s.targetNow cl }

/-! Words. -/

/-- The declared level of core c's job set. -/
def State.setLevel (s : State) (c : CoreId) (n : Nat) : State :=
  s.modCore c fun k => { k with pwr := { k.pwr with level := n } }

/-- PACQ to a level above the present one: the request is queued at the plate at the first issue; once it is granted
the word retires with the level before it (12 R394). -/
def pacqRaise (fd : BitVec 6) (n : Nat) (k : Wd) (s : State) : Out :=
  let x := s.ctx k.c
  match x.pacqFrom with
  | some old =>
    if x.granted then
      .retire none ((s.modCtx k.c fun y => { y with pacqFrom := none, granted := false }).writeS k.c fd
        (BitVec.ofNat 64 old))
    else .wait
  | none =>
    let old := (s.core k.c).pwr.level
    let now := s.dev.ticks.toNat
    let s1 := s.modPlate (plateOf (clusterOf k.c)) fun p =>
      { p with reqs := p.reqs ++ [⟨k.c, levelUnits n - levelUnits old, false, now⟩] }
    .hold (s1.modCore k.c fun q =>
      { q with pwr := { q.pwr with wait := true },
               ctx := { q.ctx with pacqFrom := some old, granted := false,
                                   pacqSince := some (q.ctx.pacqSince.getD now) } })

def execPacq (f : FSys) (s : State) : Host.Outcome State Fault Refusal :=
  .next (sIssue f.w (pacqOk f) [] (some f.fd)
    (fun k s =>
      let n := fld f.imm12.toNat 0 2
      let old := (s.core k.c).pwr.level
      if !settled .s (s.ctx k.c) then .wait
      else if n ≤ old ∧ (s.ctx k.c).pacqFrom = none then
        .retire none ((s.setLevel k.c n).writeS k.c f.fd (BitVec.ofNat 64 old))
      else pacqRaise f.fd n k s) s)

def execPrel (f : FSys) (s : State) : Host.Outcome State Fault Refusal :=
  .next (sIssue f.w (prelOk f) [] none
    (fun k s => if settled .s (s.ctx k.c) then .retire none (s.setLevel k.c 0) else .wait) s)

/-- BOOST: ends, refuses or replaces the lease (12 R393). -/
def execBoost (f : FSys) (s : State) : Host.Outcome State Fault Refusal :=
  .next (sIssue f.w (boostOk f) [] (some f.fd)
    (fun k s =>
      let q := s.core k.c
      let n := fld f.imm12.toNat 0 8
      let old := if q.lease.act then q.lease.rem else 0
      let put (l : Lease) (v : Nat) : Out :=
        .retire none ((s.modCore k.c fun q => { q with lease := l }).writeS k.c f.fd (BitVec.ofNat 64 v))
      if n = 0 then
        .retire none (((s.modCore k.c fun q => { q with lease := { q.lease with act := false } }).retarget
          (clusterOf k.c)).writeS k.c f.fd (BitVec.ofNat 64 old))
      else if !(s.cluster (clusterOf k.c)).rec_.boostOk then put q.lease (old + 256)
      else put ⟨true, n, n⟩ old) s)

/-! Refresh (12 R380–R385). -/

/-- Ticks in a millisecond. -/
def tickMs : Nat := 100000

/-- Sweep period of a band. -/
def sweepPeriod (band : Nat) : Nat := (if band = 0 then 512 else if band = 1 then 256 else 128) * tickMs

/-- Retention less 32 ms of a band: DUE after a sweep start. -/
def dueAfter (band : Nat) : Nat := (if band = 0 then 992 else if band = 1 then 480 else 224) * tickMs

/-- The period in force for a core: that of band 2 under REFFORCE and after a thermal trip (12 R380; 13 R418). -/
def periodOf (cl : Cluster) (k : Core) : Nat :=
  if cl.rec_.refForce || k.tripped then sweepPeriod 2 else sweepPeriod k.refresh.band

/-- The deferral by which a sweep that starts now goes: that before the REFDEF words of this tick (12 R385, R403). -/
def Refresh.before (now : Nat) (r : Refresh) : Deferral :=
  match r.prior with
  | some d => if d.tick = now then d else ⟨now, r.until_, r.act, r.notify, false⟩
  | none => ⟨now, r.until_, r.act, r.notify, false⟩

/-- The first condition of 12 R382, by the deferral that held before the REFDEF words of this tick (12 R385). -/
def periodPassed (now : Nat) (cl : Cluster) (k : Core) : Bool :=
  let b := k.refresh.before now
  decide (k.refresh.lastSweep + periodOf cl k ≤ now) && (decide (b.until_ ≤ now) || !b.act)

/-- A sweep of core c has to start at this tick. -/
def State.sweepDue (s : State) (c : CoreId) : Bool :=
  let k := s.core c
  let now := s.dev.ticks.toNat
  now == k.refresh.due || periodPassed now (s.cluster (clusterOf c)) k

/-- DUE as it bounds a REFDEF: one that retires in the tick of a sweep start that is still to come applies to the sweep after
it, and is bounded by the DUE which that start will set (12 R383, R385, R403). -/
def State.deferLimit (s : State) (c : CoreId) : Nat :=
  let r := (s.core c).refresh
  if s.sweepDue c then s.dev.ticks.toNat + dueAfter r.band else r.due

/-- REFDEF of a delay d, with or without notify, at a tick, under a bound (12 R385). -/
def Refresh.defer (now d limit : Nat) (note : Bool) (r : Refresh) : Refresh :=
  let b := r.before now
  if d = 0 then { r with act := false, notify := false, prior := some { b with asks := false } }
  else { r with until_ := min (now + d) limit, act := true, notify := r.notify || note,
                prior := some { b with asks := b.asks || note } }

/-- REFDEF: defers the next sweep, never past DUE (12 R385). -/
def execRefdef (f : FSys) (s : State) : Host.Outcome State Fault Refusal :=
  .next (sIssue f.w (refdefOk f) [srcA f.w f.fa] (some f.fd)
    (fun k s =>
      let d := (sfield (s.ctx k.c) f.fa).toNat
      let now := s.dev.ticks.toNat
      let r := (s.core k.c).refresh.defer now d (s.deferLimit k.c) (f.sub == 1)
      .retire none ((s.modCore k.c fun q => { q with refresh := r }).writeS k.c f.fd
        (BitVec.ofNat 64 (if d = 0 then 0 else r.until_)))) s)

end Sys2Proof.Machine
end

