-- ==== Sys2Proof/Machine/Jobs.lean ====
section
/-! DEFINITION. How a job leaves its core: retirement (01 R34), the end by fault or kill (13 R413; 10 R341), and what
they give back (12 R378, R392, R397). -/

namespace Sys2Proof.Machine

/-! The cluster's budget (12 R400). -/

/-- After a job has left a cluster, with its lease: BUD returns to 0 with the last one, and the target follows (12 R391,
R392, R400). -/
def State.settleBud (s : State) (cl : ClusterId) : State :=
  (if (coresOf cl).all fun c => (s.core c).job.isNone then s.modCluster cl fun k => { k with bud := 0 } else s).retarget cl

/-! A core returns to its dispatcher. -/

/-- Every request of core c leaves its plate. -/
def State.dropPower (s : State) (c : CoreId) : State :=
  s.modPlate (plateOf (clusterOf c)) fun p => { p with reqs := p.reqs.filter fun r => r.core ≠ c }

/-- A context with no stream, access or barrier left; its registers and its token FIFOs stay as they are (10 R327; 13 R413,
R428). -/
def emptied (x : Ctx) : Ctx :=
  let x1 := withdrawWaits x
  { x1 with str := x1.str.map fun r => { r with st := .idle, held := none, snap := [], done := none, rel := [], observed := [] },
            pend := [], sb := [], fences := [], trapping := none, cfences := [], bar := none,
            barAside := none, aside := none, asideDone := none, pacqSince := none }

/-- The core as it returns: the lease ends, the level and its units are given back, a deferral is over (12 R378, R392,
R397). -/
def freed (now : Nat) (k : Core) : Core :=
  { k with job := none, phase := .free, stopReq := none, freeSince := now, ctx := emptied k.ctx,
           lease := { k.lease with act := false }, pwr := ⟨0, false, false⟩,
           refresh := { k.refresh with act := false, prior := none, pendingTrap := none } }

/-- Core c returns to its dispatcher. -/
def State.freeCore (s : State) (c : CoreId) : State :=
  ((((s.dropPower c).modCore c (freed s.dev.ticks.toNat))).settleBud (clusterOf c)).passAll

/-- The queues of a cluster. -/
def copyUnits : List CopyUnit :=
  (upTo 8).map (fun i => CopyUnit.engine (Fin.ofNat 8 i)) ++ (upTo 8).map fun i => CopyUnit.column (Fin.ofNat 8 i)

/-- The commands of core c in one queue stop after their current units. -/
def State.stopCmds (s : State) (c : CoreId) (u : CopyUnit) : State :=
  let cl := clusterOf c
  let l := (s.cluster cl).cmds u
  ((upTo l.length).zip l).foldl (fun s p => if p.2.core = c then s.endUnit cl u p.1 p.2.buf.length else s) s

/-- Commands of core c leave the queues of its cluster, a running one after its current unit (10 R347). -/
def State.dropCmds (s : State) (c : CoreId) : State :=
  (copyUnits.foldl (fun s u => s.stopCmds c u) s).modCluster (clusterOf c) fun k =>
    { k with engines := k.engines.map fun q => q.filter fun d => d.core != c,
             columns := k.columns.map fun q => q.filter fun d => d.core != c }

/-- Key of a save slot (13 R419). -/
def Cluster.slotKey (k : Cluster) (n : Nat) : Nat := k.spbase.toNat * 2 ^ 21 + n * 0x1200000

/-- The STATE byte of a slot's header (13 R420). -/
def State.markSlot (s : State) (cl : ClusterId) (slot state : Nat) : State :=
  s.poke ((s.cluster cl).slotKey slot + 4) (leBytes 1 state)

/-- A save slot is freed, and its header says so. -/
def State.freeSlot (s : State) (cl : ClusterId) (slot : Nat) : State :=
  (s.markSlot cl slot 0).modCluster cl fun k => { k with slots := k.slots.filter fun p => p.1 != slot }

/-! The end of a job. -/

/-- Entries of the send buffer performed in order. -/
def drainSb (c : CoreId) : Nat → State → State
  | 0, s => s
  | n + 1, s =>
    match (s.ctx c).sb with
    | [] => s
    | b :: rest =>
      match b.amo, b.chunks with
      | some a, _ => drainSb c n (s.departAmo c 0 b a)
      | none, ch :: _ => drainSb c n (s.departChunk c 0 0 b ch)
      | none, [] => drainSb c n (s.modCtx c fun x => { x with sb := rest })

/-- Steps that empty a send buffer. -/
def sbSteps (x : Ctx) : Nat := (x.sb.map fun b => b.chunks.length + 1).foldl (· + ·) 0

/-- The context of core c's job: of one placed to be restored, the one its slot holds. -/
def State.jobCtx (s : State) (c : CoreId) : Ctx :=
  match (s.core c).phase with
  | .restoring cl slot => match (s.cluster (clusterAt cl)).slots.lookup slot with
    | some v => v.ctx
    | none => s.ctx c
  | _ => s.ctx c

/-- The record of a job that ends before S started: DISP, and neither NESTED nor NOVEC (13 R411). -/
def EndInfo.unstarted (e : EndInfo) : EndInfo := { e with disp := true, nested := false, novec := false, prior := 0, eng := 0 }

/-- What a job has seen, its commands included, as the release of its record passes it on (09 R310; 13 R411). -/
def State.jobSeen (s : State) (c : CoreId) : View :=
  ((s.cluster (clusterOf c)).allCmds.filter fun d => d.core == c).foldl (fun v d => v.join d.seen.everyForm) (s.jobCtx c).allSeen

/-- The job of core c is discarded, its token FIFOs emptied and its record queued (10 R327; 13 R413). -/
def State.discard (s : State) (e : EndInfo) (c : CoreId) : State :=
  match (s.core c).job with
  | none => s
  | some j =>
    let s0 := drainSb c (sbSteps (s.ctx c)) s
    let s1 := s0.dropCmds c
    let s2 := match (s.core c).phase with
      | .restoring cl slot => s1.freeSlot (clusterAt cl) slot
      | _ => s1
    let e1 := if (s.core c).phase = .placed then e.unstarted else e
    ((s2.jobRecord e1 j (s.ctx c).cr.jobid c.val (s0.jobSeen c)).modCtx c fun x =>
      { x with fifos := Vector.replicate 25 [] }).freeCore c

/-- PC of S of core c's job, as a record holds it: none before S started (13 R412). -/
def State.recordPc (s : State) (c : CoreId) : Nat :=
  if (s.core c).phase = .placed then noPc else ((s.jobCtx c).stream .s).pc.toNat

/-- The record of a gang member that another member's fault ends (10 R341; 13 R412). -/
def memberInfo (code : BitVec 8) (origin : Nat) (c : CoreId) (s : State) : EndInfo :=
  let e := EndInfo.blank s.dev.ticks.toNat
  { e with code := code, gang := true, info0 := plainInfo0 c (s.recordPc c) 0 true, info1 := BitVec.ofNat 64 origin }

/-- The host's halts that name one of some cores end with ERR 1 (13 R424). -/
def State.haltsLost (s : State) (cs : List CoreId) : State :=
  allClusters.foldl (fun s cl =>
    let k := s.cluster cl
    if k.jgo && fld k.jcmd.toNat 60 3 == 0 && cs.any (fun c => c.val == cl.val * 48 + fld k.jcmd.toNat 42 6) then
      (s.modCluster cl fun k => { k with jgo := false, jerr := 1 }).msi 3
    else s) s

/-- The jobs of some cores end, each with its record (13 R413). -/
def State.endSet (s : State) (ms : List CoreId) (f : CoreId → State → EndInfo) : State :=
  (ms.foldl (fun s d => s.discard (f d s) d) s).haltsLost ms

/-- The fabric group in which a job with some control registers takes part in BAR.D4: its DOMMASK4.GIDX (14 R441). -/
def Job.d4Group (j : Job) (r : CtlRegs) : Option Nat :=
  let m := vget r.dommask 3
  if j.tk.gang && m.getLsbD 8 then some (fld m.toNat 0 8) else none

/-- The fabric group of core c's job. -/
def State.d4Group (s : State) (c : CoreId) : Option Nat :=
  match (s.core c).job with
  | none => none
  | some j => j.d4Group (s.jobCtx c).cr

/-- The cores of this device whose gangs take part in a fabric group (10 R341; 14 R441). -/
def State.d4Members (s : State) (g : Nat) : List CoreId :=
  ((allCores.filter fun c => s.d4Group c == some g).map s.members).flatten.eraseDups

/-- The slots of saved jobs, pre-empted or halted, that take part in a fabric group (10 R341; 14 R441). -/
def State.d4Slots (s : State) (g : Nat) : List (ClusterId × Nat × Saved) :=
  (allClusters.map fun cl => ((s.cluster cl).slots.filter fun p =>
    p.2.state != 3 && p.2.job.d4Group p.2.ctx.cr == some g).map fun p => (cl, p.1, p.2)).flatten

/-- A saved job ends: its record is queued, its slot freed, and no resume list names it (10 R341; 13 R413). -/
def State.endSaved (s : State) (e : EndInfo) (v : ClusterId × Nat × Saved) : State :=
  let h := v.2.2
  ((s.jobRecord e h.job h.ctx.cr.jobid h.core.val h.ctx.allSeen).freeSlot v.1 v.2.1).modCluster h.job.qcl fun k =>
    { k with queues := vmod k.queues h.job.q.val fun u => { u with resume := u.resume.filter fun p => p != (v.1.val, v.2.1) } }

/-- The saved participants of a fabric group end with those on cores: the code and where it came from, and no core that they
run on (13 R412; 14 R441). -/
def State.endSlots (s : State) (g : Option Nat) (code : BitVec 8) (origin : Nat) : State :=
  match g with
  | none => s
  | some g => (s.d4Slots g).foldl (fun s v =>
      let e := EndInfo.blank s.dev.ticks.toNat
      s.endSaved { e with code := code, gang := true,
                          info0 := plainInfo0 v.2.2.core (v.2.2.ctx.stream .s).pc.toNat 0 true, info1 := BitVec.ofNat 64 origin } v) s

/-- Every job that ends with that of core c: its gang, and where it takes part in BAR.D4 every other of its fabric group
(10 R341; 14 R441). -/
def State.endGroup (s : State) (c : CoreId) : List CoreId :=
  let all := match s.d4Group c with
    | none => s.members c
    | some g => s.d4Members g
  c :: all.filter fun d => d != c

/-- The job of core c ends with a record, and with it every job of its group (10 R341; 13 R413). -/
def State.endAll (s : State) (e : EndInfo) (c : CoreId) : State :=
  (s.endSet (s.endGroup c) fun d s => if d = c then e else memberInfo e.code c.val d s).endSlots (s.d4Group c) e.code c.val

/-- JOB_END: the job of core c, stopped by a fault, is discarded with its gang (13 R413); during the remapping step, in which
its stores cannot be performed, it waits (11 R365). -/
def execJobEnd (c : CoreId) (s : State) : Host.Outcome State Fault Refusal :=
  .next (match (s.core c).phase with
    | .ending e => if s.dev.remapGo then s else s.endAll e c
    | _ => s)

/-! Retirement. -/

/-- Commands of core c stand in a queue of its cluster. -/
def State.hasCmds (s : State) (c : CoreId) : Bool := (s.cluster (clusterOf c)).allCmds.any fun d => d.core == c

/-- JOB_RETIREMENT: once its accesses are performed and its commands complete, the completion counter is incremented and
the core returns (01 R34). During the remapping step the increment waits (11 R365). -/
def execJobRetirement (c : CoreId) (s : State) : Host.Outcome State Fault Refusal :=
  let k := s.core c
  .next (match k.job with
    | none => s
    | some j =>
      if k.phase ≠ .retiring || unsettled k.ctx || !k.ctx.sb.isEmpty || s.hasCmds c || s.dev.remapGo then s
      else ((s.bumpCounter j.root j.tk.done j.tk.inc c.val (s.jobSeen c)).freeCore c).haltsLost [c])

/-- FABRIC_GROUP_END: a D4 participant on another device ended; every local participant of the group, on a core or saved, ends
with the code, the device and the core it came from (14 R441); during the remapping step it waits (11 R365). -/
def execFabricGroupEnd (dev : BitVec 8) (core : BitVec 11) (code : BitVec 8) (gidx : BitVec 8) (s : State) :
    Host.Outcome State Fault Refusal :=
  let origin := dev.toNat * 2 ^ 40 + core.toNat
  .next (if s.dev.remapGo then s
    else (s.endSet (s.d4Members gidx.toNat) (memberInfo code origin)).endSlots (some gidx.toNat) code origin)

end Sys2Proof.Machine
end

