-- ==== Sys2Proof/Machine/MStream.lean ====
section
/-! DEFINITION. Operand streams of M (06 R209–R212): the addresses of rows and scales, the checks of R223 and 08 R281 on
them, reading them, and the advance. -/

namespace Sys2Proof.Machine

/-- An integer as a 64-bit address. -/
def wrap64 (i : Int) : Nat := (i % ((2 ^ 64 : Nat) : Int)).toNat

/-- Bytes of an element, as the alignment of a row counts them (06 R223). -/
def unitBytes (fmt : Nat) : Nat :=
  if fmt = 0 ∨ fmt = 10 ∨ fmt = 13 ∨ fmt = 14 then 4 else if fmt = 1 ∨ fmt = 2 ∨ fmt = 9 ∨ fmt = 12 then 2 else 1

/-- An MX format. -/
def isMx (fmt : Nat) : Bool := decide (5 ≤ fmt) && decide (fmt ≤ 7)

/-- Elements of a tile row, K (06 R205). -/
def rowElems (fmt : Nat) : Nat := if fmt ≤ 2 then 32 else 64

/-- A(r): the address of row r from a base and displacement (06 R211). -/
def OStream.rowAddr (o : OStream) (space : Nat) (base : BitVec 48) (disp : Int) (r : Nat) : Nat :=
  wrap64 (base.toNat + disp + r * o.rowp.toInt + if space = 1 then ((64 * (o.rot.toNat * r % 16) : Nat) : Int) else 0)

/-- Address of a scale byte: A + SOFF + step × SSTR, plus the byte's index outside tower space (06 R211, R228). -/
def OStream.scaleAddr (o : OStream) (space : Nat) (base : BitVec 48) (disp : Int) (step idx : Nat) : Nat :=
  wrap64 (base.toNat + disp + o.soff.toInt + step * o.sstr.toNat + if space = 2 then 0 else (idx : Int))

/-- BASE after n advances (06 R212). -/
def OStream.advanced (o : OStream) (n : Nat) : BitVec 48 := o.base + BitVec.ofInt 48 (n * o.tilep.toInt)

/-- Stream j of a context. -/
def Ctx.os (x : Ctx) (j : Nat) : OStream := vget x.m.os (j - 32)

/-- Stream j advanced n tiles. -/
def advanceOs (j n : Nat) (x : Ctx) : Ctx :=
  { x with m := { x.m with os := vmod x.m.os (j - 32) fun o => { o with base := o.advanced n } } }

/-- One access of an M word at resolved places: the address as formed, its row, its pieces (06 R211, R223). -/
structure MAcc where
  addr : Nat
  row : Nat
  pieces : List Piece
  deriving DecidableEq, Repr, Inhabited

/-- The address fits its space (06 R223; the forms of 08 R265). -/
def MReq.fits (q : MReq) (space : Nat) : Bool :=
  if space = 0 then decide (q.addr + q.n ≤ 2 ^ 48) else if space = 1 then spForm q.addr q.n else decide (q.addr < 2 ^ 18)

/-- Bytes c .. of one row in tower space, byte c in the tower of lane c (06 R211): their places, or the code and, where
the tower is not available, its lane (11 R359). -/
def State.laneBytes (s : State) (c : CoreId) (off lane : Nat) : Nat → Checked × Option Nat
  | 0 => (.ok ⟨[]⟩, none)
  | n + 1 =>
    match s.laneBytes c off lane n with
    | (.bad code, l) => (.bad code, l)
    | (.ok r, _) =>
      match s.towerRef c (lane + n) off 1 with
      | .bad code => (.bad code, if code = 0x12 then some (lane + n) else none)
      | .ok q => (.ok ⟨r.pieces ++ q.pieces⟩, none)

/-- The checks of one access (06 R223, 08 R281), with the lane of a tower that is not available. -/
def State.mRef (s : State) (c : CoreId) (space : Nat) (use : Use) (ordered : Bool) (side : Side) (q : MReq) :
    (Checked × Option Nat) × State :=
  if !q.fits space then ((.bad 0x05, none), s)
  else if space = 2 then (s.laneBytes c q.addr q.lane q.n, s)
  else if q.addr % q.unit ≠ 0 then ((.bad 0x06, none), s)
  else if space = 1 then ((spRef c q.addr q.n, none), s)
  else
    let r := s.globalRef c (s.rootOf c) q.addr q.n use ordered side
    ((r.1, none), r.2)

/-- LANE of the fault of an access: its row (06 R223); where a tower is not available, its row or that tower's lane, of which
the rules name both (11 R359; DESIGN CHOICE, log entry 41). -/
def State.faultLane (s : State) (row : Nat) : Option Nat → Nat × State
  | none => (row, s)
  | some l => let (byRow, s1) := s.drawBool; (if byRow then row else l, s1)

/-- The checks of accesses in order: the places, or the first fault with its address and its LANE (06 R223). -/
def State.mRefs (s : State) (c : CoreId) (space : Nat) (use : Use) (ordered : Bool) (side : Side) (opnd : Nat) :
    List MReq → Except Trap (List MAcc) × State
  | [] => (.ok [], s)
  | q :: qs =>
    match s.mRef c space use ordered side q with
    | ((.bad code, l), s1) =>
      let r := s1.faultLane q.row l
      (.error (accessFault code q.addr (some r.1) opnd), r.2)
    | ((.ok r, _), s1) =>
      match s1.mRefs c space use ordered side opnd qs with
      | (.error t, s2) => (.error t, s2)
      | (.ok as, s2) => (.ok (⟨q.addr, q.row, r.pieces⟩ :: as), s2)

/-- The rows of a tile: n rows of some bytes. -/
def OStream.rows (o : OStream) (space : Nat) (base : BitVec 48) (disp : Int) (rows bytes : Nat) : List MReq :=
  (upTo rows).map fun r => ⟨o.rowAddr space base disp r, r, bytes, 0, unitBytes o.fmt.toNat⟩

/-- The scale bytes of the 32 rows of a tile of an MX format, blocks along a row (06 R211). -/
def OStream.scales (o : OStream) (space : Nat) (base : BitVec 48) (disp : Int) : List MReq :=
  if isMx o.fmt.toNat then
    ((upTo 32).map fun r => (upTo 2).map fun b => (⟨o.scaleAddr space base disp r b, r, 1, b, 1⟩ : MReq)).flatten
  else []

/-- The scale bytes of a transposed tile: byte 2i + b at A + SOFF + b × SSTR + i, from lane i in tower space (06 R228). -/
def OStream.scalesT (o : OStream) (space : Nat) (base : BitVec 48) (disp : Int) : List MReq :=
  if isMx o.fmt.toNat then
    ((upTo 32).map fun i => (upTo 2).map fun b => (⟨o.scaleAddr space base disp b i, i, 1, i, 1⟩ : MReq)).flatten
  else []

/-- A fault of a stream field or of a row address that does not fit: the operand is named (06 R223). -/
def streamFault (opnd : Nat) : Trap := { flt 0x02 with opnd := some opnd }

/-! Reading. -/

/-- An access as a reference. -/
def MAcc.ref (a : MAcc) : Ref := ⟨a.pieces⟩

/-- Some access must wait for an earlier one of M's stream. -/
def State.mHold (s : State) (c : CoreId) (as : List MAcc) : Bool := as.any fun a => s.mustHold (s.ctx c) .m a.ref

/-- The bytes of accesses to SO pages that a waiting word has read, in order. -/
def snapReads (l : List Snap) : List (List Byte) := l.filterMap fun q => match q with | .read _ bs => some bs | _ => none

/-- The pieces of some accesses on SO pages, each with its access. -/
def soReads (as : List MAcc) : List (MAcc × Piece) := (as.map fun a => (a.pieces.filter (·.so)).map fun p => (a, p)).flatten

/-- A word that reads several pieces of SO pages reads all but the last of them one at a time, so that other accesses can
come between in the one order of such accesses (09 R306): what it comes to while such a read is left, and nothing once it
may do the rest. One that meets uncorrectable data does, and faults there. -/
def State.captureNext (s : State) (c : CoreId) (acq : Nat) (as : List MAcc) : Option Out :=
  let x := s.ctx c
  let l := soReads as
  let n := (snapReads (x.stream .m).snap).length
  if l.length ≤ n + 1 then none
  else match l[n]? with
    | none => none
    | some (a, p) =>
      if (s.refBadFor x .m x.seq a.ref).isSome then none
      else if s.mustHold x .m ⟨[p]⟩ then some .wait
      else
        let r := s.readPiece c .m x.seq acq p
        some (.hold (r.2.modCtx c fun y => y.modStream .m fun t => { t with snap := t.snap ++ [.read (s.spanOf p) r.1] }))

/-- The next of those reads, and the word's record of it gone. -/
def State.takeRead (s : State) (c : CoreId) (n : Nat) : Option (List Byte × State) :=
  match ((s.ctx c).stream .m).snap with
  | .read _ bs :: rest =>
    if bs.length = n then some (bs, s.modCtx c fun x => x.modStream .m fun t => { t with snap := rest }) else none
  | _ => none

/-- Pieces read by M's word in order, those of SO pages as it has read them before. -/
def State.mPieces (s : State) (c : CoreId) (acq : Nat) : List Piece → List Byte × State
  | [] => ([], s)
  | p :: ps =>
    let r := ((if p.so then s.takeRead c p.n else none).getD (s.readPiece c .m (s.ctx c).seq acq p))
    let rest := r.2.mPieces c acq ps
    (r.1 ++ rest.1, rest.2)

/-- The bytes of accesses, each a read of its own, an acquire at a scope where that is not 0; or the fault of the first
that meets uncorrectable data (06 R223). -/
def State.mRead (s : State) (c : CoreId) (acq : Nat) : List MAcc → Except Trap (List (List Byte)) × State
  | [] => (.ok [], s)
  | a :: as =>
    match s.refBadFor (s.ctx c) .m (s.ctx c).seq a.ref with
    | some code => (.error { fltAddr code a.addr with lane := some a.row }, s)
    | none =>
      let r := s.mPieces c acq a.pieces
      match (r.2.touchRef c a.ref).mRead c acq as with
      | (.error t, s1) => (.error t, s1)
      | (.ok bs, s1) => (.ok (r.1 :: bs), s1)

end Sys2Proof.Machine
end

