-- ==== Sys2Proof/Machine/MAcc.lean ====
section
/-! DEFINITION. Tiles and accumulators of M: elements, the k-groups of an MMA, checksums and their check, the command
window and replay (06 R205–R208, R213, R214, R216–R221; 02 R72, R75). -/

namespace Sys2Proof.Machine

/-- A tile: its 32 rows and its 64 scale bytes. -/
structure Tile where
  rows : Vector (BitVec 512) 32
  scales : BitVec 512
  deriving DecidableEq, Repr, Inhabited

/-- Tile t of M. -/
def MState.tile (m : MState) (t : Nat) : Tile := ⟨vget m.tiles t, vget m.scales t⟩

/-- Element k of row r in a format (06 R205). -/
def Tile.elem (t : Tile) (fmt r k : Nat) : Ext :=
  let row := (vget t.rows r).toNat
  let scale := fld t.scales.toNat (8 * (2 * r + k / 32)) 8
  if fmt ≤ 2 then (ffmtOf fmt).val (fld row (16 * k) 16)
  else if fmt ≤ 4 then (ffmtOf fmt).val (fld row (8 * k) 8)
  else mxVal fmt (fld row (mxBits fmt * k) (mxBits fmt)) scale

/-- Element k of row r of an operand of one tile, or of a pair covering dense K (06 R214). -/
def opElem (fmt : Nat) (ts : List Tile) (r k : Nat) : Ext :=
  (ts.getD (k / rowElems fmt) default).elem fmt r (k % rowElems fmt)

/-- The kept positions of group g of row i under a seed (06 R213). -/
def keptPair (seed : W32) (i g : Nat) : Nat × Nat :=
  let x := seed + BitVec.ofNat 32 (256 * i + g)
  let y := x * 0x2C1B3C6D
  let z := y ^^^ (y >>> 16)
  let c := z.toNat * 6 / 2 ^ 32
  if c = 0 then (0, 1) else if c = 1 then (0, 2) else if c = 2 then (0, 3) else if c = 3 then (1, 2)
  else if c = 4 then (1, 3) else (2, 3)

/-- The terms of k-group g for element (i, j): the products, negated for MMAS, and +0 for each dropped position (02
R75). -/
def groupTerms (neg : Bool) (seed : Option W32) (a b : Nat → Nat → Ext) (i j g : Nat) : List Ext :=
  let prod (p q : Nat) : Ext := let r := (a i p).mul (b j q); if neg then r.neg else r
  match seed with
  | none => (upTo 4).map fun k => prod (4 * g + k) (4 * g + k)
  | some sd =>
    let (p, q) := keptPair sd i g
    [prod (2 * g) (4 * g + p), prod (2 * g + 1) (4 * g + q), .zero false, .zero false]

/-- One element after the k-groups in ascending order, each rounded once (02 R75, 06 R224). -/
def accumulate (neg : Bool) (seed : Option W32) (a b : Nat → Nat → Ext) (i j : Nat) (c : W32) : List Nat → W32
  | [] => c
  | g :: gs =>
    accumulate neg seed a b i j (rne32 ((groupTerms neg seed a b i j g).foldl Ext.add (val32 c))) gs

/-! Accumulators. -/

/-- An accumulator's 33 × 33 patterns. -/
abbrev Acc := Vector W32 1089

/-- Pattern (i, j). -/
def pat (a : Acc) (i j : Nat) : W32 := vget a (33 * i + j)

/-- Sum of 32 patterns. -/
def sum32 (f : Nat → W32) : W32 := (upTo 32).foldl (fun t k => t + f k) 0

/-- Every result element written: the checksums advance by new − old (06 R207). -/
def accWrite (a : Acc) (new : Nat → Nat → W32) : Acc :=
  let t : Vector W32 1024 := Vector.ofFn fun k => new (k.val / 32) (k.val % 32)
  let d (i j : Nat) : W32 := vget t (32 * i + j) - pat a i j
  Vector.ofFn fun k =>
    let i := k.val / 33
    let j := k.val % 33
    if i < 32 ∧ j < 32 then vget t (32 * i + j)
    else if i < 32 then pat a i j + sum32 fun q => d i q
    else if j < 32 then pat a i j + sum32 fun q => d q j
    else pat a i j + sum32 fun q => sum32 fun p => d p q

/-- An accumulator of zeros. -/
def accZero : Acc := Vector.replicate 1089 0

/-- What the check of 06 R208 finds. -/
inductive AccCheck where
  | clean
  | fixed (a : Acc)
  | bad
  deriving DecidableEq, Repr

/-- Row test i and column test j of 06 R208. -/
def rowTest (a : Acc) (i : Nat) : W32 := sum32 (fun j => pat a i j) - pat a i 32
def colTest (a : Acc) (j : Nat) : W32 := sum32 (fun i => pat a i j) - pat a 32 j

/-- The check of 06 R208. -/
def checkAcc (a : Acc) : AccCheck :=
  match (upTo 33).filter fun i => rowTest a i != 0, (upTo 33).filter fun j => colTest a j != 0 with
  | [], [] => .clean
  | [i], [j] =>
    let byRow := if j = 32 then pat a i j + rowTest a i else pat a i j - rowTest a i
    let byCol := if i = 32 then pat a i j + colTest a j else pat a i j - colTest a j
    if byRow = byCol then .fixed (vset a (33 * i + j) byRow) else .bad
  | _, _ => .bad

/-- The accumulators a command on a_n acts on: a_(n+4) too under RED (06 R221). -/
def MState.halves (m : MState) (n : Nat) : List Nat := if m.red then [n, n + 4] else [n]

/-- a_n and its shadow zeroed. -/
def MState.zeroAcc (m : MState) (n : Nat) : MState :=
  { m with acc := (m.halves n).foldl (fun v k => vset v k accZero) m.acc }

/-- An MMA on operands already read (06 R224). -/
def MState.runMma (m : MState) (neg clr : Bool) (seed : Option W32) (n fa fb : Nat) (a b : List Tile) : MState :=
  let m1 := if clr then m.zeroAcc n else m
  let groups := rowElems fa * (if seed.isSome then 2 else 1) / 4
  let new (c : Acc) (i j : Nat) : W32 :=
    accumulate neg seed (opElem fa a) (opElem fb b) i j (pat c i j) (upTo groups)
  { m1 with acc := (m1.halves n).foldl (fun v k => vset v k (accWrite (vget v k) (new (vget v k)))) m1.acc }

/-! The command window (06 R216). -/

/-- Entries the window keeps. -/
def windowDepth : Nat := 64

/-- A command entered; the entry pushed out takes its markers with it. -/
def MState.enter (m : MState) (c : WinCmd) : MState :=
  let w := m.window ++ [⟨m.serial, c⟩]
  let m1 := { m with serial := m.serial + 1 }
  match decide (windowDepth < w.length), w with
  | true, e :: rest =>
    { m1 with window := rest, marker := m.marker.map fun k => if k = some e.serial then none else k }
  | _, _ => { m1 with window := w }

/-- The sequence of a_n: the entries after its marker (06 R217). -/
def MState.sequence (m : MState) (n : Nat) : Option (List WinCmd) :=
  (vget m.marker n).map fun k => (m.window.filter fun e => decide (k < e.serial)).map (·.cmd)

/-- Tiles an entry writes. -/
def WinCmd.writes : WinCmd → List Nat
  | .load t _ _ _ _ _ => [t]
  | .drain t => [t]
  | _ => []

/-- Tiles an operand reads. -/
def OpWant.reads : OpWant → List Nat
  | .tiles ts => ts
  | .mem _ _ => []

/-- Every tile an MMA into a_n reads was loaded earlier in the sequence and not drained into since, or is written by none
of it (06 R218, R227). -/
def replayable (n : Nat) (written : List Nat) : List WinCmd → List Nat → Bool
  | [], _ => true
  | .load t _ _ _ _ _ :: es, loaded => replayable n written es (t :: loaded)
  | .drain t :: es, loaded => replayable n written es (loaded.filter fun k => k != t)
  | .mma _ _ _ a _ _ _ p q :: es, loaded =>
    (a != n || (p.reads ++ q.reads).all fun t => loaded.contains t || !written.contains t)
      && replayable n written es loaded
  | _ :: es, loaded => replayable n written es loaded

/-! Reading operands. -/

/-- An operand of an MMA at resolved places: tile registers, or tiles in memory as the accesses of their rows and of their
scale bytes. -/
inductive OpSrc where
  | tiles (ts : List Nat)
  | mem (ts : List (List MAcc × List MAcc))
  deriving DecidableEq, Repr, Inhabited

/-- The accesses of an operand, in order. -/
def OpSrc.accs : OpSrc → List MAcc
  | .tiles _ => []
  | .mem ts => (ts.map fun t => t.1 ++ t.2).flatten

/-- The operand is fetched from memory. -/
def OpSrc.fetches : OpSrc → Bool
  | .tiles _ => false
  | .mem _ => true

/-- The checks of the accesses of an operand. -/
def State.opTiles (s : State) (c : CoreId) (space opnd : Nat) :
    List (List MReq × List MReq) → Except Trap (List (List MAcc × List MAcc)) × State
  | [] => (.ok [], s)
  | (rs, ss) :: rest =>
    match s.mRefs c space .read false .visible opnd (rs ++ ss) with
    | (.error t, s1) => (.error t, s1)
    | (.ok as, s1) =>
      match s1.opTiles c space opnd rest with
      | (.error t, s2) => (.error t, s2)
      | (.ok ts, s2) => (.ok ((as.take rs.length, as.drop rs.length) :: ts), s2)

/-- The checks of an operand. -/
def State.opRefs (s : State) (c : CoreId) (w : OpWant) (opnd : Nat) : Except Trap OpSrc × State :=
  match w with
  | .tiles ts => (.ok (.tiles ts), s)
  | .mem space ts =>
    match s.opTiles c space opnd ts with
    | (.error t, s1) => (.error t, s1)
    | (.ok r, s1) => (.ok (.mem r), s1)

/-- Sites of the words of a tile. -/
def tileSites (t : Nat) : List Site := ((upTo 32).map fun r => (upTo 8).map fun w => Site.tile t r w).flatten

/-- Lowest row of a tile with an uncorrectable word (06 R206). -/
def badRow (x : Ctx) (t : Nat) : Option Nat :=
  if x.errs = [] then none
  else (upTo 32).find? fun r => (upTo 8).any fun w => siteMark x.errs (.tile t r w) == .double

/-- What reading an operand, or redoing an entry, comes to; `mem` says that an uncorrectable tile was read. -/
inductive MRes (α : Type) where
  | ok (v : α) (bad : Bool) (s : State)
  | wait
  | fault (t : Trap) (s : State)

/-- A tile of bytes from memory: rows of 64 bytes and 64 scale bytes, 0x7F each where there are none. -/
def tileOf (rows : List (List Byte)) (scales : List Byte) : Tile :=
  { rows := Vector.ofFn fun r => BitVec.ofNat 512 (leNat (rows.getD r.val [])),
    scales := BitVec.ofNat 512 (leNat (if scales = [] then List.replicate 64 0x7F else scales)) }

/-- The tiles of an operand read from memory. -/
def State.readTiles (s : State) (c : CoreId) : List (List MAcc × List MAcc) → Except Trap (List Tile) × State
  | [] => (.ok [], s)
  | (rs, ss) :: rest =>
    match s.mRead c 0 (rs ++ ss) with
    | (.error t, s1) => (.error t, s1)
    | (.ok bs, s1) =>
      match s1.readTiles c rest with
      | (.error t, s2) => (.error t, s2)
      | (.ok ts, s2) => (.ok (tileOf (bs.take rs.length) (bs.drop rs.length).flatten :: ts), s2)

/-- An operand's tiles (06 R206, R224). -/
def State.readOp (s : State) (c : CoreId) (o : OpSrc) : MRes (List Tile) :=
  match o with
  | .tiles ts =>
    let x := s.ctx c
    .ok (ts.map x.m.tile) (ts.any fun t => (badRow x t).isSome)
      (if x.errs = [] then s else s.correct c (ts.map tileSites).flatten)
  | .mem ts =>
    if ts.any fun t => s.mHold c (t.1 ++ t.2) then .wait
    else match s.readTiles c ts with
      | (.error t, s1) => .fault t s1
      | (.ok v, s1) => .ok v false s1

/-- M's state changed by f. -/
def State.modM (s : State) (c : CoreId) (f : MState → MState) : State := s.modCtx c fun x => { x with m := f x.m }

/-- Both operands read and an MMA made. -/
def State.doMma (s : State) (c : CoreId) (neg clr sparse : Bool) (n fa fb : Nat) (seed : W32) (a b : OpSrc) :
    MRes Unit :=
  match s.readOp c a with
  | .wait => .wait
  | .fault t s1 => .fault t s1
  | .ok ta bad1 s1 =>
    match s1.readOp c b with
    | .wait => .wait
    | .fault t s2 => .fault t s2
    | .ok tb bad2 s2 =>
      .ok () (bad1 || bad2)
        (s2.modM c fun m => m.runMma neg clr (if sparse then some seed else none) n fa fb ta tb)

/-- The rows of a transposed tile (06 R228): from 64 rows of 32 bytes, or 32 rows of 32 two-byte elements. -/
def transposed (fmt : Nat) (rows : List (List Byte)) : List (List Byte) :=
  let n := if fmt ≤ 2 then 2 else 1
  (upTo 32).map fun i => (rows.map fun r => (r.drop (n * i)).take n).flatten

/-- A tile written whole with fresh codes; its scales too where some were read. -/
def writeTile (t : Nat) (v : Tile) (scaled : Bool) (x : Ctx) : Ctx :=
  { x with m := { x.m with tiles := vset x.m.tiles t v.rows,
                           scales := if scaled then vset x.m.scales t v.scales else x.m.scales },
           errs := x.errs.filter fun e => match e.1 with | .tile k _ _ => k != t | _ => true }

/-- MTLD or MTLDT at resolved places (06 R228), an acquire at a scope where that is not 0. -/
def State.doLoad (s : State) (c : CoreId) (acq t : Nat) (trans : Bool) (fmt : Nat) (rows scales : List MAcc) :
    MRes Unit :=
  if s.mHold c (rows ++ scales) then .wait
  else match s.mRead c acq (rows ++ scales) with
    | (.error e, s1) => .fault e s1
    | (.ok bs, s1) =>
      let rs := bs.take rows.length
      let v := tileOf (if trans then transposed fmt rs else rs) (bs.drop rows.length).flatten
      .ok () false (s1.modCtx c (writeTile t v (!scales.isEmpty)))

/-! Replay (06 R219). -/

/-- One entry redone for a_n on its retained addresses, whose places are found and checked anew (DESIGN CHOICE, log entry
97). -/
def State.redo (s : State) (c : CoreId) (n : Nat) (e : WinCmd) : MRes Unit :=
  match e with
  | .load t tr fmt space rows scales =>
    match s.mRefs c space .read false .visible 0 (rows ++ scales) with
    | (.error f, s1) => .fault f s1
    | (.ok as, s1) => s1.doLoad c 0 t tr fmt (as.take rows.length) (as.drop rows.length)
  | .mzero a => .ok () false (if a = n then s.modM c fun m => m.zeroAcc n else s)
  | .mma neg clr sparse a fa fb seed p q =>
    if a ≠ n then .ok () false s
    else match s.opRefs c p 0 with
      | (.error f, s1) => .fault f s1
      | (.ok u, s1) =>
        match s1.opRefs c q 1 with
        | (.error f, s2) => .fault f s2
        | (.ok v, s2) => s2.doMma c neg clr sparse n fa fb seed u v
  | _ => .ok () false s

/-- The entries of a sequence redone, oldest first. -/
def State.redoAll (s : State) (c : CoreId) (n : Nat) : List WinCmd → Bool → MRes Unit
  | [], bad => .ok () bad s
  | e :: es, bad =>
    match s.redo c n e with
    | .ok _ b s1 => s1.redoAll c n es (bad || b)
    | r => r

/-- The check of a_n, of its shadow, and their comparison: whether it is clean, with corrections made and counted (06
R208, R221). -/
def State.checkOne (s : State) (c : CoreId) (n : Nat) : Bool × State :=
  match checkAcc (vget (s.ctx c).m.acc n) with
  | .clean => (true, s)
  | .fixed a => (true, (s.modM c fun m => { m with acc := vset m.acc n a }).count c 10 1)
  | .bad => (false, s)

def State.checkBoth (s : State) (c : CoreId) (n : Nat) : Bool × State :=
  let r := s.checkOne c n
  if !(s.ctx c).m.red then r
  else
    let q := r.2.checkOne c (n + 4)
    let m := (q.2.ctx c).m
    (r.1 && q.1 && decide (vget m.acc n = vget m.acc (n + 4)), q.2)

/-- A fault that names an accumulator or a tile (06 R218–R220). -/
def accFault (code n : Nat) : Trap := { flt code with reg := some n }

/-- Rows of a_n that the check finds at fault, under RED those of its shadow and those in which the two differ (06 R208,
R221). -/
def MState.faultRows (m : MState) (n : Nat) : List Nat :=
  let a := vget m.acc n
  let b := vget m.acc (n + 4)
  (upTo 33).filter fun i =>
    rowTest a i != 0 || m.red && (rowTest b i != 0 || (upTo 33).any fun j => pat a i j != pat b i j)

/-- Rows of the tiles that an operand reads with an uncorrectable word (06 R206). -/
def tileFaultRows (x : Ctx) (ts : List Nat) : List Nat :=
  if x.errs = [] then []
  else (ts.map fun t => (upTo 32).filter fun r => (upTo 8).any fun w => siteMark x.errs (.tile t r w) == .double).flatten

/-- Tiles that the newest window entry reads: those of the MMA that started a replay. -/
def MState.newest (m : MState) : List Nat :=
  match m.window.getLast? with
  | some ⟨_, .mma _ _ _ _ _ _ _ p q⟩ => p.reads ++ q.reads
  | _ => []

/-- A replay that is impossible, or one too many: the accumulator, and the row when one is at fault (06 R219, R220), of the
accumulator or, under an MMA that has read uncorrectable data, of the tiles it read (06 R206). -/
def replayFault (code n : Nat) (x : Ctx) : Trap :=
  let rows := x.m.faultRows n ++ tileFaultRows x x.m.newest
  { accFault code n with lane := match rows.eraseDups with | [i] => some i | _ => none }

/-- Replays of a_n until its check is clean (06 R219); none exceeds two. -/
def State.replay (s : State) (c : CoreId) (n : Nat) : Nat → MRes Unit
  | 0 => .fault (replayFault 0x15 n (s.ctx c)) s
  | fuel + 1 =>
    let m := (s.ctx c).m
    if vget m.replays n = 2 then .fault (replayFault 0x15 n (s.ctx c)) s
    else match m.sequence n with
      | none => .fault (replayFault 0x14 n (s.ctx c)) s
      | some es =>
        if !replayable n (es.map WinCmd.writes).flatten es [] then .fault (replayFault 0x14 n (s.ctx c)) s
        else
          let s1 := (s.modM c fun m => { m.zeroAcc n with replays := vmod m.replays n (· + 1) }).count c 11 1
          match s1.redoAll c n es false with
          | .wait => .wait
          | .fault t s2 => .fault t s2
          | .ok _ bad s2 =>
            if bad then s2.replay c n fuel
            else
              let r := s2.checkBoth c n
              if r.1 then .ok () false r.2 else r.2.replay c n fuel

/-- The check of a_n with the replays it needs (06 R208, R219). -/
def State.settleAcc (s : State) (c : CoreId) (n : Nat) : MRes Unit :=
  let r := s.checkBoth c n
  if r.1 then .ok () false r.2 else r.2.replay c n 3

/-- The state a word that faults leaves (13 R405): as before its effects, s, but for the corrections and counts that its
reads and replays up to then have made, s1. -/
def State.undone (s s1 : State) (c : CoreId) : State :=
  { s with memErr := s1.memErr, draw := s1.draw }.modCtx c fun x =>
    { x with cr := { x.cr with pmc := (s1.ctx c).cr.pmc } }

end Sys2Proof.Machine
end

