-- ==== Sys2Proof/Machine/MMat.lean ====
section
/-! DEFINITION. MMA, MMAS, zeroing, markers, checks and drains (06 R215, R221, R224–R227; 12 R388; 13 R407). -/

namespace Sys2Proof.Machine

/-- Level an MMA of a format needs (06 R215). -/
def mmaLevel (fmt : Nat) : Nat := if fmt = 3 ∨ fmt = 4 ∨ fmt = 6 ∨ fmt = 7 then 2 else 1

/-- Heat tokens an MMA takes (06 R215). -/
def mmaTokens (fmt : Nat) (sparse red : Bool) : Nat :=
  let dense := if fmt = 6 then 3 else if mmaLevel fmt = 2 then 4 else 2
  let n := if sparse then (if mmaLevel fmt = 2 then 2 else 1) else dense
  if red then 2 * n else n

/-- Operand named by a register code, with its format: a pair of tiles for B under `.sp24` (06 R214, R224); the fault of
R223 where a stream field or row does not fit. GEO is MTLDT's field and has no effect here (06 R209, R228; DESIGN CHOICE,
log entry 106). -/
def opWant (x : Ctx) (code : Nat) (fmt : Nat) (pair : Bool) (opnd : Nat) : Except Trap (Nat × OpWant) :=
  if code < 16 then .ok (fmt, .tiles (if pair then [code, code + 1] else [code]))
  else
    let o := x.os code
    let sp := o.space.toNat
    let tile (base : BitVec 48) : List MReq × List MReq := (o.rows sp base 0 32 64, o.scales sp base 0)
    let ts := tile o.base :: if pair then [tile (o.advanced 1)] else []
    if sp = 3 || !mmaFmt1 o.fmt.toNat || ts.any (fun t => t.1.any fun q => !q.fits sp) then .error (streamFault opnd)
    else .ok (o.fmt.toNat, .mem sp ts)

/-- The advance a named stream makes (06 R212). -/
def opAdvance (code : Nat) (pair : Bool) (x : Ctx) : Ctx :=
  if code < 16 then x else advanceOs code (if pair then 2 else 1) x

/-- The operands of an MMA, and the state of the streams after both advances. -/
structure MmaOps where
  fa : Nat
  a : OpWant
  fb : Nat
  b : OpWant
  seed : W32
  after : Ctx

/-- The operands, in the order of 13 R407, row 2. -/
def mmaOps (f : FMma) (x : Ctx) : Except Trap MmaOps :=
  let sparse := f.spar == 1
  let ca := f.fa.toNat
  let cb := f.fb.toNat
  if x.m.red && decide (4 ≤ f.fd.toNat) then .error (flt 0x02)
  else if sparse && decide (cb < 16) && cb % 2 == 1 then .error (flt 0x02)
  else match opWant x ca f.fmta.toNat false 0 with
    | .error t => .error t
    | .ok (fa, a) =>
      let x1 := opAdvance ca false x
      match opWant x1 cb f.fmtb.toNat sparse 1 with
      | .error t => .error t
      | .ok (fb, b) =>
        if !mmaPair fa fb then .error (streamFault (if cb < 16 then 0 else 1))
        else .ok ⟨fa, a, fb, b, if ca < 16 then x.m.tseed else (x.os ca).seed, opAdvance cb sparse x1⟩

/-- The result of work of core c's word on an accumulator as the word's effect; s is the state before the word's effects,
which a fault leaves (13 R405). -/
def mOut (c : CoreId) (s : State) (r : MRes Unit) : Out :=
  match r with
  | .ok _ _ s1 => .retire none s1
  | .wait => .wait
  | .fault t s1 => .fault t (s.undone s1 c)

/-- An MMA admitted and with its places known: the charge, the advances, the window entry, the sums, and a replay where
an uncorrectable tile was read (06 R206, R212, R215, R216). -/
def mmaRun (f : FMma) (neg : Bool) (o : MmaOps) (p q : OpSrc) (k : Wd) (s : State) : Out :=
  let n := f.fd.toNat
  let sparse := f.spar == 1
  let cost := mmaTokens o.fa sparse (s.ctx k.c).m.red
  match s.doMma k.c neg f.clr sparse n o.fa o.fb o.seed p q with
  | .wait => .wait
  | .fault t s1 => .fault t s1
  | .ok _ bad s1 =>
    let s2 := (s1.modCore k.c fun h => { h with tok := h.tok - cost }).modCtx k.c fun x =>
      { x with m := { x.m with os := o.after.m.os }.enter (.mma neg f.clr sparse n o.fa o.fb o.seed o.a o.b) }
    if bad then mOut k.c s (s2.replay k.c n 3) else .retire none s2

/-- MMA and MMAS in the order of 13 R407. -/
def mmaBody (f : FMma) (neg : Bool) (k : Wd) (s : State) : Out :=
  let h := s.core k.c
  match mmaOps f h.ctx with
  | .error t => .fault t s
  | .ok o =>
    if h.pwr.level < mmaLevel o.fa then .fault (flt 0x21) s
    else if h.tok < mmaTokens o.fa (f.spar == 1) h.ctx.m.red then .wait
    else match s.opRefs k.c o.a 0 with
      | (.error t, s1) => .fault t s1
      | (.ok p, s1) =>
        match s1.opRefs k.c o.b 1 with
        | (.error t, s2) => .fault t s2
        | (.ok q, s2) =>
          if sbFull h.ctx && (p.fetches || q.fetches) then .wait
          else match s2.captureNext k.c 0 (p.accs ++ q.accs) with
            | some w => w
            | none => mmaRun f neg o p q k s2

/-- M waits for heat tokens at an MMA (06 R215; 12 R402). -/
def heatShort (f : FMma) (h : Core) : Bool :=
  match mmaOps f h.ctx with
  | .error _ => false
  | .ok o => decide (mmaLevel o.fa ≤ h.pwr.level) && decide (h.tok < mmaTokens o.fa (f.spar == 1) h.ctx.m.red)

def execMma (f : FMma) (s : State) : Host.Outcome State Fault Refusal :=
  .next (issue .m f.w (mmaOk f) false (mmaBody f false) s)

def execMmas (f : FMma) (s : State) : Host.Outcome State Fault Refusal :=
  .next (issue .m f.w (mmaOk f) false (mmaBody f true) s)

/-! Zeroing, markers and checks (06 R225). -/

/-- a4–a7 may not be named under RED (06 R221). -/
def redBad (f : FMma) (x : Ctx) : Bool := x.m.red && decide (4 ≤ f.fd.toNat)

/-- A word on an accumulator: the redundant-mode rule, then its effect. -/
def accWord (f : FMma) (ok : Bool) (body : Nat → Wd → State → Out) (s : State) : State :=
  issue .m f.w ok false
    (fun k s => if redBad f (s.ctx k.c) then .fault (flt 0x02) s else body f.fd.toNat k s) s

/-- MZERO. -/
def execMzero (f : FMma) (s : State) : Host.Outcome State Fault Refusal :=
  .next (accWord f (maccOk f) (fun n k s => .retire none (s.modM k.c fun m => (m.zeroAcc n).enter (.mzero n))) s)

/-- The marker of a_n set at a new entry (06 R217). -/
def MState.mark (m : MState) (n : Nat) : MState :=
  let m1 := m.enter (.mts n)
  { m1 with marker := vset m1.marker n (some m.serial), replays := vset m1.replays n 0 }

/-- MTS. -/
def execMts (f : FMma) (s : State) : Host.Outcome State Fault Refusal :=
  .next (accWord f (maccOk f) (fun n k s => .retire none (s.modM k.c fun m => (m.zeroAcc n).mark n)) s)

/-- MCHK. -/
def execMchk (f : FMma) (s : State) : Host.Outcome State Fault Refusal :=
  .next (accWord f (maccOk f) (fun n k s => mOut k.c s (s.settleAcc k.c n)) s)

/-! Drains (06 R226, R227). -/

/-- Chunks of the rows of a drain or tile store, each element a write of its own. -/
def rowChunks (n : Nat) : List MAcc → List (List Byte) → List Chunk
  | a :: as, b :: bs => chunksOf (a.pieces.map fun p => cutPiece p n).flatten b ++ rowChunks n as bs
  | _, _ => []

/-- The last part of a drain: `.clr` zeroes the accumulator and clears its marker. -/
def drainClear (f : FMma) (m : MState) : MState :=
  if f.clr then { m.zeroAcc f.fd.toNat with marker := vset (m.zeroAcc f.fd.toNat).marker f.fd.toNat none } else m

/-- A drain to a stream: the address checks, the check of a_n, then the rows (06 R226); `rows` gives their bytes and M's
state after a stochastic conversion. They reach the hidden side of a publish entry that names the core and the stream, else
the visible side (09 R318, 11 R366). -/
def drainTo (f : FMma) (code count size opnd : Nat) (towers : Bool) (rows : MState → List (List Byte) × MState)
    (k : Wd) (s : State) : Out :=
  let x := s.ctx k.c
  let o := x.os code
  let sp := o.space.toNat
  let reqs := (upTo count).map fun r => (⟨o.rowAddr sp o.base 0 r, r, count * size, 0, size⟩ : MReq)
  if sp = 3 || reqs.any (fun q => !q.fits sp) then .fault (streamFault opnd) s
  else if sp = 2 && !towers then .fault (accessFault 0x05 (reqs.headD ⟨0, 0, 0, 0, 1⟩).addr (some 0) opnd) s
  else match s.mRefs k.c sp .write false (.drain k.c code) opnd reqs with
    | (.error t, s1) => .fault t s1
    | (.ok as, s1) =>
      if sbFull (s1.ctx k.c) then .wait
      else match s1.settleAcc k.c f.fd.toNat with
        | .wait => .wait
        | .fault t s2 => .fault t (s1.undone s2 k.c)
        | .ok _ _ s2 =>
          let r := rows (s2.ctx k.c).m
          let s3 := (s2.modM k.c fun _ => drainClear f r.2).modCtx k.c (advanceOs code 1)
          .retire none (s3.issueStore k.c .m 0 (rowChunks size as r.1))

/-- The patterns of rows 0 .. n − 1, columns 0 .. n − 1. -/
def patRows (a : Acc) (n : Nat) : List (List Byte) :=
  (upTo n).map fun r => ((upTo n).map fun j => leBytes 4 (pat a r j).toNat).flatten

/-- MDRAIN; a tower stream is refused with 0x05 (06 R226). -/
def execMdrain (f : FMma) (s : State) : Host.Outcome State Fault Refusal :=
  .next (accWord f (mdrainOk f)
    (fun n k s =>
      let count := if f.fb = 1 then 33 else 32
      drainTo f f.fa.toNat count 4 0 false (fun m => (patRows (vget m.acc n) count, m)) k s) s)

/-- Bytes of a drain format. -/
def drainBytes (f : FMma) : Nat := if f.fmta.toNat ≤ 2 then 2 else 1

/-- One row of a conversion: element by element, the generator advancing under rm 4 (06 R227). -/
def convertRow (f : FMma) (a : Acc) (r : Nat) : List Nat → W32 → List Byte × W32
  | [], g => ([], g)
  | j :: js, g =>
    let g1 := if f.rm = 4 then lfsrStep g else g
    let rm := if f.rm = 4 then Rm.rsto (g1.toNat % 65536) else Rm.ofCode f.rm.toNat
    let v := (ffmtOf f.fmta.toNat).round rm f.sat (val32 (pat a r j))
    let rest := convertRow f a r js g1
    (leBytes (drainBytes f) v ++ rest.1, rest.2)

/-- The rows of a conversion, ascending. -/
def convertRows (f : FMma) (a : Acc) : List Nat → W32 → List (List Byte) × W32
  | [], g => ([], g)
  | r :: rs, g =>
    let q := convertRow f a r lanes32 g
    let rest := convertRows f a rs q.2
    (q.1 :: rest.1, rest.2)
where lanes32 : List Nat := upTo 32

/-- The converted results of a_n and M's state after them. -/
def convertAcc (f : FMma) (n : Nat) (m : MState) : List (List Byte) × MState :=
  let r := convertRows f (vget m.acc n) (upTo 32) m.lfsr
  (r.1, { m with lfsr := r.2 })

/-- Bytes lo .. of a tile row replaced. -/
def putRow (old : BitVec 512) (lo : Nat) (bs : List Byte) : BitVec 512 :=
  let n := 8 * bs.length
  let keep := old &&& ~~~ (BitVec.ofNat 512 ((2 ^ n - 1) * 2 ^ (8 * lo)))
  keep ||| BitVec.ofNat 512 (leNat bs * 2 ^ (8 * lo))

/-- Rows of bytes written into a tile from byte lo on; the words written take fresh codes (06 R227). -/
def drainTile (t lo : Nat) (rows : List (List Byte)) (x : Ctx) : Ctx :=
  let n := (rows.headD []).length
  let old := vget x.m.tiles t
  { x with m := { x.m with tiles := vset x.m.tiles t
                             (Vector.ofFn fun r => putRow (old.get r) lo (rows.getD r.val [])) },
           errs := x.errs.filter fun e =>
             match e.1 with | .tile k _ w => !(k == t && decide (lo / 8 ≤ w) && decide (w < (lo + n) / 8)) | _ => true }

/-- MDRAINT (06 R227). -/
def execMdraint (f : FMma) (s : State) : Host.Outcome State Fault Refusal :=
  .next (accWord f (mdraintOk f)
    (fun n k s =>
      if f.fb.toNat < 16 then
        match s.settleAcc k.c n with
        | .wait => .wait
        | .fault t s1 => .fault t (s.undone s1 k.c)
        | .ok _ _ s1 =>
          let r := convertAcc f n (s1.ctx k.c).m
          let lo := if drainBytes f = 1 then 32 * f.fa.toNat else 0
          .retire none (s1.modCtx k.c fun x =>
            let y := drainTile f.fb.toNat lo r.1 { x with m := r.2 }
            { y with m := drainClear f (y.m.enter (.drain f.fb.toNat)) })
      else drainTo f f.fb.toNat 32 (drainBytes f) 1 true (convertAcc f n) k s) s)

end Sys2Proof.Machine
end

