-- ==== Sys2Proof/Machine/MMem.lean ====
section
/-! DEFINITION. Tile and descriptor memory words of M (06 R210, R228). -/

namespace Sys2Proof.Machine

/-- The rows and the scales of a tile that a load reads (06 R211, R228). -/
def loadReqs (f : FMem) (trans : Bool) (o : OStream) : List MReq × List MReq :=
  let sp := f.space.toNat
  let d := f.disp.toInt
  let wide := !trans || decide (o.fmt.toNat ≤ 2)
  (o.rows sp o.base d (if wide then 32 else 64) (if wide then 64 else 32),
    if trans then o.scalesT sp o.base d else o.scales sp o.base d)

/-- A tile load: its stream's fields as the word needs them, the rows, then the scales (06 R223, R228). -/
def tileLoad (f : FMem) (trans : Bool) (k : Wd) (s : State) : Out :=
  let x := s.ctx k.c
  let code := f.fa.toNat
  let o := x.os code
  let fmt := o.fmt.toNat
  let sp := f.space.toNat
  let rows := (loadReqs f trans o).1
  let scales := (loadReqs f trans o).2
  let badFields := if trans then decide (fmt = 0) || decide (5 < fmt) || (fmt == 5 && !o.geo) else o.geo
  if badFields || rows.any (fun q => !q.fits sp) then .fault (streamFault 0) s
  else match s.mRefs k.c sp .read (f.order != 0) .visible 0 (rows ++ scales) with
    | (.error t, s1) => .fault t s1
    | (.ok as, s1) =>
      let rs := as.take rows.length
      let ss := as.drop rows.length
      if sbFull x then .wait
      else match s1.captureNext k.c (acqScope f) as with
      | some o => o
      | none =>
        match s1.doLoad k.c (acqScope f) f.fd.toNat trans fmt rs ss with
        | .wait => .wait
        | .fault t s2 => .fault t s2
        | .ok _ _ s2 =>
          .retire none ((s2.modCtx k.c (advanceOs code 1)).modM k.c fun m =>
            m.enter (.load f.fd.toNat trans fmt sp rows scales))

def execMtld (f : FMem) (s : State) : Host.Outcome State Fault Refusal :=
  .next (issue .m f.w (mtldOk f) false (tileLoad f false) s)

def execMtldt (f : FMem) (s : State) : Host.Outcome State Fault Refusal :=
  .next (issue .m f.w (mtldOk f) false (tileLoad f true) s)

/-- The bytes MTST stores: the 32 rows, then the scale bytes where the format is MX. -/
def tileBytes (t : Tile) (scaled : Bool) : List (List Byte) :=
  t.rows.toList.map (fun r => leBytes 64 r.toNat)
    ++ if scaled then (leBytes 64 t.scales.toNat).map fun b => [b] else []

/-- MTST: the checks, the tile's codes (0x14 names tile and row, 06 R206), then the stores in parts of at most 8 bytes. In a
range of a shadow destination they reach the visible side, as every store of a stream but the drains does (11 R368; DESIGN
CHOICE, log entry 97). -/
def execMtst (f : FMem) (s : State) : Host.Outcome State Fault Refusal :=
  .next (issue .m f.w (mtldOk f) false
    (fun k s =>
      let x := s.ctx k.c
      let o := x.os f.fa.toNat
      let sp := f.space.toNat
      let d := f.disp.toInt
      let t := f.fd.toNat
      let rows := o.rows sp o.base d 32 64
      let scales := o.scales sp o.base d
      if o.geo || rows.any (fun q => !q.fits sp) then .fault (streamFault 0) s
      else match s.mRefs k.c sp .write (f.order != 0) .visible 0 (rows ++ scales) with
        | (.error e, s1) => .fault e s1
        | (.ok as, s1) =>
          match badRow x t with
          | some r => .fault { accFault 0x14 t with lane := some r } s1
          | none =>
            if sbFull (s1.ctx k.c) then .wait
            else
              let s2 := (if x.errs = [] then s1 else s1.correct k.c (tileSites t)).modCtx k.c (advanceOs f.fa.toNat 1)
              .retire none (s2.issueStore k.c .m (relScope f)
                (rowChunks 8 as (tileBytes (x.m.tile t) (isMx o.fmt.toNat))))) s)

/-- The fields of a stream descriptor (06 R210). -/
def parseStream (b : List Byte) : OStream :=
  let c := blockNat b 0x0C 4
  { seed := BitVec.ofNat 32 (blockNat b 0x18 4), sstr := BitVec.ofNat 16 (blockNat b 0x14 2),
    soff := BitVec.ofNat 24 (blockNat b 0x10 3), geo := c.testBit 28, rot := BitVec.ofNat 4 (fld c 24 4),
    tilep := BitVec.ofNat 32 (blockNat b 8 4), rowp := BitVec.ofNat 20 c, fmt := BitVec.ofNat 4 (fld c 20 4),
    space := BitVec.ofNat 2 (fld c 29 2), base := BitVec.ofNat 48 (blockNat b 0 6) }

/-- The address of a stream descriptor (06 R228). -/
def descAddr (f : FMem) (x : Ctx) : Nat :=
  let base : Nat := if f.fa = 0 then x.m.mv.toNat else (x.os f.fa.toNat).base.toNat
  wrap64 (base + f.disp.toInt)

/-- MOSLD: the descriptor as a control block (06 R228; 09 R323, R324, R493). -/
def execMosld (f : FMem) (s : State) : Host.Outcome State Fault Refusal :=
  .next (issue .m f.w (mosldOk f) false
    (fun k s =>
      let x := s.ctx k.c
      let sp := f.space.toNat
      let a := descAddr f x
      match s.mRef k.c sp .read (f.order != 0) .visible ⟨a, 0, 32, 0, 1⟩ with
      | ((.bad code, l), s1) => .fault { fltAddr code a with opnd := some 0, lane := l } s1
      | ((.ok r, _), s1) =>
        if sbFull x then .wait
        else
        let space := if sp = 0 then 0 else if sp = 1 then 4 else 3
        match s1.readBlock k.c .m space (if sp = 0 then s.rootOf k.c else 0) a 32 r with
        | (.wait, _) => .wait
        | (.bad code, s2) => .fault (fltAddr code a) s2
        | (.storage code at_, s2) => .fault (fltAddr code (if sp = 2 then a / 8 * 8 else at_)) s2
        | (.bytes b, s2) =>
          .retire none (s2.modM k.c fun m =>
            { m with os := vset m.os (f.fd.toNat - 32) (parseStream b) }.enter .other)) s)

end Sys2Proof.Machine
end

