-- ==== Sys2Proof/Machine/VLane.lean ====
section
/-! DEFINITION. V words that cross lanes: VPERM, VSHIFT with its tower form, VRED (05 R186–R188; 08 R289). -/

namespace Sys2Proof.Machine

/-- The lanes a map sends the active lanes to. -/
def imageOf (act : W64) (g : Nat → Option Nat) : W64 :=
  (onLanes act).foldl (fun m i => match g i with | none => m | some j => m ||| oneLane j) 0

/-- VPERM: element j is read whether or not lane j is active (05 R186); with no active lane v[fa] is still checked (05
R202). -/
def execVperm (f : FRrr) (s : State) : Host.Outcome State Fault Refusal :=
  let src := fun (x : Ctx) i => (vElem x f.fb i).toNat % 64
  .next (vMap f (vpermOk f) false
    [(vA f.w f.fa).on (looseReads fun act => imageOf act fun i => some (src (s.ctx s.cur) i)), vB f.w f.fb]
    (fun x i => vElem x f.fa (src x i)) s)

/-- VSHIFT between registers: each active lane's source is a lane of fa or of fb (05 R187); with no active lane v[fa] is
still checked (05 R202). -/
def vShiftLanes (f : FRrr) (ok two : Bool) (src : Nat → Bool × Nat) (s : State) : State :=
  vMap f ok false
    (((vA f.w f.fa).on (looseReads fun act => imageOf act fun i => if (src i).1 then none else some (src i).2)) ::
      if two then [(vB f.w f.fb).on fun act => imageOf act fun i => if (src i).1 then some (src i).2 else none] else [])
    (fun x i => vElem x (if (src i).1 then f.fb else f.fa) (src i).2) s

def execVshiftRot (f : FRrr) (s : State) : Host.Outcome State Fault Refusal :=
  .next (vShiftLanes f (vshiftOk 0 f) false (fun i => (false, (i + 64 - f.aux.toNat) % 64)) s)

def execVshiftUp (f : FRrr) (s : State) : Host.Outcome State Fault Refusal :=
  .next (vShiftLanes f (vshiftOk 1 f) true
    (fun i => (decide (i < f.aux.toNat), (i + 64 - f.aux.toNat) % 64)) s)

def execVshiftDn (f : FRrr) (s : State) : Host.Outcome State Fault Refusal :=
  .next (vShiftLanes f (vshiftOk 2 f) true
    (fun i => (decide (63 < i + f.aux.toNat), (i + f.aux.toNat) % 64)) s)

/-! VSHIFT.tw (08 R289). -/

/-- Checks of tower accesses of 16 bytes, (lane, offset, operand) in order: the first fault. -/
def State.towerCheck (s : State) (c : CoreId) : List (Nat × Nat × Nat) → Option Trap
  | [] => none
  | (lane, off, opnd) :: t =>
    match s.laneRef c 2 lane off 16 .write false with
    | (.bad code, _) => some (accessFault code off (some lane) opnd)
    | (.ok _, _) => s.towerCheck c t

/-- The bytes moved once every place is known: an uncorrectable source raises 0x12 (08 R289). -/
def shiftTowers (oa : Nat) (srcs dsts : List (Nat × Ref)) (k : Wd) (s : State) : Out :=
  let x := s.ctx k.c
  if srcs.any fun r => s.mustHold x .v r.2 then .wait
  else match srcs.find? fun r => (s.refBad r.2).isSome with
    | some r => .fault { fltAddr 0x12 oa with lane := some r.1, opnd := some 0 } s
    | none =>
      if sbFull x then .wait
      else
        let data := s.readRefs k.c .v x.seq (srcs.map (·.2))
        let chunks := ((dsts.zip data.1).map fun p => chunksOf p.1.2.pieces p.2).flatten
        .retire none ((srcs.foldl (fun s r => s.touchRef k.c r.2) data.2).issueStore k.c .v 0 chunks)

/-- The accesses in the order they are checked, by ascending tower, a tower's source before its destination (08 R281,
R289). -/
def shiftChecks (act : W64) (oa ob n : Nat) : List (Nat × Nat × Nat) :=
  (lanes.map fun j =>
    (if laneOn act j then [(j, oa, 0)] else []) ++ if laneOn act ((j + 64 - n) % 64) then [(j, ob, 1)] else []).flatten

/-- The places of each active lane's source, or destination, in ascending order of the lane. -/
def State.shiftRefs (s : State) (c : CoreId) (act : W64) (off n : Nat) : List (Nat × Ref) :=
  (onLanes act).map fun i =>
    let j := (i + n) % 64
    (j, ⟨[twPiece (s.laneKey c j off) 16]⟩)

def execVshiftTw (f : FRrr) (s : State) : Host.Outcome State Fault Refusal :=
  .next (vIssue f.w (vshiftOk 3 f) false
    [(vA f.w f.fa).on fun _ => oneLane 0, (vB f.w f.fb).on fun _ => oneLane 0] []
    (fun k act s =>
      let x := s.ctx k.c
      let oa := (vElem x f.fa 0).toNat
      let ob := (vElem x f.fb 0).toNat
      let n := f.aux.toNat
      match s.towerCheck k.c (shiftChecks act oa ob n) with
      | some t => .fault t s
      | none => shiftTowers oa (s.shiftRefs k.c act oa 0) (s.shiftRefs k.c act ob n) k s)
    s)

/-! VRED (05 R188). -/

/-- Operation code of 08 R291 that a sub and format name, and whether elements are widened floats. -/
def redOp (f : FRrr) : Nat :=
  let n := f.fmt.toNat
  let fl := decide (n ≤ 2)
  let sg := intSigned n
  if f.sub = 0 then 0
  else if f.sub = 1 then (if fl then 4 else if sg then 6 else 8)
  else if f.sub = 2 then (if fl then 5 else if sg then 7 else 9)
  else if f.sub = 3 then (if f.sat then 3 else 2)
  else if f.sub = 4 then 10
  else if f.sub = 5 then 11
  else 12

/-- A node: the saturating sum of N formats clamps to the range of N32 (02 R60). -/
def redNode (f : FRrr) (a b : W32) : W32 :=
  if redOp f = 3 ∧ intSigned f.fmt.toNat = false then BitVec.ofNat 32 (min (a.toNat + b.toNat) (2 ^ 32 - 1))
  else colNode (redOp f) a b

/-- An element as it enters the tree. -/
def redLeaf (f : FRrr) (w : W32) : W32 :=
  let n := f.fmt.toNat
  if 4 ≤ f.sub.toNat then w
  else if n ≤ 2 then rne32 (elemVal n w)
  else intElem n false (intOf n w)

/-- The value VRED writes from its root. -/
def redResult (f : FRrr) (root : W32) : W32 :=
  if f.sub.toNat ≤ 2 ∧ f.fmt.toNat ≤ 2 then
    floatElem f.fmt.toNat (if f.sub = 0 then rmOf f else .rne) false (val32 root)
  else root

def execVred (f : FRrr) (s : State) : Host.Outcome State Fault Refusal :=
  .next (vIssue f.w (vredOk f) false [vA f.w f.fa] [f.fd.toNat]
    (fun k act s =>
      let x := s.ctx k.c
      let leaves := lanes.map fun i => if laneOn act i then redLeaf f (vElem x f.fa i) else colIdentity (redOp f)
      let r := redResult f (treeRoot (redNode f) 6 leaves)
      .retire none (s.writeV k f.fd act false fun _ => r)) s)

end Sys2Proof.Machine
end

