-- ==== Sys2Proof/Machine/EvTime.lean ====
section
/-! DEFINITION. The reference tick, boost intervals, the V/F sequencer, temperature samples, refresh sweeps, cooling loops
and operating records (04 R140; 08 R274; 12 R378–R400; 13 R418; 14 R448; 11 R375). -/

namespace Sys2Proof.Machine

/-! Sweeps (08 R274; 12 R382–R384). -/

/-- The phases after a rotation: every tower that is swept moves up by one layer (08 R274, R299). -/
def rotated (r : Refresh) : Vector (Fin 8) 68 :=
  Vector.ofFn fun i => if r.stopped.any fun m => m.2 == i.val then r.phase.get i else r.phase.get i + 1

/-- The end of the step in progress of a sweep; a rotation has moved its layers with its last step (08 R274). Until then a
layer's place is told by the phase at the start and the step (Machine/Order.lean). -/
def sweepStep (r : Refresh) : Refresh :=
  match r.sweep with
  | none => r
  | some w =>
    if w.step < (if w.rotation then 8 else 7) then { r with sweep := some { w with step := w.step + 1 } }
    else { r with sweep := none, phase := if w.rotation then rotated r else r.phase }

/-- Steps of a sweep at most. -/
def sweepSteps : Nat := 9

/-- A sweep in progress brought to its end. -/
def sweepFinished (r : Refresh) : Refresh := (upTo sweepSteps).foldl (fun r _ => sweepStep r) r

/-- Ticks after which a sweep is a rotation. -/
def rotationTicks : Nat := 64 * tickMs

/-- A REFDEF has retired in this tick. -/
def Refresh.deferredNow (now : Nat) (r : Refresh) : Bool := match r.prior with | some d => d.tick == now | none => false

/-- The start of a sweep (12 R382, R383): it ends the deferral, but for one asked for in this tick (12 R385). -/
def sweepStart (now : Nat) (r : Refresh) : Refresh :=
  let r1 := sweepFinished r
  let rot := decide (r1.lastRotation + rotationTicks ≤ now)
  { r1 with lastSweep := now, act := r.act && r.deferredNow now, due := now + dueAfter r1.band, sweep := some ⟨rot, 0⟩,
            lastRotation := if rot then now else r1.lastRotation }

/-- SWEEP: the period has passed and no deferral holds. -/
def execSweep (c : CoreId) (s : State) : Host.Outcome State Fault Refusal :=
  let now := s.dev.ticks.toNat
  let k := s.core c
  .next (if now ≠ k.refresh.due && periodPassed now (s.cluster (clusterOf c)) k then
      s.modCore c fun k => { k with refresh := sweepStart now k.refresh }
    else s)

/-- The trap a forced sweep leaves pending under notify, where a job runs (12 R384). -/
def forcedTrap (now due : Nat) (k : Core) : Core :=
  let b := k.refresh.before now
  if b.notify && k.phase == .running then { k with refresh := { k.refresh with notify := b.asks, pendingTrap := some due } }
  else k

/-- FORCED_SWEEP: a sweep at DUE. -/
def execForcedSweep (c : CoreId) (s : State) : Host.Outcome State Fault Refusal :=
  let now := s.dev.ticks.toNat
  let r := (s.core c).refresh
  .next (if now = r.due then
      (s.count c 13 1).modCore c fun k => { forcedTrap now r.due k with refresh := sweepStart now (forcedTrap now r.due k).refresh }
    else s)

/-- SWEEP_STEP_END. -/
def execSweepStepEnd (c : CoreId) (s : State) : Host.Outcome State Fault Refusal :=
  .next (s.modCore c fun k => { k with refresh := sweepStep k.refresh })

/-! The reference tick (04 R140; 12 R386, R402). -/

/-- Ticks of an interval. -/
def intervalTicks : Nat := 400

/-- One refill of a core's heat tokens (12 R386). -/
def refill (cl : Cluster) (k : Core) : Core :=
  let f := k.frac + thallowRate cl k
  { k with tok := min 256 (k.tok + f / 100), frac := f % 100 }

/-- The full word that engine e of core c stands at, none where one waits there to retire. -/
def State.nextWord (s : State) (c : CoreId) (e : Eng) : Option Instr :=
  let x := s.ctx c
  let a := fetchAt (x.stream e).pc
  if canIssue (s.core c) e && (x.stream e).parked.isNone && s.fetchFits c e a then x.realWord (s.wordAt c e a) else none

/-- M may be waiting for heat tokens: it stands at an MMA that they do not cover (06 R215). -/
def State.heatWait (s : State) (c : CoreId) : Bool :=
  match s.nextWord c .m with
  | some (.mma f) => heatShort f (s.core c)
  | some (.mmas f) => heatShort f (s.core c)
  | _ => false

/-- S waits in PACQ, or for units it reacquires. -/
def State.powerWait (s : State) (c : CoreId) : Bool :=
  let k := s.core c
  k.ctx.pacqFrom.isSome || k.pwr.wait
    || (s.plate (plateOf (clusterOf c))).reqs.any fun r => r.core == c && r.reacquire

/-- Pieces of accesses that passed their checks. -/
def placesOf (r : Except Trap (List MAcc)) : List Piece :=
  match r with
  | .ok as => (as.map (·.pieces)).flatten
  | .error _ => []

/-- Pieces that an MMA reads at its issue: those of its operand streams in towers. -/
def State.mmaTowers (s : State) (c : CoreId) (f : FMma) : List Piece :=
  match mmaOps f (s.ctx c) with
  | .error _ => []
  | .ok o => ([o.a, o.b].map fun w => match w with
    | .mem 2 _ => (match (s.opRefs c w 0).1 with | .ok p => (p.accs.map (·.pieces)).flatten | .error _ => [])
    | _ => []).flatten

/-- Pieces of towers that a word of V or M reads at its issue (05 R187; 06 R209, R228; 08 R289). -/
def State.towerReads (s : State) (c : CoreId) (i : Instr) : List Piece :=
  let x := s.ctx c
  let tile (f : FMem) (qs : List MReq) : List Piece :=
    if f.space = 2 then placesOf (s.mRefs c 2 .read false .visible 0 qs).1 else []
  let load (f : FMem) (trans : Bool) : List Piece :=
    let q := loadReqs f trans (x.os f.fa.toNat)
    tile f (q.1 ++ q.2)
  match i with
  | .mma f => s.mmaTowers c f
  | .mmas f => s.mmaTowers c f
  | .mtld f => load f false
  | .mtldt f => load f true
  | .mosld f => tile f [⟨descAddr f x, 0, 32, 0, 1⟩]
  | .vshiftTw f =>
    ((s.shiftRefs c (activeMask x.v f.w) (vElem x f.fa 0).toNat 0).map fun r => r.2.pieces).flatten
  | _ => []

/-- An access of core c to a tower is waiting for a sweep: a deferred load, a buffered store, a command, or the word that V
or M stands at and that waits for nothing before it. -/
def State.sweepWait (s : State) (c : CoreId) : Bool :=
  let x := s.ctx c
  let busy (l : List Span) : Bool := l.any fun a => s.towerBusy a.lo
  let word (e : Eng) : Bool := match s.nextWord c e with | some i => busy ((s.towerReads c i).map s.spanOf) | none => false
  (s.core c).refresh.sweep.isSome
    && (x.pend.any (fun p => busy (s.pendSpans p)) || x.sb.any (fun b => busy (s.entrySpans b))
      || (s.cluster (clusterOf c)).allCmds.any (fun d => d.core == c && s.cmdStalled d 0) || word .v
      || (!s.heatWait c && word .m))

/-- The clk-counted events of a core during a tick: their numbers are free within the clk of the tick, and 0 where their
condition does not hold (12 R402; DESIGN CHOICE, log entry 19). -/
def State.clockEvents (s : State) (c : CoreId) : State :=
  let step := (s.cluster (clusterOf c)).fstep
  let (d, s1) := s.drawMany 4
  let n := (step + Config.freeNat d % 4) / 4
  let some_ (i : Nat) (on : Bool) : Nat := if on then Config.freeNat (d + i) % (n + 1) else 0
  ((((s1.count c 6 n).count c 7 (some_ 1 (s.heatWait c))).count c 8 (some_ 2 (s.powerWait c))).count c 9
    (some_ 3 (s.sweepWait c))).count c 12 (if nominalStep < step then n else 0)

/-- Ticks between two temperature samples of a core (12 R381), between two samples of the cooling loops (14 R448), between
passes that nothing triggers (10 R333), and of one FLL step (12 R398). -/
def sampleTicks : Nat := 1000
def loopTicks : Nat := 10000
def passTicks : Nat := 100
def stepTicks : Nat := 4

/-- A temperature sample of a core is to be taken at this tick (12 R381). -/
def Core.sampleDue (now : Nat) (k : Core) : Bool := decide (k.samples * sampleTicks ≤ now)

/-- A sample of the cooling loops is to be taken at this tick (14 R448). -/
def Device.loopDue (d : Device) : Bool := decide (d.loopSamples * loopTicks ≤ d.ticks.toNat)

/-- A selection of records must be made at this tick: within 1 ms of the change (11 R375). -/
def Device.recordLate (d : Device) : Bool :=
  match d.recordDue with | some t => decide (t + tickMs ≤ d.ticks.toNat) | none => false

/-- The lowest step. -/
def lowestStep : Nat := 20

/-- The sequencer has a step to complete or to start at a tick (12 R398). -/
def Cluster.fllDue (now : Nat) (k : Cluster) : Bool :=
  match k.ramp with
  | .still => decide (k.fstep < k.ftgt) || (decide (k.ftgt < k.fstep) && decide (lowestStep < k.fstep))
  | _ => decide (k.rampAt + stepTicks ≤ now)

/-- The beds are released, so that TICKS counts (04 R140; 14 R444). -/
def Device.ticking (d : Device) : Bool :=
  match d.boot with
  | .done => true
  | .failed _ => false
  | .running n => decide (3 < n)

/-- A pass of a cluster's dispatcher must be made at this tick (10 R333); none is made during the remapping step. -/
def State.passLate (s : State) (k : Cluster) : Bool :=
  s.dev.boot == .done && !s.dev.remapGo && k.service == .inService
    && decide (k.lastPass + passTicks ≤ s.dev.ticks.toNat)

/-- A WAIT of core c has reached its timeout in this tick and may be evaluated: the tick does not end before it is (04
R149). -/
def State.waitDue (s : State) (c : CoreId) : Bool :=
  let k := s.core c
  (match k.ctx.waitEnd with | some (some d) => decide (d ≤ s.dev.ticks.toNat) | _ => false)
    && canIssue k .s && k.ctx.trapping.isNone && (k.ctx.cr.tm || k.refresh.pendingTrap.isNone) && !s.stopsNow c

/-- The tick cannot end yet: something that falls at it, but for the start of an interval, is still to happen. -/
def State.tickHeld (s : State) : Bool :=
  let now := s.dev.ticks.toNat
  !s.dev.ticking || s.dev.loopDue || s.dev.recordLate || allCores.any (fun c => s.sweepDue c || (s.core c).sampleDue now || s.waitDue c)
    || s.clusters.toList.any fun k => k.fllDue now || s.passLate k

/-- An interval starts at this tick and has not been settled (12 R390). -/
def Device.intervalDue (d : Device) : Bool :=
  d.ticks.toNat % intervalTicks == 0 && decide (d.intervalDone ≤ d.ticks.toNat / intervalTicks)

/-- The start of an interval, the last event of its tick, has been settled: nothing but the next tick may come (12 R390,
R403). -/
def State.tickClosed (s : State) : Bool :=
  s.dev.ticks.toNat % intervalTicks == 0 && decide (s.dev.ticks.toNat / intervalTicks < s.dev.intervalDone)

/-- REFERENCE_TICK: TICKS advances once all that falls at the tick has happened. -/
def execReferenceTick (s : State) : Host.Outcome State Fault Refusal :=
  .next (if s.tickHeld || s.dev.intervalDue then s
    else
      let s1 := (allCores.filter fun c => (s.core c).job.isSome).foldl (fun s c => s.clockEvents c) s
      let s2 := allCores.foldl (fun s c => s.modCore c (refill (s.cluster (clusterOf c)))) s1
      s2.modDev fun d => { d with ticks := d.ticks + 1 })

/-! Boost (12 R390–R392). -/

/-- Most permits of a cluster. -/
def permitsMax : Nat := 64

/-- An active lease counts one interval down and ends at 0 (12 R392). -/
def leaseTick (k : Core) : Core :=
  if k.lease.act then { k with lease := { k.lease with rem := k.lease.rem - 1, act := decide (1 < k.lease.rem) } } else k

/-- The cluster's record and its lease or budget ask for a target above step 90. -/
def State.wantsBoost (s : State) (cl : ClusterId) : Bool :=
  let k := s.cluster cl
  k.rec_.boostOk && decide (nominalStep < s.boostTarget cl) && (s.leased cl || decide (0 < k.bud))

/-- The permits allow it (12 R390). -/
def Cluster.permitted (k : Cluster) : Bool := decide (0 < k.permits) && (!k.low || decide (8 ≤ k.permits))

/-- The one uncharged step after the permits ran out. -/
def spentStep : Nat := 97

/-- A permit regained after four intervals at or below step 90. -/
def regained (k : Cluster) : Cluster :=
  if 4 ≤ k.regain then { k with permits := min permitsMax (k.permits + 1), regain := 0 } else k

/-- What a cluster that holds a slot does at the start of an interval, and whether it keeps the slot. -/
def State.holderStart (s : State) (cl : ClusterId) : Cluster × Bool :=
  let k := s.cluster cl
  let release := ({ k with ftgt := k.baseTarget, spent := 0, low := k.low || k.spent != 0 }, false)
  if !s.wantsBoost cl || k.spent = 2 then release
  else if k.spent = 1 then ({ k with ftgt := min spentStep k.rec_.fcap, spent := 2 }, true)
  else if k.permitted then ({ k with ftgt := s.boostTarget cl, low := false }, true)
  else release

/-- The clusters of a plate, ascending. -/
def clustersOf (p : PlateId) : List ClusterId := (upTo 6).map fun i => clusterAt (p.val * 6 + i)

/-- Slots of a plate. -/
def plateSlots : Nat := 2

/-- The n clusters of a list with the most permits, lower numbers first on a tie. -/
def mostPermits (s : State) : Nat → List ClusterId → List ClusterId
  | 0, _ => []
  | n + 1, l =>
    match l.foldl (fun b c => match b with
      | none => some c
      | some d => if (s.cluster d).permits < (s.cluster c).permits then some c else some d) none with
    | none => []
    | some c => c :: mostPermits s n (l.filter fun d => d != c)

/-- The boost slots of a plate settled: holders first, then the claims for free slots. -/
def State.settleSlots (s : State) (p : PlateId) : State :=
  let held := (s.plate p).slots
  let kept := held.filter fun cl => (s.holderStart cl).2
  let claims := (clustersOf p).filter fun cl => !held.contains cl && s.wantsBoost cl && (s.cluster cl).permitted
  let won := mostPermits s (plateSlots - kept.length) claims
  let s1 := (clustersOf p).foldl (fun t cl =>
    if held.contains cl then t.modCluster cl fun _ => (s.holderStart cl).1
    else if won.contains cl then t.modCluster cl fun k => { k with ftgt := s.boostTarget cl, low := false, spent := 0 }
    else t.modCluster cl fun k => { k with ftgt := k.baseTarget }) s
  s1.modPlate p fun q => { q with slots := kept ++ won }

/-- The charge of an interval, or the interval counted towards a permit (12 R390). -/
def charged (k : Cluster) : Cluster :=
  if nominalStep < k.ftgt then
    (if k.spent = 2 then { k with regain := 0 }
     else { k with permits := k.permits - 1, spent := if k.permits ≤ 1 then 1 else 0, regain := 0 })
  else { k with regain := k.regain + 1 }

/-- INTERVAL_START: the last event of its tick, which ends nothing else that falls at it (12 R390, R403). -/
def execIntervalStart (s : State) : Host.Outcome State Fault Refusal :=
  let now := s.dev.ticks.toNat
  .next (if !s.dev.intervalDue || s.tickHeld then s
    else
      let s1 := { s with cores := s.cores.map leaseTick, clusters := s.clusters.map regained }
      let s2 := ((upTo 4).map (Fin.ofNat 4)).foldl (fun s p => s.settleSlots p) s1
      let s3 := { s2 with clusters := s2.clusters.map charged }
      s3.modDev fun d => { d with intervalDone := now / intervalTicks + 1 })

/-! The V/F sequencer (12 R398). -/

/-- The next step towards the target starts; a rise moves the LDO first. -/
def fllStart (now : Nat) (k : Cluster) : Cluster :=
  if k.fstep < k.ftgt then { k with ramp := .up, rampAt := now, ldo := k.ldo + 1 }
  else if k.ftgt < k.fstep ∧ lowestStep < k.fstep then { k with ramp := .down, rampAt := now }
  else { k with ramp := .still }

/-- The step in progress completes after its 40 ns, a fall moving the LDO last, and the next one starts. -/
def fllNext (now : Nat) (k : Cluster) : Cluster :=
  if !k.fllDue now then k
  else fllStart now (match k.ramp with
    | .up => { k with fstep := k.fstep + 1 }
    | .down => { k with fstep := k.fstep - 1, ldo := k.ldo - 1 }
    | .still => k)

/-- FLL_STEP. -/
def execFllStep (cl : ClusterId) (s : State) : Host.Outcome State Fault Refusal :=
  .next (s.modCluster cl (fllNext s.dev.ticks.toNat))

/-! Temperature (12 R381, R383; 13 R418). -/

/-- The band after a sample, in units of 0.25 °C: it rises above a limit and falls 2 °C below one. -/
def bandAfter (old : Nat) (t : Int) : Nat :=
  let rise := if 340 < t then 2 else if 280 < t then 1 else 0
  let fall := if t ≤ 272 then 0 else if t ≤ 332 then 1 else 2
  max rise (min old fall)

/-- The refresh state after a sample. -/
def refreshSample (now : Nat) (tower hot : Int) (r : Refresh) : Refresh :=
  let b := bandAfter r.band tower
  let due := if r.band < b then min r.due (max now (r.lastSweep + dueAfter b)) else r.due
  { r with band := b, thBand := bandAfter r.thBand hot, due := due }

/-- A core power-gated (13 R427). -/
def gated (k : Core) : Core := { k with power := .gated }

/-- The record fields of a trip (13 R411, R418). -/
def tripInfo (c : CoreId) (reading : Nat) (s : State) : EndInfo :=
  let x := s.jobCtx c
  let e := EndInfo.blank s.dev.ticks.toNat
  let stop := (engines.map fun d => if (x.stream d).st = .running then 2 ^ (8 + d.num.val) else 0).foldl (· + ·) 0
  { e with code := 0x22, nested := x.cr.tm, novec := !trapEn x,
           prior := if x.cr.tm then BitVec.ofNat 8 x.cr.trapcause.toNat else 0,
           info0 := plainInfo0 c noPc 0 true, info1 := BitVec.ofNat 64 reading,
           eng := BitVec.ofNat 64 (fld (x.stream .s).pc.toNat 0 32 * 2 ^ 16 + stop) }

/-- A thermal trip: the job ends, the core is gated, and the contents of its towers are "—" (13 R418). During the remapping
step the job stops and JOB_END follows the step (11 R365). -/
def State.trip (s : State) (c : CoreId) (reading : Nat) : State :=
  let e := tripInfo c reading s
  let s0 := if s.dev.remapGo && (s.core c).job.isSome then endJob c e s else s.endAll e c
  let s1 := s0.modCore c fun k => { gated k with tripped := true }
  ((upTo physTowers).foldl (fun s p => s.forgetTower c p) s1).logEvent 4 (clusterOf c).val (coreIn c * 2 ^ 32 + reading)

/-- TEMPERATURE_SAMPLE: the readings of the hottest tower-layer sensor and of the logic sensor of core c. -/
def execTemperatureSample (c : CoreId) (tower logic : BitVec 16) (s : State) : Host.Outcome State Fault Refusal :=
  let now := s.dev.ticks.toNat
  let tw := tower.toInt
  let lg := logic.toInt
  let s1 := s.modCore c fun k =>
    { k with towerTemp := tw, logicTemp := lg, samples := k.samples + 1,
             refresh := refreshSample now tw (max tw lg) k.refresh }
  let k := s.core c
  .next (if !k.sampleDue now then s
    else if 380 < tw ∨ 440 < lg then
      (if k.tripped then s1
       else s1.trip c (if 380 < tw then tower.toNat else logic.toNat + 2 ^ 16))
    else if k.tripped && decide (tw < 320) && decide (lg < 320) then
      s1.modCore c fun k => { k with tripped := false, power := .called }
    else s1)

/-! Cooling loops and records (14 R448; 11 R374, R375). -/

/-- A loop after a sample: three bad ones in a row lose it, and one bad one starts its time back in range anew. -/
def loopAfter (good : Bool) (l : Cooling) : Cooling :=
  if good then { ok := true, bad := 0, back := if l.ok then l.back.map (· + 1) else some 0 }
  else
    let lost := !l.ok || decide (3 ≤ l.bad + 1)
    { ok := !lost, bad := l.bad + 1, back := if lost then some 0 else l.back.map fun _ => 0 }

/-- The record the loops' states select (11 R374). -/
def Device.wantedRecord (d : Device) : Nat := (if d.topLoop.ok then 0 else 1) + (if d.bottomLoop.ok then 0 else 2)

/-- Samples of a loop in 10 s. -/
def backSamples : Nat := 100000

/-- Both loops are in range, and where one was lost it has been back for 10 s (11 R375). -/
def Device.loopsBack (d : Device) : Bool :=
  let long (l : Cooling) : Bool := l.ok && match l.back with | none => true | some n => decide (backSamples ≤ n)
  long d.topLoop && long d.bottomLoop

/-- The record a cluster should hold now: one of a higher FCAP waits until both loops are back. -/
def recordFor (d : Device) (k : Cluster) : Nat :=
  let n := d.wantedRecord
  if k.rec_.fcap < (vget k.table n).fcap && !d.loopsBack then k.recNum else n

/-- Some cluster's record is not the one it should hold. -/
def State.recordStale (s : State) : Bool := s.clusters.toList.any fun k => recordFor s.dev k != k.recNum

/-- LOOP_SAMPLE: whether each loop's flow and temperature were in range. -/
def execLoopSample (topOk bottomOk : Bool) (s : State) : Host.Outcome State Fault Refusal :=
  let now := s.dev.ticks.toNat
  let t := loopAfter topOk s.dev.topLoop
  let b := loopAfter bottomOk s.dev.bottomLoop
  let s1 := s.modDev fun d => { d with topLoop := t, bottomLoop := b, loopSamples := d.loopSamples + 1 }
  let s2 := if t.ok ≠ s.dev.topLoop.ok then s1.logEvent 1 0 t.ok.toNat else s1
  let s3 := if b.ok ≠ s.dev.bottomLoop.ok then s2.logEvent 1 1 b.ok.toNat else s2
  .next (if !s.dev.loopDue then s
    else s3.modDev fun d => { d with recordDue := if s3.recordStale then some (d.recordDue.getD now) else none })

/-- A record selected for a cluster: leases end where it forbids boost, and the target follows FCAP. -/
def State.selectRecord (s : State) (cl : ClusterId) (n : Nat) : State :=
  let s1 := s.modCluster cl fun k => { k with recNum := n }
  (if (s1.cluster cl).rec_.boostOk then s1
   else (coresOf cl).foldl (fun s c => s.modCore c fun k => { k with lease := { k.lease with act := false } }) s1).retarget cl

/-- RECORD_SELECTION. -/
def execRecordSelection (s : State) : Host.Outcome State Fault Refusal :=
  .next (if s.dev.recordDue.isNone then s
    else
      let s1 := allClusters.foldl (fun s cl => s.selectRecord cl (recordFor s.dev (s.cluster cl))) s
      (s1.modDev fun d => { d with recordDue := none }).logEvent 2 0 s.dev.wantedRecord)

/-! Power gating (13 R425–R427). -/

/-- A core is free (10 R337): it runs no job, is not held, drained, tripped or failed, and every logical tower of its lanes
is available on a tower that has not failed. -/
def State.isFree (s : State) (c : CoreId) : Bool :=
  let k := s.core c
  k.phase == .free && k.job.isNone && !k.hold && !k.tripped && !k.logicFailed
    && (s.cluster (clusterOf c)).service == .inService
    && k.imp.toList.all fun e => e.av && !k.failedTowers.contains e.phys.toNat

/-- A core that idle gating and command 0x09 may gate: a free one that is powered. -/
def State.mayGate (s : State) (c : CoreId) : Bool := s.isFree c && (s.core c).power == .on

/-- IDLE_GATING. -/
def execIdleGating (c : CoreId) (s : State) : Host.Outcome State Fault Refusal :=
  let t := (s.cluster (clusterOf c)).gateidle.toNat
  .next (if t ≠ 0 && s.mayGate c && decide ((s.core c).freeSince + t ≤ s.dev.ticks.toNat) then s.modCore c gated else s)

/-- Granules of a layer of a tower. -/
def layerGranules : Nat := 512

/-- The runs of bytes of a physical tower that the march at a wake reads: one granule of each layer, and of a spare that no
available entry names one whole layer, both chosen by the pointer (13 R425; DESIGN CHOICE, log entry 102). -/
def marchRuns (c : CoreId) (k : Core) (phys : Nat) : List (Nat × Nat) :=
  let granule := (upTo 8).map fun l => (towerKey c phys (l * 2 ^ 15 + 64 * (k.march % layerGranules)), 64)
  if k.imp.toList.any fun e => e.av && e.phys.toNat == phys then granule
  else (towerKey c phys (k.march % 8 * 2 ^ 15), 2 ^ 15) :: granule

/-- The physical towers in which the march finds an uncorrectable word (13 R425). -/
def State.marchBad (s : State) (c : CoreId) : List Nat :=
  (upTo physTowers).filter fun p => (marchRuns c (s.core c) p).any fun r =>
    s.memErr.any fun m => m.2 && decide (r.1 ≤ m.1) && decide (m.1 < r.1 + r.2)

/-- The march of a wake: what it reads with a single wrong bit is corrected, and no byte changes (08 R271; 13 R425). -/
def State.marched (s : State) (c : CoreId) : State :=
  (((upTo physTowers).map (marchRuns c (s.core c))).flatten).foldl
    (fun s r => { s with memErr := clearSingles s.memErr r.1 r.2 }) s

/-- CORE_WAKE: a core called from power gating wakes; what it kept only while powered is lost (13 R425, R427). -/
def execCoreWake (c : CoreId) (s : State) : Host.Outcome State Fault Refusal :=
  .next (if (s.core c).power = .called ∧ (s.dev.boot = .done ∨ s.dev.boot = .running 8) then
      ((((s.modCore c fun k => { k with power := .waking, march := k.march + 1 }).forgetRegs c).forgetBanks c).forgetImem
        c).marched c
    else s)

/-- A returning cluster whose cores have all been tested is In service (14 R449). -/
def State.settleReturn (s : State) (cl : ClusterId) : State :=
  if (s.cluster cl).service = .returning ∧ (coresOf cl).all (fun c => (s.core c).power == .on || (s.core c).power == .gated) then
    s.modCluster cl fun k => { k with service := .inService, passDue := true }
  else s

/-- The last part of step 7 of the boot sequence: it is done once every core that was called has been tested (14 R444). -/
def State.settleBoot (s : State) : State :=
  if s.dev.boot = .running 8 ∧ allCores.all (fun c => (s.core c).power == .on || (s.core c).power == .gated) then
    s.modDev fun d => { d with boot := .done }
  else s

/-- WAKE_TEST_RESULT: the core passes and is powered, or its failures are noted and reported; a tower in which the march
found an uncorrectable word has failed (13 R425, R426). -/
def execWakeTestResult (c : CoreId) (r : WakeResult) (s : State) : Host.Outcome State Fault Refusal :=
  let now := s.dev.ticks.toNat
  let failed : List Nat := s.marchBad c ++ match r with | .towerFailures ps => ps | _ => []
  let s1 := ((s.modCore c fun k => { k with power := .on, freeSince := now }).passAll).settleReturn (clusterOf c)
  .next (if (s.core c).power ≠ .waking then s
    else State.settleBoot <| if r = .logicFailure then
      (s1.modCore c fun k => { k with logicFailed := true }).logEvent 3 (clusterOf c).val (coreIn c * 256)
    else failed.eraseDups.foldl (fun s p => s.logEvent 3 (clusterOf c).val (coreIn c * 256 + 128 + p % 128))
      (s1.modCore c fun k => { k with failedTowers := failed.eraseDups ++ k.failedTowers }))

end Sys2Proof.Machine
end

