-- ==== Sys2Proof/Machine/Publish.lean ====
section
/-! DEFINITION. PUBLISH and the swap of a shadow destination's sides (09 R318–R320). -/

namespace Sys2Proof.Machine

/-- Key of a publish-table entry (11 R366). -/
def State.pubKey (s : State) (e : Nat) : Nat := s.dev.ptbase.toNat * 2 ^ 14 + 64 * e

/-- What a command still has to write after its current unit: the rest of its destination ranges. -/
def Cmd.left (d : Cmd) : List Run :=
  let runs := dstRuns d.op d.desc d.col
  let per := ceilDiv (runs.headD default).n unitSize
  let u := d.unit + if d.buf.isEmpty then 0 else 1
  let off := unitSize * (u % per)
  match d.op, runs.drop (u / per) with
  | .cpybc, _ => []
  | _, [] => []
  | _, r :: rs => ⟨r.place.plus off, r.n - off⟩ :: rs

/-- A global range lies in part on a page of publish entry e. -/
def Run.inEntry (r : Run) (pages : List TlbEnt) (e : Nat) : Bool :=
  match r.place with
  | .mem 0 a => pages.any fun t => t.pub == some e && decide (a < t.va + t.size) && decide (t.va < a + r.n)
  | _ => false

/-- A chunk goes to the hidden side of publish entry e. -/
def Chunk.hiddenIn (ch : Chunk) (e : Nat) : Bool :=
  match ch.loc with
  | .pub d _ true => d == e
  | _ => false

/-- A command still has a write to the hidden side of publish entry e to perform (09 R318, R319). -/
def Cmd.stillHidden (d : Cmd) (e : Nat) : Bool :=
  !d.finished && (d.buf.any (·.hiddenIn e) || d.left.any fun r => r.inEntry d.pages e)

/-- The numbers of what still has writes to the hidden side of entry e: commands and drains (09 R319). -/
def State.hiddenWriters (s : State) (e : Nat) : List Nat :=
  ((s.clusters.toList.map fun k => (k.allCmds.filter fun d => d.stillHidden e).map (·.id)).flatten)
    ++ (s.cores.toList.map fun k => (k.ctx.sb.filter fun b => b.chunks.any (·.hiddenIn e)).map (·.id)).flatten

/-- Offsets among n at which one of two runs of keys lists a byte: elsewhere both read as unlisted bytes do. -/
def listedIn (m : List Host.Cell) (a b n : Nat) : List Nat :=
  (((cellsFrom (cellsBelow m (a + n)) a).map fun q => q.1 - a) ++ (cellsFrom (cellsBelow m (b + n)) b).map fun q => q.1 - b).eraseDups

/-- The sides of entry e swap, one event: a write of every byte of the range, after which the side that was visible is what a
read of an older version returns, and a release of core c at a scope (09 R319, R320). -/
def State.swapSides (s : State) (c : CoreId) (e scope : Nat) : State :=
  let flip (s : State) : State := s.modDev fun d => { d with pside := d.pside ^^^ BitVec.ofNat 256 (2 ^ e) }
  match s.dev.pubs.lookup e with
  | none => flip s
  | some p =>
    let n := p.len * 2 ^ 16
    let was := s.keyOfPa (s.sideBase e p false)
    let new := s.keyOfPa (s.sideBase e p true)
    let diff := (listedIn s.mem was new n).filter fun i => readCell s.mem (was + i) != readCell s.mem (new + i)
    let s1 := s.renew new n
    let v := ((s.ctx c).stream .s).view
    let whole : View := ⟨0, [(⟨new, n, 8, false⟩, s.stamp + 1)], []⟩
    let runs : List RelRun := [⟨c.val, scope, v.everyForm.join whole⟩, ⟨c.val, swapScope, whole⟩].map
      fun t => ⟨new, n, s.stamp + 1, none, t⟩
    (flip { s1 with stamp := s.stamp + 1, rels := runs ++ s1.rels,
                    old := (diff.map fun i => ⟨new + i, readCell s.mem (was + i), s.stamp + 1⟩) ++ s1.old }).modCtx c
      fun x => x.modStream .s fun r => { r with view := r.view.join whole }

/-- The entry of a PUBLISH read and checked at its issue, and the writers it must wait for: of those with a write to the
hidden side left, the ones whose issue happens before the PUBLISH, since S has seen it (09 R312, R319; log entry 23). -/
def publishIssue (e : Nat) (k : Wd) (s : State) (go : List Nat → State → Out) : Out :=
  let a := s.pubKey e
  match s.readBlock k.c .s 2 0 a 64 ⟨[⟨.phys a, 64, 0, false⟩]⟩ with
  | (.storage code addr, s1) => .fault (fltAddr code addr) s1
  | (.bad code, s1) => .fault (fltAddr code a) s1
  | (.wait, _) => .wait
  | (.bytes b, s1) =>
    if !s.dev.pactive.getLsbD e || blockNat b 0 1 % 2 == 0 then .fault (fltAddr 0x02 e) s1
    else go ((s.hiddenWriters e).filter ((s.ctx k.c).stream .s).view.issued.contains) s1

/-- The writers that a waiting PUBLISH noted at its issue. -/
def snapWriters (l : List Snap) : List Nat := l.filterMap fun q => match q with | .writer n => some n | _ => none

/-- What a PUBLISH of entry e that waits keeps of its issue. -/
def publishSnap (e : Nat) (ws : List Nat) : List Snap := .block (leBytes 1 e) :: ws.map Snap.writer

/-- PUBLISH once its writers are known: it waits until none of them has a hidden-side write left, then the sides swap. The
writes that do not happen before it land on either side. -/
def publishWait (f : FSys) (e : Nat) (k : Wd) (ws : List Nat) (s : State) : Out :=
  if (s.hiddenWriters e).any ws.contains then
    .hold (s.modCtx k.c fun x => x.modStream .s fun r => { r with snap := publishSnap e ws })
  else .retire none (s.swapSides k.c e (fld f.imm12.toNat 0 3))

/-- Some core's PUBLISH of entry e is past its release: it waits for its writers. -/
def State.publishing (s : State) (e : Nat) : Bool :=
  s.cores.toList.any fun k => match (k.ctx.stream .s).snap with
    | .block b :: _ => leNat b == e
    | _ => false

/-- PUBLISH: serialising; its entry must be active and valid; the sides swap once the hidden-side writes before it are
performed (09 R319). -/
def execPublish (f : FSys) (s : State) : Host.Outcome State Fault Refusal :=
  .next (sIssue f.w (publishOk f) [srcA f.w f.fa] none
    (fun k s =>
      let x := s.ctx k.c
      let e := (sfield x f.fa).toNat % 256
      match (x.stream .s).snap with
      | .block _ :: l => publishWait f e k (snapWriters l) s
      | _ => if !settled .s x || !drained .s x then .wait else publishIssue e k s (publishWait f e k)) s)

end Sys2Proof.Machine
end

