-- ==== Sys2Proof/Machine/EvTables.lean ====
section
/-! DEFINITION. The host's table commands: TLB invalidation (11 R357), imposition (11 R360–R363), the remapping step
(11 R364, R365) and publish entries (11 R366, R367). -/

namespace Sys2Proof.Machine

/-- The host's registers answer: the boot sequence is done (14 R444). -/
def State.up (s : State) : Bool := s.dev.boot == .done

/-- GO of a command register's write. -/
def goBit (v : W64) : Bool := v.getLsbD 63

/-! TLB invalidation. -/

/-- What a cached entry of a root translates, size bytes from an address on, is of an invalidation's selection. -/
def Inval.covers (i : Inval) (root va size : Nat) : Bool :=
  if i.kind = 0 then true
  else if i.kind = 1 then root == i.root
  else root == i.root && decide (va < i.va + i.bytes) && decide (i.va < va + size)

/-- A translation is of an invalidation's selection. -/
def Inval.selects (i : Inval) (t : TlbEnt) : Bool := i.covers t.root t.va t.size

/-- Every cached translation of a selection discarded, in the TLBs and in the walkers' entry caches. -/
def State.discardTlb (s : State) (i : Inval) : State :=
  let keep (l : List TlbEnt) : List TlbEnt := l.filter fun t => !i.selects t
  { s with cores := s.cores.map fun k => { k with tlb := keep k.tlb },
           clusters := s.clusters.map fun k =>
             { k with tlb := keep k.tlb, walks := k.walks.filter fun w => !i.covers w.root w.va w.size } }

/-- A write of TINVCTL with GO, of a KIND: the selection is discarded and the invalidation runs until its accesses are
performed; ignored while one runs (11 R353, R357). -/
def invalidate (kinds : Nat → Bool) (kind : Nat) (v : W64) (s : State) : State :=
  let k := fld v.toNat 0 2
  if !s.up || s.dev.inval.isSome || !goBit v || !kinds k then s
  else
    let d := s.dev
    let len := if d.tinvLen.toNat = 0 then 1 else d.tinvLen.toNat
    let i : Inval := ⟨kind, d.tinvRoot.toNat * 4096, d.tinvVa.toNat * 2 ^ 16, len * 2 ^ 16⟩
    (s.modDev fun d => { d with tinvKind := BitVec.ofNat 2 k, inval := some i }).discardTlb i

def execTlbInvalidateDevice (v : W64) (s : State) : Host.Outcome State Fault Refusal :=
  .next (invalidate (fun k => k == 0 || k == 3) 0 v s)

def execTlbInvalidateRoot (v : W64) (s : State) : Host.Outcome State Fault Refusal :=
  .next (invalidate (fun k => k == 1) 1 v s)

def execTlbInvalidateRange (v : W64) (s : State) : Host.Outcome State Fault Refusal :=
  .next (invalidate (fun k => k == 2) 2 v s)

/-- Accesses of core c that may have used a translation of the selection are still to be performed, or a copy word that was
checked under one waits for a slot. -/
def State.usesSelection (s : State) (i : Inval) (c : CoreId) : Bool :=
  let x := s.ctx c
  (i.kind == 0 || s.rootOf c == i.root) && (unsettled x || !x.sb.isEmpty)
    || (snapPages (x.stream .c).snap).any i.selects

/-- What the accesses of the cores that may have used a selection have seen. -/
def State.selectionSeen (s : State) (i : Inval) : View :=
  ((allCores.filter fun c => i.kind == 0 || s.rootOf c == i.root || (s.core c).lastRoot == some i.root).map fun c =>
    (s.ctx c).allSeen).foldl View.join ⟨0, [], []⟩

/-- INVALIDATION_COMPLETE: GO clears once the accesses and commands that used the selection are performed, which the host
observes as an acquire of them (11 R357; log entry 91). -/
def execInvalidationComplete (s : State) : Host.Outcome State Fault Refusal :=
  .next (match s.dev.inval with
    | none => s
    | some i =>
      let cached (l : List TlbEnt) : Bool := l.any i.selects
      if s.clusters.toList.any (fun k => k.allCmds.any fun d => cached d.pages) || allCores.any (s.usesSelection i) then s
      else (((s.discardTlb i).setOuter hostObs ((s.outerView hostObs).join (s.selectionSeen i))).modDev fun d =>
        { d with inval := none }).msi 3)

/-! Imposition (11 R359–R363). -/

/-- A physical tower is named by an available entry other than entry `log`. -/
def namedByOther (k : Core) (log phys : Nat) : Bool :=
  (upTo 64).any fun i => i != log && (vget k.imp i).av && (vget k.imp i).phys.toNat == phys

/-- A command that ends at once with ERR. -/
def State.impEnd (s : State) (cl : ClusterId) (err : Nat) : State :=
  (s.modCluster cl fun k => { k with imperr := err, impGo := false }).msi 3

/-- The bits of IMPCMD that hold what is written. -/
def impMask : W64 := 0x0700FC3F0000007F

/-- A write of IMPCMD with GO and an OP: the checks of 11 R360, R361, then the core is held and the entry made unavailable
until the command is done. -/
def impStart (ok : Nat → Bool) (cl : ClusterId) (v : W64) (run : Core → Nat → Nat → Except Nat (ImpEnt × Bool)) (s : State) :
    State :=
  let n := fld v.toNat 42 6
  let log := fld v.toNat 32 6
  let phys := fld v.toNat 0 7
  let c := coreAt (cl.val * 48 + n % 48)
  if !s.up || (s.cluster cl).impGo || !goBit v || !ok (fld v.toNat 56 3) then s
  else
    let s1 := s.modCluster cl fun k => { k with impcmd := v &&& impMask, impGo := true }
    if 48 ≤ n then s1.impEnd cl 2
    else if (s.core c).job.isSome then s1.impEnd cl 1
    else match run (s.core c) log phys with
      | .error e => s1.impEnd cl e
      | .ok (e, copy) =>
        (s1.modCluster cl fun k => { k with impDone := some (c.val, e, copy) }).modCore c fun k =>
          { k with hold := true, imp := vmod k.imp log fun i => { i with av := false } }

/-- The check of PHYS for OP 0 to 2: in range, named by no other available entry, and no failed spare; the entry's own PHYS is
no spare (11 R360; 13 R426). -/
def physOk (k : Core) (log phys : Nat) : Bool :=
  decide (phys < physTowers) && !namedByOther k log phys
    && (!k.failedTowers.contains phys || (vget k.imp log).phys.toNat == phys)

def execRemapWithCopy (cl : ClusterId) (v : W64) (s : State) : Host.Outcome State Fault Refusal :=
  .next (impStart (fun n => n == 0) cl v (fun k log phys =>
    if physOk k log phys then .ok (⟨true, true, BitVec.ofNat 7 phys⟩, (vget k.imp log).phys.toNat != phys)
    else .error 2) s)

def execRemapWithoutCopy (cl : ClusterId) (v : W64) (s : State) : Host.Outcome State Fault Refusal :=
  .next (impStart (fun n => n == 1) cl v (fun k log phys =>
    if physOk k log phys then .ok (⟨true, true, BitVec.ofNat 7 phys⟩, false) else .error 2) s)

def execImpositionRestore (cl : ClusterId) (v : W64) (s : State) : Host.Outcome State Fault Refusal :=
  .next (impStart (fun n => n == 2) cl v (fun k log phys =>
    if !physOk k log phys then .error 2
    else if (vget k.imp log).av || !k.softMask.getLsbD log then .error 3
    else .ok (⟨true, true, BitVec.ofNat 7 phys⟩, false)) s)

/-- Release: PHYS is the fuse value. -/
def execImpositionRelease (cl : ClusterId) (v : W64) (s : State) : Host.Outcome State Fault Refusal :=
  .next (impStart (fun n => n == 3) cl v (fun k log _ =>
    let f := vget k.fuse log
    if namedByOther k log f.toNat then .error 2 else .ok (⟨true, false, f⟩, false)) s)

/-- IMPCMD_REJECTED: OP 4 to 7. -/
def execImpcmdRejected (cl : ClusterId) (v : W64) (s : State) : Host.Outcome State Fault Refusal :=
  .next (if !s.up || (s.cluster cl).impGo || !goBit v || decide (fld v.toNat 56 3 < 4) then s
    else (s.modCluster cl fun k => { k with impcmd := v &&& impMask }).impEnd cl 4)

/-- The uncorrectable words among n bytes from a key on. -/
def State.badWords (s : State) (k n : Nat) : Nat :=
  ((s.memErr.filter fun m => m.2 && decide (k ≤ m.1) && decide (m.1 < k + n)).map fun m => m.1).eraseDups.length

/-- A physical tower copied to another: bad words stay bad, single bits are corrected (11 R361). -/
def State.copyTower (s : State) (c : CoreId) (src dst : Nat) : State :=
  let a := towerKey c src 0
  let b := towerKey c dst 0
  let marks := (s.memErr.filter fun m => m.2 && decide (a ≤ m.1) && decide (m.1 < a + towerSize)).map fun m =>
    (m.1 - a + b, true)
  let s1 : State := { s with
    mem := copyCells s.mem a towerSize b,
    memErr := (s.memErr.filter fun m => decide (m.1 < b) || decide (b + towerSize ≤ m.1)) ++ marks }
  s1.renew b towerSize

/-- Ticks after a warm reset for which a soft-repaired tower keeps its data (11 R363). -/
def survivalTicks (band : Nat) : Nat := dueAfter band - sweepPeriod band

/-- Ticks from the last reset to now (11 R363; 14 R444). -/
def Device.sinceReset (d : Device) : Nat := d.bedDelay + d.ticks.toNat

/-- The contents of a logical tower after a command: copied, kept by a restore in time, or "—". -/
def State.impContents (s : State) (c : CoreId) (op log : Nat) (old : ImpEnt) (e : ImpEnt) (copy : Bool) : State :=
  let r := (s.core c).refresh
  let phys := e.phys.toNat
  if op = 0 then (if copy then s.copyTower c old.phys.toNat phys else s)
  else if op = 1 then (if old.phys = e.phys then s else s.forgetTower c phys)
  else if op = 2 then
    (if r.stopped.contains (log, phys) && decide (s.dev.sinceReset ≤ survivalTicks r.resetBand) then s
     else s.forgetTower c phys)
  else s.forgetTower c phys

/-- IMPOSITION_COMMAND_DONE: the entry is written, the hold lifted, GO cleared (11 R361, R362). -/
def execImpositionCommandDone (cl : ClusterId) (s : State) : Host.Outcome State Fault Refusal :=
  let k := s.cluster cl
  let op := fld k.impcmd.toNat 56 3
  let log := fld k.impcmd.toNat 32 6
  .next (match k.impDone with
    | none => s
    | some (n, e, copy) =>
      let c := coreAt n
      let old := vget (s.core c).imp log
      let bad := if copy then min 127 (s.badWords (towerKey c old.phys.toNat 0) towerSize) else 0
      let s1 := s.impContents c op log old e copy
      let bit : W64 := BitVec.ofNat 64 (2 ^ log)
      let s2 := s1.modCore c fun q =>
        { q with imp := vset q.imp log e, hold := false, freeSince := s.dev.ticks.toNat,
                 softMask := if op = 3 then q.softMask &&& ~~~bit else q.softMask ||| bit,
                 refresh := { q.refresh with stopped := q.refresh.stopped.filter fun m => m.1 != log } }
      ((s2.modCluster cl fun k => { k with impDone := none }).impEnd cl (if bad = 0 then 0 else 0x80 + bad)).passAll)

/-! The bank availability map (11 R364, R365). -/

/-- The bytes of the map block. -/
def mapBlock (d : Device) : List Byte :=
  leBytes 8 d.gen.toNat ++ leBytes 4 (bitCount d.live.toNat 512) ++ leBytes 4 0 ++ leBytes 64 d.live.toNat ++ leBytes 48 0

/-- The map block written, where BAMADDR is set; every access to it that waited for the step follows (11 R364, R365). -/
def State.writeMap (s : State) : State :=
  if s.dev.bamaddr = 0 then s else (s.poke s.dev.mapKey (mapBlock s.dev)).renew s.dev.mapKey mapBlockSize

/-- A write of REMAPCMD with GO and a direction: refused with a code, or started. -/
def remapStart (back : Bool) (v : W64) (s : State) : State :=
  let p := fld v.toNat 0 9
  if !s.up || s.dev.remapGo || !goBit v || v.getLsbD 9 != back then s
  else
    let d := s.dev
    let err := if d.live.getLsbD p == back then 1
      else if !back && s.liveCount == 1 then 2
      else if d.bamaddr = 0 then 3 else 0
    let s1 := s.modDev fun d => { d with remapDir := back, remapPch := BitVec.ofNat 9 p, remapGo := err == 0, remapErr := err }
    if err = 0 then s1 else s1.msi 3

def execRetirePseudoChannel (v : W64) (s : State) : Host.Outcome State Fault Refusal := .next (remapStart false v s)

def execReturnPseudoChannel (v : W64) (s : State) : Host.Outcome State Fault Refusal := .next (remapStart true v s)

/-- Words of a retired pseudo-channel, with their offsets, that the step could not read: free ones of it (11 R365; DESIGN
CHOICE, log entry 103). -/
def State.lostWords (s : State) : List Nat × State :=
  let (n, s1) := s.drawNat
  let (d, s2) := s1.drawMany n
  (((upTo n).map fun i => unitOf (Config.freeNat (d + i) % s.hbmCap)).filter fun o => (s.hbmPlace o).1 == s.dev.remapPch.toNat, s2)

/-- REMAPPING_STEP_DONE: LIVE, NLIVE and GEN change and the map block is written; offsets keep their bytes, and those
that a return adds read as zero, and words of a retired channel that cannot be read stay uncorrectable. What waited goes on. -/
def execRemappingStepDone (s : State) : Host.Outcome State Fault Refusal :=
  .next (if !s.dev.remapGo then s
    else
      let old := s.hbmCap
      let bit : BitVec 512 := BitVec.ofNat 512 (2 ^ s.dev.remapPch.toNat)
      let (lost, s0) := if s.dev.remapDir then ([], s) else s.lostWords
      let s1 := s0.modDev fun d =>
        { d with live := if d.remapDir then d.live ||| bit else d.live &&& ~~~bit, gen := d.gen + 1, remapGo := false }
      let s2 : State := { s1 with memErr := (lost.map fun o => (o, true)) ++ s1.memErr.filter fun m => !lost.contains m.1 }
      let s3 := (if old < s2.hbmCap then s2.zero old (s2.hbmCap - old) else s2).writeMap
      (flushRecords s3.dev.fqwait s3).msi 3)

/-- BAMADDR_FIRST_WRITE: the map block is written where the host's first write of BAMADDR puts it (14 R444). -/
def execBamaddrFirstWrite (v : W64) (s : State) : Host.Outcome State Fault Refusal :=
  .next (if !s.up || s.dev.bamaddr != 0 then s
    else (s.modDev fun d => { d with bamaddr := BitVec.ofNat 45 (fld v.toNat 7 45) }).writeMap)

/-! Publish entries (11 R366, R367). -/

/-- The fields of an entry's 64 bytes. -/
def parsePub (b : List Byte) : PubEnt :=
  let m := blockNat b 4 4
  { mstr := BitVec.ofNat 8 m, mcore := fld m 8 11, vabase := blockNat b 8 8, len := blockNat b 0x10 4,
    pa0 := blockNat b 0x18 8, pa1 := blockNat b 0x20 8 }

/-- The limits of an entry's fields, and sides that do not overlap. -/
def PubEnt.ok (p : PubEnt) : Bool :=
  let n := p.len * 2 ^ 16
  (decide (p.mcore < 1152) || p.mcore == 0x7FF) && p.vabase % 2 ^ 16 == 0 && p.pa0 % 2 ^ 16 == 0 && p.pa1 % 2 ^ 16 == 0
    && decide (1 ≤ p.len) && decide (p.len ≤ 2 ^ 20) && (decide (p.pa0 + n ≤ p.pa1) || decide (p.pa1 + n ≤ p.pa0))

/-- A bit of the 256 publish entries set to a value. -/
def setEntryBit (w : BitVec 256) (e : Nat) (on : Bool) : BitVec 256 :=
  let bit : BitVec 256 := BitVec.ofNat 256 (2 ^ e)
  if on then w ||| bit else w &&& ~~~bit

/-- PACT_ACTIVATE: the entry is read and, where it is good, becomes active with INIT visible; during the remapping step the
read waits (11 R365). -/
def execPactActivate (v : W64) (s : State) : Host.Outcome State Fault Refusal :=
  let e := fld v.toNat 0 8
  let k := s.pubKey e
  let b := readCells s.mem k 64
  let p := parsePub b
  let good := (blockNat b 0 4).testBit 0 && p.ok && !s.badData k 64
  .next (if !s.up || goBit v || s.dev.remapGo then s
    else if good then
      s.modDev fun d => { d with pactive := setEntryBit d.pactive e true,
                                 pside := setEntryBit d.pside e ((blockNat b 0 4).testBit 1),
                                 pubs := (e, p) :: d.pubs.filter fun q => q.1 != e }
    else s.modDev fun d => { d with pactive := setEntryBit d.pactive e false })

/-- PACT_DEACTIVATE: it takes effect after a PUBLISH of the entry that is past its release (11 R367). -/
def execPactDeactivate (v : W64) (s : State) : Host.Outcome State Fault Refusal :=
  .next (if !s.up || !goBit v || s.publishing (fld v.toNat 0 8) then s
    else s.modDev fun d => { d with pactive := setEntryBit d.pactive (fld v.toNat 0 8) false })

end Sys2Proof.Machine
end

