-- ==== Sys2Proof/Machine/EvHost.lean ====
section
/-! DEFINITION. The host's window (14 R430–R434), accesses from the fabric (14 R439, R440) and lost links (14 R438). -/

namespace Sys2Proof.Machine

/-! Registers of BAR0 (14 R431–R433; 10 R331; 11 R352; 13 R419, R427). -/

/-- Offset of cluster block 0, and the size of a block. -/
def clusterBlock : Nat := 0x100000
def clusterBlockSize : Nat := 0x4000

/-- Offset of the mailbox, its size, and its data area. -/
def mailBlock : Nat := 0x200000
def mailBlockSize : Nat := 0x4000
def mailData : Nat := 0x1000

/-- A launch queue's register at offset r (0, 8, 16 or 24) written. QBASE, QROOT and SIZE are ignored while EN is 1. -/
def writeQueue (r : Nat) (v : W64) (q : Queue) : Queue :=
  if r = 0 then
    { q with en := v.getLsbD 31, owner := v.getLsbD 30, size := if q.en then q.size else BitVec.ofNat 5 v.toNat }
  else if r = 8 then (if q.en then q else { q with base := BitVec.ofNat 41 (fld v.toNat 7 41) })
  else if r = 16 then (if q.en then q else { q with root := BitVec.ofNat 40 (fld v.toNat 12 40) })
  else q

/-- A cluster-block register without behaviour of its own written; a command register takes its fields with GO 0. -/
def writeClusterReg (o : Nat) (v : W64) (k : Cluster) : Cluster :=
  if o < 0x100 then { k with queues := vmod k.queues (o / 0x20) (writeQueue (o % 0x20) v) }
  else if o = 0x200 then (if k.impGo || goBit v then k else { k with impcmd := v &&& impMask })
  else if o = 0x300 then (if k.slots = [] then { k with spbase := BitVec.ofNat 31 (fld v.toNat 21 31) } else k)
  else if o = 0x308 then (if k.slots = [] then { k with spcount := BitVec.ofNat 10 v.toNat } else k)
  else if o = 0x350 then (if k.jgo || goBit v then k else { k with jcmd := v &&& 0x7000FC00FF0001FF })
  else if o = 0x360 then { k with gateidle := BitVec.ofNat 32 v.toNat }
  else k

/-- A device-block register without behaviour of its own written. -/
def writeDeviceReg (o : Nat) (v : W64) (d : Device) : Device :=
  let n := v.toNat
  let free (x : Device) : Device := if d.inval.isSome then d else x
  if o = 0x000 then { d with fqbase := BitVec.ofNat 41 (fld n 7 41) }
  else if o = 0x008 then { d with fqsize := BitVec.ofNat 5 n }
  else if o = 0x100 then (if goBit v then d else free { d with tinvKind := BitVec.ofNat 2 n })
  else if o = 0x108 then free { d with tinvRoot := BitVec.ofNat 40 (fld n 12 40) }
  else if o = 0x110 then free { d with tinvVa := BitVec.ofNat 32 (fld n 16 32) }
  else if o = 0x118 then free { d with tinvLen := BitVec.ofNat 32 n }
  else if o = 0x120 then (if d.bamaddr = 0 then d else { d with bamaddr := BitVec.ofNat 45 (fld n 7 45) })
  else if o = 0x128 then
    (if d.remapGo || goBit v then d else { d with remapDir := v.getLsbD 9, remapPch := BitVec.ofNat 9 n })
  else if o = 0x138 then { d with ptbase := BitVec.ofNat 38 (fld n 14 38) }
  else if o = 0x200 then { d with winbase := BitVec.ofNat 16 (fld n 36 16) }
  else if o = 0x210 then { d with rwbase := BitVec.ofNat 27 (fld n 21 27) }
  else if o = 0x218 then { d with rwlen := BitVec.ofNat 32 n }
  else d

/-- The bits of MGCMD that hold what is written. -/
def mgMask : W64 := 0x0000000000FFFFFF

/-- A mailbox item without behaviour of its own written. -/
def State.writeMail (s : State) (o : Nat) (v : W64) : State :=
  if o = 0 then
    (if s.dev.mail.go || goBit v then s else s.modDev fun d => { d with mail := { d.mail with cmd := v &&& mgMask } })
  else if o = 0x10 then s.modDev fun d => { d with mail := { d.mail with head := BitVec.ofNat 16 v.toNat } }
  else if mailData ≤ o then s.poke (mailBase + o) (leBytes 8 v.toNat)
  else s

/-- REGISTER_WRITE: a 64-bit write at a BAR0 offset; one the window does not name is ignored (14 R431). -/
def execRegisterWrite (off : Nat) (v : W64) (s : State) : Host.Outcome State Fault Refusal :=
  .next (if off % 8 ≠ 0 then s
    else if mailBlock ≤ off ∧ off < mailBlock + mailBlockSize then s.writeMail (off - mailBlock) v
    else if !s.up then s
    else if off < 0x1000 then s.modDev (writeDeviceReg off v)
    else if clusterBlock ≤ off ∧ off < clusterBlock + 24 * clusterBlockSize then
      s.modCluster (clusterAt ((off - clusterBlock) / clusterBlockSize)) (writeClusterReg ((off - clusterBlock) % clusterBlockSize) v)
    else s)

/-- QTAIL_WRITE: QPTR of queue q of a cluster written, a release of the tickets before it; TAIL is taken modulo the ring,
unless LAUNCH writes it (09 R316; 10 R331, R332). -/
def execQtailWrite (cl : ClusterId) (q : Fin 8) (v : W64) (s : State) : Host.Outcome State Fault Refusal :=
  let u := (s.cluster cl).queues.get q
  .next (if !s.up || u.owner then s
    else s.modCluster cl fun k => k.setTail q.val (BitVec.ofNat 16 (fld v.toNat 32 16 % u.slots)) (s.outerView hostObs))

/-- An imposition entry as the host reads it (11 R359). -/
def impWord (e : ImpEnt) : Nat := e.av.toNat * 2 ^ 15 + e.soft.toNat * 2 ^ 14 + e.phys.toNat

/-- What a BAR0 read of a cluster block gives. -/
def readClusterReg (s : State) (cl : ClusterId) (o : Nat) : Nat :=
  let k := s.cluster cl
  let q := vget k.queues (o / 0x20)
  if o < 0x100 then
    (if o % 0x20 = 0 then q.en.toNat * 2 ^ 31 + q.owner.toNat * 2 ^ 30 + q.size.toNat
     else if o % 0x20 = 8 then q.base.toNat * 128
     else if o % 0x20 = 16 then q.root.toNat * 4096
     else q.tail.toNat * 2 ^ 32 + q.head.toNat)
  else if o = 0x200 then k.impcmd.toNat % 2 ^ 63 + k.impGo.toNat * 2 ^ 63
  else if o = 0x208 then k.imperr
  else if o = 0x300 then k.spbase.toNat * 2 ^ 21
  else if o = 0x308 then k.spcount.toNat
  else if 0x310 ≤ o ∧ o ≤ 0x348 then
    ((upTo 64).map fun b => if k.slots.any (fun p => p.1 == 64 * ((o - 0x310) / 8) + b) then 2 ^ b else 0).foldl (· + ·) 0
  else if o = 0x350 then k.jcmd.toNat % 2 ^ 63 + k.jgo.toNat * 2 ^ 63
  else if o = 0x358 then k.jslot % 512 * 256 + k.jerr
  else if o = 0x360 then k.gateidle.toNat
  else if 0x1000 ≤ o ∧ o < 0x1000 + 48 * 0x80 then
    let c := s.core (coreAt (cl.val * 48 + (o - 0x1000) / 0x80))
    let i := (o - 0x1000) % 0x80 / 2
    leNat (((upTo 4).map fun j => leBytes 2 (impWord (vget c.imp (i + j)))).flatten)
  else 0

/-- What a BAR0 read of the device block gives. -/
def readDeviceReg (d : Device) (o : Nat) : Nat :=
  if o = 0x000 then d.fqbase.toNat * 128
  else if o = 0x008 then d.fqsize.toNat
  else if o = 0x010 then d.fqtail.toNat * 2 ^ 32 + d.fqhead.toNat
  else if o = 0x018 then d.fqlost.toNat
  else if o = 0x100 then d.inval.isSome.toNat * 2 ^ 63 + d.tinvKind.toNat
  else if o = 0x108 then d.tinvRoot.toNat * 4096
  else if o = 0x110 then d.tinvVa.toNat * 2 ^ 16
  else if o = 0x118 then d.tinvLen.toNat
  else if o = 0x120 then d.bamaddr.toNat * 128
  else if o = 0x128 then d.remapGo.toNat * 2 ^ 63 + d.remapDir.toNat * 512 + d.remapPch.toNat
  else if o = 0x130 then d.remapErr
  else if o = 0x138 then d.ptbase.toNat * 2 ^ 14
  else if 0x150 ≤ o ∧ o ≤ 0x168 then fld d.pside.toNat (64 * ((o - 0x150) / 8)) 64
  else if 0x170 ≤ o ∧ o ≤ 0x188 then fld d.pactive.toNat (64 * ((o - 0x170) / 8)) 64
  else if o = 0x200 then d.winbase.toNat * 2 ^ 36
  else if o = 0x208 then (match d.devnum with | none => 0 | some n => 256 + n.toNat)
  else if o = 0x210 then d.rwbase.toNat * 2 ^ 21
  else if o = 0x218 then d.rwlen.toNat
  else if o = 0x220 then d.cxlCap.toNat * 2 ^ 16 + d.cxlList.toNat
  else 0

/-- What a BAR0 read of the mailbox gives (14 R436). -/
def readMail (s : State) (o : Nat) : Nat :=
  let m := s.dev.mail
  if o = 0 then m.go.toNat * 2 ^ 63 + m.cmd.toNat % 2 ^ 24
  else if o = 8 then m.err
  else if o = 0x10 then m.head.toNat
  else if o = 0x18 then m.tail.toNat
  else if 0x400 ≤ o ∧ o < 0xC00 then
    let e := vget m.ring ((o - 0x400) / 32)
    (if o % 32 = 0 then e.code % 2 ^ 16 + e.src % 2 ^ 16 * 2 ^ 16 + e.arg % 2 ^ 32 * 2 ^ 32
     else e.arg / 2 ^ (32 + 64 * (o % 32 / 8 - 1)) % 2 ^ 64)
  else if 0xC00 ≤ o ∧ o < 0xC00 + 24 * 8 then vget m.replays ((o - 0xC00) / 8)
  else if mailData ≤ o ∧ o < mailBlockSize then leNat (readCells s.mem (mailBase + o) 8)
  else 0

/-- The value of a 64-bit BAR0 read; before boot is done only the mailbox answers (14 R431, R444). -/
def State.registerRead (s : State) (off : Nat) : W64 :=
  BitVec.ofNat 64
    (if off % 8 ≠ 0 then 0
     else if mailBlock ≤ off ∧ off < mailBlock + mailBlockSize then readMail s (off - mailBlock)
     else if !s.up then 0
     else if off < 0x1000 then readDeviceReg s.dev off
     else if clusterBlock ≤ off ∧ off < clusterBlock + 24 * clusterBlockSize then
       readClusterReg s (clusterAt ((off - clusterBlock) / clusterBlockSize)) ((off - clusterBlock) % clusterBlockSize)
     else 0)

/-! The memory window (14 R430, R434). -/

/-- Bytes of BAR2. -/
def bar2Size : Nat := 2 ^ 36

/-- Physical address a BAR2 offset reaches. -/
def State.bar2 (s : State) (off : Nat) : Nat := s.dev.winbase.toNat * 2 ^ 36 + off

/-- n bytes at a BAR2 offset are memory the form of 08 R267 reaches. -/
def State.bar2Ok (s : State) (off n : Nat) (use : Use) : Bool :=
  decide (off + n ≤ bar2Size) && s.targetCode (s.bar2 off) n 0 use == 0

/-- An access outside the forms of 08 R267 reported through the PCI Express error mechanism (14 R434). -/
def State.pcieError (s : State) : State := s.modDev fun d => { d with pcieErrors := d.pcieErrors + 1 }

/-- n bytes at a key wait for the remapping step, or for a sweep (08 R275; 11 R365). -/
def State.keyWaits (s : State) (k n : Nat) : Bool := s.stalled ⟨k, n, 0, false⟩

/-- HOST_WINDOW_WRITE: a release at device scope; one outside the forms is dropped and reported (14 R434). -/
def execHostWindowWrite (off : Nat) (bytes : List Byte) (s : State) : Host.Outcome State Fault Refusal :=
  let k := s.keyOfPa (s.bar2 off)
  .next (if !s.up then s
    else if !s.bar2Ok off bytes.length .write then s.pcieError
    else if s.keyWaits k bytes.length then s
    else s.outerWrite hostObs true k bytes)

/-- HOST_WINDOW_READ: an acquire at device scope; the bytes returned to the host, all ones outside the forms, which is
reported (14 R434). -/
def execHostWindowRead (off n : Nat) (s : State) : Host.Outcome State Fault Refusal :=
  let k := s.keyOfPa (s.bar2 off)
  let answer (bs : List Byte) (s : State) : State := s.modDev fun d => { d with hostRead := bs }
  .next (if !s.up then s
    else if !s.bar2Ok off n .read then answer ((upTo n).map fun _ => BitVec.allOnes 8) s.pcieError
    else if s.keyWaits k n then s
    else
      let r := s.outerRead hostObs true k n
      answer r.1 r.2)

/-! The fabric (14 R439, R440). -/

/-- Key of an offset another device names in target 0x3: own HBM, or the scratchpad window (08 R267). -/
def remoteKey (a : Nat) : Nat := if a.testBit 39 then 4 * 2 ^ 48 + a % 2 ^ 39 else a % 2 ^ 39

/-- n bytes at such an offset exist. -/
def State.remoteOk (s : State) (a n : Nat) : Bool :=
  if a.testBit 39 then s.windowCode (a % 2 ^ 39) == 0 && decide (a % 2 ^ 20 + n ≤ 2 ^ 20)
  else decide (a % 2 ^ 39 + n ≤ s.hbmCap)

/-- Bytes a request of another device names. -/
def remoteLength : RemoteReq → Nat
  | .read n _ => n
  | .write bs _ => bs.length
  | .amo _ n _ _ _ _ => n

/-- A request performed at a key for another device. -/
def State.remoteDo (s : State) (o k : Nat) (req : RemoteReq) : State :=
  let touched (n : Nat) : State := { s with memErr := clearSingles s.memErr k n }
  match req with
  | .read n acq => ((touched n).outerRead o acq k n).2
  | .write bs rel => s.outerWrite o rel k bs
  | .amo op n b cmp acq rel =>
    if s.badData k n then s
    else
      let old := leNat (readCells s.mem k n)
      let s1 := ((touched n).outerSaw o acq ⟨k, n, 8, false⟩ s.stamp).outerWrite o rel k (leBytes n (amoNew op n old b.toNat cmp.toNat))
      { s1 with rels := atomicRuns s.rels k n s1.stamp ++ s1.rels }

/-- REMOTE_ACCESS: performed at this device's memory port; what a read or an AMO returns goes to the other device. -/
def execRemoteAccess (dev : BitVec 8) (addr : Nat) (req : RemoteReq) (s : State) : Host.Outcome State Fault Refusal :=
  let k := remoteKey addr
  .next (if !s.remoteOk addr (remoteLength req) || s.keyWaits k (remoteLength req) then s else s.remoteDo (deviceObs dev.toNat) k req)

/-- A place lies at keys of a kind now. -/
def State.pieceIn (s : State) (hit : Nat → Bool) (p : Piece) : Bool := (upTo p.n).any fun i => hit (s.keyOf p.loc + i)

/-- The send-buffer entries of a core without those, or the parts of those, at keys of a kind; an AMO so dropped, and a
load that has not landed, poison their destinations with 0x13 (14 R438, R440). -/
def State.cutOff (s : State) (hit : Nat → Bool) (c : CoreId) : State :=
  let x := s.ctx c
  let lost (b : SbEntry) : Bool := match b.amo with | some a => s.pieceIn hit a.piece | none => false
  let kept := (x.sb.filter fun b => !lost b).map fun b =>
    { b with chunks := b.chunks.filter fun ch => !s.pieceIn hit ⟨ch.loc, ch.bytes.length, ch.via, ch.so⟩ }
  let bad (a : BitVec 48) (lane : Nat) : Poison := ⟨0x13, a, BitVec.ofNat 6 lane⟩
  let fixAmo (p : Pend) : Pend :=
    match x.sb.find? fun b => lost b && b.eng == p.eng && b.seq == p.seq with
    | some b => match b.amo, p.what with
      | some a, .amo => { p with what := .value 0, poison := some (bad a.addr 0) }
      | _, _ => p
    | none => p
  let fixLoad (p : Pend) : Pend :=
    match p.what with
    | .load els =>
      match els.find? fun e => s.pieceIn hit e.piece with
      | none => p
      | some e =>
        let rest := els.filter fun e => !s.pieceIn hit e.piece
        { p with poison := some (p.poison.getD (bad e.addr e.lane)), what := if rest = [] then .value 0 else .load rest }
    | _ => p
  s.modCtx c fun y =>
    { y with sb := kept.filter fun b => b.amo.isSome || !b.chunks.isEmpty, pend := (y.pend.map fixAmo).map fixLoad }

/-- Some entry of a core's send buffer is at keys of a kind. -/
def State.hasEntry (s : State) (hit : Nat → Bool) (c : CoreId) : Bool :=
  (s.ctx c).sb.any fun b =>
    (match b.amo with | some a => s.pieceIn hit a.piece | none => false)
      || b.chunks.any fun ch => s.pieceIn hit ⟨ch.loc, ch.bytes.length, ch.via, ch.so⟩

/-- Entries of every core at keys of a kind dropped, event 8 logged where there were any. -/
def State.dropAt (s : State) (hit : Nat → Bool) (src : Nat) : State :=
  let s1 := allCores.foldl (fun s c => s.cutOff hit c) s
  if allCores.any (s.hasEntry hit) then s1.logEvent 8 src 0 else s1

/-- CXL_PORT_DOWN (14 R438). -/
def execCxlPortDown (port : Fin 8) (s : State) : Host.Outcome State Fault Refusal :=
  let hit (k : Nat) : Bool := k / 2 ^ 48 == 1 && s.portOf (k % 2 ^ 48) == port.val
  .next (if !s.dev.cxlList.getLsbD port.val || s.dev.cxlDown.getLsbD port.val then s
    else
      let bit : BitVec 8 := BitVec.ofNat 8 (2 ^ port.val)
      ((s.modDev fun d => { d with cxlDown := d.cxlDown ||| bit }).logEvent 6 port.val 0).dropAt hit port.val)

/-- DEVICE_UNREACHABLE: REACH clears (14 R440). -/
def execDeviceUnreachable (dev : BitVec 8) (s : State) : Host.Outcome State Fault Refusal :=
  let hit (k : Nat) : Bool := k / 2 ^ 48 == 3 && k % 2 ^ 48 / 2 ^ 40 == dev.toNat
  .next (if (s.route dev.toNat).isNone then s
    else ((s.modDev fun d => { d with routes := d.routes.filter fun r => r.1 != dev.toNat }).logEvent 7 0 dev.toNat).dropAt
      hit 0)

end Sys2Proof.Machine
end

