-- ==== Sys2Proof/Machine/MCtl.lean ====
section
/-! DEFINITION. M's stream fields, mode, values, fences, loops and end (06 R229–R234). -/

namespace Sys2Proof.Machine

/-- A field of a stream written with a value; its number as 06 R209 gives it. -/
def OStream.put (o : OStream) (n : Nat) (v : W32) : OStream :=
  if n = 0 then { o with base := (o.base >>> 32 <<< 32) ||| v.zeroExtend 48 }
  else if n = 1 then { o with base := ((v.truncate 16 : BitVec 16).zeroExtend 48 <<< 32) ||| (o.base.truncate 32 : W32).zeroExtend 48 }
  else if n = 2 then { o with space := v.truncate 2 }
  else if n = 3 then { o with fmt := v.truncate 4 }
  else if n = 4 then { o with rowp := v.truncate 20 }
  else if n = 5 then { o with tilep := v }
  else if n = 6 then { o with rot := v.truncate 4 }
  else if n = 7 then { o with geo := v.getLsbD 0 }
  else if n = 8 then { o with soff := v.truncate 24 }
  else if n = 9 then { o with sstr := v.truncate 16 }
  else { o with seed := v }

/-- imm24 from cr:imm12, sign-extended for ROWP, TILEP and SOFF (06 R229). -/
def fieldImm (f : FSys) : W32 :=
  let v : BitVec 24 := f.cr ++ f.imm12
  if f.fa = 4 ∨ f.fa = 5 ∨ f.fa = 8 then v.signExtend 32 else v.zeroExtend 32

/-- Stream j of M changed and the command entered in the window (06 R216). -/
def setField (j : Nat) (g : OStream → OStream) (m : MState) : MState :=
  { m with os := vmod m.os (j - 32) g }.enter .other

/-- MOSSET (06 R229). -/
def execMosset (f : FSys) (s : State) : Host.Outcome State Fault Refusal :=
  .next (issue .m f.w (mossetOk f) false
    (fun k s => .retire none (s.modM k.c fun m =>
      setField f.fd.toNat (fun o => o.put f.fa.toNat (if f.sub = 0 then fieldImm f else m.mv)) m)) s)

/-- mv added to BASE, ROWP, TILEP or SOFF (06 R229). -/
def OStream.bump (o : OStream) (n : Nat) (v : W32) : OStream :=
  if n = 0 then { o with base := o.base + v.signExtend 48 }
  else if n = 4 then { o with rowp := o.rowp + v.truncate 20 }
  else if n = 5 then { o with tilep := o.tilep + v }
  else { o with soff := o.soff + v.truncate 24 }

/-- MOSSET.add (06 R229). -/
def execMossetAdd (f : FSys) (s : State) : Host.Outcome State Fault Refusal :=
  .next (issue .m f.w (mossetAddOk f) false
    (fun k s => .retire none (s.modM k.c fun m => setField f.fd.toNat (fun o => o.bump f.fa.toNat m.mv) m)) s)

/-- RED switched: the window and the accumulators start afresh; the same value changes nothing (06 R221). -/
def MState.setRed (m : MState) (v : Bool) : MState :=
  if m.red = v then m
  else { m with red := v, window := [], acc := Vector.replicate 8 accZero, marker := Vector.replicate 8 none,
                replays := Vector.replicate 8 0 }

/-- MMODE with sub 0 (06 R230). -/
def execMmode (f : FSys) (s : State) : Host.Outcome State Fault Refusal :=
  .next (issue .m f.w (mmodeOk 0 f) false
    (fun k s => .retire none (s.modM k.c fun m => m.setRed (f.imm12.getLsbD 0))) s)

/-- MMODE with sub 1: TSEED (06 R230). -/
def execMmodeSeed (f : FSys) (s : State) : Host.Outcome State Fault Refusal :=
  .next (issue .m f.w (mmodeOk 1 f) false
    (fun k s => .retire none (s.modM k.c fun m => { m with tseed := m.mv })) s)

/-- MTKSEND: mv, or one pattern unchecked (06 R231). -/
def execMtksend (f : FSys) (s : State) : Host.Outcome State Fault Refusal :=
  .next (issue .m f.w (mtksendOk f) false
    (fun k s =>
      let m := (s.ctx k.c).m
      .retire (some (if f.sub = 0 then m.mv
        else pat (vget m.acc f.fa.toNat) (fld f.imm12.toNat 6 6) (fld f.imm12.toNat 0 6))) s) s)

/-- MTKRECV (06 R231). -/
def execMtkrecv (f : FSys) (s : State) : Host.Outcome State Fault Refusal :=
  .next (issue .m f.w (mtkrecvOk f) false
    (fun k s => .retire none (s.modM k.c fun m => { m with mv := BitVec.ofNat 32 (popVal 0xFFFFFFFF (k.got.getD none)) })) s)

def execMfence (f : FSys) (s : State) : Host.Outcome State Fault Refusal :=
  .next (issue .m f.w (mfenceOk f) false (fenceBody f .m) s)

def execMloop (f : FBr) (s : State) : Host.Outcome State Fault Refusal :=
  .next (issue .m f.w (mloopOk f) false (loopBody .m f (tripCount f) false 0) s)

def execMloopr (f : FBr) (s : State) : Host.Outcome State Fault Refusal :=
  .next (issue .m f.w (mloopOk f) false
    (fun k s => loopBody .m f (s.ctx k.c).m.mv.toNat false 0 k s) s)

def execMjmp (f : FBr) (s : State) : Host.Outcome State Fault Refusal :=
  .next (issue .m f.w (mjmpOk f) false (fun k s => .jump (target k.pc f.off) s) s)

/-- The end word of an engine with stores only: it retires once they are performed, and the stream enters Done (06
R234). -/
def endBody (e : Eng) (k : Wd) (s : State) : Out :=
  if drained e (s.ctx k.c) then .last s (enterDone k.c e) else .wait

/-- MEND; its pop and push fields act as those of every word (06 R222; DEDUCED, log entry 97), and so do those of VEND, PEND,
TRAP, ERET, HALT and HALT.chain. -/
def execMend (f : FSys) (s : State) : Host.Outcome State Fault Refusal :=
  .next (issue .m f.w (mendOk f) false (endBody .m) s)

def execMnop (w : Common) (s : State) : Host.Outcome State Fault Refusal := .next (issueHint .m w (toksOk .m w) s)

end Sys2Proof.Machine
end

