-- ==== Sys2Proof/Machine/PBank.lean ====
section
/-! DEFINITION. P's scratch banks, shape entries and bank demand (07 R239, R241–R246; 12 R388; 13 R407). -/

namespace Sys2Proof.Machine

/-- Bank words. -/
def bankWords : Nat := 8192

/-- A bank address as an instruction forms it: modulo 8192 (07 R239). -/
def bankAddr (a : Nat) : Nat := a % bankWords

/-- The word at a bank address. -/
def bankAt (x : Ctx) (a : Nat) : W32 := vget x.p.banks (bankAddr a)

/-- A bank word written with a fresh code. -/
def setBank (a : Nat) (v : W32) (x : Ctx) : Ctx :=
  { x with p := { x.p with banks := vset x.p.banks (bankAddr a) v },
           errs := x.errs.filter fun e => e.1 != .bank (bankAddr a) }

/-- Words written in turn. -/
def setBanks (ws : List (Nat × W32)) (x : Ctx) : Ctx := ws.foldl (fun x w => setBank w.1 w.2 x) x

/-- A fault at a bank word: REG the bank, ADDR the bank address (07 R239). -/
def bankFault (a : Nat) : Trap := { fltAddr 0x11 (bankAddr a) with reg := some (bankAddr a % 16) }

/-- The check of the words a P word reads, in order (07 R239). -/
def chkBanks (x : Ctx) (as : List Nat) : Chk :=
  if x.errs = [] then .ok
  else match as.find? fun a => siteMark x.errs (.bank (bankAddr a)) == .double with
    | some a => .bad (bankFault a)
    | none => .ok

/-- Reading some words: the fault, or the effect with single-bit errors corrected. -/
def withBanks (as : List Nat) (body : Wd → State → Out) (k : Wd) (s : State) : Out :=
  match chkBanks (s.ctx k.c) as with
  | .bad t => .fault t s
  | .wait => .wait
  | .ok => body k (if (s.ctx k.c).errs = [] then s else s.correct k.c (as.map fun a => Site.bank (bankAddr a)))

/-! Shapes (07 R241–R243). -/

/-- Node n is present. -/
def present (e : BitVec 128) (n : Nat) : Bool := decide (n < 15) && e.getLsbD n

/-- Node n is a product node. -/
def isProd (e : BitVec 128) (n : Nat) : Bool := decide (n < 15) && e.getLsbD (15 + n)

/-- Offset of leaf j. -/
def leafOff (e : BitVec 128) (j : Nat) : Nat := fld e.toNat (32 + 6 * j) 6

/-- The used nodes and leaves: bits of the child numbers 0–30, the nodes taken in ascending order (07 R242). -/
def usedSet (e : BitVec 128) : Nat :=
  (upTo 15).foldl
    (fun u n =>
      if u.testBit n then u ||| 2 ^ (2 * n + 1) ||| (if present e n then 2 ^ (2 * n + 2) else 0) else u) 1

/-- Child number c is used. -/
def used (e : BitVec 128) (c : Nat) : Bool := (usedSet e).testBit c

/-- The used leaves, ascending. -/
def usedLeaves (e : BitVec 128) : List Nat := (upTo 16).filter fun j => used e (15 + j)

/-- The used present sum nodes, ascending. -/
def sumNodes (e : BitVec 128) : List Nat := (upTo 15).filter fun n => used e n && present e n && !isProd e n

/-- The lowest offence of an entry: a node, or 15 for the reserved bits (07 R243). -/
def shapeOffence (e : BitVec 128) : Option Nat :=
  match (upTo 15).find? fun n => (present e n && !used e n) || (isProd e n && !present e n) with
  | some n => some n
  | none => if e.getLsbD 30 || e.getLsbD 31 then some 15 else none

/-! Bank demand (07 R245). -/

/-- A phase: the addresses read and written. -/
structure BankPhase where
  reads : List Nat
  writes : List Nat
  deriving DecidableEq, Repr

/-- Accesses of a list in bank b. -/
def inBank (as : List Nat) (b : Nat) : Nat := (as.filter fun a => bankAddr a % 16 == b).length

/-- Clk that bank b needs in a phase. -/
def bankClk (p : BankPhase) (b : Nat) : Nat := max (ceilDiv (inBank p.reads b) 4) (ceilDiv (inBank p.writes b) 2)

/-- Excess of a phase. -/
def phaseExcess (p : BankPhase) : Nat := (upTo 16).foldl (fun m b => max m (bankClk p b)) 0 - 1

/-- Excess of a word: the sum over its phases. -/
def excess (ps : List BankPhase) : Nat := ps.foldl (fun t p => t + phaseExcess p) 0

/-- Lowest bank with excess demand. -/
def excessBank (ps : List BankPhase) : Nat :=
  ((upTo 16).find? fun b => ps.any fun p => decide (1 < bankClk p b)).getD 0

/-- The weights of the sum nodes: two words each (07 R251). -/
def weightAddrs (e : BitVec 128) (w : Nat) : List Nat := ((sumNodes e).map fun n => [w + n, w + 16 + n]).flatten

/-- Block addresses of an F-SPE word (07 R250). -/
def baseW (f : FSpe) : Nat := 16 * f.basew.toNat
def baseL (f : FSpe) : Nat := 16 * f.basel.toNat
def baseO (f : FSpe) : Nat := 16 * f.baseo.toNat

/-- Level a subtree word needs (12 R388). -/
def subtreeLevel : Nat := 3

/-- A subtree word in the order of 13 R407: its shape entry's code (0x10) and form (0x51), power (0x21), demand under
STRICT (0x50), its reads (0x11), then its effect; the excess is counted (12 R402). -/
def subtree (f : FSpe) (phases : BitVec 128 → List BankPhase) (effect : BitVec 128 → Ctx → Ctx) (k : Wd) (s : State) :
    Out :=
  let h := s.core k.c
  let x := h.ctx
  let i := f.shape.toNat
  let e := vget x.p.shapes i
  let ps := phases e
  let n := excess ps
  if siteMark x.errs (.shape i) = .double then .fault (storageFault 5 (some i) 0 true) s
  else match shapeOffence e with
    | some d => .fault { fltAddr 0x51 d with reg := some i } s
    | none =>
      if h.pwr.level < subtreeLevel then .fault (flt 0x21) s
      else if x.p.strict && decide (0 < n) then .fault { fltAddr 0x50 n with reg := some (excessBank ps) } s
      else
        withBanks (ps.map (·.reads)).flatten
          (fun k s => .retire none (((s.correct k.c [.shape i]).count k.c 14 n).modCtx k.c (effect e))) k s

end Sys2Proof.Machine
end

