-- ==== Sys2Proof/Machine/PCtl.lean ====
section
/-! DEFINITION. P's mode, values, loops, transfers and end (07 R256–R261; 08 R290). -/

namespace Sys2Proof.Machine

/-- P's state changed by f. -/
def State.modP (s : State) (c : CoreId) (f : PState → PState) : State := s.modCtx c fun x => { x with p := f x.p }

/-- PMODE (07 R256). -/
def execPmode (f : FSys) (s : State) : Host.Outcome State Fault Refusal :=
  .next (issue .p f.w (pmodeOk f) false
    (fun k s => .retire none (s.modP k.c fun p =>
      { p with mode := BitVec.ofNat 2 (fld f.imm12.toNat 0 2), strict := f.imm12.getLsbD 2 })) s)

/-- Bank address of a token word: parcel 1 [12:0] (07 R257). -/
def tokenBank (f : FSys) : Nat := fld ((f.cr ++ f.imm12 : BitVec 24).toNat) 0 13

/-- PTKSEND (07 R257). -/
def execPtksend (f : FSys) (s : State) : Host.Outcome State Fault Refusal :=
  .next (issue .p f.w (ptksendOk f) false
    (fun k s =>
      if f.sub = 0 then .retire (some (s.ctx k.c).p.pv) s
      else withBanks [tokenBank f] (fun k s => .retire (some (bankAt (s.ctx k.c) (tokenBank f))) s) k s) s)

/-- PTKRECV (07 R257). -/
def execPtkrecv (f : FSys) (s : State) : Host.Outcome State Fault Refusal :=
  .next (issue .p f.w (ptkrecvOk f) false
    (fun k s =>
      let v : W32 := BitVec.ofNat 32 (popVal 0xFFFFFFFF (k.got.getD none))
      .retire none
        (if f.sub = 0 then s.modP k.c fun p => { p with pv := v } else s.modCtx k.c (setBank (tokenBank f) v))) s)

def execPloop (f : FBr) (s : State) : Host.Outcome State Fault Refusal :=
  .next (issue .p f.w (ploopOk f) false (loopBody .p f (tripCount f) false 0) s)

def execPloopr (f : FBr) (s : State) : Host.Outcome State Fault Refusal :=
  .next (issue .p f.w (ploopOk f) false (fun k s => loopBody .p f (s.ctx k.c).p.pv.toNat false 0 k s) s)

def execPjmp (f : FBr) (s : State) : Host.Outcome State Fault Refusal :=
  .next (issue .p f.w (pjmpOk f) false (fun k s => .jump (target k.pc f.off) s) s)

def execPfence (f : FSys) (s : State) : Host.Outcome State Fault Refusal :=
  .next (issue .p f.w (pfenceOk f) false (fenceBody f .p) s)

/-- PEND; its pop and push act as those of every word (07 R264; DEDUCED, log entry 97). -/
def execPend (f : FSys) (s : State) : Host.Outcome State Fault Refusal :=
  .next (issue .p f.w (pendOk f) false (endBody .p) s)

def execPnop (w : Common) (s : State) : Host.Outcome State Fault Refusal := .next (issueHint .p w (toksOk .p w) s)

/-! Transfers (08 R290). -/

/-- Bank address of a transfer. -/
def xferBank (f : FMem) : Nat := f.fd.toNat * 128 + f.fb.toNat * 2 + f.fa.toNat % 2

/-- Words of a transfer. -/
def xferWords (f : FMem) : Nat := if f.size = 5 then 16 else 2 ^ (f.size.toNat - 2)

/-- Scratchpad address of a transfer. -/
def xferAddr (x : Ctx) (f : FMem) : Nat := (x.p.pv.zeroExtend 64 + f.disp.signExtend 64 : W64).toNat

/-- The place of n bytes of a transfer: the form, then alignment to 4 (08 R281, R290). -/
def xferRef (c : CoreId) (a n : Nat) : Checked :=
  if !spForm a n then .bad 0x05 else if a % 4 ≠ 0 then .bad 0x06 else spRef c a n

/-- Word m of the bytes of a transfer is uncorrectable. -/
def State.badWord (s : State) (c : CoreId) (a m : Nat) : Bool :=
  s.badFor (s.ctx c) .p (s.ctx c).seq 5 (spAddrKey c (a + 4 * m)) 4

/-- The loaded words written, those from uncorrectable data with an uncorrectable code. -/
def loadBanks (base : Nat) (bs : List Byte) (bad : List Nat) (n : Nat) (x : Ctx) : Ctx :=
  let y := setBanks ((upTo n).map fun m => (base + m, BitVec.ofNat 32 (leNat ((bs.drop (4 * m)).take 4)))) x
  { y with errs := (bad.map fun m => (Site.bank (bankAddr (base + m)), true)) ++ y.errs }

/-- A load of P: 4-byte words, each a read of its own, as P's stream sees them, with the words that are uncorrectable. -/
def pLoad (ok : Bool) (f : FMem) (n : Nat) (effect : List Byte → List Nat → Ctx → Ctx) (s : State) : State :=
  issue .p f.w ok false
    (fun k s =>
      let x := s.ctx k.c
      let a := xferAddr x f
      match xferRef k.c a (4 * n) with
      | .bad code => .fault (accessFault code a none 0) s
      | .ok r =>
        if s.mustHold x .p r || sbFull x then .wait
        else
          let bad := (upTo n).filter (s.badWord k.c a)
          let q := s.readPieces k.c .p x.seq (acqScope f) (r.pieces.map fun p => cutPiece p 4).flatten
          .retire none ((q.2.touchRef k.c r).modCtx k.c (effect q.1 bad))) s

def execPld (f : FMem) (s : State) : Host.Outcome State Fault Refusal :=
  .next (pLoad (pldOk f) f (xferWords f) (fun bs bad => loadBanks (xferBank f) bs bad (xferWords f)) s)

/-- The shape form. -/
def execPldShape (f : FMem) (s : State) : Host.Outcome State Fault Refusal :=
  .next (pLoad (pldShapeOk f) f 4
    (fun bs bad x =>
      let y := writeShape f.fd.toNat (BitVec.ofNat 128 (leNat bs)) x
      if bad = [] then y else { y with errs := (.shape f.fd.toNat, true) :: y.errs }) s)

/-- PST: the bank words under their codes, each 4-byte word a write of its own. -/
def execPst (f : FMem) (s : State) : Host.Outcome State Fault Refusal :=
  .next (issue .p f.w (pstOk f) false
    (fun k s =>
      let x := s.ctx k.c
      let a := xferAddr x f
      let n := xferWords f
      match xferRef k.c a (4 * n) with
      | .bad code => .fault (accessFault code a none 0) s
      | .ok _ =>
        if sbFull x then .wait
        else withBanks ((upTo n).map (xferBank f + ·))
          (fun k s => .retire none (s.issueStore k.c .p (relScope f)
            ((upTo n).map fun m =>
              ⟨.phys (spAddrKey k.c (a + 4 * m)), leBytes 4 (bankAt x (xferBank f + m)).toNat, 5, false⟩))) k s) s)

end Sys2Proof.Machine
end

