-- ==== Sys2Proof/Machine/PEval.lean ====
section
/-! DEFINITION. The subtree and run words of P (07 R250–R255; 02 R63, R76). -/

namespace Sys2Proof.Machine

/-- P computes in SPF. -/
def spfMode (p : PState) : Bool := p.mode == 2

/-- An SPF word in canonical form: non-canonical zeros and invalid words take theirs (02 R61, 07 R244). -/
def spfCanon (w : W32) : W32 :=
  let e := w.toNat % 4096
  if e = 0 then spfZero else if e = 4095 ∧ w.toNat / 4096 ≠ 0 then spfInvalid else w

/-- A word in the mode's leaf format, as a word in node format (07 R244). An FP32 leaf keeps its bits, a NaN's as well (DESIGN
CHOICE, log entry 108). -/
def leafWord (mode : BitVec 2) (w : W32) : W32 :=
  if mode = 1 then widenBf16 w.toNat else if mode = 2 then spfCanon w else w

/-- A word in node format as written by a pass-through (07 R244). -/
def nodeWord (mode : BitVec 2) (w : W32) : W32 := if mode = 2 then spfCanon w else w

/-- Values of children 0–30, the flags set, and the decision bits. -/
structure Up where
  val : Vector W32 31
  flags : SpfFlags
  dec : Nat

/-- Node n of an upward evaluation; wl and wr give the weights in node format (07 R251). The decision bit compares the
products as numbers: of −0 and +0 neither is the larger, and the bit is 0 (DESIGN CHOICE, log entry 107). -/
def upNode (spf maxNodes : Bool) (e : BitVec 128) (wl wr : Nat → W32) (u : Up) (n : Nat) : Up :=
  let a := vget u.val (2 * n + 1)
  let b := vget u.val (2 * n + 2)
  let va := nodeVal spf a
  let vb := nodeVal spf b
  if !used e n then { u with val := vset u.val n 0 }
  else if !present e n then { u with val := vset u.val n a }
  else
    let l := (nodeVal spf (wl n)).mul va
    let r := (nodeVal spf (wr n)).mul vb
    let q := nodeRound spf (if isProd e n then va.mul vb else if maxNodes then l.max r else l.add r)
    { val := vset u.val n q.1, flags := orFlags u.flags q.2,
      dec := if maxNodes && !isProd e n && l.lt r then u.dec + 2 ^ n else u.dec }

/-- The upward evaluation: leaves, then nodes 14 down to 0 (07 R251). -/
def evalUp (f : FSpe) (maxNodes : Bool) (e : BitVec 128) (x : Ctx) : Up :=
  let mode := x.p.mode
  let rd (a : Nat) : W32 := leafWord mode (bankAt x a)
  let start : Vector W32 31 := Vector.ofFn fun c =>
    if 15 ≤ c.val ∧ used e c.val then rd (baseL f + leafOff e (c.val - 15)) else 0
  (upTo 15).reverse.foldl
    (upNode (spfMode x.p) maxNodes e (fun n => rd (baseW f + n)) (fun n => rd (baseW f + 16 + n))) ⟨start, 0, 0⟩

/-- flg[0]: `.save`, `.wg` of PDN, `.shift` of PNORM (07 R250). -/
def flag0 (f : FSpe) : Bool := f.flg.getLsbD 0

/-- flg[1]: `.dec` of PMAXUP (07 R250). -/
def flag1 (f : FSpe) : Bool := f.flg.getLsbD 1

/-- The phases of PUP and PMAXUP (07 R245). -/
def upPhases (f : FSpe) (dec : Bool) (e : BitVec 128) : List BankPhase :=
  let o := baseO f
  [⟨((usedLeaves e).map fun j => baseL f + leafOff e j) ++ weightAddrs e (baseW f), []⟩,
    ⟨[], (if flag0 f then (upTo 15).map (o + ·) ++ (upTo 16).map (o + 16 + ·) else [o])
      ++ if dec then [o + 15] else []⟩]

/-- The words PUP and PMAXUP write (07 R251, R252). -/
def upWrites (f : FSpe) (dec : Bool) (u : Up) : List (Nat × W32) :=
  let o := baseO f
  (o, vget u.val 0) :: ((if flag0 f then
      ((upTo 14).map fun i => (o + 1 + i, vget u.val (1 + i))) ++ (upTo 16).map fun j => (o + 16 + j, vget u.val (15 + j))
    else []) ++ if dec then [(o + 15, BitVec.ofNat 32 u.dec)] else [])

/-- An upward word's effect. -/
def upEffect (f : FSpe) (maxNodes dec : Bool) (e : BitVec 128) (x : Ctx) : Ctx :=
  let u := evalUp f maxNodes e x
  setSpf u.flags (setBanks (upWrites f dec u) x)

def execPup (f : FSpe) (s : State) : Host.Outcome State Fault Refusal :=
  .next (issue .p f.w (pSpeOk f) false (subtree f (upPhases f false) (upEffect f false false)) s)

def execPmaxup (f : FSpe) (s : State) : Host.Outcome State Fault Refusal :=
  .next (issue .p f.w (pSpeOk f) false (subtree f (upPhases f (flag1 f)) (upEffect f true (flag1 f))) s)

/-! PDN (07 R253). -/

/-- Derivatives of children 0–30 and the flags set. -/
structure Down where
  d : Vector W32 31
  flags : SpfFlags

/-- Saved value of child c (07 R252, R253). -/
def savedAt (x : Ctx) (o c : Nat) : W32 := nodeWord x.p.mode (bankAt x (if c < 15 then o + c else o + 16 + (c - 15)))

/-- Node n of the downward pass: the derivatives of its children. -/
def downNode (spf : Bool) (e : BitVec 128) (sv wl wr : Nat → W32) (u : Down) (n : Nat) : Down :=
  let d := vget u.d n
  let by_ (w : W32) : W32 × SpfFlags := nodeRound spf ((nodeVal spf d).mul (nodeVal spf w))
  if !used e n then u
  else if !present e n then { u with d := vset u.d (2 * n + 1) d }
  else
    let l := by_ (if isProd e n then sv (2 * n + 2) else wl n)
    let r := by_ (if isProd e n then sv (2 * n + 1) else wr n)
    { d := vset (vset u.d (2 * n + 1) l.1) (2 * n + 2) r.1, flags := orFlags u.flags (orFlags l.2 r.2) }

/-- The derivatives, formed before any gradient is written. -/
def evalDown (f : FSpe) (e : BitVec 128) (x : Ctx) : Down :=
  let o := baseO f
  let rd (a : Nat) : W32 := leafWord x.p.mode (bankAt x a)
  let start : Vector W32 31 := (Vector.replicate 31 0).set 0 (nodeWord x.p.mode (bankAt x (o + 15)))
  (upTo 15).foldl
    (downNode (spfMode x.p) e (savedAt x o) (fun n => rd (baseW f + n)) (fun n => rd (baseW f + 16 + n))) ⟨start, 0⟩

/-- An addition to a gradient location: it reads what every earlier addition wrote (07 R245). -/
def addGrad (spf : Bool) (a : Nat) (v : Ext) (x : Ctx) : Ctx :=
  let q := nodeRound spf ((nodeVal spf (bankAt x a)).add v)
  setSpf q.2 (setBank a q.1 x)

/-- The weight gradients of node n, from its derivative and the saved values of its children. -/
def addWeights (spf : Bool) (f : FSpe) (sv : Nat → W32) (u : Down) (x : Ctx) (n : Nat) : Ctx :=
  let term (c : Nat) : Ext := (nodeVal spf (vget u.d n)).mul (nodeVal spf (sv c))
  addGrad spf (baseW f + 48 + n) (term (2 * n + 2)) (addGrad spf (baseW f + 32 + n) (term (2 * n + 1)) x)

/-- The phases of PDN (07 R245). -/
def downPhases (f : FSpe) (e : BitVec 128) : List BankPhase :=
  let leaves := (usedLeaves e).map fun j => baseL f + leafOff e j
  let grads := ((sumNodes e).map fun n => [baseW f + 32 + n, baseW f + 48 + n]).flatten
  ⟨(upTo 32).map (baseO f + ·) ++ weightAddrs e (baseW f), []⟩ :: ⟨leaves, leaves⟩
    :: if flag0 f then [⟨grads, grads⟩] else []

/-- PDN's effect: leaf gradients in ascending leaf position, then weight gradients in ascending node. -/
def downEffect (f : FSpe) (e : BitVec 128) (x : Ctx) : Ctx :=
  let spf := spfMode x.p
  let sv := savedAt x (baseO f)
  let u := evalDown f e x
  let x1 := (usedLeaves e).foldl
    (fun y j => addGrad spf (baseL f + leafOff e j) (nodeVal spf (vget u.d (15 + j))) y) (setSpf u.flags x)
  if flag0 f then (sumNodes e).foldl (addWeights spf f sv u) x1 else x1

def execPdn (f : FSpe) (s : State) : Host.Outcome State Fault Refusal :=
  .next (issue .p f.w (pSpeOk f) false (subtree f (downPhases f) (downEffect f)) s)

/-! PNORM and PZERO (07 R254, R255). -/

/-- Length of a run. -/
def runLen (f : FSpe) : Nat := f.shape.toNat + 1

/-- The shift that brings the largest exponent of a run to that of 1.0. -/
def runShift (xs : List W32) : Int :=
  let es := (xs.map fun w => w.toNat % 4096).filter fun e => decide (1 ≤ e) && decide (e ≤ 4094)
  if es = [] then 0 else 4032 - (es.foldl max 0 : Nat)

/-- One SPF word with its exponent shifted, and the flag it sets. -/
def shiftWord (s : Int) (w : W32) : W32 × SpfFlags :=
  let e := w.toNat % 4096
  let f := w.toNat / 4096
  if e = 0 then (spfZero, 0)
  else if e = 4095 then (if f = 0 then w else spfInvalid, 0)
  else if (e : Int) + s < 1 then (spfZero, 2)
  else if 4094 < (e : Int) + s then (spfOver, 4)
  else (BitVec.ofNat 32 (f * 4096 + ((e : Int) + s).toNat), 0)

/-- SPFSTAT.SHIFT as a signed number. -/
def spfShift (x : Ctx) : Int := intVal true 16 (fld x.cr.spfstat.toNat 16 16)

/-- PNORM's effect. -/
def normEffect (f : FSpe) (x : Ctx) : Ctx :=
  let xs := (upTo (runLen f)).map fun j => bankAt x (baseL f + j)
  let s := if flag0 f then spfShift x else runShift xs
  let ys := xs.map (shiftWord s)
  let ws := (upTo (runLen f)).map fun j => (baseO f + j, (ys.getD j (0, 0)).1)
  setShift s (setSpf (ys.foldl (fun a y => orFlags a y.2) 0) (setBanks ws x))

/-- PNORM: 0x02 outside SPF mode. -/
def execPnorm (f : FSpe) (s : State) : Host.Outcome State Fault Refusal :=
  .next (issue .p f.w (pSpeOk f) false
    (fun k s =>
      let x := s.ctx k.c
      if !spfMode x.p then .fault (flt 0x02) s
      else match (if flag0 f then chkCr x 0x091 else .ok) with
        | .bad t => .fault t s
        | .wait => .wait
        | .ok =>
          withBanks ((upTo (runLen f)).map (baseL f + ·)) (fun k s => .retire none (s.modCtx k.c (normEffect f))) k
            (if flag0 f then s.correct k.c [.creg 0x091] else s)) s)

/-- PZERO, in every mode. -/
def execPzero (f : FSpe) (s : State) : Host.Outcome State Fault Refusal :=
  .next (issue .p f.w (pSpeOk f) false
    (fun k s => .retire none
      (s.modCtx k.c (setBanks ((upTo (runLen f)).map fun j => (baseO f + j, (0 : W32)))))) s)

end Sys2Proof.Machine
end

