-- ==== Sys2Proof/Machine/SAlu.lean ====
section
/-! DEFINITION. S integer operations: F-RRR (04 R143) and F-RRI (04 R144). -/

namespace Sys2Proof.Machine

/-- A two-operand F-RRR word whose result is an exact integer of its operands (04 R143). -/
def sBinary (satOk : Bool) (f : FRrr) (val : W64 → W64 → Int) (s : State) : State :=
  sIssue f.w (sRrr2Ok satOk f) [srcA f.w f.fa, srcB f.w f.fb] (some f.fd)
    (fun k s =>
      let x := s.ctx k.c
      .retire none (s.writeS k.c f.fd (sResult f.fmt f.sat (val (sfield x f.fa) (sfield x f.fb))))) s

/-- A one-operand F-RRR word (04 R143). -/
def sUnary (f : FRrr) (val : W64 → Int) (s : State) : State :=
  sIssue f.w (sRrr1Ok f) [srcA f.w f.fa] (some f.fd)
    (fun k s => .retire none (s.writeS k.c f.fd (sResult f.fmt false (val (sfield (s.ctx k.c) f.fa))))) s

/-- A divide or remainder: a deferred write (04 R121, R143). -/
def sDivide (satOk : Bool) (f : FRrr) (val : W64 → W64 → Int) (s : State) : State :=
  sIssue f.w (sRrr2Ok satOk f) [srcA f.w f.fa, srcB f.w f.fb] (some f.fd)
    (fun k s =>
      let x := s.ctx k.c
      let v := sResult f.fmt f.sat (val (sfield x f.fa) (sfield x f.fb))
      .retire none (s.issuePend k.c ⟨.s, f.fd.toNat, 1, x.seq, 0, none, .value v⟩)) s

/-- An F-RRI word with one source (04 R144). -/
def sImmediate (f : FRri) (val : W64 → Int) (s : State) : State :=
  sIssue f.w (sRriOk f) [srcA f.w f.fa] (some f.fd)
    (fun k s => .retire none (s.writeS k.c f.fd (sResult f.fmt false (val (sfield (s.ctx k.c) f.fa))))) s

/-- The immediate, sign-extended. -/
def sextImm (f : FRri) : Int := f.imm.toInt

/-- Bits numbered below n of a number, the lowest first. -/
def bitsUp (v n : Nat) : List Bool := (upTo n).map fun i => v.testBit i

/-- Trailing zeros of the low n bits, n where there is no one (04 R143). -/
def countTrailing (v n : Nat) : Nat := ((bitsUp v n).takeWhile fun b => !b).length

/-- Leading zeros of the low n bits. -/
def countLeading (v n : Nat) : Nat := ((bitsUp v n).reverse.takeWhile fun b => !b).length

/-- One bits among the low n bits. -/
def countOnes (v n : Nat) : Nat := ((bitsUp v n).filter id).length

/-- Right rotation within w bits. -/
def rotateRight (v w n : Nat) : Nat := v / 2 ^ n + v % 2 ^ n * 2 ^ (w - n)

/-- Bits [2w−1:w] of an exact product. -/
def highHalf (w : Nat) (x : Int) : Int := Int.fdiv x (2 ^ w : Nat)

/-- DIV: the quotient toward zero, all ones for a zero divisor, the largest value under `.sat` for the one quotient
that does not fit (04 R143). -/
def divSigned (fmt : BitVec 4) (sat : Bool) (a b : W64) : Int :=
  let big : Int := (2 ^ (sWidth fmt - 1) : Nat)
  if sInt fmt b = 0 then (2 ^ sWidth fmt : Nat) - 1
  else if sInt fmt a = -big ∧ sInt fmt b = -1 then (if sat then big - 1 else -big)
  else Int.tdiv (sInt fmt a) (sInt fmt b)

/-- REM: the dividend for a zero divisor (04 R143). -/
def remSigned (fmt : BitVec 4) (a b : W64) : Int :=
  if sInt fmt b = 0 then sInt fmt a else Int.tmod (sInt fmt a) (sInt fmt b)

/-- DIVU. -/
def divUnsigned (fmt : BitVec 4) (a b : W64) : Int :=
  if sNat fmt b = 0 then (2 ^ sWidth fmt : Nat) - 1 else ((sNat fmt a / sNat fmt b : Nat) : Int)

/-- REMU. -/
def remUnsigned (fmt : BitVec 4) (a b : W64) : Int :=
  if sNat fmt b = 0 then sNat fmt a else ((sNat fmt a % sNat fmt b : Nat) : Int)

/-- The value of A with the low 32 bits taken, where the width is 32, as a pattern. -/
def sPattern (fmt : BitVec 4) (a : W64) : Int := sNat fmt a

def execAdd (f : FRrr) (s : State) : Host.Outcome State Fault Refusal :=
  .next (sBinary true f (fun a b => sInt f.fmt a + sInt f.fmt b) s)

def execSub (f : FRrr) (s : State) : Host.Outcome State Fault Refusal :=
  .next (sBinary true f (fun a b => sInt f.fmt a - sInt f.fmt b) s)

def execMul (f : FRrr) (s : State) : Host.Outcome State Fault Refusal :=
  .next (sBinary true f (fun a b => sInt f.fmt a * sInt f.fmt b) s)

def execMulh (f : FRrr) (s : State) : Host.Outcome State Fault Refusal :=
  .next (sBinary false f (fun a b => highHalf (sWidth f.fmt) (sInt f.fmt a * sInt f.fmt b)) s)

def execMulhu (f : FRrr) (s : State) : Host.Outcome State Fault Refusal :=
  .next (sBinary false f (fun a b => ((sNat f.fmt a * sNat f.fmt b / 2 ^ sWidth f.fmt : Nat) : Int)) s)

def execDiv (f : FRrr) (s : State) : Host.Outcome State Fault Refusal :=
  .next (sDivide true f (divSigned f.fmt f.sat) s)

def execDivu (f : FRrr) (s : State) : Host.Outcome State Fault Refusal :=
  .next (sDivide false f (divUnsigned f.fmt) s)

def execRem (f : FRrr) (s : State) : Host.Outcome State Fault Refusal :=
  .next (sDivide false f (remSigned f.fmt) s)

def execRemu (f : FRrr) (s : State) : Host.Outcome State Fault Refusal :=
  .next (sDivide false f (remUnsigned f.fmt) s)

def execAnd (f : FRrr) (s : State) : Host.Outcome State Fault Refusal :=
  .next (sBinary false f (fun a b => sPattern f.fmt (a &&& b)) s)

def execOr (f : FRrr) (s : State) : Host.Outcome State Fault Refusal :=
  .next (sBinary false f (fun a b => sPattern f.fmt (a ||| b)) s)

def execXor (f : FRrr) (s : State) : Host.Outcome State Fault Refusal :=
  .next (sBinary false f (fun a b => sPattern f.fmt (a ^^^ b)) s)

def execAndn (f : FRrr) (s : State) : Host.Outcome State Fault Refusal :=
  .next (sBinary false f (fun a b => sPattern f.fmt (a &&& ~~~b)) s)

/-- A shift amount: B mod w. -/
def sAmount (fmt : BitVec 4) (b : W64) : Nat := b.toNat % sWidth fmt

def execShl (f : FRrr) (s : State) : Host.Outcome State Fault Refusal :=
  .next (sBinary false f (fun a b => ((sNat f.fmt a * 2 ^ sAmount f.fmt b : Nat) : Int)) s)

def execShr (f : FRrr) (s : State) : Host.Outcome State Fault Refusal :=
  .next (sBinary false f (fun a b => ((sNat f.fmt a / 2 ^ sAmount f.fmt b : Nat) : Int)) s)

def execSra (f : FRrr) (s : State) : Host.Outcome State Fault Refusal :=
  .next (sBinary false f (fun a b => Int.fdiv (sInt f.fmt a) (2 ^ sAmount f.fmt b : Nat)) s)

def execRotr (f : FRrr) (s : State) : Host.Outcome State Fault Refusal :=
  .next (sBinary false f (fun a b => ((rotateRight (sNat f.fmt a) (sWidth f.fmt) (sAmount f.fmt b) : Nat) : Int)) s)

def execClz (f : FRrr) (s : State) : Host.Outcome State Fault Refusal :=
  .next (sUnary f (fun a => (countLeading a.toNat (sWidth f.fmt) : Nat)) s)

def execCtz (f : FRrr) (s : State) : Host.Outcome State Fault Refusal :=
  .next (sUnary f (fun a => (countTrailing a.toNat (sWidth f.fmt) : Nat)) s)

def execPopc (f : FRrr) (s : State) : Host.Outcome State Fault Refusal :=
  .next (sUnary f (fun a => (countOnes a.toNat (sWidth f.fmt) : Nat)) s)

def execMin (f : FRrr) (s : State) : Host.Outcome State Fault Refusal :=
  .next (sBinary false f (fun a b => if sInt f.fmt b < sInt f.fmt a then sInt f.fmt b else sInt f.fmt a) s)

def execMax (f : FRrr) (s : State) : Host.Outcome State Fault Refusal :=
  .next (sBinary false f (fun a b => if sInt f.fmt a < sInt f.fmt b then sInt f.fmt b else sInt f.fmt a) s)

def execMinu (f : FRrr) (s : State) : Host.Outcome State Fault Refusal :=
  .next (sBinary false f (fun a b => if sNat f.fmt b < sNat f.fmt a then sNat f.fmt b else sNat f.fmt a) s)

def execMaxu (f : FRrr) (s : State) : Host.Outcome State Fault Refusal :=
  .next (sBinary false f (fun a b => if sNat f.fmt a < sNat f.fmt b then sNat f.fmt b else sNat f.fmt a) s)

/-- SEL reads fa, fb and fc (04 R143). -/
def execSel (f : FRrr) (s : State) : Host.Outcome State Fault Refusal :=
  .next (sIssue f.w (selOk f) [srcA f.w f.fa, srcB f.w f.fb, srcC f.w f.fc] (some f.fd)
    (fun k s =>
      let x := s.ctx k.c
      let v := if sNat f.fmt (sfield x f.fc) ≠ 0 then sfield x f.fa else sfield x f.fb
      .retire none (s.writeS k.c f.fd (sResult f.fmt false (sPattern f.fmt v)))) s)

def execMov (f : FRrr) (s : State) : Host.Outcome State Fault Refusal :=
  .next (sUnary f (fun a => sPattern f.fmt a) s)

/-- CMP: cond in sub (04 R143). -/
def execCmp (f : FRrr) (s : State) : Host.Outcome State Fault Refusal :=
  .next (sIssue f.w (cmpOk f) [srcA f.w f.fa, srcB f.w f.fb] (some f.fd)
    (fun k s =>
      let x := s.ctx k.c
      let r : Int := if condS f.sub.toNat (sWidth f.fmt) (sfield x f.fa) (sfield x f.fb) then 1 else 0
      .retire none (s.writeS k.c f.fd (sResult f.fmt false r))) s)

def execAddi (f : FRri) (s : State) : Host.Outcome State Fault Refusal :=
  .next (sImmediate f (fun a => sInt f.fmt a + sextImm f) s)

def execAndi (f : FRri) (s : State) : Host.Outcome State Fault Refusal :=
  .next (sImmediate f (fun a => sPattern f.fmt (a &&& f.imm.signExtend 64)) s)

def execOri (f : FRri) (s : State) : Host.Outcome State Fault Refusal :=
  .next (sImmediate f (fun a => sPattern f.fmt (a ||| f.imm.zeroExtend 64)) s)

def execXori (f : FRri) (s : State) : Host.Outcome State Fault Refusal :=
  .next (sImmediate f (fun a => sPattern f.fmt (a ^^^ f.imm.zeroExtend 64)) s)

/-- The amount of an immediate shift: bits [5:0] mod w (04 R144). -/
def immAmount (f : FRri) : Nat := f.imm.toNat % 64 % sWidth f.fmt

def execShli (f : FRri) (s : State) : Host.Outcome State Fault Refusal :=
  .next (sImmediate f (fun a => ((sNat f.fmt a * 2 ^ immAmount f : Nat) : Int)) s)

def execShri (f : FRri) (s : State) : Host.Outcome State Fault Refusal :=
  .next (sImmediate f (fun a => ((sNat f.fmt a / 2 ^ immAmount f : Nat) : Int)) s)

def execSrai (f : FRri) (s : State) : Host.Outcome State Fault Refusal :=
  .next (sImmediate f (fun a => Int.fdiv (sInt f.fmt a) (2 ^ immAmount f : Nat)) s)

def execLi (f : FRri) (s : State) : Host.Outcome State Fault Refusal :=
  .next (sIssue f.w (liOk f) [] (some f.fd)
    (fun k s => .retire none (s.writeS k.c f.fd (f.imm.signExtend 64))) s)

/-- LIH with one part of the register replaced (04 R144). -/
def sLih (f : FRri) (part : BitVec 2) (val : W64 → W64) (s : State) : State :=
  sIssue f.w (lihOk f && f.sub == part) [srcA f.w f.fa] (some f.fd)
    (fun k s => .retire none (s.writeS k.c f.fd (val (sfield (s.ctx k.c) f.fa)))) s

def execLihM (f : FRri) (s : State) : Host.Outcome State Fault Refusal :=
  .next (sLih f 0 (fun a => (a &&& 0xFFFF000000FFFFFF) ||| (f.imm.zeroExtend 64 <<< 24)) s)

def execLihH (f : FRri) (s : State) : Host.Outcome State Fault Refusal :=
  .next (sLih f 1 (fun a => (a &&& 0x0000FFFFFFFFFFFF) ||| (f.imm.zeroExtend 64 <<< 48)) s)

end Sys2Proof.Machine
end

