-- ==== Sys2Proof/Machine/VMask.lean ====
section
/-! DEFINITION. The mask stack, branches and loops of V (05 R194–R196). -/

namespace Sys2Proof.Machine

/-- Entries the mask stack holds. -/
def maskDepth : Nat := 16

/-- A mask-stack word; where the stack does not allow it, 0x02 with the depth (05 R194). -/
def vStack (f : FRrr) (ok : Bool) (fits : Nat → Bool) (g : VState → List W64) (s : State) : State :=
  vIssue f.w ok false [] []
    (fun k _ s =>
      let v := (s.ctx k.c).v
      if fits v.masks.length then .retire none (s.modCtx k.c fun y => { y with v := { y.v with masks := g y.v } })
      else .fault (fltAddr 0x02 v.masks.length) s) s

def execVmpush (f : FRrr) (s : State) : Host.Outcome State Fault Refusal :=
  .next (vStack f (vmpushOk 0 f) (fun d => decide (d < maskDepth))
    (fun v => (topMask v &&& predOf v f.fa.toNat) :: v.masks) s)

def execVmpushInv (f : FRrr) (s : State) : Host.Outcome State Fault Refusal :=
  .next (vStack f (vmpushOk 1 f) (fun d => decide (d < maskDepth))
    (fun v => (topMask v &&& ~~~(predOf v f.fa.toNat)) :: v.masks) s)

/-- VMINV: the entry below the top, or all ones, less the top. -/
def execVminv (f : FRrr) (s : State) : Host.Outcome State Fault Refusal :=
  .next (vStack f (vmstackOk f) (fun d => d != 0)
    (fun v => ((v.masks.drop 1).headD (BitVec.allOnes 64) &&& ~~~(topMask v)) :: v.masks.drop 1) s)

def execVmpop (f : FRrr) (s : State) : Host.Outcome State Fault Refusal :=
  .next (vStack f (vmstackOk f) (fun d => d != 0) (fun v => v.masks.drop 1) s)

/-- VBZ and VBNZ: a test of the predicate under M (05 R195). -/
def vBranch (f : FBr) (zero : Bool) (s : State) : State :=
  vIssue f.w (vbrOk f) false [] []
    (fun k _ s =>
      let v := (s.ctx k.c).v
      if (predOf v f.fa.toNat &&& topMask v == 0) == zero then .jump (target k.pc f.off) s else .retire none s) s

def execVbz (f : FBr) (s : State) : Host.Outcome State Fault Refusal := .next (vBranch f true s)

def execVbnz (f : FBr) (s : State) : Host.Outcome State Fault Refusal := .next (vBranch f false s)

def execVjmp (f : FBr) (s : State) : Host.Outcome State Fault Refusal :=
  .next (vIssue f.w (vjmpOk f) false [] [] (fun k _ s => .jump (target k.pc f.off) s) s)

/-- rot, parcel 1 bit 23 (05 R195). -/
def loopRot (f : FBr) : Bool := f.cond.getLsbD 3

/-- epi, parcel 1 bits 22–20 (05 R195). -/
def loopEpi (f : FBr) : Nat := f.cond.toNat % 8

def execVloop (f : FBr) (s : State) : Host.Outcome State Fault Refusal :=
  .next (vIssue f.w (vloopOk f) false [] []
    (fun k _ s => loopBody .v f (tripCount f) (loopRot f) (loopEpi f) k s) s)

/-- VLOOPR: the count is element 0, read whether or not lane 0 is active (05 R195). -/
def execVloopr (f : FBr) (s : State) : Host.Outcome State Fault Refusal :=
  .next (vIssue f.w (vloopOk f) false [(vA f.w f.fa).on fun _ => oneLane 0] []
    (fun k _ s => loopBody .v f (vElem (s.ctx k.c) f.fa 0).toNat (loopRot f) (loopEpi f) k s) s)

end Sys2Proof.Machine
end

