-- ==== Sys2Proof/Machine/VMem.lean ====
section
/-! DEFINITION. V memory words (08 R286–R288, R293). -/

namespace Sys2Proof.Machine

/-- Registers one element of an access fills or comes from: four for 16 bytes, else one (08 R288, 03 R104). -/
def memRegs (f : FMem) : Nat := if f.size = 4 then 4 else 1

/-- Base of lane i: a register pair in global space (08 R286). -/
def vBase (x : Ctx) (f : FMem) (i : Nat) : W64 :=
  if f.space = 0 then (vElem x (f.fa + 1) i).zeroExtend 64 <<< 32 ||| (vElem x f.fa i).zeroExtend 64
  else (vElem x f.fa i).zeroExtend 64

/-- Bits [31:16] of the upper register of a global base are 0 (08 R286). -/
def vBaseOk (x : Ctx) (f : FMem) (i : Nat) : Bool := f.space != 0 || decide ((vElem x (f.fa + 1) i).toNat < 65536)

/-- Address of lane i, formed from the operands of lane `from_` and an offset (08 R287, R288). -/
def vAddr (x : Ctx) (f : FMem) (from_ off : Nat) : Nat :=
  (vBase x f from_ + indexTerm f.mode ((vElem x f.fb from_).signExtend 64) (memBytes f) + f.disp.signExtend 64
    + BitVec.ofNat 64 off).toNat

/-- Which lanes' operands form the addresses, and the offset between lanes: lane 0 with a stride, or each lane. -/
inductive VForm where
  | strided (n : Nat)
  | perLane
  deriving DecidableEq, Repr

/-- Lane whose operands form lane i's address. -/
def VForm.origin (m : VForm) (i : Nat) : Nat := match m with | .strided _ => 0 | .perLane => i

/-- Offset of lane i. -/
def VForm.offset (m : VForm) (i : Nat) : Nat := match m with | .strided n => i * n | .perLane => 0

/-- The lanes whose address operands are read: none by a word with no active lane, which checks no element's code (05
R202; DESIGN CHOICE, log entry 94). -/
def VForm.reads (m : VForm) : W64 → W64 :=
  match m with
  | .strided _ => fun act => if act = 0 then 0 else oneLane 0
  | .perLane => id

/-- Sources of the addresses: base (a pair in global space) and index. -/
def vAddrSrcs (f : FMem) (m : VForm) : List VSrc :=
  (vA f.w f.fa).on m.reads :: ((if f.space = 0 then [(vA f.w (f.fa + 1)).on m.reads] else [])
    ++ if f.mode = 0 then [] else [(vB f.w f.fb).on m.reads])

/-- The checks of every active lane in ascending order: the places with their lane and address, or the lowest faulting
lane's fault (08 R281). -/
def State.vRefs (s : State) (c : CoreId) (f : FMem) (m : VForm) (use : Use) :
    List Nat → Except Trap (List (Nat × Nat × Ref)) × State
  | [] => (.ok [], s)
  | i :: is =>
    let x := s.ctx c
    let a := vAddr x f (m.origin i) (m.offset i)
    let r := if vBaseOk x f (m.origin i) then s.laneRef c f.space.toNat i a (memBytes f) use (f.order != 0)
      else (.bad 0x05, s)
    match r with
    | (.bad code, s1) => (.error (accessFault code a (some i) 0), s1)
    | (.ok q, s1) =>
      match s1.vRefs c f m use is with
      | (.error t, s2) => (.error t, s2)
      | (.ok rs, s2) => (.ok ((i, a, q) :: rs), s2)

/-- Destinations of a load, or data registers of a store, logical. -/
def memGroup (f : FMem) : List Nat := (upTo (memRegs f)).map fun m => f.fd.toNat + m

/-- A V load: deferred; with no active lane nothing is read or written (08 R286–R288, 05 R165). -/
def vLoad (f : FMem) (ok bad : Bool) (m : VForm) (s : State) : State :=
  vIssue f.w ok bad (vAddrSrcs f m) (memGroup f)
    (fun k act s =>
      let x := s.ctx k.c
      match s.vRefs k.c f m .read (onLanes act) with
      | (.error t, s1) => .fault t s1
      | (.ok rs, s1) =>
        if sbFull (s1.ctx k.c) then .wait
        else if rs = [] then .retire none s1
        else
          let p : Pend :=
            { eng := .v, reg := vReg x f.fd, regs := memRegs f, seq := 0, acq := acqScope f, poison := none,
              what := .load (rs.map fun r => loadEls r.1 r.2.1 r.2.2.pieces 0).flatten }
          let s2 := s1.modCtx k.c fun y =>
            { y with v := { y.v with writer := (upTo (memRegs f)).foldl (fun w j =>
                vset w (groupReg (vReg x f.fd) j) (BitVec.ofNat 15 k.pc.toNat)) y.v.writer } }
          .retire none (s2.issuePend k.c p)) s

/-- The bytes lane i stores. -/
def storeBytes (x : Ctx) (f : FMem) (i : Nat) : List Byte :=
  (((upTo (memRegs f)).map fun m => leBytes 4 (vElem x (f.fd + BitVec.ofNat 6 m) i).toNat).flatten).take (memBytes f)

/-- A V store through the send buffer, its lanes in ascending order (08 R287). -/
def vStore (f : FMem) (ok bad : Bool) (m : VForm) (s : State) : State :=
  vIssue f.w ok bad
    (vAddrSrcs f m ++ (memGroup f).map fun r => vD f.w (BitVec.ofNat 6 r)) []
    (fun k act s =>
      let x := s.ctx k.c
      match s.vRefs k.c f m .write (onLanes act) with
      | (.error t, s1) => .fault t s1
      | (.ok rs, s1) =>
        if sbFull (s1.ctx k.c) then .wait
        else .retire none (s1.issueStore k.c .v (relScope f)
          (rs.map fun r => chunksOf r.2.2.pieces (storeBytes x f r.1)).flatten)) s

def execVld (f : FMem) (s : State) : Host.Outcome State Fault Refusal :=
  .next (vLoad f (vldOk f) (vGlobalBad f) (.strided (memBytes f)) s)

def execVst (f : FMem) (s : State) : Host.Outcome State Fault Refusal :=
  .next (vStore f (vstOk f) (vGlobalBad f) (.strided (memBytes f)) s)

def execVldx (f : FMem) (s : State) : Host.Outcome State Fault Refusal :=
  .next (vLoad f (vldOk f) (vGlobalBad f) .perLane s)

def execVstx (f : FMem) (s : State) : Host.Outcome State Fault Refusal :=
  .next (vStore f (vstxOk f) (vGlobalBad f) .perLane s)

def execVtld (f : FMem) (s : State) : Host.Outcome State Fault Refusal :=
  .next (vLoad f (vtldOk f) (vtBad f) (.strided 0) s)

def execVtst (f : FMem) (s : State) : Host.Outcome State Fault Refusal :=
  .next (vStore f (vtstOk f) (vtBad f) (.strided 0) s)

def execVtldx (f : FMem) (s : State) : Host.Outcome State Fault Refusal :=
  .next (vLoad f (vtldOk f) (vtBad f) .perLane s)

/-! VLCOL (08 R293). -/

/-- The collating loads of the active lanes in ascending order. -/
inductive ColAll where
  | ok (els : List ColEl) (s : State)
  | bad (t : Trap) (s : State)
  | wait

/-- Each lane's load started; COLSTAT takes the absent members of each. An entry that several lanes name is read once (09
R323): `read` holds those read so far. -/
def State.startLanes (s : State) (c : CoreId) (f : FMem) (x : Ctx) (read : List (Nat × List Byte)) :
    List Nat → List ColEl → ColAll
  | [], els => .ok els s
  | i :: is, els =>
    let off := ((vElem x f.fa i).zeroExtend 64 + f.disp.signExtend 64 : W64).toNat
    let g := (vElem x f.fb i).toNat % 256
    match colOffset (colOp f) (some i) off with
    | some t => .bad t s
    | none =>
      match (match read.lookup g with | some b => (BlockRead.bytes b, s) | none => s.readGroup c .v g) with
      | (.wait, _) => .wait
      | (.bad code, s1) => .bad (fltAddr code (groupOff g)) s1
      | (.storage code a, s1) => .bad (fltAddr code a) s1
      | (.bytes b, s1) =>
        match s1.collateWith c (colOp f) (some i) off g b with
        | .wait => .wait
        | .bad t s2 => .bad t s2
        | .ok el gone s2 => (s2.modCtx c (setColstat g gone)).startLanes c f x ((g, b) :: read) is (els ++ [el])

def execVlcol (f : FMem) (s : State) : Host.Outcome State Fault Refusal :=
  .next (vIssue f.w (vlcolOk f) false [vA f.w f.fa, vB f.w f.fb] [f.fd.toNat]
    (fun k act s =>
      let x := s.ctx k.c
      match s.startLanes k.c f x [] (onLanes act) [] with
      | .wait => .wait
      | .bad t s1 => .fault t { s1 with cores := s1.cores.set k.c.val { s1.core k.c with
          ctx := { (s1.core k.c).ctx with cr := { (s1.core k.c).ctx.cr with colstat := x.cr.colstat } } } k.c.isLt }
      | .ok els s1 =>
        if els = [] then .retire none s1
        else
          let p : Pend := ⟨.v, vReg x f.fd, 1, 0, 0, none, .collate els⟩
          let s2 := s1.modCtx k.c fun y =>
            { y with v := { y.v with writer := vset y.v.writer (vReg x f.fd) (BitVec.ofNat 15 k.pc.toNat) } }
          .retire none ((s2.count k.c 15 els.length).issuePend k.c p)) s)

end Sys2Proof.Machine
end

