-- ==== Sys2Proof/Machine/Patch.lean ====
section
/-! DEFINITION. Patch words (03 R86, R108, R109): a template entry with one field replaced, issued as a full word. -/

namespace Sys2Proof.Machine

/-- The meaning of a full word as a patch word issues it. The amended entry decodes to a full word, so the arms of a
patch word and of other agents' steps are never taken. -/
def runFull (i : Instr) (s : State) : Host.Outcome State Fault Refusal :=
  match i with
  | .add f => execAdd f s
  | .sub f => execSub f s
  | .mul f => execMul f s
  | .mulh f => execMulh f s
  | .mulhu f => execMulhu f s
  | .div f => execDiv f s
  | .divu f => execDivu f s
  | .rem f => execRem f s
  | .remu f => execRemu f s
  | .and f => execAnd f s
  | .or f => execOr f s
  | .xor f => execXor f s
  | .andn f => execAndn f s
  | .shl f => execShl f s
  | .shr f => execShr f s
  | .sra f => execSra f s
  | .rotr f => execRotr f s
  | .clz f => execClz f s
  | .ctz f => execCtz f s
  | .popc f => execPopc f s
  | .min f => execMin f s
  | .max f => execMax f s
  | .minu f => execMinu f s
  | .maxu f => execMaxu f s
  | .sel f => execSel f s
  | .mov f => execMov f s
  | .cmp f => execCmp f s
  | .addi f => execAddi f s
  | .andi f => execAndi f s
  | .ori f => execOri f s
  | .xori f => execXori f s
  | .shli f => execShli f s
  | .shri f => execShri f s
  | .srai f => execSrai f s
  | .li f => execLi f s
  | .lihM f => execLihM f s
  | .lihH f => execLihH f s
  | .br f => execBr f s
  | .bri f => execBri f s
  | .jmp f => execJmp f s
  | .jmpr f => execJmpr f s
  | .call f => execCall f s
  | .ret f => execRet f s
  | .loop f => execLoop f s
  | .loopr f => execLoopr f s
  | .ld f => execLd f s
  | .st f => execSt f s
  | .amo f => execAmo f s
  | .lcol f => execLcol f s
  | .fork f => execFork f s
  | .forkI f => execForkI f s
  | .join f => execJoin f s
  | .wait f => execWait f s
  | .tksend f => execTksend f s
  | .tkrecv f => execTkrecv f s
  | .tkrecvD f => execTkrecvD f s
  | .tmset f => execTmset f s
  | .crd f => execCrd f s
  | .cwr f => execCwr f s
  | .fence f => execFence f s
  | .publish f => execPublish f s
  | .cbsync f => execCbsync f s
  | .cbsyncAll f => execCbsyncAll f s
  | .trap f => execTrap f s
  | .eret f => execEret f s
  | .halt f => execHalt f s
  | .haltChain f => execHaltChain f s
  | .launch f => execLaunch f s
  | .bar f => execBar f s
  | .pacq f => execPacq f s
  | .prel f => execPrel f s
  | .boost f => execBoost f s
  | .refdef f => execRefdef f s
  | .nop w => execNop w s
  | .hint e op w => execHint e op w s
  | .patch _ _ _ _ => .next s
  | .unassignedOpcode e op w => execUnassignedOpcode e op w s
  | .vadd f => execVadd f s
  | .vsub f => execVsub f s
  | .vmul f => execVmul f s
  | .vfma f => execVfma f s
  | .vfms f => execVfms f s
  | .vmin f => execVmin f s
  | .vmax f => execVmax f s
  | .vabs f => execVabs f s
  | .vneg f => execVneg f s
  | .vrcp f => execVrcp f s
  | .vrsq f => execVrsq f s
  | .vtip f => execVtip f s
  | .vcvt f => execVcvt f s
  | .vqnt f => execVqnt f s
  | .vdqnt f => execVdqnt f s
  | .vspl3 f => execVspl3 f s
  | .viadd f => execViadd f s
  | .visub f => execVisub f s
  | .vimul f => execVimul f s
  | .vand f => execVand f s
  | .vor f => execVor f s
  | .vxor f => execVxor f s
  | .vnot f => execVnot f s
  | .vshl f => execVshl f s
  | .vshr f => execVshr f s
  | .vsra f => execVsra f s
  | .vcmp f => execVcmp f s
  | .vsel f => execVsel f s
  | .vmov f => execVmov f s
  | .vmovIota f => execVmovIota f s
  | .vbcast f => execVbcast f s
  | .vbcastI f => execVbcastI f s
  | .vbcastH f => execVbcastH f s
  | .vperm f => execVperm f s
  | .vshiftRot f => execVshiftRot f s
  | .vshiftUp f => execVshiftUp f s
  | .vshiftDn f => execVshiftDn f s
  | .vshiftTw f => execVshiftTw f s
  | .vred f => execVred f s
  | .vmpush f => execVmpush f s
  | .vmpushInv f => execVmpushInv f s
  | .vminv f => execVminv f s
  | .vmpop f => execVmpop f s
  | .vbz f => execVbz f s
  | .vbnz f => execVbnz f s
  | .vjmp f => execVjmp f s
  | .vloop f => execVloop f s
  | .vloopr f => execVloopr f s
  | .vld f => execVld f s
  | .vst f => execVst f s
  | .vldx f => execVldx f s
  | .vstx f => execVstx f s
  | .vtld f => execVtld f s
  | .vtst f => execVtst f s
  | .vtldx f => execVtldx f s
  | .vlcol f => execVlcol f s
  | .vtksend f => execVtksend f s
  | .vtkrecv f => execVtkrecv f s
  | .vtkrecvD f => execVtkrecvD f s
  | .vfence f => execVfence f s
  | .vcrd f => execVcrd f s
  | .vcwr f => execVcwr f s
  | .vend f => execVend f s
  | .vnop w => execVnop w s
  | .mma f => execMma f s
  | .mmas f => execMmas f s
  | .mzero f => execMzero f s
  | .mts f => execMts f s
  | .mchk f => execMchk f s
  | .mdrain f => execMdrain f s
  | .mdraint f => execMdraint f s
  | .mtld f => execMtld f s
  | .mtldt f => execMtldt f s
  | .mtst f => execMtst f s
  | .mosld f => execMosld f s
  | .mosset f => execMosset f s
  | .mossetAdd f => execMossetAdd f s
  | .mmode f => execMmode f s
  | .mmodeSeed f => execMmodeSeed f s
  | .mtksend f => execMtksend f s
  | .mtkrecv f => execMtkrecv f s
  | .mfence f => execMfence f s
  | .mloop f => execMloop f s
  | .mloopr f => execMloopr f s
  | .mjmp f => execMjmp f s
  | .mend f => execMend f s
  | .mnop w => execMnop w s
  | .pup f => execPup f s
  | .pmaxup f => execPmaxup f s
  | .pdn f => execPdn f s
  | .pnorm f => execPnorm f s
  | .pzero f => execPzero f s
  | .pmode f => execPmode f s
  | .ptksend f => execPtksend f s
  | .ptkrecv f => execPtkrecv f s
  | .ploop f => execPloop f s
  | .ploopr f => execPloopr f s
  | .pjmp f => execPjmp f s
  | .pld f => execPld f s
  | .pldShape f => execPldShape f s
  | .pst f => execPst f s
  | .pfence f => execPfence f s
  | .pend f => execPend f s
  | .pnop w => execPnop w s
  | .cpy f => execCpy f s
  | .cpy2d f => execCpy2d f s
  | .cpys f => execCpys f s
  | .cpytw f => execCpytw f s
  | .cpyex f => execCpyex f s
  | .cpybc f => execCpybc f s
  | .ccoll f => execCcoll f s
  | .cwait f => execCwait f s
  | .cwaitAll f => execCwaitAll f s
  | .cloop f => execCloop f s
  | .cjmp f => execCjmp f s
  | .ctksend f => execCtksend f s
  | .ctksendI f => execCtksendI f s
  | .ctkrecv f => execCtkrecv f s
  | .cfence f => execCfence f s
  | .cend f => execCend f s
  | .cnop w => execCnop w s
  | .deferredWriteLand _ _ => .next s
  | .refreshDeadline _ => .next s
  | .timingErrorReplay _ _ => .next s
  | .sendBufferDeparture _ _ => .next s
  | .selectionPass _ => .next s
  | .jobDispatch _ => .next s
  | .jobRetirement _ => .next s
  | .jobEnd _ => .next s
  | .contextSave _ => .next s
  | .contextRestore _ => .next s
  | .barrierComplete _ => .next s
  | .grantSuspension _ => .next s
  | .plateGrant _ => .next s
  | .waitTimeout _ => .next s
  | .copyUnit _ _ _ => .next s
  | .copyCompletion _ _ _ => .next s
  | .collectiveChunkRetry _ _ _ _ => .next s
  | .referenceTick => .next s
  | .intervalStart => .next s
  | .temperatureSample _ _ _ => .next s
  | .sweep _ => .next s
  | .forcedSweep _ => .next s
  | .sweepStepEnd _ => .next s
  | .fllStep _ => .next s
  | .loopSample _ _ => .next s
  | .recordSelection => .next s
  | .idleGating _ => .next s
  | .coreWake _ => .next s
  | .wakeTestResult _ _ => .next s
  | .cxlPortDown _ => .next s
  | .deviceUnreachable _ => .next s
  | .barD4Timeout _ => .next s
  | .remoteAccess _ _ _ => .next s
  | .hostWindowWrite _ _ => .next s
  | .hostWindowRead _ _ => .next s
  | .moduleReset _ => .next s
  | .functionLevelReset _ => .next s
  | .qtailWrite _ _ _ => .next s
  | .fqheadWrite _ => .next s
  | .fqlostWrite _ => .next s
  | .registerWrite _ _ => .next s
  | .tlbInvalidateDevice _ => .next s
  | .tlbInvalidateRoot _ => .next s
  | .tlbInvalidateRange _ => .next s
  | .invalidationComplete => .next s
  | .remapWithCopy _ _ => .next s
  | .remapWithoutCopy _ _ => .next s
  | .impositionRestore _ _ => .next s
  | .impositionRelease _ _ => .next s
  | .impcmdRejected _ _ => .next s
  | .impositionCommandDone _ => .next s
  | .retirePseudoChannel _ => .next s
  | .returnPseudoChannel _ => .next s
  | .remappingStepDone => .next s
  | .pactActivate _ => .next s
  | .pactDeactivate _ => .next s
  | .jcmdHalt _ _ => .next s
  | .jcmdKill _ _ => .next s
  | .jcmdResume _ _ => .next s
  | .jcmdDiscardSlot _ _ => .next s
  | .jcmdRejected _ _ => .next s
  | .attest _ => .next s
  | .warmReset _ _ => .next s
  | .drainCluster _ => .next s
  | .testCluster _ _ => .next s
  | .installIntoCluster _ => .next s
  | .returnCluster _ => .next s
  | .stageThafyFirmware _ => .next s
  | .retrainCxlPort _ _ => .next s
  | .gateCores _ => .next s
  | .wakeCores _ => .next s
  | .unknownCommand _ => .next s
  | .drainComplete _ => .next s
  | .bamaddrFirstWrite _ => .next s
  | .fabricGroupEnd _ _ _ _ => .next s
  | .fetchaddCompletion _ => .next s

/-- A patch word of engine e: the amended template issues as a full word of 4 bytes (03 R108); a template that cannot be
amended, or whose code is uncorrectable, faults at the patch word (13 R410). -/
def execPatch (e : Eng) (tidx : BitVec 6) (fsel : BitVec 5) (value : BitVec 16) (s : State) :
    Host.Outcome State Fault Refusal :=
  let c := s.cur
  let x := s.ctx c
  let st := x.stream e
  let site := Site.tmpl e tidx.toNat
  if siteMark x.errs site = .double then
    let t := storageFault 4 (some tidx.toNat) 0 true
    .next (raise c e { t with pc := st.pc, resume := st.pc } s)
  else
    let s1 := s.correct c [site]
    match amend e (vget st.tmpl tidx.toNat) fsel.toNat value.toNat with
    | none => .next (raise c e (Trap.plain 0x01 st.pc) s1)
    | some (p0, p1) => runFull (decodeFull e p0 p1) { s1 with patched := true }

end Sys2Proof.Machine
end

