-- ==== Sys2Proof/Machine/Save.lean ====
section
/-! DEFINITION. Saving a job into a slot of its cluster's pool and restoring it (13 R419–R422; 01 R49–R51; 10 R347). -/

namespace Sys2Proof.Machine

/-! The save pool (13 R419, R420). -/

/-- Slots of a cluster's pool. -/
def Cluster.slotCount (k : Cluster) : Nat := min 512 k.spcount.toNat

/-- A slot holds a job. -/
def Cluster.slotUsed (k : Cluster) (n : Nat) : Bool := k.slots.any fun p => p.1 == n

/-- The lowest free slot. -/
def Cluster.freeSlotNum (k : Cluster) : Option Nat := (upTo k.slotCount).find? fun n => !k.slotUsed n

/-- Free slots of a pool. -/
def Cluster.slotsFree (k : Cluster) : Nat := ((upTo k.slotCount).filter fun n => !k.slotUsed n).length

/-- Offsets within a slot (13 R420). -/
def slotImem : Nat := 0x44000
def slotSp : Nat := 0x60000
def slotFoot : Nat := 0x200000

/-- Bytes of a slot in the device's own format that this model does not spell out. -/
def slotOwn : Nat := 0x44000

/-- n bytes moved from one key to another with every mark, outside any job's access (12 R402). -/
def State.moveRaw (s : State) (src dst n : Nat) : State :=
  let marks := (s.memErr.filter fun m => decide (src ≤ m.1) && decide (m.1 < src + n)).map fun m => (m.1 - src + dst, m.2)
  let s1 : State := { s with
    mem := copyCells s.mem src n dst,
    memErr := (s.memErr.filter fun m => decide (m.1 < dst) || decide (dst + n ≤ m.1)) ++ marks }
  s1.renew dst n

/-- Offset of an engine's instruction memory within that area of a slot. -/
def imemArea : Eng → Nat
  | .s => 0
  | .v => 16384
  | .m => 49152
  | .p => 57344
  | .c => 65536

/-- The footprint and instruction memories, the scratchpad, moved between core c and a slot. -/
def State.moveJob (s : State) (c : CoreId) (slot foot : Nat) (toSlot : Bool) : State :=
  let go (s : State) (a b n : Nat) : State := if n = 0 then s else if toSlot then s.moveRaw a b n else s.moveRaw b a n
  let s1 := engines.foldl (fun s e => go s (imemKey c e 0) (slot + slotImem + imemArea e) (imemSize e)) s
  let s2 := go s1 (spKey c 0) (slot + slotSp) spSize
  (upTo 64).foldl (fun s i => go s (s.laneKey c i 0) (slot + slotFoot + i * towerSize) foot) s2

/-- The header's first fields (13 R420). -/
def headerOf (state gsize : Nat) (j : Job) (x : Ctx) (level tsave : Nat) : List Byte :=
  leBytes 4 0x56534E56 ++ leBytes 1 state ++ leBytes 1 0x70 ++ leBytes 2 gsize ++ leBytes 8 j.tk.addr
    ++ leBytes 8 x.cr.jobid.toNat ++ leBytes 8 j.root ++ leBytes 8 j.gangId ++ leBytes 4 (4096 * j.tk.tower)
    ++ leBytes 1 level ++ leBytes 1 j.epri ++ leBytes 2 0 ++ leBytes 8 tsave

/-! Stopping (13 R405, R421, R424). -/

/-- A stream of core c is Running. -/
def State.anyRunning (s : State) (c : CoreId) : Bool := engines.any fun e => ((s.ctx c).stream e).st == .running

/-- Stopped streams run again. -/
def resumeStreams (x : Ctx) : Ctx :=
  { x with str := x.str.map fun r => { r with st := if r.st = .stopped then .running else r.st } }

/-- The tick until which a WAIT waits turned into what remains of it, and back (04 R149; 13 R421). -/
def waitLeft (now : Nat) (x : Ctx) : Ctx := { x with waitEnd := x.waitEnd.map fun o => o.map fun t => t - now }
def waitUntil (now : Nat) (x : Ctx) : Ctx := { x with waitEnd := x.waitEnd.map fun o => o.map fun t => t + now }

/-- The engines stop for a save: a WAIT keeps its remaining timeout, a PACQ and a LAUNCH are withdrawn (13 R421 step 1). -/
def haltStreams (now : Nat) (x : Ctx) : Ctx :=
  { waitLeft now x with
    str := x.str.map fun r => if r.st = .running then r.stopped else r, pacqFrom := none, granted := false, launchReq := none }

/-- Loads have landed, the send buffer is empty, and no command that has performed a write is left (13 R421). -/
def State.quietForSave (s : State) (c : CoreId) : Bool :=
  let x := s.ctx c
  !unsettled x && x.sb.isEmpty
    && (s.cluster (clusterOf c)).allCmds.all fun d => d.core != c || !d.hasWritten

/-- The pools of the members' clusters have a slot for each. -/
def State.slotsSuffice (s : State) (ms : List CoreId) : Bool :=
  allClusters.all fun cl =>
    decide ((ms.filter fun c => clusterOf c == cl).length ≤ (s.cluster cl).slotsFree)

/-- Jobs a resume list holds (10 R326). -/
def resumeMax : Nat := 64

/-- The members' queue has room on its resume list. -/
def State.resumeRoom (s : State) (ms : List CoreId) : Bool :=
  ms.all fun c => match (s.core c).job with
    | none => true
    | some j => decide ((vget (s.cluster j.qcl).queues j.q.val).resume.length + ms.length ≤ resumeMax)

/-! Saving. -/

/-- The commands of core c with the queues they stand in. -/
def State.cmdsOf (s : State) (c : CoreId) : List (CopyUnit × Cmd) :=
  let k := s.cluster (clusterOf c)
  let units := (upTo 8).map (fun i => CopyUnit.engine (Fin.ofNat 8 i)) ++ (upTo 8).map fun i => CopyUnit.column (Fin.ofNat 8 i)
  (units.map fun u => ((k.cmds u).filter fun d => d.core == c).map fun d => (u, d)).flatten

/-- The job of core c saved in the lowest free slot of its cluster, its core freed; the header is a release at device scope (13
R421). -/
def State.saveOne (s : State) (halted : Bool) (gsize : Nat) (c : CoreId) : State :=
  match (s.core c).job, (s.cluster (clusterOf c)).freeSlotNum with
  | some j, some n =>
    let cl := clusterOf c
    let now := s.dev.ticks.toNat
    let key := (s.cluster cl).slotKey n
    let level := (withdrawnPwr (s.core c)).level
    let st := if halted then 2 else 1
    let sv : Saved :=
      { state := st, core := c, job := j, ctx := s.ctx c, level := level, gsize := gsize, cmds := s.cmdsOf c,
        epri := j.epri }
    let s1 := (s.forget key slotOwn).moveJob c key (4096 * j.tk.tower) true
    let h := headerOf st gsize j (s.ctx c) level now
    let s2 := s1.poke key h
    let s3 := ({ s2 with rels := ⟨key, h.length, s2.stamp, none, ⟨c.val, 3, s.jobSeen c⟩⟩ :: s2.rels }).modCluster cl fun k => { k with slots := k.slots ++ [(n, sv)] }
    let s4 := if halted then s3 else s3.modCluster j.qcl fun k =>
      { k with queues := vmod k.queues j.q.val fun q => { q with resume := q.resume ++ [(cl.val, n)] } }
    (s4.dropCmds c).freeCore c
  | _, _ => s

/-- The slot that core c's job would take, as it stands. -/
def State.slotOf (s : State) (c : CoreId) : Nat := ((s.cluster (clusterOf c)).freeSlotNum).getD 0

/-- The host's halts that name core c complete: ERR, and the slot where one was written (13 R419). -/
def State.haltsDone (s : State) (c : CoreId) (err slot : Nat) : State :=
  allClusters.foldl (fun s cl =>
    let k := s.cluster cl
    if k.jgo && fld k.jcmd.toNat 60 3 == 0 && c.val == cl.val * 48 + fld k.jcmd.toNat 42 6 then
      (s.modCluster cl fun k => { k with jgo := false, jerr := err, jslot := if err = 0 then slot else k.jslot }).msi 3
    else s) s

/-- A stop that cannot be followed by a save: the members go on (13 R419). -/
def State.cancelStop (s : State) (ms : List CoreId) : State :=
  ms.foldl (fun s c => (s.modCore c fun k =>
    { k with stopReq := none, reserved := none, ctx := resumeStreams (waitUntil s.dev.ticks.toNat k.ctx) }).haltsDone c 2 0) s

/-- CONTEXT_SAVE: the job that was asked to stop, with its gang, stops, and once its accesses are performed it is saved; a
save waits for the end of a remapping step (11 R365). -/
def execContextSave (c : CoreId) (s : State) : Host.Outcome State Fault Refusal :=
  .next (match (s.core c).stopReq with
    | none => s
    | some halted =>
      let ms := s.members c
      if !(ms.all s.canStop) then s
      else if ms.any s.anyRunning then
        ms.foldl (fun s c => (s.withdrawPower c).modCore c fun k =>
          { k with pwr := withdrawnPwr k, ctx := haltStreams s.dev.ticks.toNat k.ctx }) s
      else if !(ms.all s.quietForSave) || s.dev.remapGo then s
      else if !s.slotsSuffice ms || (!halted && !s.resumeRoom ms) then s.cancelStop ms
      else ms.foldl (fun s c => (s.saveOne halted ms.length c).haltsDone c 0 (s.slotOf c)) s)

/-! Restoring (13 R422). -/

/-- A pending command entered anew on core c, its checks made again; one that fails ends at once (10 R347). None where
its queue has no room yet. -/
def State.reenter (s : State) (c : CoreId) (root : Nat) (d : Cmd) : Option State :=
  let fail (s : State) (t : Trap) : State := s.modTag c d.tag fun g =>
    { g with out := g.out - 1, err := some ⟨BitVec.ofNat 8 t.code, BitVec.ofNat 48 (t.addr.getD 0), BitVec.ofNat 6 (t.lane.getD 0)⟩ }
  let enter (ms : List (Nat × Nat)) (s : State) : Option State :=
    match s.checkCmd c root d.op d.desc d.col with
    | .bad t s1 => some (fail s1 t)
    | .ok pages s1 =>
      match (s1.cluster (clusterOf c)).pickQueue d.op d.col with
      | none => none
      | some u =>
        let e := { d with core := c, root := root, pages := pages, unit := 0, members := ms, tries := 0, chunk := [], buf := [],
                          wrote := false, view := ((s1.ctx c).stream .c).view, seen := ⟨0, [], []⟩, observed := [],
                          ahead := [],
                          inSwitch := d.op == .ccoll && s1.switched d.desc }
        some (s1.modCluster (clusterOf c) fun q => q.setCmds u (q.cmds u ++ [e]))
  if d.op ≠ .ccoll then enter [] s
  else match s.readCollective c d.desc with
    | .wait => none
    | .bad t s1 => some (fail s1 t)
    | .ok _ ms s1 =>
      if !s1.inPublished (blockNat d.desc 8 8) (4 * blockNat d.desc 0x10 4) then
        some (fail s1 (fltAddr 0x02 (blockNat d.desc 8 8)))
      else if !s1.collSource d.desc ms then some (fail s1 (runFault 0x05 (blockNat d.desc 0 8) 0))
      else enter ms s1

/-- What every observer of a core must see of its own scratchpad and towers, which a load or a restore has written by a write
number (log entry 91). -/
def ownView (c : CoreId) (stamp : Nat) : View :=
  ⟨0, [(⟨spKey c 0, spSize, 8, false⟩, stamp), (⟨towerKey c 0 0, physTowers * towerSize, 8, false⟩, stamp)], []⟩

/-- The context as restored: masks from the new placement, RST and EPRI, an empty window and no replay counted (10 R329;
13 R422; 06 R204, R235); every access of the job before its stop comes before every one after it (09 R316). -/
def restoredCtx (c : CoreId) (stamp : Nat) (placed : CtlRegs) (epri : Nat) (x : Ctx) : Ctx :=
  let masks := (placed.dommask.set 3 (vget x.cr.dommask 3))
  let m := { x.m with window := [], marker := Vector.replicate 8 none, replays := Vector.replicate 8 0 }
  let v := x.allSeen.join (ownView c stamp)
  { x with str := x.str.map fun r => { r with view := v, snap := [] },
           cr := { x.cr with rst := true, epri := BitVec.ofNat 2 epri, dommask := masks }, m := m }

/-- The engines of a restored job resume and its slot is freed (13 R422 steps 4 to 6). -/
def State.finishRestore (s : State) (c : CoreId) : State :=
  match (s.core c).phase with
  | .restoring cl slot =>
    let now := s.dev.ticks.toNat
    (s.freeSlot (clusterAt cl) slot).modCore c fun k =>
      { k with phase := .running, ctx := resumeStreams (waitUntil now k.ctx) }
  | _ => s

/-- CONTEXT_RESTORE: outside a remapping step, a saved job written to the core it was placed on; its engines resume at once, or once its level is
granted (12 R397). -/
def execContextRestore (c : CoreId) (s : State) : Host.Outcome State Fault Refusal :=
  let k := s.core c
  .next (match k.phase, k.job with
    | .restoring cl slot, some j =>
      match (s.cluster (clusterAt cl)).slots.lookup slot with
      | none => s
      | some sv =>
        if k.pwr.wait || s.dev.remapGo then s
        else
          let s1 := s.moveJob c ((s.cluster (clusterAt cl)).slotKey slot) (4096 * j.tk.tower) false
          let s2 := s1.modCore c fun q =>
            { q with ctx := restoredCtx c s1.stamp k.ctx.cr j.epri sv.ctx, lastRoot := some j.root, cbc := [],
                     resident := Vector.replicate 5 none, lease := ⟨false, 0, 0⟩, pwr := ⟨0, false, false⟩ }
          match sv.cmds.foldlM (fun s d => s.reenter c j.root d.2) s2 with
          | none => s
          | some s3 =>
            if levelUnits sv.level = 0 then s3.finishRestore c
            else
              (s3.modPlate (plateOf (clusterOf c)) fun p =>
                { p with reqs := p.reqs ++ [⟨c, levelUnits sv.level, true, s.dev.ticks.toNat⟩] }).modCore c fun q =>
                  { q with pwr := ⟨0, true, false⟩ }
    | _, _ => s)

end Sys2Proof.Machine
end

