-- ==== Sys2Proof/Machine/Sched.lean ====
section
/-! DEFINITION. The cluster dispatchers: tickets, effective priority, placement and pre-emption (10 R328–R337). -/

namespace Sys2Proof.Machine

/-! Tickets (10 R328, R330). -/

/-- The fields of a ticket's 128 bytes; BOOST is the whole byte (DESIGN CHOICE, log entry 111). -/
def parseTicket (addr : Nat) (b : List Byte) : Ticket :=
  let ctl := blockNat b 0x16 1
  { addr := addr, image := BitVec.ofNat 64 (blockNat b 0 8), argBase := BitVec.ofNat 64 (blockNat b 8 8),
    gx := blockNat b 0x10 2, gy := blockNat b 0x12 2, gz := blockNat b 0x14 2, pri := fld ctl 0 2, level := fld ctl 2 2,
    policy := fld ctl 4 2, gang := ctl.testBit 6, narg := fld (blockNat b 0x17 1) 0 4, tower := blockNat b 0x18 1,
    boost := blockNat b 0x19 1, dm4 := BitVec.ofNat 9 (blockNat b 0x1A 2), inc := BitVec.ofNat 32 (blockNat b 0x1C 4),
    dep0 := BitVec.ofNat 64 (blockNat b 0x20 8), dep1 := BitVec.ofNat 64 (blockNat b 0x28 8),
    done := BitVec.ofNat 64 (blockNat b 0x30 8), lim0 := BitVec.ofNat 32 (blockNat b 0x38 4),
    lim1 := BitVec.ofNat 32 (blockNat b 0x3C 4),
    args := (upTo 14).map fun k => BitVec.ofNat 32 (blockNat b (0x40 + 4 * k) 4) }

/-- Jobs of a launch. -/
def Ticket.count (t : Ticket) : Nat := t.gx * t.gy * t.gz

/-- Architected cores of a placement level (01 R36, R37). -/
def levelCores (l : Nat) : Nat := if l = 0 then 48 else if l = 1 then 288 else 1152

/-- A counter address of a ticket fails its checks. -/
def State.badCounter (s : State) (root : Nat) (a : W64) (use : Use) : Bool :=
  a.toNat % 8 != 0 || (a != 0 && !s.pagePermits root a.toNat use)

/-- The ticket is rejected (10 R330). -/
def State.rejects (s : State) (root : Nat) (t : Ticket) : Bool :=
  t.level == 3 || t.policy == 3 || decide (14 < t.narg) || decide (64 < t.tower)
    || s.badCounter root t.dep0 .read || s.badCounter root t.dep1 .read || s.badCounter root t.done .amo
    || (t.gang && decide (levelCores t.level < t.count))

/-- The bytes of a ring slot, or the code of the record (10 R330; 09 R493). -/
def State.ticketAt (s : State) (root va : Nat) : Except Nat Ticket :=
  match s.walkRef root va 128 .read with
  | none => .error 0x02
  | some r =>
    if r.pieces.any s.badPiece then .error 0x13 else .ok (parseTicket va ((r.pieces.map s.bytesAt).flatten))

/-- A dependence counter is unsigned ≥ its limit; one that cannot be read is not (10 R328, R330). -/
def State.depMet (s : State) (root : Nat) (a : W64) (lim : W32) : Bool :=
  a == 0 || match s.walkRef root a.toNat 8 .read with
    | none => false
    | some r => !(r.pieces.any s.badPiece) && decide (lim.toNat ≤ leNat ((r.pieces.map s.bytesAt).flatten))

/-- The dependences of a ticket are met. -/
def State.depsMet (s : State) (root : Nat) (t : Ticket) : Bool :=
  s.depMet root t.dep0 t.lim0 && s.depMet root t.dep1 t.lim1

/-- What the read of a dependence counter acquires (09 R316). -/
def State.depSeen (s : State) (root : Nat) (a : W64) : View :=
  match s.walkRef root a.toNat 8 .read with
  | none => ⟨0, [], []⟩
  | some r => ((r.pieces.map fun p => s.tagsAt (s.spanOf p) s.stamp).flatten).foldl
      (fun v t => if 3 ≤ t.scope then v.join t.view else v) ⟨0, [], []⟩

/-- What a launch has acquired by the reads of its dependence counters (09 R316). -/
def State.launchSeen (s : State) (root : Nat) (t : Ticket) : View := (s.depSeen root t.dep0).join (s.depSeen root t.dep1)

/-- HEAD advances. -/
def State.advance (s : State) (cl : ClusterId) (q : Nat) : State :=
  s.modCluster cl fun k => { k with queues := vmod k.queues q fun u =>
    { u with head := BitVec.ofNat 16 ((u.head.toNat + 1) % u.slots), launch := none } }

/-- A ticket taken as the head of its queue. -/
def State.setLaunch (s : State) (cl : ClusterId) (q : Nat) (t : Ticket) : State :=
  let l : Launch := ⟨t, s.dev.launches, 0, t.pri, (vget (s.cluster cl).queues q).seen⟩
  (s.modDev fun d => { d with launches := d.launches + 1 }).modCluster cl fun k =>
    { k with queues := vmod k.queues q fun u => { u with launch := some l } }

/-- The head of a queue read; a rejected ticket is consumed, and a launch without jobs where it is an eligible candidate:
while the resume list is empty (10 R330, R333, R334; 01 R38). -/
def headLoop (cl : ClusterId) (q : Nat) : Nat → State → State
  | 0, s => s
  | n + 1, s =>
    let u := vget (s.cluster cl).queues q
    let root := u.rootAddr
    match u.launch with
    | some l =>
      if l.tk.count = 0 && u.resume.isEmpty && s.depsMet root l.tk then
        headLoop cl q n ((s.bumpCounter root l.tk.done l.tk.inc hostObs (l.seen.join (s.launchSeen root l.tk))).advance cl q)
      else s
    | none =>
      if u.head.toNat = u.tail.toNat % u.slots then s
      else
        let va := u.slotVa u.head.toNat
        match s.ticketAt root va with
        | .error code => headLoop cl q n ((s.ticketRecord code va u.seen).advance cl q)
        | .ok t =>
          if s.rejects root t then headLoop cl q n ((s.ticketRecord 0x02 va u.seen).advance cl q)
          else headLoop cl q n (s.setLaunch cl q t)

/-- The heads of a cluster's enabled queues read. -/
def State.readHeads (s : State) (cl : ClusterId) : State :=
  (upTo 8).foldl (fun s q =>
    let u := vget (s.cluster cl).queues q
    if u.en then headLoop cl q (2 * u.slots + 2) s else s) s

/-! Effective priority (10 R335). -/

/-- A waiting or running ticket: its launch (none behind the head of a ring), its fields, its priority so far. -/
structure Known where
  id : Option Nat
  tk : Ticket
  pri : Nat
  deriving Repr, Inhabited

/-- Ticks for which a ticket has been an eligible candidate. -/
def Age.ticks (now : Nat) (a : Age) : Nat := a.waited + match a.since with | none => 0 | some t => now - t

/-- The launches at the heads of the rings. -/
def State.headLaunches (s : State) : List Launch :=
  (s.clusters.toList.map fun k => k.queues.toList.filterMap fun u => u.launch).flatten

/-- The pre-empted jobs. -/
def State.savedJobs (s : State) : List Saved :=
  (s.clusters.toList.map fun k => (k.slots.map (·.2)).filter fun v => v.state != 2).flatten

/-- The launches with a job left to dispatch. -/
def State.leftIds (s : State) : List Nat :=
  ((s.headLaunches.filter fun l => decide (l.next < l.tk.count)).map (·.id))
    ++ (s.savedJobs.filter fun v => v.state == 1).map fun v => v.job.launch

/-- AGE of a launch: 0 where it has no job left to dispatch (10 R335). -/
def State.ageOf (s : State) (id : Nat) : Nat :=
  match s.dev.ages.find? fun a => a.launch == id with
  | none => 0
  | some a => if s.leftIds.contains id then min 2 (a.ticks s.dev.ticks.toNat / tickMs) else 0

/-- The tickets that wait in an enabled queue behind its head, as they stand in memory; those that cannot be read, or would
be rejected, wait for nothing. -/
def State.behindHead (s : State) (u : Queue) : List Ticket :=
  let first := u.head.toNat + u.launch.isSome.toNat
  let n := (u.tail.toNat + u.slots - u.head.toNat) % u.slots - u.launch.isSome.toNat
  if !u.en then []
  else (upTo n).filterMap fun i => match s.ticketAt u.rootAddr (u.slotVa ((first + i) % u.slots)) with
    | .error _ => none
    | .ok t => if s.rejects u.rootAddr t then none else some t

/-- All tickets of the device: heads of rings and those behind them, of jobs on cores, of pre-empted jobs (10 R335). -/
def State.known (s : State) : List Known :=
  let of_ (id : Nat) (t : Ticket) : Known := ⟨some id, t, t.pri + s.ageOf id⟩
  let waiting := (s.clusters.toList.map fun k => (k.queues.toList.map s.behindHead).flatten).flatten
  (s.headLaunches.map fun l => of_ l.id l.tk) ++ (s.cores.toList.filterMap fun k => k.job.map fun j => of_ j.launch j.tk)
    ++ (s.savedJobs.map fun v => of_ v.job.launch v.job.tk) ++ waiting.map fun t => ⟨none, t, t.pri⟩

/-- Ticket u depends on ticket t. -/
def dependsOn (u t : Ticket) : Bool := t.done != 0 && (u.dep0 == t.done || u.dep1 == t.done)

/-- One round of inheritance. -/
def inherit (l : List Known) : List Known :=
  l.map fun k => { k with pri := min 3 ((l.filter fun u => dependsOn u.tk k.tk).foldl (fun m u => max m u.pri) k.pri) }

/-- Rounds of inheritance until nothing can change. -/
def inheritAll : Nat → List Known → List Known
  | 0, l => l
  | n + 1, l => inheritAll n (inherit l)

/-- EPRI of a launch among the known tickets. -/
def epriIn (l : List Known) (id : Nat) : Nat := (l.filter fun k => k.id == some id).foldl (fun m k => max m (min 3 k.pri)) 0

/-- EPRI of every ticket recomputed; a running job keeps the largest (10 R335). -/
def State.updateEpri (s : State) : State :=
  let l := inheritAll s.known.length s.known
  let head (u : Queue) : Queue := { u with launch := u.launch.map fun x => { x with epri := epriIn l x.id } }
  let slot (p : Nat × Saved) : Nat × Saved := (p.1, { p.2 with epri := max p.2.epri (epriIn l p.2.job.launch) })
  { s with
    clusters := s.clusters.map fun k => { k with queues := k.queues.map head, slots := k.slots.map slot },
    cores := s.cores.map fun k => { k with job := k.job.map fun j => { j with epri := max j.epri (epriIn l j.launch) } } }

/-! Candidates (10 R333). -/

/-- A candidate of a cluster's pass. -/
structure Cand where
  q : Nat
  id : Nat
  tk : Ticket
  epri : Nat
  need : Nat
  /-- Slots of the saved jobs, ascending by job index; none for a ring's head. -/
  slots : Option (List (ClusterId × Nat × Saved))
  deriving Inhabited

/-- A slot's job. -/
def State.savedAt (s : State) (p : Nat × Nat) : Option (ClusterId × Nat × Saved) :=
  ((s.cluster (clusterAt p.1)).slots.lookup p.2).map fun v => (clusterAt p.1, p.2, v)

/-- The jobs restored with the head of a resume list: the gang whole, or the one job (01 R37). -/
def State.resumeGroup (s : State) (u : Queue) : List (ClusterId × Nat × Saved) :=
  match u.resume with
  | [] => []
  | p :: _ =>
    match s.savedAt p with
    | none => []
    | some h =>
      if !h.2.2.job.tk.gang then [h]
      else
        let all := (u.resume.filterMap s.savedAt).filter fun v => v.2.2.job.launch == h.2.2.job.launch
        if all.length < h.2.2.gsize then [] else all.mergeSort fun a b => decide (a.2.2.job.n ≤ b.2.2.job.n)

/-- The candidate of queue q, if it has an eligible one. -/
def State.candidate (s : State) (cl : ClusterId) (q : Nat) : Option Cand :=
  let u := vget (s.cluster cl).queues q
  if !u.en then none
  else if u.resume ≠ [] then
    match s.resumeGroup u with
    | [] => none
    | h :: t => some ⟨q, h.2.2.job.launch, h.2.2.job.tk, (h :: t).foldl (fun m v => max m v.2.2.epri) 0, t.length + 1, some (h :: t)⟩
  else match u.launch with
    | none => none
    | some l =>
      if s.depsMet u.rootAddr l.tk && decide (l.next < l.tk.count) then
        some ⟨q, l.id, l.tk, l.epri, l.tk.count - l.next, none⟩
      else none

/-- The launches that are eligible candidates of some queue of the device. -/
def State.eligible (s : State) : List Nat :=
  (allClusters.map fun cl => (upTo 8).filterMap fun q => (s.candidate cl q).map (·.id)).flatten

/-- The time of one launch counted from now on, or no longer; what it has counted is kept (10 R335). -/
def Age.count (now : Nat) (on : Bool) (a : Age) : Age :=
  if on then { a with since := some (a.since.getD now) } else { a with waited := a.ticks now, since := none }

/-- The waiting of every launch counted, as it stands at a pass; the time of a launch that is over is forgotten. -/
def State.countWaits (s : State) : State :=
  let now := s.dev.ticks.toNat
  let on := s.eligible
  let ids := s.headLaunches.map (·.id) ++ (s.cores.toList.filterMap fun k => k.job.map (·.launch))
    ++ (s.clusters.toList.map fun k => k.slots.map fun p => p.2.job.launch).flatten
  s.modDev fun d => { d with ages := ids.eraseDups.map fun id =>
    (((d.ages.find? fun a => a.launch == id).getD ⟨id, 0, none⟩).count now (on.contains id)) }

/-- The candidates of a cluster in the order of 10 R333. -/
def State.candidates (s : State) (cl : ClusterId) : List Cand :=
  let last := (s.cluster cl).lastQueue
  let order := (upTo 8).map fun i => (last + 1 + i) % 8
  (order.filterMap (s.candidate cl)).mergeSort fun a b => decide (b.epri ≤ a.epri)

/-! Placement (10 R337). -/

/-- A core that a candidate may be placed on, its power aside: a free one that is not held for another. -/
def State.usable (s : State) (id : Nat) (c : CoreId) : Bool :=
  s.isFree c && ((s.core c).reserved.isNone || (s.core c).reserved == some id)

/-- A core free for a candidate. -/
def State.freeFor (s : State) (id : Nat) (c : CoreId) : Bool := s.usable id c && (s.core c).power == .on

/-- The cores of a placement level, for the dispatcher of a cluster (01 R36). -/
def levelDomain (cl : ClusterId) (level : Nat) : List CoreId :=
  if level = 0 then coresOf cl
  else if level = 1 then ((clustersOf (plateOf cl)).map coresOf).flatten
  else allCores

/-- A core comes before another under POLICY coolest. -/
def cooler (s : State) (a b : CoreId) : Bool :=
  let rate (c : CoreId) : Nat := thallowRate (s.cluster (clusterOf c)) (s.core c)
  let ta := (s.core a).tok
  let tb := (s.core b).tok
  decide (tb < ta) || (ta == tb && (decide (rate b < rate a) || (rate a == rate b && decide (a.val ≤ b.val))))

/-- The next core of a policy among free cores in ascending order. -/
def pickNext (s : State) (policy : Nat) (l : List CoreId) : Option CoreId :=
  if policy = 1 then
    let many (cl : ClusterId) : Nat := (l.filter fun c => clusterOf c == cl).length
    let best := l.foldl (fun m c => max m (many (clusterOf c))) 0
    l.find? fun c => many (clusterOf c) == best
  else if policy = 2 then
    l.foldl (fun b c => match b with | none => some c | some d => if cooler s d c then some d else some c) none
  else l.head?

/-- Up to n cores chosen one at a time. -/
def pickCores (s : State) (policy : Nat) : Nat → List CoreId → List CoreId
  | 0, _ => []
  | n + 1, l =>
    match pickNext s policy l with
    | none => []
    | some c => c :: pickCores s policy n (l.filter fun d => d != c)

/-- The domain masks of a core, from the cores that hold jobs of the launch, and DOMMASK4 (10 R329). -/
def masksOf (held : List CoreId) (c : CoreId) (dm4 : W64) : Vector W64 4 :=
  let bits (l : List Nat) : W64 := BitVec.ofNat 64 ((l.eraseDups.map fun i => 2 ^ i).foldl (· + ·) 0)
  let cls := held.map clusterOf
  #v[bits ((held.filter fun d => clusterOf d == clusterOf c).map coreIn),
     bits ((cls.filter fun k => plateOf k == plateOf (clusterOf c)).map fun k => k.val % 6),
     bits (cls.map fun k => k.val), dm4]

/-- Cores that hold a job of a launch. -/
def State.holders (s : State) (id : Nat) : List CoreId :=
  allCores.filter fun c => match (s.core c).job with
    | none => false
    | some j => j.launch == id

/-- A job of a launch placed on a core: its record, masks, JOBID and priorities (10 R329, R334). -/
def State.placeJob (s : State) (j : Job) (masks : Vector W64 4) (c : CoreId) : State :=
  let cr := { CtlRegs.reset with dommask := masks, jobid := BitVec.ofNat 64 j.id, pri := BitVec.ofNat 2 j.tk.pri,
                                 epri := BitVec.ofNat 2 j.epri }
  s.modCore c fun k =>
    { k with job := some j, phase := .placed, reserved := none, stopReq := none, ctx := { k.ctx with cr := cr } }

/-- Job n of a launch. -/
def launchJob (s : State) (cl : ClusterId) (q : Nat) (u : Queue) (l : Launch) (n : Nat) : Job :=
  let t := l.tk
  let now := s.dev.ticks.toNat
  { tk := t, launch := l.id, qcl := cl, q := Fin.ofNat 8 q, root := u.rootAddr, n := n, x := n % t.gx,
    y := n / t.gx % t.gy, z := n / (t.gx * t.gy), epri := l.epri, order := s.dev.dispatches + (n - l.next), gangId := now, trailer := 0, bars := Vector.replicate 5 0,
    seen := l.seen.join (s.launchSeen u.rootAddr t) }

/-- The jobs of a launch placed on cores in order. -/
def State.placeLaunch (s : State) (cl : ClusterId) (q : Nat) (l : Launch) (cs : List CoreId) : State :=
  let u := vget (s.cluster cl).queues q
  let held := if l.tk.gang then cs else s.holders l.id ++ cs
  let s1 := (cs.zip (upTo cs.length)).foldl (fun s2 p =>
    s2.placeJob (launchJob s cl q u l (l.next + p.2)) (masksOf held p.1 (l.tk.dm4.zeroExtend 64)) p.1) s
  let s2 := s1.modDev fun d => { d with dispatches := d.dispatches + cs.length }
  if l.next + cs.length = l.tk.count then s2.advance cl q
  else s2.modCluster cl fun k => { k with queues := vmod k.queues q fun v =>
    { v with launch := some { l with next := l.next + cs.length } } }

/-- Saved jobs placed on cores in order: they are restored there (10 R329; 13 R422). -/
def State.placeSaved (s : State) (cl : ClusterId) (q id : Nat) (vs : List (ClusterId × Nat × Saved)) (cs : List CoreId) :
    State :=
  let gang := vs.any fun v => v.2.2.job.tk.gang
  let held := if gang then cs else s.holders id ++ cs
  let s1 := (cs.zip vs).foldl (fun s p =>
    let v := p.2
    let j := { v.2.2.job with epri := v.2.2.epri, order := s.dev.dispatches }
    let s2 := (s.placeJob j (masksOf held p.1 0) p.1).modCore p.1 fun k => { k with phase := .restoring v.1.val v.2.1 }
    let s3 := s2.modCluster v.1 fun k => { k with slots := k.slots.map fun e =>
      if e.1 = v.2.1 then (e.1, { e.2 with state := 3 }) else e }
    (s3.markSlot v.1 v.2.1 3).modDev fun d => { d with dispatches := d.dispatches + 1 }) s
  s1.modCluster cl fun k => { k with queues := vmod k.queues q fun u =>
    { u with resume := u.resume.filter fun p => !(vs.any fun v => v.1.val == p.1 && v.2.1 == p.2) } }

/-- Reservations for a launch lifted. -/
def State.unreserve (s : State) (id : Nat) : State :=
  { s with cores := s.cores.map fun k => if k.reserved = some id then { k with reserved := none } else k }

/-- A candidate placed, where it can be: some number of jobs of a lone launch, all of a gang or of saved jobs. -/
def State.tryPlace (s : State) (cl : ClusterId) (x : Cand) : Option State :=
  let pool := (levelDomain cl x.tk.level).filter (s.freeFor x.id)
  let cs := pickCores s x.tk.policy x.need pool
  let s1 := s.modCluster cl fun k => { k with lastQueue := x.q }
  match x.slots with
  | some vs => if cs.length < x.need then none else some ((s1.placeSaved cl x.q x.id vs cs).unreserve x.id)
  | none =>
    if cs = [] || (x.tk.gang && decide (cs.length < x.need)) then none
    else match (vget (s.cluster cl).queues x.q).launch with
      | none => none
      | some l =>
        let s2 := s1.placeLaunch cl x.q l cs
        some (if cs.length = x.need then s2.unreserve x.id else s2)

/-- Gated cores called for a candidate that the powered free cores cannot place (10 R337). -/
def State.callCores (s : State) (cl : ClusterId) (x : Cand) : State :=
  let dom := (levelDomain cl x.tk.level).filter (s.usable x.id)
  let ready := dom.filter fun c => (s.core c).power != .gated
  let sleeping := dom.filter fun c => (s.core c).power == .gated
  (pickCores s x.tk.policy (x.need - ready.length) sleeping).foldl
    (fun s c => s.modCore c fun k => { k with power := .called }) s

/-! Pre-emption (10 R336). -/

/-- Jobs that are pre-empted together: recorded EPRI, order of dispatch, cores. -/
structure Victim where
  epri : Nat
  order : Nat
  cores : List CoreId
  deriving Repr, Inhabited

/-- The most jobs of one cluster pre-empted in a window. -/
def preemptLimit : Nat := 8

/-- Cores of a list in one cluster. -/
def inCluster (l : List CoreId) (cl : ClusterId) : Nat := (l.filter fun c => clusterOf c == cl).length

/-- The victim that core c's job belongs to, named at its lowest core, where it may be pre-empted for an EPRI. -/
def State.victimAt (s : State) (ep : Nat) (c : CoreId) : Option Victim :=
  let ms := s.members c
  let fine (d : CoreId) : Bool :=
    let k := s.core d
    k.phase == .running && k.stopReq.isNone && k.reserved.isNone && match k.job with
      | none => false
      | some j => decide (j.epri < ep)
  match (s.core c).job with
  | none => none
  | some j =>
    if ms.head? = some c && ms.all fine && allClusters.all (fun cl => decide (inCluster ms cl ≤ preemptLimit))
        && s.resumeRoom ms then some ⟨j.epri, j.order, ms⟩
    else none

/-- Victims in the order they are taken: lowest EPRI, then the most recently dispatched. -/
def State.victims (s : State) (ep : Nat) (dom : List CoreId) : List Victim :=
  (((dom.map fun c => (s.members c).head?.getD c).eraseDups).filterMap (s.victimAt ep)).mergeSort fun a b =>
    decide (a.epri < b.epri) || (a.epri == b.epri && decide (b.order ≤ a.order))

/-- The limit of the window, and a slot for each job, allow a victim after those already taken. -/
def State.mayTake (s : State) (taken : List CoreId) (v : Victim) : Bool :=
  let now := s.dev.ticks.toNat
  allClusters.all (fun cl =>
    inCluster v.cores cl == 0 ||
      decide (((s.cluster cl).preempts.filter fun t => decide (now < t + tickMs)).length
        + inCluster taken cl + inCluster v.cores cl ≤ preemptLimit))
    && s.slotsSuffice (taken ++ v.cores)

/-- Victims taken until the cores gained in a domain suffice. -/
def takeVictims (s : State) (dom : List CoreId) : List Victim → Nat → List CoreId → List CoreId
  | [], _, taken => taken
  | v :: vs, need, taken =>
    if need = 0 then taken
    else if s.mayTake taken v then
      takeVictims s dom vs (need - (v.cores.filter fun c => dom.contains c).length) (taken ++ v.cores)
    else takeVictims s dom vs need taken

/-- Jobs asked to stop for a candidate, their cores held for it. -/
def State.preempt (s : State) (id : Nat) (cs : List CoreId) : State :=
  let now := s.dev.ticks.toNat
  cs.foldl (fun s c => (s.modCore c fun k => { k with stopReq := some false, reserved := some id }).modCluster (clusterOf c)
    fun k => { k with preempts := (k.preempts.filter fun t => decide (now < t + tickMs)) ++ [now] }) s

/-- Pre-emption for a candidate that cannot be placed on free cores. -/
def State.tryPreempt (s : State) (cl : ClusterId) (x : Cand) : Option State :=
  let dom := levelDomain cl x.tk.level
  let supply := (dom.filter fun c => s.usable x.id c || (s.core c).reserved == some x.id).length
  let cs := takeVictims s dom (s.victims x.epri dom) (x.need - supply) []
  let gained := supply + (cs.filter fun c => dom.contains c).length
  let whole := x.tk.gang || x.slots.isSome
  if cs = [] || (whole && decide (gained < x.need)) then none else some (s.preempt x.id cs)

/-- Reservations for launches that are no longer candidates anywhere are lifted. -/
def State.dropStale (s : State) : State :=
  let live := s.leftIds
  { s with cores := s.cores.map fun k => match k.reserved with
      | some id => if live.contains id then k else { k with reserved := none }
      | none => k }

/-- The first answer of a function over a list. -/
def firstOf {α β : Type} (f : α → Option β) : List α → Option β
  | [] => none
  | a :: l => match f a with | some b => some b | none => firstOf f l

/-- SELECTION_PASS: one pass of a cluster's dispatcher. A pass that placed something is followed by another; one that
placed nothing calls gated cores and pre-empts (10 R333, R336). Queues of a cluster that is not In service wait (14 R449), and
every pass waits for the end of a remapping step (11 R365). -/
def execSelectionPass (cl : ClusterId) (s : State) : Host.Outcome State Fault Refusal :=
  let now := s.dev.ticks.toNat
  let k := s.cluster cl
  .next (if k.service ≠ .inService || s.dev.remapGo || (!k.passDue && decide (now < k.lastPass + passTicks)) then s
    else
      let s1 := ((s.readHeads cl).updateEpri.dropStale).countWaits
      let done (s : State) (due : Bool) : State := s.modCluster cl fun k => { k with passDue := due, lastPass := now }
      let cands := s1.candidates cl
      match firstOf (s1.tryPlace cl) cands with
      | some s2 => done s2 true
      | none =>
        let s2 := cands.foldl (fun s x => s.callCores cl x) s1
        match firstOf (s2.tryPreempt cl) cands with
        | some s3 => done s3 false
        | none => done s2 false)

end Sys2Proof.Machine
end

