-- ==== Sys2Proof/Machine/EvJob.lean ====
section
/-! DEFINITION. Dispatch of a placed job (01 R32, R33; 10 R334), barriers (10 R339–R342; 12 R396, R399, R400; 14 R441),
power grants (12 R395), the timeout of WAIT, and the host's job commands (13 R423). -/

namespace Sys2Proof.Machine

/-! Dispatch. -/

/-- The record of a job ended before S started (13 R412). -/
def dispInfo (c : CoreId) (code : Nat) (eng : Nat) (addr : Option Nat) (s : State) : EndInfo :=
  { EndInfo.blank s.dev.ticks.toNat with
    code := BitVec.ofNat 8 code, disp := true, info0 := plainInfo0 c noPc eng addr.isSome,
    info1 := BitVec.ofNat 64 (addr.getD 0 % 2 ^ 48) }

/-- The zeroing of 01 R33, where the core's last job ran under another root or none is recorded. -/
def State.zeroFor (s : State) (c : CoreId) (j : Job) : State :=
  if (s.core c).lastRoot = some j.root then s
  else
    let foot := 4096 * j.tk.tower
    let s1 := s.zero (spKey c 0) spSize
    let s2 := if foot = 0 then s1 else (upTo 64).foldl (fun s i => s.zero (s.laneKey c i 0) foot) s1
    s2.modCtx c fun x =>
      { x with p := { x.p with banks := Vector.replicate 8192 0 },
               errs := x.errs.filter fun q => match q.1 with | .bank _ => false | _ => true }

/-- The boot mailbox (01 R32). -/
def bootMail (t : Ticket) : Vector W64 16 :=
  Vector.ofFn fun i =>
    if i.val = 0 then t.image
    else if i.val = 1 then t.argBase
    else if i.val - 2 < t.narg then (t.args.getD (i.val - 2) 0).zeroExtend 64
    else 0

/-- The context at dispatch: every item at its reset value, the banks of P kept (04 R120; 05 R163; 06 R204; 07 R238),
the generators seeded (02 R68). -/
def dispatchCtx (j : Job) (old : Ctx) : Ctx :=
  let cr := { CtlRegs.reset with pri := old.cr.pri, epri := old.cr.epri, jobid := old.cr.jobid,
                                 dommask := old.cr.dommask, mbox := bootMail j.tk }
  { Ctx.reset with
    cr := cr, v := { VState.reset with lfsr := lfsrSeed 0x2545F491 j.n },
    m := { MState.reset with lfsr := lfsrSeed 0x9E3779B9 j.n }, p := { PState.reset with banks := old.p.banks },
    errs := old.errs.filter fun q => match q.1 with | .bank _ => true | _ => false }

/-- S starts at the entry with its stack above the scratch field (01 R32; 04 R120). -/
def startS (m : Image) (x : Ctx) : Ctx :=
  { x with sreg := vset x.sreg 9 (BitVec.ofNat 64 (0x3F00000 + m.scratch / 16 * 16)) }.modStream .s fun r =>
    { r with st := .running, pc := BitVec.ofNat 64 m.entry }

/-- The lease a ticket's hint asks for, of any length that the byte holds (10 R334; 12 R392; DESIGN CHOICE, log entry 111). -/
def hintLease (cl : Cluster) (boost : Nat) : Lease :=
  if boost ≠ 0 ∧ cl.rec_.boostOk = true then ⟨true, boost, boost⟩ else ⟨false, 0, 0⟩

/-- Engines whose overlay of this image is not resident. -/
def notResident (k : Core) (root handle : Nat) : List Eng :=
  engines.filter fun e => k.resident.get e.num != some (root, handle)

/-- The job starts on a core loaded for it: its streams see what the loader has written (01 R32). -/
def State.startJob (s : State) (c : CoreId) (j : Job) (m : Image) : State :=
  let cl := s.cluster (clusterOf c)
  s.modCore c fun k =>
    { k with ctx := startS m { k.ctx with str := k.ctx.str.map fun r => { r with view := r.view.join (ownView c s.stamp) } }, phase := .running, job := some { j with trailer := BitVec.ofNat 5 m.trailer },
             lastRoot := some j.root, lease := hintLease cl j.tk.boost, pwr := ⟨0, false, false⟩ }

/-- Another job of the launch with a smaller index is still to be started: jobs start in the order of n (10 R334). -/
def State.startsLater (s : State) (j : Job) : Bool :=
  s.cores.toList.any fun k => k.phase == .placed && match k.job with
    | none => false
    | some i => i.launch == j.launch && decide (i.n < j.n)

/-- The core as the loader finds it: control blocks uncached, its streams to see what the dispatch has acquired (09 R316,
R324), no deferral in force (12 R378). -/
def State.clean (s : State) (c : CoreId) (v : View) : State :=
  s.modCore c fun k =>
    { k with cbc := [], ctx := { k.ctx with str := k.ctx.str.map (Stream.fresh v) },
             refresh := { k.refresh with until_ := 0, act := false, notify := false, prior := none, pendingTrap := none } }

/-- The job ends before S starts, where the loader met a code and address (03 R116; 09 R493; 13 R412). -/
def State.loadFails (s : State) (c : CoreId) (code addr : Nat) : State :=
  s.endAll (if code = imageStorage then imageInfo c addr s else dispInfo c code 1 (some addr) s) c

/-- JOB_DISPATCH: a placed job's image is read, memories are zeroed, the image is loaded and S starts; it waits for the end
of a remapping step (11 R365). -/
def execJobDispatch (c : CoreId) (s : State) : Host.Outcome State Fault Refusal :=
  .next (match (s.core c).phase, (s.core c).job with
    | .placed, some j =>
      let handle := j.tk.image.toNat
      if s.dev.remapGo || s.startsLater j then s
      else match (s.clean c j.seen).readHeader c j.root handle with
      | .wait => s
      | .bad code a s1 => s1.loadFails c code a
      | .ok m s1 =>
        if !imageOk m then s1.endAll (dispInfo c 0x01 1 none s1) c
        else if 4096 * j.tk.tower < m.tower then s1.endAll (dispInfo c 0x05 0 none s1) c
        else
          let s2 := (s1.zeroFor c j).modCtx c fun x =>
            { dispatchCtx j x with str := Ctx.reset.str.map (Stream.fresh (x.stream .s).view) }
          match s2.loadImage c j.root handle m (notResident (s2.core c) j.root handle) engines true with
          | .wait => s
          | .bad code a s3 => s3.loadFails c code a
          | .ok s3 => s3.startJob c j m
    | _, _ => s)

/-! Barriers. -/

/-- The arrival of a core at an instance of a level, at BAR or kept through its handler. -/
def Ctx.arrivalAt (x : Ctx) (level inst : Nat) : Option Arrival :=
  let at_ (a : Option Arrival) : Bool := match a with | none => false | some b => b.level == level && b.inst == inst
  if at_ x.bar then x.bar else if at_ x.barAside then x.barAside else none

/-- Core d holds a job of a launch. -/
def State.holds (s : State) (id : Nat) (d : CoreId) : Bool :=
  match (s.core d).job with
  | none => false
  | some j => j.launch == id

/-- The gang's jobs of a cluster whose own DOMMASK1 names their core. -/
def State.d1Of (s : State) (id : Nat) (cl : ClusterId) : List CoreId :=
  (coresOf cl).filter fun d => s.holds id d && (vget (s.ctx d).cr.dommask 0).getLsbD (coreIn d)

/-- The members a participant names at a level; none where a named place holds no participant (04 R133; 01 R39). -/
def State.named (s : State) (id : Nat) (c : CoreId) (level : Nat) : Option (List CoreId) :=
  let r := (s.ctx c).cr
  let cl := clusterOf c
  let across (cls : List ClusterId) : Option (List CoreId) :=
    let l := cls.map (s.d1Of id)
    if l.any List.isEmpty then none else some l.flatten
  if level = 1 then
    let l := (coresOf cl).filter fun d => (vget r.dommask 0).getLsbD (coreIn d)
    if l.all (s.holds id) then some l else none
  else if level = 2 then across ((clustersOf (plateOf cl)).filter fun k => (vget r.dommask 1).getLsbD (k.val % 6))
  else across (allClusters.filter fun k => (vget r.dommask 2).getLsbD k.val)

/-- A job's count of arrivals at a level is past an instance. -/
def State.arrived (s : State) (level inst : Nat) (d : CoreId) : Bool :=
  match (s.core d).job with
  | none => false
  | some j => decide (inst < vget j.bars level)

/-- The devices of the fabric group of a D4 participant other than this one, as its BAR read the entry (11 R372); none where
its entry is not usable (11 R369). -/
def State.fabricOthers (s : State) (c : CoreId) : Option (Nat × List Nat) :=
  match (s.ctx c).bar.or (s.ctx c).barAside with
  | none => none
  | some a =>
    let g := parseGroup (a.group.take groupSize)
    let l := a.group.drop groupSize
    if g.deviceOk && g.level == 2 && g.listOk l then
      some (g.tmo, (g.named l).filter fun d => some d != s.dev.devnum.map (·.toNat))
    else none

/-- The levels below are complete for a participant: no engine of it but S is still to reach Done (01 R40; 10 R339). -/
def State.lowerDone (s : State) (level inst : Nat) (d : CoreId) : Bool :=
  match (s.ctx d).arrivalAt level inst with
  | some a => a.rank.isSome || allAtRest (s.ctx d) [.v, .m, .p, .c]
  | none => true

/-- The barrier unit of a level has taken a participant's arrival: above D1 at a reference tick after it (01 R494; 10
R340). -/
def State.arrivalTaken (s : State) (level inst : Nat) (d : CoreId) : Bool :=
  match (s.ctx d).arrivalAt level inst with
  | some a => a.rank.isSome || decide (level < 2) || decide (a.tick < s.dev.ticks.toNat)
  | none => true

/-- Every member that core c names at an instance has arrived, its job's number at the level, and its arrival is taken. -/
def State.complete (s : State) (id level inst : Nat) (c : CoreId) : Bool :=
  match s.named id c level with
  | none => false
  | some l => l.all fun d => s.arrived level inst d && s.lowerDone level inst d && s.arrivalTaken level inst d

/-- One arrival comes before another: by order at D1, by tick and core above it (10 R340). -/
def before (a b : Arrival) : Bool :=
  if a.level = 1 then decide (a.order < b.order)
  else decide (a.tick < b.tick) || (a.tick == b.tick && decide (a.core < b.core))

/-- The rank of core c's arrival among the members it names; a member whose BAR has retired came before. -/
def State.rankOf (s : State) (id : Nat) (c : CoreId) (a : Arrival) : Nat :=
  (((s.named id c a.level).getD []).filter fun d => d != c && match (s.ctx d).arrivalAt a.level a.inst with
    | none => true
    | some b => before b a).length

/-- A rank written to an arrival; a suspended job asks its units back (12 R396). -/
def State.giveRank (s : State) (c : CoreId) (level inst rank : Nat) : State :=
  let put (o : Option Arrival) : Option Arrival := o.map fun a =>
    if a.level = level ∧ a.inst = inst then { a with rank := some rank } else a
  let s1 := s.modCtx c fun x => { x with bar := put x.bar, barAside := put x.barAside }
  if (s.core c).pwr.susp then s1.reclaim c else s1

/-- S of every participant of an instance has what each has seen, its engines included, and the other devices of a D4 group
too: every pair synchronises (09 R316). -/
def State.meet (s : State) (cs : List CoreId) (devs : List Nat) : State :=
  let inner := (cs.map fun d => (s.ctx d).released [.s, .v, .m, .p, .c]).flatten
  let all := inner ++ devs.map fun d => (s.outerView (deviceObs d)).everyForm
  let s1 := cs.foldl (fun s d => s.modCtx d fun x => x.modStream .s (Stream.acquire all)) s
  devs.foldl (fun s d => s.setOuter (deviceObs d) (all.foldl View.join (s.outerView (deviceObs d)))) s1

/-- A cluster's arrival time at an instance: that of its last participant (12 R399). -/
def clusterTimes (l : List Arrival) : List (Nat × ClusterId) :=
  let cls := (l.map fun a => clusterOf (coreAt a.core)).eraseDups
  cls.map fun k => (((l.filter fun a => clusterOf (coreAt a.core) == k).map fun a => a.since).foldl max 0, k)

/-- The later of two clusters. -/
def laterOf (a b : Nat × ClusterId) : Nat × ClusterId :=
  if a.1 < b.1 ∨ (a.1 = b.1 ∧ a.2.val < b.2.val) then b else a

/-- BUD and the run counts after an instance of D2 or D3 (12 R400). -/
def State.rebalance (s : State) (level : Nat) (l : List Arrival) : State :=
  match clusterTimes l with
  | h :: h2 :: t =>
    let all := h :: h2 :: t
    let last := (all.foldl laterOf h).2
    let first := (all.foldl (fun b a => if laterOf a b = b then a else b) h).2
    let i := level - 2
    let s1 := all.foldl (fun s p => s.modCluster p.2 fun k =>
      { k with runs := vmod k.runs i fun n => if p.2 = last then n + 1 else 0 }) s
    if vget (s1.cluster last).runs i < 4 then s1
    else
      let s2 := s1.modCluster last fun k => { k with runs := vset k.runs i 0 }
      if (s2.cluster last).bud < 8 ∧ -8 < (s2.cluster first).bud then
        (((s2.modCluster last fun k => { k with bud := k.bud + 1 }).modCluster first fun k =>
          { k with bud := k.bud - 1 }).retarget last).retarget first
      else s2
  | _ => s

/-- BARRIER_COMPLETE: the instance that core c waits at completes for every participant whose named members have all
arrived; at D4 also those of other devices, whose arrivals are free (10 R340). -/
def execBarrierComplete (c : CoreId) (s : State) : Host.Outcome State Fault Refusal :=
  .next (match (s.core c).job, (s.ctx c).bar.or (s.ctx c).barAside with
    | some j, some a =>
      let id := j.launch
      let open_ (s : State) (d : CoreId) : Bool := match (s.ctx d).arrivalAt a.level a.inst with
        | none => false
        | some b => b.rank.isNone && s.complete id a.level a.inst d
      let others := if a.level = 4 then s.fabricOthers c else some (0, [])
      match others with
      | none => s
      | some (_, devs) =>
        let (remote, s1) := if devs = [] then (true, s) else s.drawBool
        if !open_ s c || !remote || devs.any (fun d => (s.route d).isNone) then s1
        else
          let cs := (s.holders id).filter (open_ s)
          let s2 := cs.foldl (fun (t : State) d => match (s.ctx d).arrivalAt a.level a.inst with
            | none => t
            | some b =>
              let (extra, t1) := if devs = [] then (0, t) else t.drawNat
              t1.giveRank d a.level a.inst (s.rankOf id d b + extra)) (s1.meet cs devs)
          let as_ := cs.filterMap fun d => (s.ctx d).arrivalAt a.level a.inst
          if a.level = 2 ∨ a.level = 3 then s2.rebalance a.level as_ else s2
    | _, _ => s)

/-- GRANT_SUSPENSION: the units of a job waiting at a barrier return while M and P rest (12 R396). -/
def execGrantSuspension (c : CoreId) (s : State) : Host.Outcome State Fault Refusal :=
  let k := s.core c
  let waits := match k.ctx.bar with | none => false | some a => a.rank.isNone
  let rest (e : Eng) : Bool := atRest (k.ctx.stream e).st
  .next (if k.phase == .running && waits && rest .m && rest .p && decide (0 < k.pwr.level) && !k.pwr.susp then
      s.modCore c fun k => { k with pwr := { k.pwr with susp := true } }
    else s)

/-- BAR_D4_TIMEOUT: a participant at D4 waits past the group's TMO for a device that cannot be reached; the lowest such
device is named (14 R441); during the remapping step it waits (11 R365). -/
def execBarD4Timeout (c : CoreId) (s : State) : Host.Outcome State Fault Refusal :=
  .next (match (s.ctx c).bar, s.fabricOthers c with
    | some a, some (tmo, devs) =>
      if a.level ≠ 4 || a.rank.isSome || (s.core c).phase != .running || s.dev.remapGo
          || decide (s.dev.ticks.toNat ≤ a.tick + 100 * tmo) then s
      else match devs.find? fun d => (s.route d).isNone with
        | none => s
        | some d =>
          let t := { Trap.plain 0x60 ((s.ctx c).stream .s).pc with addr := some (d * 2 ^ 40), classJ := true }
          s.endAll (endInfoOf c .s t s) c
    | _, _ => s)

/-! Power grants (12 R389, R395). -/

/-- A plate's budget under a record. -/
def recordBudget (n : Nat) : Nat := if n = 0 then 720 else if n = 1 then 144 else if n = 2 then 432 else 72

/-- The budget in force: the smallest among the plate's clusters. -/
def State.plateBudget (s : State) (p : PlateId) : Nat :=
  (clustersOf p).foldl (fun m cl => min m (recordBudget (s.cluster cl).recNum)) 720

/-- The units in use on a plate, suspended grants excluded. -/
def State.unitsUsed (s : State) (p : PlateId) : Nat :=
  (((clustersOf p).map coresOf).flatten).foldl (fun n c =>
    let k := s.core c
    n + if k.job.isSome && !k.pwr.susp then levelUnits k.pwr.level else 0) 0

/-- One request is served before another: reacquisitions first, then by tick, then by core. -/
def servedFirst (a b : PowerReq) : Bool :=
  if a.reacquire != b.reacquire then a.reacquire
  else decide (a.tick < b.tick) || (a.tick == b.tick && decide (a.core.val ≤ b.core.val))

/-- The head of a plate's requests among those its arbiter has taken. -/
def headRequest (now : Nat) (l : List PowerReq) : Option PowerReq :=
  (l.filter fun r => decide (r.tick < now)).foldl (fun b r => match b with
    | none => some r
    | some h => if servedFirst h r then some h else some r) none

/-- A grant takes effect on its core. -/
def State.grant (s : State) (r : PowerReq) : State :=
  let k := s.core r.core
  if !r.reacquire then
    s.modCore r.core fun k =>
      { k with pwr := { k.pwr with level := k.pwr.level + r.units, wait := false }, ctx := { k.ctx with granted := true } }
  else if k.pwr.susp then s.modCore r.core fun k => { k with pwr := { k.pwr with susp := false } }
  else (s.modCore r.core fun k => { k with pwr := ⟨r.units, false, false⟩ }).finishRestore r.core

/-- PLATE_GRANT: the head request is granted once its units fit the budget; one that ends a restore, whose slot is then freed,
waits for the end of a remapping step (11 R365). -/
def execPlateGrant (p : PlateId) (s : State) : Host.Outcome State Fault Refusal :=
  .next (match headRequest s.dev.ticks.toNat (s.plate p).reqs with
    | none => s
    | some r =>
      if s.dev.remapGo && r.reacquire && !(s.core r.core).pwr.susp then s
      else if s.unitsUsed p + r.units ≤ s.plateBudget p then
        (s.modPlate p fun q => { q with reqs := q.reqs.filter fun x => x != r }).grant r
      else s)

/-! WAIT's timeout (04 R149). -/

/-- WAIT_TIMEOUT: S waits in a WAIT whose time is over; the WAIT is evaluated, and completes. -/
def execWaitTimeout (c : CoreId) (s : State) : Host.Outcome State Fault Refusal :=
  match (s.ctx c).waitEnd with
  | some (some d) =>
    if s.dev.ticks.toNat < d then .next s
    else match fetchWord c .s s with
      | .stop s1 => .next s1
      | .word i s1 =>
        match i with
        | .wait f => execWait f { s1 with cur := c, patched := false }
        | .patch e t f v => execPatch e t f v { s1 with cur := c, patched := false }
        | _ => .next s
  | _ => .next s

/-! The host's job commands (13 R419, R423). -/

/-- The bits of JCMD that hold what is written. -/
def jcmdMask : W64 := 0x7000FC00FF0001FF

/-- A write of JCMD that starts a command whose OP satisfies a condition; ignored while one runs or before boot. -/
def jcmdStart (ok : Nat → Bool) (cl : ClusterId) (v : W64) (body : State → State) (s : State) : State :=
  if s.dev.boot ≠ .done || (s.cluster cl).jgo || !v.getLsbD 63 || !ok (fld v.toNat 60 3) then s
  else body (s.modCluster cl fun k => { k with jcmd := v &&& jcmdMask, jgo := true })

/-- A job command that writes own HBM, taken once no remapping step is in progress (11 R365). -/
def jcmdWriter (ok : Nat → Bool) (cl : ClusterId) (v : W64) (body : State → State) (s : State) : State :=
  if s.dev.remapGo then s else jcmdStart ok cl v body s

/-- A job command completes. -/
def State.jcmdDone (s : State) (cl : ClusterId) (err : Nat) : State :=
  (s.modCluster cl fun k => { k with jgo := false, jerr := err }).msi 3

/-- The core a command names, if it holds a job. -/
def State.jcmdCore (s : State) (cl : ClusterId) (v : W64) : Option CoreId :=
  let n := fld v.toNat 42 6
  let c := coreAt (cl.val * 48 + n % 48)
  if n < 48 ∧ (s.core c).job.isSome then some c else none

/-- JCMD_HALT: the job, with its gang, is asked to stop; CONTEXT_SAVE completes the command. -/
def execJcmdHalt (cl : ClusterId) (v : W64) (s : State) : Host.Outcome State Fault Refusal :=
  .next (jcmdStart (fun n => n == 0) cl v (fun s =>
    match s.jcmdCore cl v with
    | none => s.jcmdDone cl 1
    | some c =>
      let ms := s.members c
      if s.slotsSuffice ms then ms.foldl (fun s d => s.modCore d fun k => { k with stopReq := some true }) s
      else s.jcmdDone cl 2) s)

/-- JCMD_KILL: the job, with its gang, ends with the record of a kill. -/
def execJcmdKill (cl : ClusterId) (v : W64) (s : State) : Host.Outcome State Fault Refusal :=
  .next (jcmdWriter (fun n => n == 1) cl v (fun s =>
    match s.jcmdCore cl v with
    | none => s.jcmdDone cl 1
    | some c => (s.endSet (s.members c) killInfo).jcmdDone cl 0) s)

/-- The halted job of a slot. -/
def State.haltedAt (s : State) (cl : ClusterId) (n : Nat) : Option Saved :=
  match (s.cluster cl).slots.lookup n with
  | none => none
  | some v => if v.state = 2 then some v else none

/-- Every halted slot of a launch, or the one slot of a lone job, ascending by job index. -/
def State.haltedGroup (s : State) (cl : ClusterId) (n : Nat) (v : Saved) : List (ClusterId × Nat × Saved) :=
  if !v.job.tk.gang then [(cl, n, v)]
  else
    let all := (allClusters.map fun k => ((s.cluster k).slots.filter fun p =>
      p.2.state == 2 && p.2.job.launch == v.job.launch).map fun p => (k, p.1, p.2)).flatten
    all.mergeSort fun a b => decide (a.2.2.job.n ≤ b.2.2.job.n)

/-- A halted slot entered on a queue's resume list. -/
def State.resumeSlot (s : State) (tcl : ClusterId) (tq : Nat) (v : ClusterId × Nat × Saved) : State :=
  let moved (w : Saved) : Saved :=
    { w with state := 1, job := { w.job with qcl := tcl, q := Fin.ofNat 8 tq } }
  let s1 := s.modCluster v.1 fun k => { k with slots := k.slots.map fun p => if p.1 = v.2.1 then (p.1, moved p.2) else p }
  (s1.markSlot v.1 v.2.1 1).modCluster tcl fun k => { k with passDue := true, queues := vmod k.queues tq fun u =>
    { u with resume := u.resume ++ [(v.1.val, v.2.1)] } }

/-- JCMD_RESUME. -/
def execJcmdResume (cl : ClusterId) (v : W64) (s : State) : Host.Outcome State Fault Refusal :=
  .next (jcmdWriter (fun n => n == 2) cl v (fun s =>
    let n := fld v.toNat 0 9
    let tcl := fld v.toNat 27 5
    let tq := fld v.toNat 24 3
    match s.haltedAt cl n with
    | none => s.jcmdDone cl 3
    | some h =>
      let u := vget (s.cluster (clusterAt tcl)).queues tq
      let g := s.haltedGroup cl n h
      if 23 < tcl ∨ u.rootAddr ≠ h.job.root then s.jcmdDone cl 4
      else if resumeMax < u.resume.length + g.length then s.jcmdDone cl 5
      else (g.foldl (fun s p => s.resumeSlot (clusterAt tcl) tq p) s).jcmdDone cl 0) s)

/-- JCMD_DISCARD_SLOT. -/
def execJcmdDiscardSlot (cl : ClusterId) (v : W64) (s : State) : Host.Outcome State Fault Refusal :=
  .next (jcmdWriter (fun n => n == 3) cl v (fun s =>
    let n := fld v.toNat 0 9
    match s.haltedAt cl n with
    | none => s.jcmdDone cl 3
    | some h =>
      let s1 := s.jobRecord (killInfo h.core s) h.job h.ctx.cr.jobid h.core.val h.ctx.allSeen
      (s1.freeSlot cl n).jcmdDone cl 0) s)

/-- JCMD_REJECTED: OP 4 to 7. -/
def execJcmdRejected (cl : ClusterId) (v : W64) (s : State) : Host.Outcome State Fault Refusal :=
  .next (jcmdStart (fun n => decide (4 ≤ n)) cl v (fun s => s.jcmdDone cl 6) s)

end Sys2Proof.Machine
end

