-- ==== Sys2Proof/Machine/EvMail.lean ====
section
/-! DEFINITION. The management mailbox's commands (14 R436, R446–R449), module reset and warm reset (14 R444, R445;
11 R363). -/

namespace Sys2Proof.Machine

/-! Commands. -/

/-- A mailbox command completes with ERR (14 R435, R436). -/
def State.mailDone (s : State) (err : Nat) : State :=
  (s.modDev fun d => { d with mail := { d.mail with go := false, err := err } }).msi 1

/-- The ERR of every command while the boot sequence is in progress, or after one of its verifications failed (14 R444). -/
def Boot.err : Boot → Nat
  | .failed _ => 4
  | _ => 3

/-- A write of MGCMD with GO and a CMD: ignored while one runs, and answered with an error before boot is done (14 R436,
R444). -/
def mailStart (cmd : Nat → Bool) (v : W64) (body : State → State) (s : State) : State :=
  if s.dev.mail.go || !goBit v || !cmd (fld v.toNat 0 16) then s
  else
    let s1 := s.modDev fun d => { d with mail := { d.mail with cmd := v &&& mgMask, go := true } }
    if s.up then body s1 else s1.mailDone s.dev.boot.err

/-- A command on the cluster that ARG names; ERR 2 where there is none. -/
def onCluster (v : W64) (body : ClusterId → State → State) (s : State) : State :=
  let a := fld v.toNat 16 8
  if a < 24 then body (clusterAt a) s else s.mailDone 2

/-- n bytes of the mailbox's data area. -/
def State.mailBytes (s : State) (n : Nat) : List Byte := readCells s.mem (mailBase + mailData) n

/-- Bytes written to the data area. -/
def State.mailPut (s : State) (bs : List Byte) : State := s.poke (mailBase + mailData) bs

/-- The hash of an item as bytes. -/
def hashBytes (bs : List Byte) : List Byte := leBytes 32 (Config.sha256 bs).toNat

/-- The body of an attestation report (14 R447). -/
def reportBody (d : Device) (nonce : List Byte) : List Byte :=
  let m := d.mail
  leBytes 4 0x54414E56
    ++ leBytes 1 ((d.devnum.map (·.toNat)).getD 0) ++ leBytes 1 (Config.firmwareRelease m.thafy).toNat
    ++ leBytes 1 m.rollback ++ leBytes 1 0
    ++ leBytes 32 (Config.identityKey m.boots).toNat ++ nonce
    ++ hashBytes m.thafy ++ hashBytes m.bed.toList.flatten ++ hashBytes m.optable.toList.flatten ++ hashBytes Config.fuseImage
    ++ leBytes 8 d.gen.toNat ++ leBytes 48 0

/-- ATTEST. -/
def execAttest (v : W64) (s : State) : Host.Outcome State Fault Refusal :=
  .next (mailStart (fun n => n == 1) v (fun s =>
    let b := reportBody s.dev (s.mailBytes 32)
    (s.mailPut (b ++ (Config.signReport b).toList)).mailDone 0) s)

/-- A service state set. -/
def State.setService (s : State) (cl : ClusterId) (x : Service) : State := s.modCluster cl fun k => { k with service := x }

/-- DRAIN_CLUSTER. -/
def execDrainCluster (v : W64) (s : State) : Host.Outcome State Fault Refusal :=
  .next (mailStart (fun n => n == 3) v (onCluster v fun cl s =>
    if (s.cluster cl).service = .inService then (s.setService cl .draining).mailDone 0 else s.mailDone 3) s)

/-- DRAIN_COMPLETE: the last job of a draining cluster has ended. -/
def execDrainComplete (cl : ClusterId) (s : State) : Host.Outcome State Fault Refusal :=
  .next (if (s.cluster cl).service = .draining ∧ (coresOf cl).all (fun c => (s.core c).job.isNone) = true then
      s.setService cl .drained
    else s)

/-- TEST_CLUSTER: the result word is the test's. -/
def execTestCluster (v result : W64) (s : State) : Host.Outcome State Fault Refusal :=
  .next (mailStart (fun n => n == 4) v (onCluster v fun cl s =>
    if (s.cluster cl).service = .drained then ((s.setService cl .testing).mailPut (leBytes 8 result.toNat)).mailDone 0
    else s.mailDone 3) s)

/-- The item a 16-byte descriptor in the data area names: its bytes and kind; none where they cannot be read. -/
def State.mailItem (s : State) : Option (List Byte × Nat) :=
  let b := s.mailBytes 16
  let a := blockNat b 0 8
  let n := blockNat b 8 4
  if s.bar2Ok a n .read then some (readCells s.mem (s.keyOfPa (s.bar2 a)) n, blockNat b 12 4) else none

/-- An item verifies (14 R446). -/
def itemGood (m : Mailbox) (item : List Byte) : Bool :=
  Config.verifies item && decide (m.rollback ≤ Config.itemVersion item)

/-- The records of an operating table in its first 256 bytes (11 R373). -/
def parseTable (b : List Byte) : Vector OpRec 4 :=
  (upTo 4).foldl (fun t i =>
    let o := 64 * i
    let r : OpRec := ⟨blockNat b (o + 4) 2, blockNat b (o + 6) 1 == 1, blockNat b (o + 8) 2, blockNat b (o + 10) 2,
      blockNat b (o + 12) 2, blockNat b (o + 14) 1 == 1, blockNat b (o + 15) 1⟩
    vset t (blockNat b o 1) r) shippedTable

/-- Every FCAP lies within 20 to 104. -/
def tableOk (t : Vector OpRec 4) : Bool := t.toList.all fun r => decide (20 ≤ r.fcap) && decide (r.fcap ≤ 104)

/-- The rollback counter after an item is installed. -/
def rollbackAfter (m : Mailbox) (item : List Byte) : Nat :=
  if Config.advancesRollback item then max m.rollback (Config.itemVersion item) else m.rollback

/-- The item a descriptor names cannot be read yet: it stands in memory that a remapping step or a sweep holds (08 R275; 11
R365). -/
def State.itemWaits (s : State) : Bool :=
  let b := s.mailBytes 16
  let a := blockNat b 0 8
  let n := blockNat b 8 4
  s.bar2Ok a n .read && s.keyWaits (s.keyOfPa (s.bar2 a)) n

/-- INSTALL_INTO_CLUSTER: an operating table or bed firmware that verifies is installed; any other leaves the cluster's. -/
def execInstallIntoCluster (v : W64) (s : State) : Host.Outcome State Fault Refusal :=
  .next (if s.itemWaits then s else mailStart (fun n => n == 5) v (onCluster v fun cl s =>
    if (s.cluster cl).service ≠ .drained then s.mailDone 3
    else match s.mailItem with
      | none => s.mailDone 2
      | some (item, kind) =>
        let m := s.dev.mail
        if 1 < kind then s.mailDone 2
        else if !itemGood m item || (kind == 0 && !tableOk (parseTable item)) then s.mailDone 4
        else
          let m1 := { m with rollback := rollbackAfter m item }
          let m2 := if kind = 0 then { m1 with optable := vset m.optable cl.val item } else { m1 with bed := vset m.bed cl.val item }
          let s1 := (s.modDev fun d => { d with mail := m2 }).setService cl .testing
          (if kind = 0 then s1.modCluster cl fun k => { k with table := parseTable item } else s1).mailDone 0) s)

/-- The core mapping of a cluster as its fuses give it (01 R17). -/
def loadMap (k : Cluster) : Cluster := { k with coreMap := k.coreFuse }

/-- RETURN_CLUSTER: the cores are mapped anew and tested anew, the record in force is selected; the last test's end puts the
cluster In service (01 R17; 14 R449). -/
def execReturnCluster (v : W64) (s : State) : Host.Outcome State Fault Refusal :=
  .next (mailStart (fun n => n == 6) v (onCluster v fun cl s =>
    if (s.cluster cl).service ≠ .drained ∧ (s.cluster cl).service ≠ .testing then s.mailDone 3
    else
      let s1 := (s.setService cl .returning).selectRecord cl (recordFor s.dev (s.cluster cl))
      let s2 := (coresOf cl).foldl (fun s c => s.modCore c fun k =>
        { k with power := if k.tripped then .gated else .called, logicFailed := false, failedTowers := [] }) s1
      (s2.modCluster cl loadMap).mailDone 0) s)

/-- STAGE_THAFY_FIRMWARE: kept for the next warm reset. -/
def execStageThafyFirmware (v : W64) (s : State) : Host.Outcome State Fault Refusal :=
  .next (if s.itemWaits then s else mailStart (fun n => n == 7) v (fun s =>
    match s.mailItem with
    | none => s.mailDone 2
    | some (item, _) => (s.modDev fun d => { d with mail := { d.mail with stagedThafy := some item } }).mailDone 0) s)

/-- RETRAIN_CXL_PORT: the port is up again where its training succeeds with its previous capacity (14 R438). -/
def execRetrainCxlPort (v : W64) (ok : Bool) (s : State) : Host.Outcome State Fault Refusal :=
  .next (mailStart (fun n => n == 8) v (fun s =>
    let p := fld v.toNat 16 8
    let bit : BitVec 8 := BitVec.ofNat 8 (2 ^ p)
    if 7 < p then s.mailDone 2
    else (if ok then s.modDev fun d => { d with cxlDown := d.cxlDown &&& ~~~bit } else s).mailDone 0) s)

/-- The cores of a cluster that the mask in the data area names. -/
def State.maskedCores (s : State) (cl : ClusterId) : List CoreId :=
  (coresOf cl).filter fun c => (leNat (s.mailBytes 8)).testBit (coreIn c)

/-- GATE_CORES. -/
def execGateCores (v : W64) (s : State) : Host.Outcome State Fault Refusal :=
  .next (mailStart (fun n => n == 9) v (onCluster v fun cl s =>
    (((s.maskedCores cl).filter s.mayGate).foldl (fun s c => s.modCore c gated) s).mailDone 0) s)

/-- WAKE_CORES: a core that tripped wakes only when it has cooled (13 R418). -/
def execWakeCores (v : W64) (s : State) : Host.Outcome State Fault Refusal :=
  .next (mailStart (fun n => n == 10) v (onCluster v fun cl s =>
    let cs := (s.maskedCores cl).filter fun c => (s.core c).power == .gated && !(s.core c).tripped
    (cs.foldl (fun s c => s.modCore c fun k => { k with power := .called }) s).mailDone 0) s)

/-- UNKNOWN_COMMAND. -/
def execUnknownCommand (v : W64) (s : State) : Host.Outcome State Fault Refusal :=
  .next (mailStart (fun n => n == 0 || decide (10 < n)) v (fun s => s.mailDone 1) s)

/-! The boot sequence (14 R444). -/

/-- The boot status set. -/
def State.setBoot (s : State) (b : Boot) : State := s.modDev fun d => { d with boot := b }

/-- Step 3 after a warm reset: the towers of a core whose beds are released too late have lost their contents; those that
await a restore are told by its time (11 R363). -/
def State.lateBeds (s : State) (ticks : Nat) (c : CoreId) : State :=
  let r := (s.core c).refresh
  if ticks ≤ survivalTicks r.resetBand then s
  else ((upTo physTowers).filter fun p => !(r.stopped.any fun m => m.2 == p)).foldl (fun s p => s.forgetTower c p) s

/-- Step 3: the beds are released some ticks after the reset, and TICKS starts from 0. -/
def State.releaseBeds (s : State) (ticks : Nat) : State :=
  let s1 := if s.dev.warm then allCores.foldl (fun s c => s.lateBeds ticks c) s else s
  s1.modDev fun d => { d with ticks := 0, bedDelay := ticks }

/-- The imposition entries of the fuse image, a soft-repaired one not available (11 R363). -/
def fuseEntries (k : Core) : Vector ImpEnt 64 :=
  Vector.ofFn fun i => ⟨!k.softMask.getLsbD i.val, false, k.fuse.get i⟩

/-- Most GiB behind a port (14 R437). -/
def portMax : Nat := 768

/-- Step 6: the CXL ports and the fabric. -/
def trainPorts (b : BootData) (d : Device) : Device :=
  { d with cxlList := b.ports, cxlCap := BitVec.ofNat 14 (min b.pcap portMax), cxlDown := 0, devnum := b.devnum, routes := b.routes }

/-- Step 7: a cluster's clock. -/
def bootClock (k : Cluster) : Cluster :=
  let f := min nominalStep k.rec_.fcap
  { k with fstep := f, ftgt := f, ramp := .still, rampAt := 0, ldo := ldoOf f }

/-- Step 7: a core is called to wake, but for one that has not cooled since its trip (13 R418, R425). -/
def bootCore (k : Core) : Core := { k with power := if k.tripped then .gated else .called }

/-- Step n of the sequence, where it comes next; after step 7 has called the cores, their wakes and tests are still to come. -/
def State.bootStep (s : State) (b : BootData) (n : Nat) : State :=
  let m := s.dev.mail
  if s.dev.boot ≠ .running n then s
  else if n = 1 then s.setBoot (if itemGood m m.thafy then .running 2 else .failed 1)
  else if n = 2 then
    s.setBoot (if m.bed.toList.all (itemGood m) && m.optable.toList.all (itemGood m) then .running 3 else .failed 2)
  else if n = 3 then (s.releaseBeds b.bedTicks).setBoot (.running 4)
  else if n = 4 then
    let s1 : State := { s with cores := s.cores.map fun k => { k with imp := fuseEntries k }, clusters := s.clusters.map loadMap }
    s1.setBoot (.running 5)
  else if n = 5 then ((s.modDev fun d => { d with live := b.live }).writeMap).setBoot (.running 6)
  else if n = 6 then (s.modDev (trainPorts b)).setBoot (.running 7)
  else
    let s1 : State := { s with clusters := s.clusters.map bootClock, cores := s.cores.map bootCore }
    (s1.setBoot (.running 8)).settleBoot

/-- The sequence taken up to the last step of this stretch. -/
def State.bootTo (s : State) (b : BootData) : State := (upTo (min 7 b.stop)).foldl (fun s i => s.bootStep b (i + 1)) s

/-! Resets. -/

/-- Cells of memory that a module reset does not lose: those of the second tier, the host and other devices. -/
def outsideCells (m : List Host.Cell) : List Host.Cell :=
  m.filter fun c => decide (2 ^ 48 ≤ c.1) && decide (c.1 < 4 * 2 ^ 48)

/-- The machine at module reset: everything but outside memory, the firmware and tables installed, the fuses and the rollback
counter is as after reset; no core is powered, and step 1 comes next (14 R444). -/
def State.moduleReset (s : State) : State :=
  let m := s.dev.mail
  let r := State.reset
  let mail := { Mailbox.reset with thafy := m.thafy, bed := m.bed, optable := m.optable, rollback := m.rollback, boots := m.boots + 1 }
  let cores := r.cores.zipWith (fun k old => { gated k with fuse := old.fuse }) s.cores
  let clusters := r.clusters.zipWith (fun k old => { k with table := old.table, coreFuse := old.coreFuse }) s.clusters
  { r with mem := outsideCells s.mem, sched := s.sched, turns := s.turns, draw := s.draw,
           clusters := clusters, cores := cores, dev := { r.dev with mail := mail, boot := .running 1 } }

/-- MODULE_RESET: the reset with a stretch of the boot sequence, or a further stretch of a sequence in progress (14 R444). -/
def execModuleReset (b : BootData) (s : State) : Host.Outcome State Fault Refusal :=
  .next (if b.start = 0 then s.moduleReset.bootTo b
    else if s.dev.boot = .running b.start then s.bootTo b
    else s)

/-- The towers that held a soft-repaired tower: they await a restore (11 R363). -/
def warmStopped (k : Core) : List (Nat × Nat) :=
  ((upTo 64).filter fun i => k.softMask.getLsbD i).map fun i => (i, (vget k.imp i).phys.toNat)

/-- The refresh state at warm reset: every core counts as having started a sweep at TICKS 0; the layers stay where the
rotations have left them (08 R299; 14 R445). -/
def warmRefresh (k : Core) : Refresh :=
  { Refresh.reset with phase := (sweepFinished k.refresh).phase, stopped := warmStopped k, resetBand := k.refresh.band }

/-- A core at warm reset (14 R445). -/
def warmCore (k : Core) : Core :=
  let k1 := freed 0 k
  { gated k1 with reserved := none, hold := false, tlb := [], cbc := [], resident := Vector.replicate 5 none, samples := 1,
                  ctx := { k1.ctx with errs := [] }, refresh := warmRefresh k, tok := 256, frac := 0 }

/-- A cluster at warm reset. -/
def warmCluster (k : Cluster) : Cluster := bootClock { Cluster.reset with
  recNum := k.recNum, table := k.table, gateidle := k.gateidle, coreFuse := k.coreFuse, coreMap := k.coreMap }

/-- The mailbox at warm reset: staged firmware that verifies replaces the one that runs (14 R445). -/
def warmMail (m : Mailbox) : Mailbox :=
  let new := match m.stagedThafy with
    | some f => if itemGood m f then f else m.thafy
    | none => m.thafy
  { m with stagedThafy := none, thafy := new, boots := m.boots + 1 }

/-- The device's registers at warm reset: queue, table-control and save-pool registers take their reset values, and step 2 of
the boot sequence comes next. -/
def warmDevice (d : Device) : Device :=
  { Device.reset with
    live := d.live, gen := d.gen, winbase := d.winbase, rwbase := d.rwbase, rwlen := d.rwlen, mail := warmMail d.mail,
    msi := d.msi, hostRead := d.hostRead, topLoop := d.topLoop, bottomLoop := d.bottomLoop,
    recordDue := d.recordDue.map fun _ => 0, boot := .running 2, warm := true, pcieErrors := d.pcieErrors,
    launches := d.launches, dispatches := d.dispatches, arrivals := d.arrivals, outer := d.outer }

/-- What a core loses at warm reset: its scratchpad, its registers and memories, and its towers where a sweep deferral was in
force (11 R363; 14 R445). -/
def State.warmLost (s : State) (deferred : List CoreId) (c : CoreId) : State :=
  let s1 := (((s.forget (spKey c 0) spSize).forgetRegs c).forgetBanks c).forgetImem c
  if deferred.contains c then (upTo physTowers).foldl (fun s p => s.forgetTower c p) s1 else s1

/-- What a warm reset does before the boot sequence (14 R445): jobs are discarded without records, HBM is kept, and the
sequence comes next from step 2. -/
def State.warmed (s : State) : State :=
  let deferred := allCores.filter fun c => (s.core c).refresh.act
  let s1 := { s with cores := s.cores.map warmCore, clusters := s.clusters.map warmCluster,
                     plates := Vector.replicate 4 ⟨[], []⟩, dev := warmDevice s.dev }
  allCores.foldl (fun s c => s.warmLost deferred c) s1

/-- A warm reset with a stretch of the boot sequence. -/
def State.warmReset (s : State) (b : BootData) : State := s.warmed.bootTo b

/-- WARM_RESET. -/
def execWarmReset (v : W64) (b : BootData) (s : State) : Host.Outcome State Fault Refusal :=
  .next (mailStart (fun n => n == 2) v (fun s => (s.warmReset b).mailDone 0) s)

/-- FUNCTION_LEVEL_RESET: the warm reset, also during the boot sequence (14 R429). Where step 1 has not yet verified the Thafy
firmware, that step still comes first, and where it has failed the module stays at it (14 R446; DESIGN CHOICE, log entry
104). -/
def execFunctionLevelReset (b : BootData) (s : State) : Host.Outcome State Fault Refusal :=
  .next (if s.dev.boot = .failed 1 then s
    else if s.dev.boot = .running 1 then (s.warmed.setBoot (.running 1)).bootTo b
    else s.warmReset b)

end Sys2Proof.Machine
end

