-- ==== Sys2Proof/Machine/EvOrder.lean ====
section
/-! DEFINITION. What happens to a stream's words after they retire: deferred writes land (04 R121, R123; 05 R165), the
send buffer empties (13 R417), a late result replays (13 R416), and the deadline trap is taken (12 R384). -/

namespace Sys2Proof.Machine

/-- The pending writes of a context changed. -/
def setPend (l : List Pend) (x : Ctx) : Ctx := { x with pend := l }

/-- Element i of a load performed; with the last one the registers fill (04 R121). -/
def State.landLoad (s : State) (c : CoreId) (j i : Nat) (p : Pend) (els : List LoadEl) : State :=
  let x := s.ctx c
  match els[i]? with
  | none => s
  | some e =>
    if !s.canBind x p i (s.spanOf e.piece) then s
    else
      let r := s.bindLoad c p e
      let rest := els.eraseIdx i
      if rest = [] then r.1.modCtx c fun y => finishPend r.2 (setPend (y.pend.eraseIdx j) y)
      else r.1.modCtx c fun y => setPend (y.pend.set j { r.2 with what := .load rest }) y

/-- Lane i of a collating load performed (08 R297). -/
def State.landCollate (s : State) (c : CoreId) (j i : Nat) (p : Pend) (els : List ColEl) : State :=
  let x := s.ctx c
  match els[i]? with
  | none => s
  | some e =>
    if !(e.spans.all (s.canBind x p i)) then s
    else
      let r := s.bindCollate c p e
      let rest := els.eraseIdx i
      if rest = [] then r.1.modCtx c fun y => finishPend r.2 (setPend (y.pend.eraseIdx j) y)
      else r.1.modCtx c fun y => setPend (y.pend.set j { r.2 with what := .collate rest }) y

/-- A pending receipt takes the first entry of its FIFO (04 R123, R151; 05 R197), also while its engine is stopped for a
trap (DESIGN CHOICE, log entry 99); its pop is an acquire of what the push released (09 R316). An uncorrectable entry
poisons, the record naming the source engine (13 R410). -/
def State.landToken (s : State) (c : CoreId) (j : Nat) (p : Pend) (src : Eng) (mask : W64) : State :=
  let x := s.ctx c
  match x.fifo src p.eng with
  | [] => s
  | h :: _ =>
    let bad : Poison := ⟨0x10, BitVec.ofNat 48 (3 * 2 ^ 44), BitVec.ofNat 6 src.code⟩
    let land (y : Ctx) : Ctx :=
      match p.eng with
      | .v => (onLanes mask).foldl (fun y i => landBytes p i 0 (leBytes 4 (tokenV h.v).toNat) y) y
      | _ => landBytes p 0 0 (leBytes 8 (tokenS h.v).toNat) y
    let s1 := s.modCtx c fun y =>
      let y1 := (setPend (y.pend.eraseIdx j) (y.dropFifo src p.eng)).modStream p.eng (Stream.acquire [h.view])
      if h.ecc = .double then finishPend { p with poison := some bad } y1 else finishPend p (land y1)
    if h.ecc = .single then s1.count c 10 1 else s1

/-- Element k mod 65536 of pending write k / 65536 of core c lands, where it may now. -/
def execDeferredWriteLand (c : CoreId) (k : Nat) (s : State) : Host.Outcome State Fault Refusal :=
  let j := k / 65536
  let i := k % 65536
  .next ((match (s.ctx c).pend[j]? with
    | none => s
    | some p =>
      match p.what with
      | .load els => s.landLoad c j i p els
      | .collate els => s.landCollate c j i p els
      | .token src mask => s.landToken c j p src mask
      | .value v => s.modCtx c fun y =>
          (match p.poison with | none => landValue p v | some _ => finishPend p) (setPend (y.pend.eraseIdx j) y)
      | .amo => s).settleFences c)

/-- Part k / 64 of send-buffer entry k mod 64 of core c is performed, where it may be now. -/
def execSendBufferDeparture (c : CoreId) (k : Nat) (s : State) : Host.Outcome State Fault Refusal :=
  let j := k % 64
  let i := k / 64
  let x := s.ctx c
  .next (match x.sb[j]? with
    | none => s
    | some b =>
      match b.amo with
      | some a => if s.canDepart x b 0 (s.spanOf a.piece) then s.departAmo c j b a else s
      | none =>
        match b.chunks[i]? with
        | none => s
        | some ch => if s.canDepart x b i (s.chunkSpan ch) then s.departChunk c j i b ch else s)

/-- A late result: the words of engine e that have issued and not retired issue again, which of S is a WAIT; the replay
is counted for the cluster (13 R416). -/
def execTimingErrorReplay (c : CoreId) (e : Eng) (s : State) : Host.Outcome State Fault Refusal :=
  .next
    (if canIssue (s.core c) e then
      let s1 := if e = .s then s.modCtx c fun x => { x with waitEnd := none } else s
      s1.modDev fun d => { d with mail := { d.mail with
        replays := vmod d.mail.replays (clusterOf c).val fun n => (n + 1) % 2 ^ 64 } }
    else s)

/-- The trap of a forced sweep, taken at S's instruction boundary outside the handler (12 R384). -/
def execRefreshDeadline (c : CoreId) (s : State) : Host.Outcome State Fault Refusal :=
  let k := s.core c
  .next (match k.refresh.pendingTrap with
    | some due => if canIssue k .s && k.ctx.trapping.isNone && !k.ctx.cr.tm then takeDeadline c due s else s
    | none => s)

end Sys2Proof.Machine
end

