-- ==== Sys2Proof/Machine/Dispatch.lean ====
section
/-! DEFINITION. One arm per instruction, each a direct call of its meaning. -/

namespace Sys2Proof.Machine

open Sys2Proof

def exec (i : Instr) (s : State) : Host.Outcome State Fault Refusal :=
  match i with
  | .add f => Sys2Proof.Machine.execAdd f s
  | .sub f => Sys2Proof.Machine.execSub f s
  | .mul f => Sys2Proof.Machine.execMul f s
  | .mulh f => Sys2Proof.Machine.execMulh f s
  | .mulhu f => Sys2Proof.Machine.execMulhu f s
  | .div f => Sys2Proof.Machine.execDiv f s
  | .divu f => Sys2Proof.Machine.execDivu f s
  | .rem f => Sys2Proof.Machine.execRem f s
  | .remu f => Sys2Proof.Machine.execRemu f s
  | .and f => Sys2Proof.Machine.execAnd f s
  | .or f => Sys2Proof.Machine.execOr f s
  | .xor f => Sys2Proof.Machine.execXor f s
  | .andn f => Sys2Proof.Machine.execAndn f s
  | .shl f => Sys2Proof.Machine.execShl f s
  | .shr f => Sys2Proof.Machine.execShr f s
  | .sra f => Sys2Proof.Machine.execSra f s
  | .rotr f => Sys2Proof.Machine.execRotr f s
  | .clz f => Sys2Proof.Machine.execClz f s
  | .ctz f => Sys2Proof.Machine.execCtz f s
  | .popc f => Sys2Proof.Machine.execPopc f s
  | .min f => Sys2Proof.Machine.execMin f s
  | .max f => Sys2Proof.Machine.execMax f s
  | .minu f => Sys2Proof.Machine.execMinu f s
  | .maxu f => Sys2Proof.Machine.execMaxu f s
  | .sel f => Sys2Proof.Machine.execSel f s
  | .mov f => Sys2Proof.Machine.execMov f s
  | .cmp f => Sys2Proof.Machine.execCmp f s
  | .addi f => Sys2Proof.Machine.execAddi f s
  | .andi f => Sys2Proof.Machine.execAndi f s
  | .ori f => Sys2Proof.Machine.execOri f s
  | .xori f => Sys2Proof.Machine.execXori f s
  | .shli f => Sys2Proof.Machine.execShli f s
  | .shri f => Sys2Proof.Machine.execShri f s
  | .srai f => Sys2Proof.Machine.execSrai f s
  | .li f => Sys2Proof.Machine.execLi f s
  | .lihM f => Sys2Proof.Machine.execLihM f s
  | .lihH f => Sys2Proof.Machine.execLihH f s
  | .br f => Sys2Proof.Machine.execBr f s
  | .bri f => Sys2Proof.Machine.execBri f s
  | .jmp f => Sys2Proof.Machine.execJmp f s
  | .jmpr f => Sys2Proof.Machine.execJmpr f s
  | .call f => Sys2Proof.Machine.execCall f s
  | .ret f => Sys2Proof.Machine.execRet f s
  | .loop f => Sys2Proof.Machine.execLoop f s
  | .loopr f => Sys2Proof.Machine.execLoopr f s
  | .ld f => Sys2Proof.Machine.execLd f s
  | .st f => Sys2Proof.Machine.execSt f s
  | .amo f => Sys2Proof.Machine.execAmo f s
  | .lcol f => Sys2Proof.Machine.execLcol f s
  | .fork f => Sys2Proof.Machine.execFork f s
  | .forkI f => Sys2Proof.Machine.execForkI f s
  | .join f => Sys2Proof.Machine.execJoin f s
  | .wait f => Sys2Proof.Machine.execWait f s
  | .tksend f => Sys2Proof.Machine.execTksend f s
  | .tkrecv f => Sys2Proof.Machine.execTkrecv f s
  | .tkrecvD f => Sys2Proof.Machine.execTkrecvD f s
  | .tmset f => Sys2Proof.Machine.execTmset f s
  | .crd f => Sys2Proof.Machine.execCrd f s
  | .cwr f => Sys2Proof.Machine.execCwr f s
  | .fence f => Sys2Proof.Machine.execFence f s
  | .publish f => Sys2Proof.Machine.execPublish f s
  | .cbsync f => Sys2Proof.Machine.execCbsync f s
  | .cbsyncAll f => Sys2Proof.Machine.execCbsyncAll f s
  | .trap f => Sys2Proof.Machine.execTrap f s
  | .eret f => Sys2Proof.Machine.execEret f s
  | .halt f => Sys2Proof.Machine.execHalt f s
  | .haltChain f => Sys2Proof.Machine.execHaltChain f s
  | .launch f => Sys2Proof.Machine.execLaunch f s
  | .bar f => Sys2Proof.Machine.execBar f s
  | .pacq f => Sys2Proof.Machine.execPacq f s
  | .prel f => Sys2Proof.Machine.execPrel f s
  | .boost f => Sys2Proof.Machine.execBoost f s
  | .refdef f => Sys2Proof.Machine.execRefdef f s
  | .nop w => Sys2Proof.Machine.execNop w s
  | .hint e op w => Sys2Proof.Machine.execHint e op w s
  | .patch e tidx fsel value => Sys2Proof.Machine.execPatch e tidx fsel value s
  | .unassignedOpcode e op w => Sys2Proof.Machine.execUnassignedOpcode e op w s
  | .vadd f => Sys2Proof.Machine.execVadd f s
  | .vsub f => Sys2Proof.Machine.execVsub f s
  | .vmul f => Sys2Proof.Machine.execVmul f s
  | .vfma f => Sys2Proof.Machine.execVfma f s
  | .vfms f => Sys2Proof.Machine.execVfms f s
  | .vmin f => Sys2Proof.Machine.execVmin f s
  | .vmax f => Sys2Proof.Machine.execVmax f s
  | .vabs f => Sys2Proof.Machine.execVabs f s
  | .vneg f => Sys2Proof.Machine.execVneg f s
  | .vrcp f => Sys2Proof.Machine.execVrcp f s
  | .vrsq f => Sys2Proof.Machine.execVrsq f s
  | .vtip f => Sys2Proof.Machine.execVtip f s
  | .vcvt f => Sys2Proof.Machine.execVcvt f s
  | .vqnt f => Sys2Proof.Machine.execVqnt f s
  | .vdqnt f => Sys2Proof.Machine.execVdqnt f s
  | .vspl3 f => Sys2Proof.Machine.execVspl3 f s
  | .viadd f => Sys2Proof.Machine.execViadd f s
  | .visub f => Sys2Proof.Machine.execVisub f s
  | .vimul f => Sys2Proof.Machine.execVimul f s
  | .vand f => Sys2Proof.Machine.execVand f s
  | .vor f => Sys2Proof.Machine.execVor f s
  | .vxor f => Sys2Proof.Machine.execVxor f s
  | .vnot f => Sys2Proof.Machine.execVnot f s
  | .vshl f => Sys2Proof.Machine.execVshl f s
  | .vshr f => Sys2Proof.Machine.execVshr f s
  | .vsra f => Sys2Proof.Machine.execVsra f s
  | .vcmp f => Sys2Proof.Machine.execVcmp f s
  | .vsel f => Sys2Proof.Machine.execVsel f s
  | .vmov f => Sys2Proof.Machine.execVmov f s
  | .vmovIota f => Sys2Proof.Machine.execVmovIota f s
  | .vbcast f => Sys2Proof.Machine.execVbcast f s
  | .vbcastI f => Sys2Proof.Machine.execVbcastI f s
  | .vbcastH f => Sys2Proof.Machine.execVbcastH f s
  | .vperm f => Sys2Proof.Machine.execVperm f s
  | .vshiftRot f => Sys2Proof.Machine.execVshiftRot f s
  | .vshiftUp f => Sys2Proof.Machine.execVshiftUp f s
  | .vshiftDn f => Sys2Proof.Machine.execVshiftDn f s
  | .vshiftTw f => Sys2Proof.Machine.execVshiftTw f s
  | .vred f => Sys2Proof.Machine.execVred f s
  | .vmpush f => Sys2Proof.Machine.execVmpush f s
  | .vmpushInv f => Sys2Proof.Machine.execVmpushInv f s
  | .vminv f => Sys2Proof.Machine.execVminv f s
  | .vmpop f => Sys2Proof.Machine.execVmpop f s
  | .vbz f => Sys2Proof.Machine.execVbz f s
  | .vbnz f => Sys2Proof.Machine.execVbnz f s
  | .vjmp f => Sys2Proof.Machine.execVjmp f s
  | .vloop f => Sys2Proof.Machine.execVloop f s
  | .vloopr f => Sys2Proof.Machine.execVloopr f s
  | .vld f => Sys2Proof.Machine.execVld f s
  | .vst f => Sys2Proof.Machine.execVst f s
  | .vldx f => Sys2Proof.Machine.execVldx f s
  | .vstx f => Sys2Proof.Machine.execVstx f s
  | .vtld f => Sys2Proof.Machine.execVtld f s
  | .vtst f => Sys2Proof.Machine.execVtst f s
  | .vtldx f => Sys2Proof.Machine.execVtldx f s
  | .vlcol f => Sys2Proof.Machine.execVlcol f s
  | .vtksend f => Sys2Proof.Machine.execVtksend f s
  | .vtkrecv f => Sys2Proof.Machine.execVtkrecv f s
  | .vtkrecvD f => Sys2Proof.Machine.execVtkrecvD f s
  | .vfence f => Sys2Proof.Machine.execVfence f s
  | .vcrd f => Sys2Proof.Machine.execVcrd f s
  | .vcwr f => Sys2Proof.Machine.execVcwr f s
  | .vend f => Sys2Proof.Machine.execVend f s
  | .vnop w => Sys2Proof.Machine.execVnop w s
  | .mma f => Sys2Proof.Machine.execMma f s
  | .mmas f => Sys2Proof.Machine.execMmas f s
  | .mzero f => Sys2Proof.Machine.execMzero f s
  | .mts f => Sys2Proof.Machine.execMts f s
  | .mchk f => Sys2Proof.Machine.execMchk f s
  | .mdrain f => Sys2Proof.Machine.execMdrain f s
  | .mdraint f => Sys2Proof.Machine.execMdraint f s
  | .mtld f => Sys2Proof.Machine.execMtld f s
  | .mtldt f => Sys2Proof.Machine.execMtldt f s
  | .mtst f => Sys2Proof.Machine.execMtst f s
  | .mosld f => Sys2Proof.Machine.execMosld f s
  | .mosset f => Sys2Proof.Machine.execMosset f s
  | .mossetAdd f => Sys2Proof.Machine.execMossetAdd f s
  | .mmode f => Sys2Proof.Machine.execMmode f s
  | .mmodeSeed f => Sys2Proof.Machine.execMmodeSeed f s
  | .mtksend f => Sys2Proof.Machine.execMtksend f s
  | .mtkrecv f => Sys2Proof.Machine.execMtkrecv f s
  | .mfence f => Sys2Proof.Machine.execMfence f s
  | .mloop f => Sys2Proof.Machine.execMloop f s
  | .mloopr f => Sys2Proof.Machine.execMloopr f s
  | .mjmp f => Sys2Proof.Machine.execMjmp f s
  | .mend f => Sys2Proof.Machine.execMend f s
  | .mnop w => Sys2Proof.Machine.execMnop w s
  | .pup f => Sys2Proof.Machine.execPup f s
  | .pmaxup f => Sys2Proof.Machine.execPmaxup f s
  | .pdn f => Sys2Proof.Machine.execPdn f s
  | .pnorm f => Sys2Proof.Machine.execPnorm f s
  | .pzero f => Sys2Proof.Machine.execPzero f s
  | .pmode f => Sys2Proof.Machine.execPmode f s
  | .ptksend f => Sys2Proof.Machine.execPtksend f s
  | .ptkrecv f => Sys2Proof.Machine.execPtkrecv f s
  | .ploop f => Sys2Proof.Machine.execPloop f s
  | .ploopr f => Sys2Proof.Machine.execPloopr f s
  | .pjmp f => Sys2Proof.Machine.execPjmp f s
  | .pld f => Sys2Proof.Machine.execPld f s
  | .pldShape f => Sys2Proof.Machine.execPldShape f s
  | .pst f => Sys2Proof.Machine.execPst f s
  | .pfence f => Sys2Proof.Machine.execPfence f s
  | .pend f => Sys2Proof.Machine.execPend f s
  | .pnop w => Sys2Proof.Machine.execPnop w s
  | .cpy f => Sys2Proof.Machine.execCpy f s
  | .cpy2d f => Sys2Proof.Machine.execCpy2d f s
  | .cpys f => Sys2Proof.Machine.execCpys f s
  | .cpytw f => Sys2Proof.Machine.execCpytw f s
  | .cpyex f => Sys2Proof.Machine.execCpyex f s
  | .cpybc f => Sys2Proof.Machine.execCpybc f s
  | .ccoll f => Sys2Proof.Machine.execCcoll f s
  | .cwait f => Sys2Proof.Machine.execCwait f s
  | .cwaitAll f => Sys2Proof.Machine.execCwaitAll f s
  | .cloop f => Sys2Proof.Machine.execCloop f s
  | .cjmp f => Sys2Proof.Machine.execCjmp f s
  | .ctksend f => Sys2Proof.Machine.execCtksend f s
  | .ctksendI f => Sys2Proof.Machine.execCtksendI f s
  | .ctkrecv f => Sys2Proof.Machine.execCtkrecv f s
  | .cfence f => Sys2Proof.Machine.execCfence f s
  | .cend f => Sys2Proof.Machine.execCend f s
  | .cnop w => Sys2Proof.Machine.execCnop w s
  | .deferredWriteLand c k => Sys2Proof.Machine.execDeferredWriteLand c k s
  | .refreshDeadline c => Sys2Proof.Machine.execRefreshDeadline c s
  | .timingErrorReplay c e => Sys2Proof.Machine.execTimingErrorReplay c e s
  | .sendBufferDeparture c k => Sys2Proof.Machine.execSendBufferDeparture c k s
  | .selectionPass cl => Sys2Proof.Machine.execSelectionPass cl s
  | .jobDispatch c => Sys2Proof.Machine.execJobDispatch c s
  | .jobRetirement c => Sys2Proof.Machine.execJobRetirement c s
  | .jobEnd c => Sys2Proof.Machine.execJobEnd c s
  | .contextSave c => Sys2Proof.Machine.execContextSave c s
  | .contextRestore c => Sys2Proof.Machine.execContextRestore c s
  | .barrierComplete c => Sys2Proof.Machine.execBarrierComplete c s
  | .grantSuspension c => Sys2Proof.Machine.execGrantSuspension c s
  | .plateGrant pl => Sys2Proof.Machine.execPlateGrant pl s
  | .waitTimeout c => Sys2Proof.Machine.execWaitTimeout c s
  | .copyUnit cl u k => Sys2Proof.Machine.execCopyUnit cl u k s
  | .copyCompletion cl u k => Sys2Proof.Machine.execCopyCompletion cl u k s
  | .collectiveChunkRetry cl u k member => Sys2Proof.Machine.execCollectiveChunkRetry cl u k member s
  | .referenceTick => Sys2Proof.Machine.execReferenceTick s
  | .intervalStart => Sys2Proof.Machine.execIntervalStart s
  | .temperatureSample c tower logic => Sys2Proof.Machine.execTemperatureSample c tower logic s
  | .sweep c => Sys2Proof.Machine.execSweep c s
  | .forcedSweep c => Sys2Proof.Machine.execForcedSweep c s
  | .sweepStepEnd c => Sys2Proof.Machine.execSweepStepEnd c s
  | .fllStep cl => Sys2Proof.Machine.execFllStep cl s
  | .loopSample topOk bottomOk => Sys2Proof.Machine.execLoopSample topOk bottomOk s
  | .recordSelection => Sys2Proof.Machine.execRecordSelection s
  | .idleGating c => Sys2Proof.Machine.execIdleGating c s
  | .coreWake c => Sys2Proof.Machine.execCoreWake c s
  | .wakeTestResult c r => Sys2Proof.Machine.execWakeTestResult c r s
  | .cxlPortDown port => Sys2Proof.Machine.execCxlPortDown port s
  | .deviceUnreachable dev => Sys2Proof.Machine.execDeviceUnreachable dev s
  | .barD4Timeout c => Sys2Proof.Machine.execBarD4Timeout c s
  | .remoteAccess dev addr req => Sys2Proof.Machine.execRemoteAccess dev addr req s
  | .hostWindowWrite off bytes => Sys2Proof.Machine.execHostWindowWrite off bytes s
  | .hostWindowRead off n => Sys2Proof.Machine.execHostWindowRead off n s
  | .moduleReset b => Sys2Proof.Machine.execModuleReset b s
  | .functionLevelReset b => Sys2Proof.Machine.execFunctionLevelReset b s
  | .qtailWrite cl q v => Sys2Proof.Machine.execQtailWrite cl q v s
  | .fqheadWrite v => Sys2Proof.Machine.execFqheadWrite v s
  | .fqlostWrite v => Sys2Proof.Machine.execFqlostWrite v s
  | .registerWrite off v => Sys2Proof.Machine.execRegisterWrite off v s
  | .tlbInvalidateDevice v => Sys2Proof.Machine.execTlbInvalidateDevice v s
  | .tlbInvalidateRoot v => Sys2Proof.Machine.execTlbInvalidateRoot v s
  | .tlbInvalidateRange v => Sys2Proof.Machine.execTlbInvalidateRange v s
  | .invalidationComplete => Sys2Proof.Machine.execInvalidationComplete s
  | .remapWithCopy cl v => Sys2Proof.Machine.execRemapWithCopy cl v s
  | .remapWithoutCopy cl v => Sys2Proof.Machine.execRemapWithoutCopy cl v s
  | .impositionRestore cl v => Sys2Proof.Machine.execImpositionRestore cl v s
  | .impositionRelease cl v => Sys2Proof.Machine.execImpositionRelease cl v s
  | .impcmdRejected cl v => Sys2Proof.Machine.execImpcmdRejected cl v s
  | .impositionCommandDone cl => Sys2Proof.Machine.execImpositionCommandDone cl s
  | .retirePseudoChannel v => Sys2Proof.Machine.execRetirePseudoChannel v s
  | .returnPseudoChannel v => Sys2Proof.Machine.execReturnPseudoChannel v s
  | .remappingStepDone => Sys2Proof.Machine.execRemappingStepDone s
  | .pactActivate v => Sys2Proof.Machine.execPactActivate v s
  | .pactDeactivate v => Sys2Proof.Machine.execPactDeactivate v s
  | .jcmdHalt cl v => Sys2Proof.Machine.execJcmdHalt cl v s
  | .jcmdKill cl v => Sys2Proof.Machine.execJcmdKill cl v s
  | .jcmdResume cl v => Sys2Proof.Machine.execJcmdResume cl v s
  | .jcmdDiscardSlot cl v => Sys2Proof.Machine.execJcmdDiscardSlot cl v s
  | .jcmdRejected cl v => Sys2Proof.Machine.execJcmdRejected cl v s
  | .attest v => Sys2Proof.Machine.execAttest v s
  | .warmReset v b => Sys2Proof.Machine.execWarmReset v b s
  | .drainCluster v => Sys2Proof.Machine.execDrainCluster v s
  | .testCluster v result => Sys2Proof.Machine.execTestCluster v result s
  | .installIntoCluster v => Sys2Proof.Machine.execInstallIntoCluster v s
  | .returnCluster v => Sys2Proof.Machine.execReturnCluster v s
  | .stageThafyFirmware v => Sys2Proof.Machine.execStageThafyFirmware v s
  | .retrainCxlPort v ok => Sys2Proof.Machine.execRetrainCxlPort v ok s
  | .gateCores v => Sys2Proof.Machine.execGateCores v s
  | .wakeCores v => Sys2Proof.Machine.execWakeCores v s
  | .unknownCommand v => Sys2Proof.Machine.execUnknownCommand v s
  | .drainComplete cl => Sys2Proof.Machine.execDrainComplete cl s
  | .bamaddrFirstWrite v => Sys2Proof.Machine.execBamaddrFirstWrite v s
  | .fabricGroupEnd dev core code gidx => Sys2Proof.Machine.execFabricGroupEnd dev core code gidx s
  | .fetchaddCompletion ok => Sys2Proof.Machine.execFetchaddCompletion ok s

end Sys2Proof.Machine
end

