-- ==== Sys2Proof/Machine/Step.lean ====
section
/-! DEFINITION. One step of the machine: the next turn's engine issues one word, or the next turn's agent takes one
step (DESIGN CHOICE, log entry 2). -/

namespace Sys2Proof.Machine

/-- The turn that comes next, and the state with it taken: the first of the list, else one of the free schedule. -/
def State.takeTurn (s : State) : Turn × State :=
  match s.sched with
  | t :: ts => (t, { s with sched := ts })
  | [] => (Config.turn s.turns, { s with turns := s.turns + 1 })

/-- The turn of engine e of core c: the word at its PC is fetched and executed. -/
def issueTurn (c : CoreId) (e : Eng) (s : State) : Host.Outcome State Fault Refusal :=
  match fetchWord c e s with
  | .stop s1 => .next s1
  | .word i s1 => exec i { s1 with cur := c, patched := false }

/-- A turn. A word is no agent's step: such a turn changes nothing, and so does every turn but that of the reference tick
once the start of an interval, the last event of its tick, has been settled (12 R390, R403). -/
def runTurn (t : Turn) (s : State) : Host.Outcome State Fault Refusal :=
  if s.tickClosed && t != .event .referenceTick then .next s
  else match t with
    | .issue c e => issueTurn c e s
    | .event i => if i.eng = none then exec i s else .next s

/-- One step. -/
def step (s : State) : Host.Outcome State Fault Refusal :=
  let t := s.takeTurn
  runTurn t.1 t.2

/-- Core 0's S stream set to run the word at address 0 at once. -/
def readyCore (k : Core) : Core :=
  let r : Stream := { k.ctx.stream .s with st := .running, pc := 0, held := none, done := none, snap := [] }
  { k with phase := .running, stopReq := none,
           ctx := { k.ctx with str := k.ctx.str.set 0 r, cr := { k.ctx.cr with tm := false }, trapping := none },
           refresh := { k.refresh with pendingTrap := none } }

/-- The state with an instruction loaded at address 0 of S's instruction memory on core 0, whose stream runs there, and
with S's turn first in the list: what dispatch and the loader would have left (DESIGN CHOICE, log entry 1). -/
def State.withFetchWord (s : State) (nbits w : Nat) : State :=
  let bs := leBytes 8 (w % 2 ^ nbits)
  let m := { s with mem := writeCells s.mem (imemKey 0 .s 0) bs, memErr := storeMarks s.memErr (imemKey 0 .s 0) 8 }
  let open_ (d : Device) : Device := { d with intervalDone := min d.intervalDone (d.ticks.toNat / intervalTicks) }
  { (m.modCore 0 readyCore).modDev open_ with sched := Turn.issue 0 .s :: s.sched }

end Sys2Proof.Machine
end

