-- ==== Sys2Proof/Safety.lean ====
section
/-! DEFINITION. What counts as a safe state (the memory keeps its canonical form, and the hard-wired registers of every
core stand as the spec says they read), and the terms in which claims say that a word retires: what its tokens and
operands must be for it to issue, and what it leaves unchanged. -/

namespace Sys2Proof

open Machine

/-- The hard-wired registers of a core: s0 holds 0 and is full, p0 holds all ones (03 R89, 05 R163). -/
def hardwired (k : Core) : Bool :=
  k.ctx.sreg.get 0 == 0 && k.ctx.sfill.get 0 == .full && k.ctx.v.p.get 0 == BitVec.allOnes 64

/-- A safe state. -/
def Safe (s : State) : Prop := Memory.wf s.mem = true ∧ ∀ c : CoreId, hardwired (s.core c) = true

/-! When a word issues and retires. -/

/-- What the pop of a word gives it: a held entry, else the head of the FIFO it names, and nothing for a word without a
pop; none where the word waits or faults (03 R92, R93; 04 R151; 13 R415). -/
def popped (e : Eng) (w : Common) (x : Ctx) : Option (Option Entry) :=
  match Eng.ofCode w.pop.toNat with
  | none => some none
  | some src =>
    match (x.stream e).held with
    | some v => some (some v)
    | none =>
      match x.fifo src e with
      | [] => none
      | h :: _ => if x.awaiting src e || h.ecc == .double then none else some (some h.v)

/-- The FIFOs after the pop of a word: the one it names has lost its head, unless the entry was held (03 R93). -/
def fifosPopped (e : Eng) (pop : BitVec 3) (x : Ctx) : Vector (List FEntry) 25 :=
  match Eng.ofCode pop.toNat with
  | none => x.fifos
  | some src => if (x.stream e).held = none then vset x.fifos (fifoIdx src e) ((x.fifo src e).drop 1) else x.fifos

/-- The tokens of a word let it issue: its pop gives `got` (03 R92, R93). -/
structure TokensTaken (e : Eng) (w : Common) (got : Option Entry) (x : Ctx) : Prop where
  pop : popped e w x = some got

/-- A word whose effect leaves the context x1 may push as its field says: the FIFO has room once its pop is taken, and the
stream's accesses are performed (03 R92; 04 R141; 10 R326). -/
def MayPush (e : Eng) (w : Common) (x x1 : Ctx) : Prop :=
  ∀ d, Eng.ofCode w.push.toNat = some d →
    (vget (fifosPopped e w.pop x) (fifoIdx e d)).length < fifoDepth ∧ drained e x1 = true

/-- The pop of a word waits: nothing is held, and its FIFO is empty or a pending receipt takes its next entry (03 R92; 04
R151). -/
def PopWaits (e : Eng) (w : Common) (x : Ctx) : Prop :=
  ∃ src, Eng.ofCode w.pop.toNat = some src ∧ (x.stream e).held = none ∧ (x.awaiting src e = true ∨ x.fifo src e = [])

/-- The entry that the pop of a word would take is uncorrectable (13 R410, R415). -/
def PopBad (e : Eng) (w : Common) (src : Eng) (x : Ctx) : Prop :=
  Eng.ofCode w.pop.toNat = some src ∧ (x.stream e).held = none ∧ x.awaiting src e = false
    ∧ ∃ h t, x.fifo src e = h :: t ∧ h.ecc = .double

/-- The state in which the effect of a word takes place: its pop is taken, before issue (03 R92). It is s but for the popped
FIFO, the entry now held, what the stream has seen of memory, and the count of a corrected entry (03 R93, 09 R316, 13
R415). -/
def tokened (e : Eng) (w : Common) (s : State) : State :=
  match takePop s.cur e w.pop s with
  | .got _ s1 => s1
  | _ => s

/-- The same for an S word, with single-bit marks of its guard and of its sources corrected (13 R415). -/
def readS (w : Common) (srcs : List (BitVec 6)) (s : State) : State :=
  let s1 := tokened .s w s
  (if w.guard = 0 then s1 else s1.correct s.cur [.sreg w.guard.toNat]).correct s.cur (srcs.map fun r => .sreg r.toNat)

/-- The same for a V word, whose sources are read on the lanes given with them. -/
def readV (w : Common) (srcs : List (Nat × (W64 → W64))) (s : State) : State :=
  let s1 := tokened .v w s
  let x := s1.ctx s.cur
  s1.correct s.cur (srcs.map fun p => velSites x ⟨p.1, 0, false, p.2⟩ (p.2 (activeMask x.v w))).flatten

/-- An s register may be read: it is s0, or full and not marked uncorrectable (04 R122, 13 R410). -/
def SReady (x : Ctx) (r : Nat) : Prop :=
  r = 0 ∨ (vget x.sfill r = .full ∧ (Site.sreg r, true) ∉ x.errs)

/-- An s register may be written: it is s0 or not empty (04 R122). -/
def SFree (x : Ctx) (r : BitVec 6) : Prop := r.toNat = 0 ∨ vget x.sfill r.toNat ≠ .empty

/-- The guard of an S word may be read and holds (03 R90). -/
def GuardTrue (w : Common) (x : Ctx) : Prop :=
  w.guard = 0 ∨ (SReady x w.guard.toNat ∧ (sval x w.guard.toNat = 0 ↔ w.ginv = true))

/-- The guard of an S word may be read and fails (03 R90). -/
def GuardFalse (w : Common) (x : Ctx) : Prop :=
  w.guard ≠ 0 ∧ SReady x w.guard.toNat ∧ ¬(sval x w.guard.toNat = 0 ↔ w.ginv = true)

/-! What a retiring word leaves unchanged. -/

/-- The FIFOs after a word that pops and pushes as its fields say; v is what it pushes, and `seen` what its stream has seen
of memory, which the push releases (03 R92, R93; 09 R316). -/
def fifosAfter (e : Eng) (w : Common) (v : Entry) (seen : View) (x : Ctx) : Vector (List FEntry) 25 :=
  match Eng.ofCode w.push.toNat with
  | none => fifosPopped e w.pop x
  | some d => vset (fifosPopped e w.pop x) (fifoIdx e d)
      (vget (fifosPopped e w.pop x) (fifoIdx e d) ++ [⟨v, .good, seen.everyForm⟩])

/-- What the entry that a pop takes from its FIFO releases (09 R316). -/
def poppedViews (e : Eng) (pop : BitVec 3) (x : Ctx) : List View :=
  match Eng.ofCode pop.toNat with
  | none => []
  | some src => if (x.stream e).held = none then ((x.fifo src e).take 1).map FEntry.view else []

/-- y is x but for what the retirement of a word of engine e changes in any case: the stream's PC, held entry, loop
levels (bank 1 for S in trap mode, and the rotation that a V loop level takes), what it has seen of memory, what it had
read or done while it waited, the FIFOs, the performance counters, and the marks of corrected structures. -/
structure SameBut (e : Eng) (x y : Ctx) : Prop where
  rest : y = { x with
    str := y.str, fifos := y.fifos, errs := y.errs, bank1 := y.bank1, cr := { x.cr with pmc := y.cr.pmc },
    v := { x.v with q := y.v.q, rrb := y.v.rrb } }
  streams : ∀ d, d ≠ e → y.stream d = x.stream d
  st : (y.stream e).st = (x.stream e).st
  tmpl : (y.stream e).tmpl = (x.stream e).tmpl
  orders : (y.stream e).observed = (x.stream e).observed ∧ (y.stream e).rel = (x.stream e).rel
  bank : ¬(e = .s ∧ x.cr.tm = true) → y.bank1 = x.bank1
  turn : e ≠ .v → y.v = x.v

/-- A loop level is active and ends at an address (04 R125). -/
def levelEnds (l : Loop) (a : Nat) : Bool := l.active && l.last.toNat == a

/-- The level that branches at the end of a word: the highest that ends there with a count above 1 (04 R125). -/
def branching (ls : Vector Loop 4) (a : Nat) : Option Nat :=
  [3, 2, 1, 0].find? fun k => levelEnds (vget ls k) a && decide (1 < (vget ls k).count.toNat)

/-- A level after the test of level k at the end of a word: the one that branches has one trip less; those above it that
end there, or all that do where none branches, are cleared, with what V's levels hold beside (04 R125; 05 R175); the rest
stand. -/
def loopTested (ls : Vector Loop 4) (a k : Nat) : Loop :=
  let l := vget ls k
  if branching ls a = some k then { l with count := l.count - 1 }
  else if levelEnds l a = true ∧ ∀ j, branching ls a = some j → j < k then
    { l with count := 0, active := false, rot := false, epi := 0 }
  else l

/-- The loop-end test at the word at p, of `size` bytes: y is what it makes of x. The stream goes on at the start of the
level that branches, with V's registers and predicates rotated where that level rotates (05 R169), else at the word that
follows (04 R125, R126). -/
structure LoopTest (e : Eng) (p : W64) (size : Nat) (x y : Ctx) : Prop where
  levels : ∀ k, k < 4 → vget (loopsOf y e) k = loopTested (loopsOf x e) p.toNat k
  pc : (y.stream e).pc = match branching (loopsOf x e) p.toNat with
    | none => p + BitVec.ofNat 64 size
    | some k => (vget (loopsOf x e) k).start.zeroExtend 64
  v : y.v = match branching (loopsOf x e) p.toNat with
    | none => x.v
    | some k =>
      if e = .v ∧ (vget (loopsOf x e) k).rot = true then rotate (loopTested (loopsOf x e) p.toNat k) x.v else x.v

/-- A word of engine e has retired: x is the context before it, x1 the same with the word's own effect, y the context
after. Its tokens are taken and given, no held entry and no word that waits to retire is left, marks were only removed and no uncorrectable one, V's
predicates and registers are renumbered at most by a loop level's rotation (05 R169), and what the stream has seen of
memory is what the effect leaves, or, where the effect reads no memory, what it had seen with what its pop acquires (09
R316). -/
structure Retired (e : Eng) (w : Common) (v : Entry) (x x1 y : Ctx) : Prop where
  same : SameBut e x1 y
  held : (y.stream e).held = none
  idle : (y.stream e).done = none
  fifos : y.fifos = fifosAfter e w v (y.stream e).view x
  seen : (y.stream e).view = (x1.stream e).view
    ∨ (y.stream e).view = ((x.stream e).acquire (poppedViews e w.pop x)).view
  marks : ∀ m, m ∈ y.errs → m ∈ x1.errs
  doubles : ∀ m, m ∈ x1.errs → m.2 = true → m ∈ y.errs
  turn : y.v = x1.v ∨ (e = .v ∧ ∃ l : Loop, l.rot = true ∧ y.v = rotate l x1.v)

/-- A word of engine e has had its effect and waits to retire: x is the context before it, x1 the same with the word's own
effect, y the context after. Its pop is taken and its entry `got` stays held; the stream stands at the word and keeps what
its retirement still is to do, `d`, so that nothing of the effect is made again (03 R92, R93; 01 R44; log entry 22). -/
structure Parked (e : Eng) (w : Common) (got : Option Entry) (d : Done) (x x1 y : Ctx) : Prop where
  same : SameBut e x1 y
  waits : (y.stream e).parked = some d
  pc : (y.stream e).pc = (x.stream e).pc
  held : (y.stream e).held = if (Eng.ofCode w.pop.toNat).isSome then got else (x.stream e).held
  fifos : y.fifos = fifosPopped e w.pop x
  loops : loopsOf y e = loopsOf x1 e
  v : y.v = x1.v
  seen : (y.stream e).view = (x1.stream e).view
    ∨ (y.stream e).view = ((x.stream e).acquire (poppedViews e w.pop x)).view
  marks : ∀ m, m ∈ y.errs → m ∈ x1.errs
  doubles : ∀ m, m ∈ x1.errs → m.2 = true → m ∈ y.errs

/-- Bytes of the word being executed: 4 for a patch word, else 8 (03 R83). -/
def wordBytes (s : State) : Nat := if s.patched then 4 else 8

/-- The word of engine e that the core in turn executes retires. s1 is the state s with the word's own effect alone: the
state t after it differs from s1 only in the context of the core in turn, and there only as `Retired` says, so every
other core, the clusters, plates and device registers and every byte of memory are those of s1. The stream goes on as
the loop-end test says (04 R125). -/
structure RetiresTo (e : Eng) (w : Common) (v : Entry) (s1 s t : State) : Prop where
  outside : t = s1.modCtx s.cur fun _ => t.ctx s.cur
  memory : ∀ a, readCell t.mem a = readCell s1.mem a
  here : Retired e w v (s.ctx s.cur) (s1.ctx s.cur) (t.ctx s.cur)
  next : LoopTest e ((s.ctx s.cur).stream e).pc (wordBytes s) (s1.ctx s.cur) (t.ctx s.cur)

/-- The same for a word that transfers control to an address. -/
structure JumpsTo (e : Eng) (w : Common) (target : W64) (s1 s t : State) : Prop where
  outside : t = s1.modCtx s.cur fun _ => t.ctx s.cur
  memory : ∀ a, readCell t.mem a = readCell s1.mem a
  here : Retired e w none (s.ctx s.cur) (s1.ctx s.cur) (t.ctx s.cur)
  pc : ((t.ctx s.cur).stream e).pc = target
  loops : loopsOf (t.ctx s.cur) e = loopsOf (s1.ctx s.cur) e
  v : (t.ctx s.cur).v = (s1.ctx s.cur).v

/-- The word has had its effect and waits to retire: s1 is the state s with the word's own effect alone, v the entry that its
push is to carry, and `onto` where it transfers control, if it does. -/
structure ParksTo (e : Eng) (w : Common) (got : Option Entry) (v : Entry) (onto : Option W64) (s1 s t : State) : Prop where
  outside : t = s1.modCtx s.cur fun _ => t.ctx s.cur
  memory : ∀ a, readCell t.mem a = readCell s1.mem a
  here : ∃ quiet, Parked e w got ⟨((s.ctx s.cur).stream e).pc, wordBytes s, w.push, v, onto, quiet⟩ (s.ctx s.cur)
    (s1.ctx s.cur) (t.ctx s.cur)

/-- The word retires and its effect is `eff` on the context of the core in turn: every register of another core, every
cluster, plate and device register and every byte of memory is as it was. -/
def Retires (e : Eng) (w : Common) (v : Entry) (eff : Ctx → Ctx) (s t : State) : Prop :=
  RetiresTo e w v (s.modCtx s.cur eff) s t

/-- The same for a word that transfers control. -/
def Jumps (e : Eng) (w : Common) (eff : Ctx → Ctx) (target : W64) (s t : State) : Prop :=
  JumpsTo e w target (s.modCtx s.cur eff) s t

/-! The shapes of claims about words. -/

/-- A word has a legal form now: it is well formed, and an ERET stands in the handler (03 R88 row 4; 04 R157). -/
def Legal (i : Instr) (s : State) : Prop := i.wf = true ∧ ∀ f, i = .eret f → (s.ctx s.cur).cr.tm = true

/-- What keeps a word of engine e from issuing, whatever else it does: an empty FIFO that it pops, for which it waits as it
stands; and an uncorrectable entry there, a fault that ends the job (03 R88 row 6, R92; 13 R410). -/
structure Blocks (i : Instr) (e : Eng) (w : Common) : Prop where
  pop : ∀ s, Legal i s → PopWaits e w (s.ctx s.cur) → exec i s = .next s
  bad : ∀ s src, Legal i s → PopBad e w src (s.ctx s.cur) →
    ∃ t : Trap, exec i s = .next (raise s.cur e t s) ∧ t.code = 0x10 ∧ t.classJ = true ∧ t.reg = some src.code
      ∧ t.addr = some (3 * 2 ^ 44) ∧ t.pc = ((s.ctx s.cur).stream e).pc ∧ t.resume = ((s.ctx s.cur).stream e).pc

/-- A word whose tokens are taken and whose effect leaves s1 ends as `done` says where it may push; until then it waits with
its effect made, to push v and go on at `onto`, or at the word that follows (03 R92, R93; 01 R44; 04 R141). -/
def EndsWith (i : Instr) (e : Eng) (w : Common) (got : Option Entry) (v : Entry) (onto : Option W64) (s1 s : State)
    (done : State → Prop) : Prop :=
  (MayPush e w (s.ctx s.cur) (s1.ctx s.cur) → ∃ t, exec i s = .next t ∧ done t)
    ∧ (¬MayPush e w (s.ctx s.cur) (s1.ctx s.cur) → ∃ t, exec i s = .next t ∧ ParksTo e w got v onto s1 s t)

/-- A word of engine e, well formed, in a state that meets `ready` and whose pop is taken, completes: it has the effect `own`,
which is given what its pop gave, pushes `push` and retires. Where its pop waits, so does it; where its push waits, its
retirement does. -/
def Completes (i : Instr) (e : Eng) (w : Common) (ready : State → Prop) (push : State → Entry)
    (own : Option Entry → State → State) : Prop :=
  i.wf = true → Blocks i e w ∧ ∀ s got, TokensTaken e w got (s.ctx s.cur) → ready s →
    EndsWith i e w got (push s) none (own got s) s (RetiresTo e w (push s) (own got s) s)

/-- The same for a word that transfers control to `target`. -/
def CompletesAt (i : Instr) (e : Eng) (w : Common) (ready : State → Prop) (target : State → W64)
    (own : State → State) : Prop :=
  i.wf = true → Blocks i e w ∧ ∀ s got, TokensTaken e w got (s.ctx s.cur) → ready s →
    EndsWith i e w got none (some (target s)) (own s) s (JumpsTo e w (target s) (own s) s)

/-- The same for a word whose last act, once it has retired with the effect `own`, is `last`: where it may not push yet, it
waits with its pop taken and no effect. -/
def CompletesThen (i : Instr) (e : Eng) (w : Common) (ready : State → Prop) (own : Option Entry → State → State)
    (last : State → State → State) : Prop :=
  i.wf = true → Blocks i e w ∧ ∀ s got, TokensTaken e w got (s.ctx s.cur) → ready s →
    (MayPush e w (s.ctx s.cur) ((own got s).ctx s.cur) →
        ∃ t, exec i s = .next (last s t) ∧ RetiresTo e w none (own got s) s t)
      ∧ (¬MayPush e w (s.ctx s.cur) ((own got s).ctx s.cur) → exec i s = .next (tokened e w s))

/-- The same for a word whose last act transfers control itself, so that no loop level is tested (04 R126): until
then its stream stands at the word. -/
def CompletesByRet (i : Instr) (e : Eng) (w : Common) (ready : State → Prop) (own : State → State)
    (last : State → State → State) : Prop :=
  i.wf = true → Blocks i e w ∧ ∀ s got, TokensTaken e w got (s.ctx s.cur) → ready s →
    (MayPush e w (s.ctx s.cur) ((own s).ctx s.cur) →
        ∃ t, exec i s = .next (last s t) ∧ JumpsTo e w ((s.ctx s.cur).stream e).pc (own s) s t)
      ∧ (¬MayPush e w (s.ctx s.cur) ((own s).ctx s.cur) → exec i s = .next (tokened e w s))

/-- A word that issues and waits to retire: it holds the state `own` (04 R149, 10 R338, 12 R394). -/
def Holds (i : Instr) (e : Eng) (w : Common) (ready : State → Prop) (own : State → State) : Prop :=
  i.wf = true → ∀ s got, TokensTaken e w got (s.ctx s.cur) → ready s → exec i s = .next (own s)

/-- A word that waits before its effect has taken its pop, whose entry is now held, and changes nothing else: the pop of
row 6 is made before issue and its entry is kept until the word retires (03 R92, R93; log entry 22). -/
def WaitsBefore (i : Instr) (e : Eng) (w : Common) (ready : State → Prop) : Prop :=
  i.wf = true → ∀ s got, TokensTaken e w got (s.ctx s.cur) → ready s → exec i s = .next (tokened e w s)

/-- A word whose effect is to raise a trap, on the state `own` (13 R408). -/
def Raises (i : Instr) (e : Eng) (w : Common) (ready : State → Prop) (trap : State → Trap) (own : State → State) : Prop :=
  i.wf = true → ∀ s got, TokensTaken e w got (s.ctx s.cur) → ready s →
    exec i s = .next (raise s.cur e (trap s) (own s))

/-- The registers of an S word are ready: guard true, sources full, destinations not empty (03 R90, 04 R122). -/
def SRegs (w : Common) (srcs dests : List (BitVec 6)) (s : State) : Prop :=
  GuardTrue w (s.ctx s.cur) ∧ (∀ r ∈ srcs, SReady (s.ctx s.cur) r.toNat) ∧ ∀ d ∈ dests, SFree (s.ctx s.cur) d

/-- An s register source is empty under a policy: trap, or block (03 R91; 04 R122). -/
def emptyS (trap : Bool) (x : Ctx) (r : Src) : Bool := r.reg != 0 && vget x.sfill r.reg == .empty && r.trap == trap

/-- A fault record for an empty source under trap policy: its register and operand, at the word's own address (03 R88 row 7,
R91; 13 R408). -/
def EmptyFault (t : Trap) (reg : Nat) (opnd : Option Nat) (p : W64) : Prop :=
  t.code = 0x03 ∧ t.reg = some reg ∧ t.opnd = opnd ∧ t.addr = none ∧ t.lane = none ∧ t.pc = p ∧ t.resume = p

/-- What the registers of an S word keep it from: an empty guard makes it wait, and so does a source that is empty under
block policy or an empty destination, its pop taken; a source that is empty under trap policy, the first in operand order,
is a fault (03 R88 row 7, R90, R91; 04 R122). -/
structure SBlocks (i : Instr) (w : Common) (srcs : List Src) (dests : List (BitVec 6)) : Prop where
  guard : ∀ s got, Legal i s → TokensTaken .s w got (s.ctx s.cur) → w.guard ≠ 0 →
    vget (s.ctx s.cur).sfill w.guard.toNat = .empty → exec i s = .next (tokened .s w s)
  wait : ∀ s got, Legal i s → TokensTaken .s w got (s.ctx s.cur) → GuardTrue w (s.ctx s.cur) →
    (∀ r ∈ srcs, SReady (s.ctx s.cur) r.reg ∨ emptyS false (s.ctx s.cur) r = true) →
    ((∃ r ∈ srcs, emptyS false (s.ctx s.cur) r = true) ∨ ∃ d ∈ dests, ¬SFree (s.ctx s.cur) d) →
    exec i s = .next (tokened .s w s)
  trap : ∀ s got r, Legal i s → TokensTaken .s w got (s.ctx s.cur) → GuardTrue w (s.ctx s.cur) →
    (∀ q ∈ srcs, emptyS false (s.ctx s.cur) q = false
      ∧ ∀ p, vget (s.ctx s.cur).sfill q.reg = .poisoned p → p.code ≠ 0x03) → (∀ d ∈ dests, SFree (s.ctx s.cur) d) →
    srcs.find? (emptyS true (s.ctx s.cur)) = some r →
    ∃ t, exec i s = .next (raise s.cur .s t (readS w [] s)) ∧ EmptyFault t r.reg r.opnd ((s.ctx s.cur).stream .s).pc

/-- A v register source is empty under a policy (03 R91; 05 R166). -/
def emptyV (trap : Bool) (x : Ctx) (r : Src) : Bool := vget x.v.fill (vPhys x.v.rrb r.reg) == .empty && r.trap == trap

/-- What the registers of a V word keep it from: a source that is empty under block policy, or an empty destination, makes it
wait with its pop taken, whatever lanes are active; one that is empty under trap policy is a fault (03 R88 row 7, R91; 05
R166, R202). -/
structure VBlocks (i : Instr) (w : Common) (srcs : List Src) (dests : List Nat) : Prop where
  wait : ∀ s got, Legal i s → TokensTaken .v w got (s.ctx s.cur) →
    (∀ r ∈ srcs, vget (s.ctx s.cur).v.fill (vPhys (s.ctx s.cur).v.rrb r.reg) = .full
      ∨ emptyV false (s.ctx s.cur) r = true) →
    ((∃ r ∈ srcs, emptyV false (s.ctx s.cur) r = true)
      ∨ ∃ d ∈ dests, vget (s.ctx s.cur).v.fill (vPhys (s.ctx s.cur).v.rrb d) = .empty) →
    exec i s = .next (tokened .v w s)
  trap : ∀ s got r, Legal i s → TokensTaken .v w got (s.ctx s.cur) →
    (∀ q ∈ srcs, emptyV false (s.ctx s.cur) q = false
      ∧ ∀ p, vget (s.ctx s.cur).v.fill (vPhys (s.ctx s.cur).v.rrb q.reg) = .poisoned p → p.code ≠ 0x03) →
    (∀ d ∈ dests, vget (s.ctx s.cur).v.fill (vPhys (s.ctx s.cur).v.rrb d) ≠ .empty) →
    srcs.find? (emptyV true (s.ctx s.cur)) = some r →
    ∃ t, exec i s = .next (raise s.cur .v t (tokened .v w s))
      ∧ EmptyFault t r.reg r.opnd ((s.ctx s.cur).stream .v).pc

/-- An S word whose guard fails retires with no effect but its tokens, its push a bare token (03 R90, R92). -/
def SkipsOnGuard (i : Instr) (w : Common) : Prop :=
  Completes i .s w (fun s => GuardFalse w (s.ctx s.cur)) (fun _ => none) fun _ s => s

/-- An S word with sources `srcs` writes `val` to the register fd and changes nothing else. -/
def SWrites (i : Instr) (w : Common) (srcs : List (BitVec 6)) (fd : BitVec 6) (val : Ctx → W64) : Prop :=
  Completes i .s w (SRegs w srcs [fd]) (fun _ => none) (fun _ s => s.writeS s.cur fd (val (s.ctx s.cur)))
    ∧ SkipsOnGuard i w

/-- The elements of a physical V register that a mask names may be read: the register is full, and no code of theirs is
uncorrectable, nor wrong in one bit where the element carries a proof flag (05 R166, R174). -/
def VReady (x : Ctx) (phys : Nat) (m : W64) : Prop :=
  vget x.v.fill phys = .full ∧ ∀ i, i < 64 → laneOn m i = true → (Site.vel phys i, true) ∉ x.errs
    ∧ (laneOn (vget x.v.proof phys) i = true → (Site.vel phys i, false) ∉ x.errs)

/-- The registers of a V word are ready: each source on the lanes it is read on, given the active ones; each destination
not empty. Registers stand here by their logical numbers (05 R166, R167). -/
def VRegs (w : Common) (srcs : List (Nat × (W64 → W64))) (dests : List Nat) (s : State) : Prop :=
  let x := s.ctx s.cur
  (∀ p ∈ srcs, VReady x (vPhys x.v.rrb p.1) (p.2 (activeMask x.v w)))
    ∧ ∀ d ∈ dests, vget x.v.fill (vPhys x.v.rrb d) ≠ .empty

/-- The word of engine e at the PC of the core in turn, with what its pop gave. -/
def wordNow (e : Eng) (got : Option Entry) (s : State) : Wd :=
  ⟨s.cur, ((s.ctx s.cur).stream e).pc, wordBytes s, got⟩

/-- A V word writes the register fd on its active lanes, lane i with `val` of it, their proof flags as `prf` says, and
changes nothing else (05 R163, R170, R173). -/
def VWrites (i : Instr) (w : Common) (srcs : List (Nat × (W64 → W64))) (fd : BitVec 6) (prf : Bool)
    (val : Ctx → Nat → W32) : Prop :=
  Completes i .v w (VRegs w srcs [fd.toNat]) (fun _ => none) fun got s =>
    s.writeV (wordNow .v got s) fd (activeMask (s.ctx s.cur).v w) prf (val (s.ctx s.cur))

/-- A V word writes a predicate on its active lanes and changes nothing else (05 R182–R184). -/
def VTests (i : Instr) (w : Common) (srcs : List (Nat × (W64 → W64))) (pd : BitVec 6) (val : Ctx → W64) : Prop :=
  Completes i .v w (VRegs w srcs []) (fun _ => none) fun _ s =>
    s.modCtx s.cur (writePred pd.toNat (activeMask (s.ctx s.cur).v w) (val (s.ctx s.cur)))

end Sys2Proof
end

