-- ==== Sys2Proof/Certificates/Slice0/Obligations.lean ====
section
/-! DEFINITION. The statements for the provers. Each says which rules of the spec it formalises; `Completes`, `SWrites`
and the other shapes are those of Sys2Proof/Safety.lean. -/

open Sys2Proof Sys2Proof.Machine

namespace Sys2Proof.Claims

/-- An S word with two source registers that writes the result of an exact integer of their values (04 R142, R143). -/
def TwoOperand (i : FRrr → Instr) (satOk : Bool) (val : FRrr → W64 → W64 → Int) : Prop :=
  ∀ f : FRrr, SWrites (i f) f.w [f.fa, f.fb] f.fd fun x =>
    sResult f.fmt (satOk && f.sat) (val f (sfield x f.fa) (sfield x f.fb))

/-- The same with the one source fa. -/
def OneOperand (i : FRrr → Instr) (val : FRrr → W64 → Int) : Prop :=
  ∀ f : FRrr, SWrites (i f) f.w [f.fa] f.fd fun x => sResult f.fmt false (val f (sfield x f.fa))

/-- An F-RRI word of S with the one source fa (04 R144). -/
def ImmediateOperand (i : FRri → Instr) (val : FRri → W64 → Int) : Prop :=
  ∀ f : FRri, SWrites (i f) f.w [f.fa] f.fd fun x => sResult f.fmt false (val f (sfield x f.fa))

/-- A divide or remainder: it retires with its destination empty and the value pending (04 R121, R143). -/
def Divides (i : FRrr → Instr) (satOk : Bool) (val : FRrr → W64 → W64 → Int) : Prop :=
  ∀ f : FRrr,
    Completes (i f) .s f.w (SRegs f.w [f.fa, f.fb] [f.fd]) (fun _ => none) (fun _ s =>
      let x := s.ctx s.cur
      let v := sResult f.fmt (satOk && f.sat) (val f (sfield x f.fa) (sfield x f.fb))
      s.issuePend s.cur ⟨.s, f.fd.toNat, 1, x.seq, 0, none, .value v⟩)
    ∧ SkipsOnGuard (i f) f.w

/-- The PC of engine e of the core in turn, and the address of the word that follows (03 R108). -/
def pcOf (e : Eng) (s : State) : W64 := ((s.ctx s.cur).stream e).pc
def pcAfter (e : Eng) (s : State) : W64 := pcOf e s + BitVec.ofNat 64 (wordBytes s)

/-- A word that falls under row 4 of 03 R88: it raises 0x01 at its address, whatever its operands and tokens are. -/
def Illegal (i : Instr) (e : Eng) : Prop :=
  ∀ s : State, exec i s = .next (raise s.cur e (Trap.plain 0x01 (pcOf e s)) s)

/-- The record of a fault that a word of engine e raises, with its own PC as resume address (13 R408). -/
def faultAt (e : Eng) (t : Trap) (s : State) : Trap := { t with pc := pcOf e s, resume := pcOf e s + t.resume }

/-- Own address plus four times a signed offset in parcels (03 R97). -/
def pcPlus (e : Eng) (off : BitVec 20) (s : State) : W64 := pcOf e s + BitVec.ofInt 64 (4 * off.toInt)

/-- The condition of BR and BRI (03 R97). -/
def CondHolds (cond : Nat) (a b : W64) : Prop :=
  if cond = 0 then a = b else if cond = 1 then a ≠ b else if cond = 2 then a.toInt < b.toInt
  else if cond = 3 then b.toInt ≤ a.toInt else if cond = 4 then a.toNat < b.toNat else b.toNat ≤ a.toNat

/-- A conditional branch of S on fa and a second value: taken exactly where the condition holds (04 R145). -/
def Branches (i : FBr → Instr) (regs : FBr → List (BitVec 6)) (b : FBr → Ctx → W64) : Prop :=
  ∀ f : FBr,
    CompletesAt (i f) .s f.w
      (fun s => SRegs f.w (regs f) [] s ∧ CondHolds f.cond.toNat (sfield (s.ctx s.cur) f.fa) (b f (s.ctx s.cur)))
      (pcPlus .s f.off) (fun s => s)
    ∧ Completes (i f) .s f.w
      (fun s => SRegs f.w (regs f) [] s ∧ ¬CondHolds f.cond.toNat (sfield (s.ctx s.cur) f.fa) (b f (s.ctx s.cur)))
      (fun _ => none) (fun _ s => s)
    ∧ SkipsOnGuard (i f) f.w

/-- The loop level a loop word of engine e sets, with `count` passes: level lvl counts from the following word to the
word at the offset (04 R146); with rot, epilogue passes are added and the first stage predicate becomes all ones (05
R195, R196). -/
def loopSet (e : Eng) (f : FBr) (count : Nat) (rot : Bool) (epi : Nat) (s : State) : State :=
  s.modCtx s.cur fun x =>
    let l : Loop :=
      { count := BitVec.ofNat 32 (count + if rot then epi else 0), start := (pcAfter e s).truncate 16,
        last := (pcPlus e f.off s).truncate 16, active := true, rot := rot, epi := BitVec.ofNat 3 epi }
    let y := setLoops x e (vset (loopsOf x e) f.lvl.toNat l)
    if rot then { y with v := { y.v with q := vset y.v.q (qPhys y.v.rrb 0) (BitVec.allOnes 64) } } else y

/-- A loop word of engine e: with a count other than 0 it sets its level and goes on; with 0 it goes on at the word after
the body and changes no level (04 R146; 05 R195, R196). -/
def Loops (i : FBr → Instr) (e : Eng) (ready : FBr → State → Prop) (count : FBr → Ctx → Nat) (rot : FBr → Bool)
    (epi : FBr → Nat) : Prop :=
  ∀ f : FBr,
    Completes (i f) e f.w (fun s => ready f s ∧ count f (s.ctx s.cur) ≠ 0) (fun _ => none)
      (fun _ s => loopSet e f (count f (s.ctx s.cur)) (rot f) (epi f) s)
    ∧ CompletesAt (i f) e f.w (fun s => ready f s ∧ count f (s.ctx s.cur) = 0)
      (fun s => pcPlus e f.off s + BitVec.ofNat 64 (s.wordSize s.cur e (pcPlus e f.off s))) (fun s => s)

end Sys2Proof.Claims

/-- 04 R142, R143: every two-operand and one-operand integer word of S retires with the result the rule gives written to
its destination, and changes nothing else. The model's choices
in it are those of log entry 29. -/
def Obligations.ScalarArithmeticRetires : Prop :=
  Claims.TwoOperand .add true (fun f a b => sInt f.fmt a + sInt f.fmt b)
  ∧ Claims.TwoOperand .sub true (fun f a b => sInt f.fmt a - sInt f.fmt b)
  ∧ Claims.TwoOperand .mul true (fun f a b => sInt f.fmt a * sInt f.fmt b)
  ∧ Claims.TwoOperand .mulh false (fun f a b => Int.fdiv (sInt f.fmt a * sInt f.fmt b) (2 ^ sWidth f.fmt : Nat))
  ∧ Claims.TwoOperand .mulhu false (fun f a b => ((sNat f.fmt a * sNat f.fmt b / 2 ^ sWidth f.fmt : Nat) : Int))
  ∧ Claims.TwoOperand .and false (fun f a b => (sNat f.fmt (a &&& b) : Nat))
  ∧ Claims.TwoOperand .or false (fun f a b => (sNat f.fmt (a ||| b) : Nat))
  ∧ Claims.TwoOperand .xor false (fun f a b => (sNat f.fmt (a ^^^ b) : Nat))
  ∧ Claims.TwoOperand .andn false (fun f a b => (sNat f.fmt (a &&& ~~~b) : Nat))
  ∧ Claims.TwoOperand .shl false (fun f a b => (sNat f.fmt a * 2 ^ (b.toNat % sWidth f.fmt) : Nat))
  ∧ Claims.TwoOperand .shr false (fun f a b => (sNat f.fmt a / 2 ^ (b.toNat % sWidth f.fmt) : Nat))
  ∧ Claims.TwoOperand .sra false (fun f a b => Int.fdiv (sInt f.fmt a) (2 ^ (b.toNat % sWidth f.fmt) : Nat))
  ∧ Claims.TwoOperand .rotr false (fun f a b =>
      (rotateRight (sNat f.fmt a) (sWidth f.fmt) (b.toNat % sWidth f.fmt) : Nat))
  ∧ Claims.TwoOperand .min false (fun f a b => min (sInt f.fmt a) (sInt f.fmt b))
  ∧ Claims.TwoOperand .max false (fun f a b => max (sInt f.fmt a) (sInt f.fmt b))
  ∧ Claims.TwoOperand .minu false (fun f a b => min (sNat f.fmt a) (sNat f.fmt b))
  ∧ Claims.TwoOperand .maxu false (fun f a b => max (sNat f.fmt a) (sNat f.fmt b))
  ∧ Claims.TwoOperand .cmp false (fun f a b =>
      if condS f.sub.toNat (sWidth f.fmt) a b then 1 else 0)
  ∧ Claims.OneOperand .clz (fun f a => (countLeading a.toNat (sWidth f.fmt) : Nat))
  ∧ Claims.OneOperand .ctz (fun f a => (countTrailing a.toNat (sWidth f.fmt) : Nat))
  ∧ Claims.OneOperand .popc (fun f a => (countOnes a.toNat (sWidth f.fmt) : Nat))
  ∧ Claims.OneOperand .mov (fun f a => (sNat f.fmt a : Nat))
  ∧ ∀ f : FRrr, SWrites (.sel f) f.w [f.fa, f.fb, f.fc] f.fd fun x =>
      sResult f.fmt false
        (sNat f.fmt (if sNat f.fmt (sfield x f.fc) ≠ 0 then sfield x f.fa else sfield x f.fb) : Nat)

/-- 04 R144: every F-RRI word of S retires with its result, LI with the sign-extended immediate, and LIH with one part of
the register replaced by the immediate; LIH with sub 2 or 3 is illegal. -/
def Obligations.ScalarImmediatesRetire : Prop :=
  Claims.ImmediateOperand .addi (fun f a => sInt f.fmt a + f.imm.toInt)
  ∧ Claims.ImmediateOperand .andi (fun f a => (sNat f.fmt (a &&& f.imm.signExtend 64) : Nat))
  ∧ Claims.ImmediateOperand .ori (fun f a => (sNat f.fmt (a ||| f.imm.zeroExtend 64) : Nat))
  ∧ Claims.ImmediateOperand .xori (fun f a => (sNat f.fmt (a ^^^ f.imm.zeroExtend 64) : Nat))
  ∧ Claims.ImmediateOperand .shli (fun f a => (sNat f.fmt a * 2 ^ (f.imm.toNat % 64 % sWidth f.fmt) : Nat))
  ∧ Claims.ImmediateOperand .shri (fun f a => (sNat f.fmt a / 2 ^ (f.imm.toNat % 64 % sWidth f.fmt) : Nat))
  ∧ Claims.ImmediateOperand .srai (fun f a => Int.fdiv (sInt f.fmt a) (2 ^ (f.imm.toNat % 64 % sWidth f.fmt) : Nat))
  ∧ (∀ f : FRri, SWrites (.li f) f.w [] f.fd fun _ => f.imm.signExtend 64)
  ∧ (∀ f : FRri, SWrites (.lihM f) f.w [f.fa] f.fd fun x =>
      ((sfield x f.fa).extractLsb' 48 16 ++ f.imm ++ (sfield x f.fa).extractLsb' 0 24 : W64))
  ∧ (∀ f : FRri, SWrites (.lihH f) f.w [f.fa] f.fd fun x =>
      (f.imm.extractLsb' 0 16 ++ (sfield x f.fa).extractLsb' 0 48 : W64))
  ∧ ∀ f : FRri, 2 ≤ f.sub.toNat → Claims.Illegal (.lihM f) .s

/-- 04 R143: DIV, DIVU, REM and REMU are deferred writes of the quotient or remainder, division by zero included. The model's
choice in it is that of log entry 28. -/
def Obligations.ScalarDivisionDefers : Prop :=
  Claims.Divides .div true (fun f a b =>
    if sInt f.fmt b = 0 then (2 ^ sWidth f.fmt : Nat) - 1
    else if sInt f.fmt a = -(2 ^ (sWidth f.fmt - 1) : Nat) ∧ sInt f.fmt b = -1 then
      (if f.sat then (2 ^ (sWidth f.fmt - 1) : Nat) - 1 else -(2 ^ (sWidth f.fmt - 1) : Nat))
    else Int.tdiv (sInt f.fmt a) (sInt f.fmt b))
  ∧ Claims.Divides .rem false (fun f a b => if sInt f.fmt b = 0 then sInt f.fmt a else Int.tmod (sInt f.fmt a) (sInt f.fmt b))
  ∧ Claims.Divides .divu false (fun f a b =>
    if sNat f.fmt b = 0 then (2 ^ sWidth f.fmt : Nat) - 1 else ((sNat f.fmt a / sNat f.fmt b : Nat) : Int))
  ∧ Claims.Divides .remu false (fun f a b =>
    if sNat f.fmt b = 0 then (sNat f.fmt a : Nat) else ((sNat f.fmt a % sNat f.fmt b : Nat) : Int))

/-- 04 R142, R143 and 03 R89: what a result and a register write come to. Sums, differences and products of 64-bit
operands wrap; those of I32 wrap at 32 bits and are sign-extended, those of N32 zero-extended; `.sat` clamps to the range
of the format; a write of s0 is discarded and a write of another register fills it. -/
def Obligations.ScalarResultsByFormat : Prop :=
  (∀ a b : W64, sResult 15 false (sInt 15 a + sInt 15 b) = a + b ∧ sResult 15 false (sInt 15 a - sInt 15 b) = a - b
    ∧ sResult 15 false (sInt 15 a * sInt 15 b) = a * b)
  ∧ (∀ a b : W64,
    sResult 10 false (sInt 10 a + sInt 10 b) = ((a + b).truncate 32).signExtend 64
    ∧ sResult 10 false (sInt 10 a - sInt 10 b) = ((a - b).truncate 32).signExtend 64
    ∧ sResult 10 false (sInt 10 a * sInt 10 b) = ((a * b).truncate 32).signExtend 64
    ∧ sResult 13 false (sInt 13 a + sInt 13 b) = ((a + b).truncate 32).zeroExtend 64
    ∧ sResult 13 false (sInt 13 a - sInt 13 b) = ((a - b).truncate 32).zeroExtend 64
    ∧ sResult 13 false (sInt 13 a * sInt 13 b) = ((a * b).truncate 32).zeroExtend 64)
  ∧ (∀ n : Int,
    sResult 15 true n = BitVec.ofInt 64 (max (-2 ^ 63) (min (2 ^ 63 - 1) n))
    ∧ sResult 10 true n = BitVec.ofInt 64 (max (-2 ^ 31) (min (2 ^ 31 - 1) n))
    ∧ sResult 13 true n = BitVec.ofInt 64 (max 0 (min (2 ^ 32 - 1) n)))
  ∧ ∀ (x : Ctx) (r : BitVec 6) (v : W64),
    (r.toNat = 0 → writeS r v x = x)
    ∧ (r.toNat ≠ 0 → r.toNat < 32 → sfield (writeS r v x) r = v ∧ vget (writeS r v x).sfill r.toNat = .full
        ∧ (∀ q, q < 32 → q ≠ r.toNat →
            sval (writeS r v x) q = sval x q ∧ vget (writeS r v x).sfill q = vget x.sfill q)
        ∧ SReady (writeS r v x) r.toNat)

/-- 04 R145: BR and BRI branch exactly where their condition holds, to the own address plus four times the offset; JMP
and CALL always do, CALL with the address of the word that follows in fd; JMPR and RET go to a register's value, JMPR
with a displacement and a link, where that address is a multiple of 4, and else raise 0x06 with it in ADDR and write no
link. BR and BRI with cond 6–15 are illegal. None changes anything else. -/
def Sys2Proof.Claims.ScalarBranchesComplete : Prop :=
  Claims.Branches .br (fun f => [f.fa, f.fb]) (fun f x => sfield x f.fb)
  ∧ Claims.Branches .bri (fun f => [f.fa]) (fun f _ => f.fb.signExtend 64)
  ∧ ∀ f : FBr,
    (CompletesAt (.jmp f) .s f.w (SRegs f.w [] []) (Claims.pcPlus .s f.off) (fun s => s) ∧ SkipsOnGuard (.jmp f) f.w)
    ∧ (CompletesAt (.call f) .s f.w (SRegs f.w [] [f.fd]) (Claims.pcPlus .s f.off)
        (fun s => s.writeS s.cur f.fd (Claims.pcAfter .s s)) ∧ SkipsOnGuard (.call f) f.w)
    ∧ (CompletesAt (.jmpr f) .s f.w
        (fun s => SRegs f.w [f.fa] [f.fd] s
          ∧ (sfield (s.ctx s.cur) f.fa + BitVec.ofInt 64 (4 * f.off.toInt)).toNat % 4 = 0)
        (fun s => sfield (s.ctx s.cur) f.fa + BitVec.ofInt 64 (4 * f.off.toInt))
        (fun s => s.writeS s.cur f.fd (Claims.pcAfter .s s)) ∧ SkipsOnGuard (.jmpr f) f.w)
    ∧ CompletesAt (.ret f) .s f.w
        (fun s => SRegs f.w [f.fa] [] s ∧ (sfield (s.ctx s.cur) f.fa).toNat % 4 = 0)
        (fun s => sfield (s.ctx s.cur) f.fa) (fun s => s) ∧ SkipsOnGuard (.ret f) f.w
    ∧ Raises (.jmpr f) .s f.w
        (fun s => SRegs f.w [f.fa] [f.fd] s
          ∧ (sfield (s.ctx s.cur) f.fa + BitVec.ofInt 64 (4 * f.off.toInt)).toNat % 4 ≠ 0)
        (fun s => Claims.faultAt .s
          (fltAddr 0x06 (sfield (s.ctx s.cur) f.fa + BitVec.ofInt 64 (4 * f.off.toInt)).toNat) s) (readS f.w [f.fa])
    ∧ Raises (.ret f) .s f.w
        (fun s => SRegs f.w [f.fa] [] s ∧ (sfield (s.ctx s.cur) f.fa).toNat % 4 ≠ 0)
        (fun s => Claims.faultAt .s (fltAddr 0x06 (sfield (s.ctx s.cur) f.fa).toNat) s) (readS f.w [f.fa])
    ∧ (6 ≤ f.cond.toNat → Claims.Illegal (.br f) .s ∧ Claims.Illegal (.bri f) .s)

/-- 04 R146, 05 R195, R196: the loop words of the five engines. The count is fa:fb in the immediate forms; in the
register forms it is s[fa][31:0], element 0 of v[fa], mv or pv. An offset below 2 is illegal. What a level does at its end
word stands with every completion (`LoopTest`). The model's choice in it is that of log entry 101. -/
def Obligations.LoopWordsSetTheirLevel : Prop :=
  Claims.Loops .loop .s (fun f => SRegs f.w [] []) (fun f _ => f.fa.toNat * 64 + f.fb.toNat) (fun _ => false) (fun _ => 0)
  ∧ Claims.Loops .loopr .s (fun f => SRegs f.w [f.fa] []) (fun f x => (sfield x f.fa).toNat % 2 ^ 32) (fun _ => false)
      (fun _ => 0)
  ∧ Claims.Loops .vloop .v (fun f => VRegs f.w [] []) (fun f _ => f.fa.toNat * 64 + f.fb.toNat)
      (fun f => f.cond.getLsbD 3) (fun f => f.cond.toNat % 8)
  ∧ Claims.Loops .vloopr .v (fun f => VRegs f.w [(f.fa.toNat, fun _ => oneLane 0)] []) (fun f x => (vElem x f.fa 0).toNat)
      (fun f => f.cond.getLsbD 3) (fun f => f.cond.toNat % 8)
  ∧ Claims.Loops .mloop .m (fun _ _ => True) (fun f _ => f.fa.toNat * 64 + f.fb.toNat) (fun _ => false) (fun _ => 0)
  ∧ Claims.Loops .mloopr .m (fun _ _ => True) (fun _ x => x.m.mv.toNat) (fun _ => false) (fun _ => 0)
  ∧ Claims.Loops .ploop .p (fun _ _ => True) (fun f _ => f.fa.toNat * 64 + f.fb.toNat) (fun _ => false) (fun _ => 0)
  ∧ Claims.Loops .ploopr .p (fun _ _ => True) (fun _ x => x.p.pv.toNat) (fun _ => false) (fun _ => 0)
  ∧ Claims.Loops .cloop .c (fun _ _ => True) (fun f _ => f.fa.toNat * 64 + f.fb.toNat) (fun _ => false) (fun _ => 0)
  ∧ (∀ f, SkipsOnGuard (.loop f) f.w) ∧ (∀ f, SkipsOnGuard (.loopr f) f.w)
  ∧ ∀ f : FBr, f.off.toInt < 2 → Claims.Illegal (.loop f) .s ∧ Claims.Illegal (.loopr f) .s
    ∧ Claims.Illegal (.vloop f) .v ∧ Claims.Illegal (.vloopr f) .v ∧ Claims.Illegal (.mloop f) .m
    ∧ Claims.Illegal (.mloopr f) .m ∧ Claims.Illegal (.ploop f) .p ∧ Claims.Illegal (.ploopr f) .p
    ∧ Claims.Illegal (.cloop f) .c

/-- 05 R195, 06 R233, 07 R258 and 10 R349: VJMP, MJMP, PJMP and CJMP go to the own address plus four times the offset;
VBZ and VBNZ go there where the predicate under the mask is all zeros, or is not. -/
def Sys2Proof.Claims.EngineJumpsComplete : Prop :=
  ∀ f : FBr,
    CompletesAt (.vjmp f) .v f.w (fun _ => True) (Claims.pcPlus .v f.off) (fun s => s)
    ∧ CompletesAt (.mjmp f) .m f.w (fun _ => True) (Claims.pcPlus .m f.off) (fun s => s)
    ∧ CompletesAt (.pjmp f) .p f.w (fun _ => True) (Claims.pcPlus .p f.off) (fun s => s)
    ∧ CompletesAt (.cjmp f) .c f.w (fun _ => True) (Claims.pcPlus .c f.off) (fun s => s)
    ∧ CompletesAt (.vbz f) .v f.w
        (fun s => predOf (s.ctx s.cur).v f.fa.toNat &&& topMask (s.ctx s.cur).v = 0) (Claims.pcPlus .v f.off) (fun s => s)
    ∧ Completes (.vbz f) .v f.w
        (fun s => predOf (s.ctx s.cur).v f.fa.toNat &&& topMask (s.ctx s.cur).v ≠ 0) (fun _ => none) (fun _ s => s)
    ∧ CompletesAt (.vbnz f) .v f.w
        (fun s => predOf (s.ctx s.cur).v f.fa.toNat &&& topMask (s.ctx s.cur).v ≠ 0) (Claims.pcPlus .v f.off) (fun s => s)
    ∧ Completes (.vbnz f) .v f.w
        (fun s => predOf (s.ctx s.cur).v f.fa.toNat &&& topMask (s.ctx s.cur).v = 0) (fun _ => none) (fun _ s => s)

/-- 04 R145; 05 R195; 06 R233; 07 R258; 10 R349: the branches and jumps of the five engines, as the two parts above say. -/
def Obligations.BranchesAndJumpsComplete : Prop := Claims.ScalarBranchesComplete ∧ Claims.EngineJumpsComplete

namespace Sys2Proof.Claims

/-- What the checks of an access give: they pass. -/
def Passes (q : Checked × State) : Prop := ∃ r, q.1 = .ok r

/-- What follows an access that passes its checks, on its places and the state its translation leaves. -/
def onPass (q : Checked × State) (go : Ref → State → State) : State :=
  match q with
  | (.ok r, s) => go r s
  | (.bad _, s) => s

/-- The registers that form the address of an S memory word (08 R284). -/
def addrRegs (f : FMem) : List (BitVec 6) := f.fa :: if f.mode = 0 then [] else [f.fb]

/-- The state an S memory word acts on, the address it forms, and the checks of its access (08 R281, R284, R285). -/
def ldAt (f : FMem) (s : State) : State := readS f.w (addrRegs f) s
def ldRef (f : FMem) (s : State) : Checked × State :=
  (ldAt f s).scalarRef s.cur f.space.toNat (sAddr ((ldAt f s).ctx s.cur) f) (2 ^ f.size.toNat) .read (f.order != 0)
    (f.order != 0)
def stAt (f : FMem) (s : State) : State := readS f.w (addrRegs f ++ [f.fd]) s
def stRef (f : FMem) (s : State) : Checked × State :=
  (stAt f s).scalarRef s.cur f.space.toNat (sAddr ((stAt f s).ctx s.cur) f) (2 ^ f.size.toNat) .write (f.order != 0)
    (f.order != 0)
def amoRegs (f : FMem) : List (BitVec 6) := f.fa :: f.fb :: if amoOp f = 9 then [f.fd] else []
def amoAt (f : FMem) (s : State) : State := readS f.w (amoRegs f) s
def amoAddr (f : FMem) (s : State) : Nat :=
  (sfield ((amoAt f s).ctx s.cur) f.fa + (f.disp.truncate 10 : BitVec 10).signExtend 64).toNat
def amoRef (f : FMem) (s : State) : Checked × State :=
  (amoAt f s).scalarRef s.cur f.space.toNat (amoAddr f s) (2 ^ f.size.toNat) .amo true (f.order != 0)

/-- The issue of an LCOL (08 R292). -/
def lcolAt (f : FMem) (s : State) : State := readS f.w [f.fa, f.fb] s
def lcolStart (f : FMem) (s : State) : ColStart :=
  (lcolAt f s).startCollate s.cur .s (colOp f) none
    (sfield ((lcolAt f s).ctx s.cur) f.fa + f.disp.signExtend 64).toNat
    ((sfield ((lcolAt f s).ctx s.cur) f.fb).toNat % 256)

/-- The send buffer has room (13 R417). -/
def SendRoom (s : State) : Prop := (s.ctx s.cur).sb.length < 64

/-- A code is that of a check which does not wait: any but the page fault of a walk that the remapping step holds (11
R365). -/
def Mapped (code : Nat) (s : State) : Prop := code = 0x04 → s.dev.remapGo = false

end Sys2Proof.Claims

/-- 03 R93, 09 R316, 13 R415: taking the pop of a word, and correcting the registers it reads, changes nothing but
bookkeeping of the core in turn: the popped FIFO loses its head, the entry is held, the stream acquires what its push
released, corrected marks go and are counted. -/
def Sys2Proof.Claims.TokensAreBookkeeping : Prop :=
  ∀ (e : Eng) (w : Common) (got : Option Entry) (s : State), TokensTaken e w got (s.ctx s.cur) →
    ∀ t, (t = tokened e w s ∨ (e = .s ∧ ∃ srcs, t = readS w srcs s) ∨ (e = .v ∧ ∃ srcs, t = readV w srcs s)) →
      t = s.modCtx s.cur (fun _ => t.ctx s.cur) ∧ SameBut e (s.ctx s.cur) (t.ctx s.cur)
      ∧ (t.ctx s.cur).fifos = fifosPopped e w.pop (s.ctx s.cur)
      ∧ ((t.ctx s.cur).stream e).view = (((s.ctx s.cur).stream e).acquire (poppedViews e w.pop (s.ctx s.cur))).view
      ∧ ((t.ctx s.cur).stream e).pc = ((s.ctx s.cur).stream e).pc ∧ (t.ctx s.cur).v = (s.ctx s.cur).v
      ∧ (∀ m, m ∈ (t.ctx s.cur).errs → m ∈ (s.ctx s.cur).errs)
      ∧ (∀ m, m ∈ (s.ctx s.cur).errs → m.2 = true → m ∈ (t.ctx s.cur).errs)
      ∧ (Eng.ofCode w.pop.toNat ≠ none → ((t.ctx s.cur).stream e).held = got)

/-- 03 R88, R90, R91; 04 R122: the registers of every S word, with their operand numbers and policies. -/
def Sys2Proof.Claims.ScalarOperandsBlock : Prop :=
  (∀ f : FRrr,
    (∀ i ∈ ([.add f, .sub f, .mul f, .mulh f, .mulhu f, .div f, .divu f, .rem f, .remu f, .and f, .or f, .xor f, .andn f,
        .shl f, .shr f, .sra f, .rotr f, .min f, .max f, .minu f, .maxu f, .cmp f] : List Instr),
      SBlocks i f.w [srcA f.w f.fa, srcB f.w f.fb] [f.fd])
    ∧ (∀ i ∈ ([.clz f, .ctz f, .popc f, .mov f] : List Instr), SBlocks i f.w [srcA f.w f.fa] [f.fd])
    ∧ SBlocks (.sel f) f.w [srcA f.w f.fa, srcB f.w f.fb, srcC f.w f.fc] [f.fd])
  ∧ (∀ f : FRri,
    (∀ i ∈ ([.addi f, .andi f, .ori f, .xori f, .shli f, .shri f, .srai f, .lihM f, .lihH f] : List Instr),
      SBlocks i f.w [srcA f.w f.fa] [f.fd])
    ∧ SBlocks (.li f) f.w [] [f.fd])
  ∧ (∀ f : FBr,
    SBlocks (.br f) f.w [srcA f.w f.fa, srcB f.w f.fb] []
    ∧ (∀ i ∈ ([.bri f, .ret f, .loopr f] : List Instr), SBlocks i f.w [srcA f.w f.fa] [])
    ∧ (∀ i ∈ ([.jmp f, .loop f] : List Instr), SBlocks i f.w [] [])
    ∧ SBlocks (.jmpr f) f.w [srcA f.w f.fa] [f.fd] ∧ SBlocks (.call f) f.w [] [f.fd])
  ∧ (∀ f : FMem,
    let index := if f.mode = 0 then [] else [srcB f.w f.fb]
    SBlocks (.ld f) f.w (srcA f.w f.fa :: index) [f.fd]
    ∧ SBlocks (.st f) f.w (srcA f.w f.fa :: index ++ [srcD f.w f.fd]) []
    ∧ SBlocks (.amo f) f.w (srcA f.w f.fa :: srcB f.w f.fb :: if amoOp f = 9 then [srcD f.w f.fd] else []) [f.fd]
    ∧ SBlocks (.lcol f) f.w [srcA f.w f.fa, srcB f.w f.fb] [f.fd])
  ∧ ∀ f : FSys,
    (∀ i ∈ ([.fork f, .tksend f, .cwr f, .publish f, .cbsync f, .haltChain f] : List Instr),
      SBlocks i f.w [srcA f.w f.fa] [])
    ∧ (∀ i ∈ ([.forkI f, .fence f, .cbsyncAll f, .trap f, .eret f, .halt f, .prel f] : List Instr), SBlocks i f.w [] [])
    ∧ (∀ i ∈ ([.join f, .tkrecv f, .tkrecvD f, .crd f, .bar f, .pacq f, .boost f] : List Instr), SBlocks i f.w [] [f.fd])
    ∧ (∀ i ∈ ([.wait f, .refdef f] : List Instr), SBlocks i f.w [srcA f.w f.fa] [f.fd])
    ∧ SBlocks (.tmset f) f.w (srcA f.w f.fa :: if f.sub = 1 then [srcB f.w f.fb] else []) []
    ∧ SBlocks (.launch f) f.w (srcA f.w f.fa :: if launchOwn f then [] else [srcB f.w f.fb]) [f.fd]

/-- 03 R88, R91; 05 R166, R202: the registers of every V word, with their operand numbers and policies: the base of a global
access is a pair (08 R286), and a 16-byte access takes a group of four (08 R288). -/
def Sys2Proof.Claims.VectorOperandsBlock : Prop :=
  (∀ f : FRrr,
    (∀ i ∈ ([.vadd f, .vsub f, .vmul f, .vmin f, .vmax f, .viadd f, .visub f, .vimul f, .vdqnt f, .vsel f, .vperm f,
        .vshiftUp f, .vshiftDn f] : List Instr), VBlocks i f.w [srcA f.w f.fa, srcB f.w f.fb] [f.fd.toNat])
    ∧ (∀ i ∈ ([.vfma f, .vfms f] : List Instr),
      VBlocks i f.w [srcA f.w f.fa, srcB f.w f.fb, srcC f.w f.fc] [f.fd.toNat])
    ∧ (∀ i ∈ ([.vrcp f, .vrsq f, .vabs f, .vneg f, .vcvt f, .vtip f, .vred f, .vbcast f, .vshiftRot f] : List Instr),
      VBlocks i f.w [srcA f.w f.fa] [f.fd.toNat])
    ∧ VBlocks (.vqnt f) f.w [srcA f.w f.fa] [f.fd.toNat, f.aux.toNat]
    ∧ VBlocks (.vspl3 f) f.w [srcA f.w f.fa] [f.fd.toNat, f.fd.toNat + 1, f.fd.toNat + 2]
    ∧ (∀ i ∈ ([.vand f, .vor f, .vxor f] : List Instr),
      VBlocks i f.w (if predForm f then [] else [srcA f.w f.fa, srcB f.w f.fb]) (if predForm f then [] else [f.fd.toNat]))
    ∧ VBlocks (.vnot f) f.w (if predForm f then [] else [srcA f.w f.fa]) (if predForm f then [] else [f.fd.toNat])
    ∧ (∀ i ∈ ([.vshl f, .vshr f, .vsra f] : List Instr),
      VBlocks i f.w (srcA f.w f.fa :: if f.sub = 0 then [srcB f.w f.fb] else []) [f.fd.toNat])
    ∧ (∀ i ∈ ([.vcmp f, .vshiftTw f] : List Instr), VBlocks i f.w [srcA f.w f.fa, srcB f.w f.fb] [])
    ∧ VBlocks (.vmov f) f.w (if f.sub = 1 ∨ f.sub = 4 then [] else [srcA f.w f.fa])
      (if f.sub = 2 ∨ f.sub = 4 then [] else [f.fd.toNat])
    ∧ (∀ i ∈ ([.vmovIota f, .vbcastI f, .vbcastH f] : List Instr), VBlocks i f.w [] [f.fd.toNat]))
  ∧ (∀ f : FBr, VBlocks (.vloopr f) f.w [srcA f.w f.fa] [])
  ∧ (∀ f : FMem,
    let address := srcA f.w f.fa :: (if f.space = 0 then [srcA f.w (f.fa + 1)] else [])
      ++ if f.mode = 0 then [] else [srcB f.w f.fb]
    (∀ i ∈ ([.vld f, .vldx f, .vtld f, .vtldx f] : List Instr), VBlocks i f.w address (memGroup f))
    ∧ (∀ i ∈ ([.vst f, .vstx f, .vtst f] : List Instr),
      VBlocks i f.w (address ++ (memGroup f).map fun r => srcD f.w (BitVec.ofNat 6 r)) [])
    ∧ VBlocks (.vlcol f) f.w [srcA f.w f.fa, srcB f.w f.fb] [f.fd.toNat])
  ∧ ∀ f : FSys,
    (∀ i ∈ ([.vtksend f, .vcwr f] : List Instr), VBlocks i f.w [srcA f.w f.fa] [])
    ∧ (∀ i ∈ ([.vtkrecv f, .vtkrecvD f, .vcrd f] : List Instr), VBlocks i f.w [] [f.fd.toNat])

/-- 03 R88, R90–R93; 04 R122; 05 R166; 13 R415: what tokens and registers do to a word before its effect: its pop is taken
and held, an empty guard, a source empty under block policy and an empty destination make it wait, and a source empty under
trap policy raises 0x03 with the register and the operand. What an empty FIFO, or a push that may not go out yet, does stands
with every completion (`Blocks`, `EndsWith`). The model's choices in it are those of log entries 22 and 93. -/
def Obligations.TokensAndCorrectionsAreBookkeeping : Prop :=
  Claims.TokensAreBookkeeping ∧ Claims.ScalarOperandsBlock ∧ Claims.VectorOperandsBlock

/-- 08 R284, R285, R292; 04 R121; 13 R417: LD, AMO and LCOL retire with a deferred write of their destination, ST with its
bytes in the send buffer; with a push, each goes on only once its stream's accesses are performed (04 R141). Each needs its
registers ready, the checks of its access to pass, and, but for LCOL, room in the send buffer, for which it waits. The model's
choice in it is that of log entry 39. -/
def Obligations.ScalarMemoryWordsIssue : Prop :=
  ∀ f : FMem,
    (Completes (.ld f) .s f.w
        (fun s => SRegs f.w (Claims.addrRegs f) [f.fd] s ∧ Claims.SendRoom s ∧ Claims.Passes (Claims.ldRef f s))
        (fun _ => none)
        (fun _ s => Claims.onPass (Claims.ldRef f s) fun r s1 =>
          s1.issuePend s.cur ⟨.s, f.fd.toNat, 1, 0, acqScope f, none,
            .load (loadEls 0 (sAddr ((Claims.ldAt f s).ctx s.cur) f) r.pieces 0)⟩)
      ∧ SkipsOnGuard (.ld f) f.w)
    ∧ (Completes (.st f) .s f.w
        (fun s => SRegs f.w (Claims.addrRegs f ++ [f.fd]) [] s ∧ Claims.SendRoom s ∧ Claims.Passes (Claims.stRef f s))
        (fun _ => none)
        (fun _ s => Claims.onPass (Claims.stRef f s) fun r s1 =>
          s1.issueStore s.cur .s (relScope f)
            (chunksOf r.pieces (leBytes (2 ^ f.size.toNat) (sfield ((Claims.stAt f s).ctx s.cur) f.fd).toNat)))
      ∧ SkipsOnGuard (.st f) f.w)
    ∧ (Completes (.amo f) .s f.w
        (fun s => SRegs f.w (Claims.amoRegs f) [f.fd] s ∧ Claims.SendRoom s ∧ Claims.Passes (Claims.amoRef f s))
        (fun _ => none)
        (fun _ s => Claims.onPass (Claims.amoRef f s) fun r s1 =>
          s1.issueAmo s.cur (relScope f) f.fd.toNat
            { op := amoOp f, acq := acqScope f, piece := r.pieces.headD default, b := sfield ((Claims.amoAt f s).ctx s.cur) f.fb,
              cmp := sfield ((Claims.amoAt f s).ctx s.cur) f.fd, addr := BitVec.ofNat 48 (Claims.amoAddr f s) })
      ∧ SkipsOnGuard (.amo f) f.w)
    ∧ Completes (.lcol f) .s f.w
        (fun s => SRegs f.w [f.fa, f.fb] [f.fd] s ∧ ∃ el gone s1, Claims.lcolStart f s = .ok el gone s1)
        (fun _ => none)
        (fun _ s => match Claims.lcolStart f s with
          | .ok el gone s1 =>
            ((s1.modCtx s.cur (setColstat ((sfield ((Claims.lcolAt f s).ctx s.cur) f.fb).toNat % 256) gone)).count
              s.cur 15 1).issuePend s.cur
                ⟨.s, f.fd.toNat, 1, 0, 0, none, .collate [el]⟩
          | _ => s)
      ∧ SkipsOnGuard (.lcol f) f.w
      ∧ WaitsBefore (.ld f) .s f.w
        (fun s => SRegs f.w (Claims.addrRegs f) [f.fd] s ∧ ¬Claims.SendRoom s ∧ Claims.Passes (Claims.ldRef f s))
      ∧ WaitsBefore (.st f) .s f.w
        (fun s => SRegs f.w (Claims.addrRegs f ++ [f.fd]) [] s ∧ ¬Claims.SendRoom s ∧ Claims.Passes (Claims.stRef f s))
      ∧ WaitsBefore (.amo f) .s f.w
        (fun s => SRegs f.w (Claims.amoRegs f) [f.fd] s ∧ ¬Claims.SendRoom s ∧ Claims.Passes (Claims.amoRef f s))

/-- 08 R281: where a check of its access fails, LD, ST or AMO raises the code of that check with the address in ADDR and
operand 0, and has no effect; but during the remapping step one without a translation waits (11 R365). The model's choices
in it are those of log entry 36. -/
def Obligations.FailedAccessChecksTrap : Prop :=
  ∀ (f : FMem) (code : Nat),
    Raises (.ld f) .s f.w
      (fun s => SRegs f.w (Claims.addrRegs f) [f.fd] s ∧ (Claims.ldRef f s).1 = .bad code ∧ Claims.Mapped code s)
      (fun s => Claims.faultAt .s (accessFault code (sAddr ((Claims.ldAt f s).ctx s.cur) f) none 0) s)
      (fun s => (Claims.ldRef f s).2)
    ∧ Raises (.st f) .s f.w
      (fun s => SRegs f.w (Claims.addrRegs f ++ [f.fd]) [] s ∧ (Claims.stRef f s).1 = .bad code ∧ Claims.Mapped code s)
      (fun s => Claims.faultAt .s (accessFault code (sAddr ((Claims.stAt f s).ctx s.cur) f) none 0) s)
      (fun s => (Claims.stRef f s).2)
    ∧ Raises (.amo f) .s f.w
      (fun s => SRegs f.w (Claims.amoRegs f) [f.fd] s ∧ (Claims.amoRef f s).1 = .bad code ∧ Claims.Mapped code s)
      (fun s => Claims.faultAt .s (accessFault code (Claims.amoAddr f s) none 0) s) (fun s => (Claims.amoRef f s).2)
    ∧ WaitsBefore (.ld f) .s f.w
      (fun s => SRegs f.w (Claims.addrRegs f) [f.fd] s ∧ (Claims.ldRef f s).1 = .bad 0x04 ∧ s.dev.remapGo = true)
    ∧ WaitsBefore (.st f) .s f.w
      (fun s => SRegs f.w (Claims.addrRegs f ++ [f.fd]) [] s ∧ (Claims.stRef f s).1 = .bad 0x04 ∧ s.dev.remapGo = true)
    ∧ WaitsBefore (.amo f) .s f.w
      (fun s => SRegs f.w (Claims.amoRegs f) [f.fd] s ∧ (Claims.amoRef f s).1 = .bad 0x04 ∧ s.dev.remapGo = true)

namespace Sys2Proof.Claims

/-- A key lies in the map block, whose bytes no write of an observer changes (11 R364). -/
abbrev InMapBlock (s : State) (a : Nat) : Prop :=
  s.dev.bamaddr ≠ 0 ∧ s.dev.mapKey ≤ a ∧ a < s.dev.mapKey + 128

/-- The context in which pending write j of S is gone and its register r holds v and is full. -/
def landed (j r : Nat) (v : W64) (x : Ctx) : Ctx :=
  { x with pend := x.pend.eraseIdx j, sreg := vset x.sreg r v, sfill := vset x.sfill r .full,
           errs := x.errs.filter fun m => m.1 != .sreg r }

end Sys2Proof.Claims

/-- 08 R267, R280, R283; 11 R364: a store writes its bytes at its address and no other byte of memory, and none of the
map block; a load and the checks of an access change no byte; the canonical form of memory is kept. -/
def Obligations.StoresWriteTheirBytes : Prop :=
  ∀ (s : State), Memory.wf s.mem = true → ∀ (c : CoreId) (k : Nat) (bs : List Byte),
    Memory.wf (s.store c k bs).mem = true
    ∧ (∀ a, readCell (s.store c k bs).mem a
        = if k ≤ a ∧ a < k + bs.length ∧ ¬Claims.InMapBlock s a then bs.getD (a - k) 0 else readCell s.mem a)
    ∧ (∀ space a n use al o, (s.scalarRef c space a n use al o).2.mem = s.mem)
    ∧ (∀ p, (s.issuePend c p).mem = s.mem)
    ∧ ∀ e rel chunks, (s.issueStore c e rel chunks).mem = s.mem

/-- 04 R121, 08 R282, 13 R410: a pending result of S lands: its register holds it and is full, and nothing else changes but
that a fence which waited for it takes effect (09 R314); with a poison record the register is poisoned instead, and a word
that reads it faults with the record: code, address and lane (08 R282), or, for an uncorrectable token entry, code 0x10 with
the source engine as register, which ends the job (13 R408, R410; the model's choices of log entries 26 and 36). -/
def Sys2Proof.Claims.ScalarResultsLand : Prop :=
  (∀ (c : CoreId) (j : Nat) (s : State) (p : Pend) (v : W64), (s.ctx c).pend[j]? = some p → p.eng = .s → p.what = .value v →
    0 < p.reg → p.reg < 32 → p.poison = none →
      exec (.deferredWriteLand c (65536 * j)) s = .next ((s.modCtx c (Claims.landed j p.reg v)).settleFences c))
  ∧ (∀ (c : CoreId) (j : Nat) (s : State) (p : Pend) (v : W64) (q : Poison), (s.ctx c).pend[j]? = some p → p.eng = .s →
    p.what = .value v → 0 < p.reg → p.reg < 32 → p.poison = some q →
      exec (.deferredWriteLand c (65536 * j)) s = .next ((s.modCtx c fun x =>
        { x with pend := x.pend.eraseIdx j, sfill := vset x.sfill p.reg (.poisoned q) }).settleFences c))
  ∧ ∀ (f : FRrr) (s : State) (got : Option Entry) (q : Poison), Instr.wf (.mov f) = true →
      TokensTaken .s f.w got (s.ctx s.cur) → GuardTrue f.w (s.ctx s.cur) → 0 < f.fa.toNat → f.fa.toNat < 32 →
      vget (s.ctx s.cur).sfill f.fa.toNat = .poisoned q → q.code ≠ 0x04 →
      ∃ t x, exec (.mov f) s = .next (raise s.cur .s t (s.modCtx s.cur fun _ => x)) ∧ t.code = q.code.toNat
        ∧ (q.code ≠ 0x10 → t.reg = some f.fa.toNat ∧ t.opnd = some 0 ∧ t.lane = some q.lane.toNat
          ∧ t.addr = some q.addr.toNat)
        ∧ (q.code = 0x10 → t.reg = some q.lane.toNat ∧ t.lane = none ∧ t.addr = some (3 * 2 ^ 44) ∧ t.classJ = true)
        ∧ t.pc = Claims.pcOf .s s ∧ t.resume = Claims.pcOf .s s ∧ SameBut .s (s.ctx s.cur) x

/-- 04 R121, R123; 08 R273; 09 R305: the last part of a load of S, performed in its turn, lands in the low bytes of its
register, which is full then, the bytes of memory where every observer sees one version of them or the page is SO; else,
within an aligned word, those of one version not older than what its stream has seen (log entry 91). No byte of memory
changes. -/
def Sys2Proof.Claims.ScalarLoadsLand : Prop :=
  ∀ (c : CoreId) (j : Nat) (s : State) (p : Pend) (k n via : Nat) (so : Bool), Memory.wf s.mem = true →
    (s.ctx c).pend[j]? = some p →
    p.eng = .s → p.poison = none → 0 < p.reg → p.reg < 32 → 0 < n → n ≤ 8 →
    p.what = .load [⟨0, 0, ⟨.phys k, n, via, so⟩, BitVec.ofNat 48 k⟩] →
    s.canBind (s.ctx c) p 0 ⟨k, n, via, so⟩ = true →
    s.badData k n = false → (s.ctx c).sb = [] → vget (s.ctx c).sreg p.reg = 0 →
      let low := ((s.ctx c).stream .s).view.bound ⟨k, n, via, so⟩
      ∃ t, exec (.deferredWriteLand c (65536 * j)) s = .next t ∧ t.mem = s.mem
        ∧ (so = true ∨ s.stale ⟨k, n, via, so⟩ low = false →
          sval (t.ctx c) p.reg = BitVec.ofNat 64 (leNat (readCells s.mem k n)))
        ∧ (k % 8 + n ≤ 8 → ∃ v, low ≤ v ∧ sval (t.ctx c) p.reg = BitVec.ofNat 64 (leNat (s.cellsAsOf v k n)))
        ∧ vget (t.ctx c).sfill p.reg = .full ∧ (t.ctx c).pend = (s.ctx c).pend.eraseIdx j
        ∧ ∀ q, q < 32 → q ≠ p.reg → sval (t.ctx c) q = sval (s.ctx c) q ∧ vget (t.ctx c).sfill q = vget (s.ctx c).sfill q

/-- 04 R121, R123, R151; 08 R273, R282; 09 R305; 13 R408, R410: deferred writes of S land, as the two parts above say. The
model's choices in it are those of log entries 26, 36 and 91. -/
def Obligations.DeferredWritesLand : Prop := Claims.ScalarResultsLand ∧ Claims.ScalarLoadsLand

/-- 09 R304, 13 R417: a write that leaves the send buffer in its turn stores its bytes at its address and changes no other
byte; an atomic operation reads its target, stores the new value and gives the old one to its pending write. -/
def Obligations.BufferedStoresDepart : Prop :=
  ∀ (c : CoreId) (i j : Nat) (s : State) (b : SbEntry), Memory.wf s.mem = true → j < 64 → (s.ctx c).sb[j]? = some b →
    (∀ k bs via so, b.amo = none → b.chunks[i]? = some ⟨.phys k, bs, via, so⟩ →
      s.canDepart (s.ctx c) b i ⟨k, bs.length, via, so⟩ = true →
      ∃ t, exec (.sendBufferDeparture c (64 * i + j)) s = .next t
        ∧ (∀ a, readCell t.mem a
            = if k ≤ a ∧ a < k + bs.length ∧ ¬Claims.InMapBlock s a then bs.getD (a - k) 0 else readCell s.mem a)
        ∧ (t.ctx c).sb = (if b.chunks.length = 1 then (s.ctx c).sb.eraseIdx j
            else (s.ctx c).sb.set j { b with chunks := b.chunks.eraseIdx i })
        ∧ (t.ctx c).sreg = (s.ctx c).sreg ∧ (t.ctx c).pend = (s.ctx c).pend)
    ∧ ∀ a k n via so, b.amo = some a → a.piece = ⟨.phys k, n, via, so⟩ →
      s.canDepart (s.ctx c) b 0 ⟨k, n, via, so⟩ = true → s.badData k n = false →
      ∃ t, exec (.sendBufferDeparture c j) s = .next t
        ∧ (∀ q, readCell t.mem q
            = if k ≤ q ∧ q < k + n ∧ ¬Claims.InMapBlock s q then
                (leBytes n (amoNew a.op n (leNat (readCells s.mem k n)) a.b.toNat a.cmp.toNat)).getD (q - k) 0
              else readCell s.mem q)
        ∧ (t.ctx c).sb = (s.ctx c).sb.eraseIdx j ∧ (t.ctx c).sreg = (s.ctx c).sreg
        ∧ (t.ctx c).pend = (s.ctx c).pend.map fun p =>
            if p.eng = b.eng ∧ p.seq = b.seq ∧ p.what = .amo then
              { p with what := .value (BitVec.ofNat 64 (leNat (readCells s.mem k n))) }
            else p

/-- 08 R285: the new value of each atomic operation on n bytes, from the old value o and the operand b. -/
def Obligations.AtomicResults : Prop :=
  ∀ n, (n = 4 ∨ n = 8) → ∀ o b cmp, o < 2 ^ (8 * n) → b < 2 ^ (8 * n) → cmp < 2 ^ (8 * n) →
    amoNew 0 n o b cmp = b ∧ amoNew 1 n o b cmp = (o + b) % 2 ^ (8 * n) ∧ amoNew 2 n o b cmp = o &&& b
    ∧ amoNew 3 n o b cmp = o ||| b ∧ amoNew 4 n o b cmp = o ^^^ b
    ∧ (BitVec.ofNat (8 * n) (amoNew 5 n o b cmp)).toInt
        = min (BitVec.ofNat (8 * n) o).toInt (BitVec.ofNat (8 * n) b).toInt
    ∧ (BitVec.ofNat (8 * n) (amoNew 6 n o b cmp)).toInt
        = max (BitVec.ofNat (8 * n) o).toInt (BitVec.ofNat (8 * n) b).toInt
    ∧ amoNew 7 n o b cmp = min o b ∧ amoNew 8 n o b cmp = max o b
    ∧ amoNew 9 n o b cmp = if o = cmp then b else o

namespace Sys2Proof.Claims

/-- The engines a FORK names with their entries in s[fa] (04 R147). -/
def forkEntries (f : FSys) (s : State) : List (Eng × Nat) :=
  (maskEngines (engMask f)).map fun e => (e, fld (sfield (s.ctx s.cur) f.fa).toNat (16 * (e.num.val - 1)) 16)

/-- The engine a FORK.i names with its entry (04 R147). -/
def forkEntry (f : FSys) : List (Eng × Nat) :=
  ((Eng.ofCode f.fd.toNat).toList).map fun e => (e, f.cr.toNat * 4096 + f.imm12.toNat)

/-- Engine e of the core in turn is Done or Idle. -/
def AtRest (e : Eng) (s : State) : Prop := ((s.ctx s.cur).stream e).st = .done ∨ ((s.ctx s.cur).stream e).st = .idle

/-- Every entry is a multiple of 4, every engine is Done or Idle, and the accesses of S are performed. -/
def MayStart (ents : List (Eng × Nat)) (s : State) : Prop :=
  (∀ p ∈ ents, p.2 % 4 = 0 ∧ AtRest p.1 s) ∧ drained .s (s.ctx s.cur) = true

/-- Every entry is a multiple of 4, and an engine runs or an access of S is still to be performed. -/
def MustWait (ents : List (Eng × Nat)) (s : State) : Prop :=
  (∀ p ∈ ents, p.2 % 4 = 0) ∧ ((∃ p ∈ ents, ¬AtRest p.1 s) ∨ drained .s (s.ctx s.cur) = false)

/-- The first entry that is no multiple of 4. -/
def Misaligned (ents : List (Eng × Nat)) (e : Eng) (a : Nat) : Prop :=
  ents.find? (fun p => p.2 % 4 != 0) = some (e, a)

/-- The streams named are Running at their entries with no loop level, and have seen of memory what S has (09 R316); the
rest of the context is as it was. -/
def started (ents : List (Eng × Nat)) (x : Ctx) : Ctx :=
  { x with str := Vector.ofFn fun i => match ents.find? fun p => p.1.num == i with
      | some p =>
        { (x.str.get i).acquire [(x.stream .s).view.everyForm] with
          st := .running, pc := BitVec.ofNat 64 p.2, loops := Vector.replicate 4 Loop.reset, done := none, observed := [],
          rel := [], snap := [] }
      | none => x.str.get i }

/-- The named engines that are Done return to Idle. -/
def joined (es : List Eng) (x : Ctx) : Ctx :=
  { x with str := Vector.ofFn fun i =>
      if (es.any fun e => e.num == i) ∧ (x.str.get i).st = .done then { x.str.get i with st := .idle } else x.str.get i }

/-- The named engines that are Done. -/
def doneOf (es : List Eng) (x : Ctx) : List Eng := es.filter fun e => (x.stream e).st == .done

/-- The mask, bit 0 for V, of the named engines that are Done. -/
def doneMask (es : List Eng) (x : Ctx) : Nat :=
  ((doneOf es x).map fun e => 2 ^ (e.num.val - 1)).foldl (· + ·) 0

/-- Which conditions of a WAIT hold, given the word in memory; whether they end the wait; whether its time is over, and
whether its last tick is past as well; and what it answers (04 R149). -/
def waitHolds (f : FSys) (x : Ctx) (mem : Nat) : List Bool :=
  (upTo 4).map fun j => slotHolds x (f.sub == 1) mem (fld (sfield x f.fa).toNat (16 * j) 16)
def waitMet (f : FSys) (x : Ctx) (mem : Nat) : Bool :=
  if f.sub = 1 then (waitHolds f x mem).all id else (waitHolds f x mem).any id
def waitEnds (f : FSys) (s : State) (x : Ctx) : Option Nat :=
  x.waitEnd.getD ((waitTimeoutOf f).map fun t => s.dev.ticks.toNat + t)
def waitOver (f : FSys) (s : State) (x : Ctx) : Prop := ∃ d, waitEnds f s x = some d ∧ d ≤ s.dev.ticks.toNat
def waitPast (f : FSys) (s : State) (x : Ctx) : Bool :=
  match waitEnds f s x with
  | some d => decide (d < s.dev.ticks.toNat)
  | none => false
def waitAnswer (f : FSys) (s : State) (x : Ctx) (mem : Nat) : Nat :=
  ((upTo 4).map fun j => if (waitHolds f x mem).getD j false then 2 ^ j else 0).foldl (· + ·) 0
    + if waitMet f x mem && !waitPast f s x then 0 else 16

/-- The context a WAIT without a memory condition is evaluated on: its pop is taken. -/
def waitCtx (f : FSys) (s : State) : Ctx := (readS f.w [f.fa] s).ctx s.cur

/-- A WAIT has done: its deadline is gone and its answer stands in fd. -/
def waited (f : FSys) (c : CoreId) (ans : Nat) (u : State) : State :=
  (u.modCtx c fun y => { y with waitEnd := none }).writeS c f.fd (BitVec.ofNat 64 ans)

/-- A WAIT goes on waiting, its deadline as fixed at its first issue. -/
def stillWaits (f : FSys) (s u : State) : State :=
  u.modCtx s.cur fun y => { y with waitEnd := some (waitEnds f u (u.ctx s.cur)) }

/-- Some condition of a WAIT reads memory. -/
def waitReads (f : FSys) (s : State) : Bool :=
  (upTo 4).any fun j => slotMem (fld (sfield (s.ctx s.cur) f.fa).toNat (16 * j) 16)

/-- The read of a WAIT with a memory condition: the word at s[fb], the registers it compares with read too. -/
def waitMemRegs (f : FSys) (s : State) : List Src := srcB f.w f.fb :: waitSrcs f (sfield (s.ctx s.cur) f.fa)
def waitRef (f : FSys) (s : State) : Checked × State :=
  let s1 := (readS f.w [f.fa] s).correct s.cur ((waitMemRegs f s).map fun r => .sreg r.reg)
  s1.scalarRef s.cur 0 (sfield (s.ctx s.cur) f.fb).toNat 8 .read true false
def waitRead (f : FSys) (s : State) : BlockRead × State :=
  match waitRef f s with
  | (.bad code, s2) => (.bad code, s2)
  | (.ok r, s2) => s2.readNow s.cur .s (sfield (s.ctx s.cur) f.fb).toNat r

/-- A memory condition that holds acquires what its word released (09 R316). -/
def waitAcquires (f : FSys) (s : State) (mem : Nat) (u : State) : State :=
  if (upTo 4).any fun j => slotMem (fld (sfield (u.ctx s.cur) f.fa).toNat (16 * j) 16)
      && (waitHolds f (u.ctx s.cur) mem).getD j false then
    match (waitRef f s).1 with
    | .ok r => u.acquireNow s.cur .s 4 r
    | .bad _ => u
  else u

end Sys2Proof.Claims

/-- 04 R147, R148; 09 R316: FORK and FORK.i start the engines they name at their entries, once each is Done or Idle, as a
release toward them; JOIN gives the mask of those that were Done, acquires from them and returns them to Idle; each waits
while one named runs. A FORK or JOIN with an empty mask, a FORK with imm12[11:4] not 0 and a FORK.i of no engine 2–5 are
illegal, and a misaligned entry of either raises 0x06 and starts none. The model's choices in it are those of log entries 27
and 91. -/
def Obligations.ForkAndJoinComplete : Prop :=
  ∀ f : FSys,
    Completes (.fork f) .s f.w (fun s => SRegs f.w [f.fa] [] s ∧ Claims.MayStart (Claims.forkEntries f s) s)
      (fun _ => none) (fun _ s => (readS f.w [f.fa] s).modCtx s.cur (Claims.started (Claims.forkEntries f s)))
    ∧ Completes (.forkI f) .s f.w (fun s => SRegs f.w [] [] s ∧ Claims.MayStart (Claims.forkEntry f) s) (fun _ => none)
      (fun _ s => (readS f.w [] s).modCtx s.cur (Claims.started (Claims.forkEntry f)))
    ∧ Completes (.join f) .s f.w
      (fun s => SRegs f.w [] [f.fd] s ∧ ∀ e ∈ maskEngines (engMask f),
        Claims.AtRest e s)
      (fun _ => none)
      (fun _ s => (((readS f.w [] s).modCtx s.cur (Claims.joined (maskEngines (engMask f)))).acquireFrom s.cur .s
          (Claims.doneOf (maskEngines (engMask f)) (s.ctx s.cur))).writeS s.cur f.fd
        (BitVec.ofNat 64 (Claims.doneMask (maskEngines (engMask f)) (s.ctx s.cur))))
    ∧ WaitsBefore (.join f) .s f.w
      (fun s => SRegs f.w [] [f.fd] s ∧ ∃ e ∈ maskEngines (engMask f), ¬Claims.AtRest e s)
    ∧ WaitsBefore (.fork f) .s f.w (fun s => SRegs f.w [f.fa] [] s ∧ Claims.MustWait (Claims.forkEntries f s) s)
    ∧ WaitsBefore (.forkI f) .s f.w (fun s => SRegs f.w [] [] s ∧ Claims.MustWait (Claims.forkEntry f) s)
    ∧ (engMask f = 0 → Claims.Illegal (.fork f) .s ∧ Claims.Illegal (.join f) .s)
    ∧ (f.imm12.toNat / 16 ≠ 0 → Claims.Illegal (.fork f) .s)
    ∧ (f.fd.toNat < 2 ∨ 5 < f.fd.toNat → Claims.Illegal (.forkI f) .s)
    ∧ (∀ e a, Raises (.fork f) .s f.w
        (fun s => SRegs f.w [f.fa] [] s ∧ Claims.Misaligned (Claims.forkEntries f s) e a)
        (Claims.faultAt .s (fltAddr 0x06 a)) (readS f.w [f.fa]))
    ∧ (∀ e a, Raises (.forkI f) .s f.w (fun s => SRegs f.w [] [] s ∧ Claims.Misaligned (Claims.forkEntry f) e a)
        (Claims.faultAt .s (fltAddr 0x06 a)) (readS f.w []))
    ∧ SkipsOnGuard (.fork f) f.w ∧ SkipsOnGuard (.forkI f) f.w ∧ SkipsOnGuard (.join f) f.w

/-- 04 R149: a WAIT completes when its conditions, combined as sub says, hold or its time is over, and answers the slots
that held, with bit 4 where the timeout came first; until then it waits with its deadline fixed at its first issue. The model's choices
in it are those of log entry 87. -/
def Obligations.WaitCompletes : Prop :=
  ∀ f : FSys,
    Completes (.wait f) .s f.w
      (fun s => SRegs f.w [f.fa] [f.fd] s ∧ Claims.waitReads f s = false
        ∧ (Claims.waitMet f (Claims.waitCtx f s) 0 = true ∨ Claims.waitOver f s (Claims.waitCtx f s)))
      (fun _ => none)
      (fun _ s => Claims.waited f s.cur (Claims.waitAnswer f s (Claims.waitCtx f s) 0) (readS f.w [f.fa] s))
    ∧ Completes (.wait f) .s f.w
      (fun s => SRegs f.w [f.fa] [f.fd] s ∧ Claims.waitReads f s = true
        ∧ (∀ r ∈ Claims.waitMemRegs f s, SReady (s.ctx s.cur) r.reg) ∧ (sfield (s.ctx s.cur) f.fb).toNat % 8 = 0
        ∧ ∃ bs, (Claims.waitRead f s).1 = .bytes bs
          ∧ (Claims.waitMet f ((Claims.waitRead f s).2.ctx s.cur) (leNat bs) = true
            ∨ Claims.waitOver f (Claims.waitRead f s).2 ((Claims.waitRead f s).2.ctx s.cur)))
      (fun _ => none)
      (fun _ s => match Claims.waitRead f s with
        | (.bytes bs, s1) =>
          Claims.waited f s.cur (Claims.waitAnswer f s1 (s1.ctx s.cur) (leNat bs)) (Claims.waitAcquires f s (leNat bs) s1)
        | (_, s1) => s1)
    ∧ Holds (.wait f) .s f.w
      (fun s => SRegs f.w [f.fa] [f.fd] s ∧ Claims.waitReads f s = false
        ∧ Claims.waitMet f (Claims.waitCtx f s) 0 = false ∧ ¬Claims.waitOver f s (Claims.waitCtx f s))
      (fun s => Claims.stillWaits f s (readS f.w [f.fa] s))
    ∧ Holds (.wait f) .s f.w
      (fun s => SRegs f.w [f.fa] [f.fd] s ∧ Claims.waitReads f s = true
        ∧ (∀ r ∈ Claims.waitMemRegs f s, SReady (s.ctx s.cur) r.reg) ∧ (sfield (s.ctx s.cur) f.fb).toNat % 8 = 0
        ∧ ∃ bs, (Claims.waitRead f s).1 = .bytes bs
          ∧ Claims.waitMet f ((Claims.waitRead f s).2.ctx s.cur) (leNat bs) = false
          ∧ ¬Claims.waitOver f (Claims.waitRead f s).2 ((Claims.waitRead f s).2.ctx s.cur))
      (fun s => Claims.stillWaits f s (Claims.waitRead f s).2)
    ∧ SkipsOnGuard (.wait f) f.w

/-- 04 R150–R152: TKSEND pushes the low half of s[fa] as a value; TKRECV writes the value popped, or 2^32 for a bare
token; TKRECV.d leaves its register empty until the next entry of its source arrives; TMSET writes s[fa] to an entry of a
template table. TKSEND without a push, and TMSET with an engine, sub or index field outside its ranges, are illegal. -/
def Obligations.ScalarTokenWordsComplete : Prop :=
  ∀ f : FSys,
    Completes (.tksend f) .s f.w (SRegs f.w [f.fa] []) (fun s => some ((sfield (s.ctx s.cur) f.fa).truncate 32))
      (fun _ s => s)
    ∧ Completes (.tkrecv f) .s f.w (SRegs f.w [] [f.fd]) (fun _ => none)
      (fun got s => s.writeS s.cur f.fd (match got with
        | some (some v) => v.zeroExtend 64
        | _ => 0x100000000))
    ∧ (∀ e, Eng.ofCode (f.imm12.toNat % 8) = some e →
      Completes (.tkrecvD f) .s f.w (fun s => SRegs f.w [] [f.fd] s ∧ (s.ctx s.cur).awaiting e .s = false) (fun _ => none)
        fun _ s => s.issuePend s.cur ⟨.s, f.fd.toNat, 1, 0, 0, none, .token e 0⟩)
    ∧ (∀ e, Eng.ofCode (f.imm12.toNat % 8) = some e →
      Completes (.tmset f) .s f.w (SRegs f.w (f.fa :: if f.sub = 1 then [f.fb] else []) []) (fun _ => none)
        fun _ s =>
          let i := if f.sub = 1 then (sfield (s.ctx s.cur) f.fb).toNat % 64 else f.cr.toNat % 64
          s.modCtx s.cur fun y =>
            { y.modStream e fun r => { r with tmpl := vset r.tmpl i (sfield (s.ctx s.cur) f.fa) } with
              errs := y.errs.filter fun m => m.1 != .tmpl e i })
    ∧ (f.w.push = 0 → Claims.Illegal (.tksend f) .s)
    ∧ (f.imm12.toNat % 8 = 0 ∨ 6 ≤ f.imm12.toNat % 8 ∨ 2 ≤ f.sub.toNat ∨ (f.sub = 0 ∧ 64 ≤ f.cr.toNat) →
      Claims.Illegal (.tmset f) .s)
    ∧ SkipsOnGuard (.tksend f) f.w ∧ SkipsOnGuard (.tkrecv f) f.w ∧ SkipsOnGuard (.tkrecvD f) f.w
    ∧ SkipsOnGuard (.tmset f) f.w

namespace Sys2Proof.Claims

/-- The handle of a control register may be read: its code is good (13 R410). -/
def CrReady (n : Nat) (s : State) : Prop := (Site.creg n, true) ∉ (s.ctx s.cur).errs

/-- Every deferred write of the stream but a token receipt has landed, and at once: what a serialising word waits for
(04 R141). -/
def Settled (e : Eng) (s : State) : Prop := settled e (s.ctx s.cur) = true

/-- The state after a write of the bits of sel of control register n. -/
def crWritten (n : Nat) (sel v : W64) (s : State) : State := s.crWrite s.cur n sel v

/-- The record a PUBLISH reads, and the state its read leaves (11 R366, 09 R319). -/
def pubRead (f : FSys) (s : State) : BlockRead × State :=
  let s1 := readS f.w [f.fa] s
  let a := s1.pubKey ((sfield (s.ctx s.cur) f.fa).toNat % 256)
  s1.readBlock s.cur .s 2 0 a 64 ⟨[⟨.phys a, 64, 0, false⟩]⟩

/-- The commands and drains with a write to the hidden side left whose issue S has seen: those that a PUBLISH notes at its
issue, to wait for them (09 R312, R319). -/
def pubNoted (f : FSys) (s : State) : List Nat :=
  let s1 := readS f.w [f.fa] s
  (s1.hiddenWriters ((sfield (s.ctx s.cur) f.fa).toNat % 256)).filter
    fun n => ((s1.ctx s.cur).stream .s).view.issued.contains n

/-- The entry a PUBLISH names. -/
def pubEntry (f : FSys) (s : State) : Nat := (sfield (s.ctx s.cur) f.fa).toNat % 256

/-- The scope of a fence or PUBLISH (09 R309). -/
def fenceScope (f : FSys) : Nat := f.imm12.toNat % 8

/-- What a word of a waiting stream has taken at its issue (03 R88, 09 R323). -/
def snapOf (e : Eng) (s : State) : List Snap := ((s.ctx s.cur).stream e).snap

/-- The state a CRD samples in, its codes corrected; the value it samples; and the engines it then sees Done, of which only a
CRD of ENGSTATE learns (04 R160, 09 R316). -/
def crdAt (f : FSys) (s : State) : State := (readS f.w [] s).correct s.cur [.creg f.cr.toNat]
def crdValue (f : FSys) (s : State) : W64 := (crdAt f s).crRead s.cur f.cr.toNat
def crdDone (f : FSys) (s : State) : List Eng :=
  if f.cr.toNat = 0x050 then [Eng.v, Eng.m, Eng.p, Eng.c].filter fun e => (crdValue f s).getLsbD (3 * e.num.val + 1) else []

/-- A fence word of engine e leaves its mark at the stream's place in program order, and takes effect once what it waits for
is performed; at stream scope it orders nothing (09 R309, R314). -/
def fenced (f : FSys) (e : Eng) (u : State) : State :=
  if fenceScope f = 0 then u
  else (u.modCtx u.cur fun x =>
    { x with seq := x.seq + 1, fences := x.fences ++ [⟨e, x.seq, f.sub.toNat, fenceScope f⟩] }).settleFences u.cur

/-- The tokens of a word that leaves its stream's accesses alone let it issue and retire. -/
def Ready (e : Eng) (w : Common) (got : Option Entry) (s : State) : Prop :=
  TokensTaken e w got (s.ctx s.cur) ∧ MayPush e w (s.ctx s.cur) (s.ctx s.cur)

/-- The context after a word of engine e has retired with the counters of `u` counted for it (12 R402). -/
def counted (e : Eng) (u : State) : Vector W64 8 := ((u.ctx u.cur).count (e.num.val + 1) 1).cr.pmc

end Sys2Proof.Claims

/-- 04 R127, R128, R153, R160: CRD writes the register numbered cr to s[fd], as it was when the word issued; one whose push
has to wait has sampled it then, and is only left to retire (`ParksTo`; the model's choice of log entry 22). CWR writes s[fa]
to it, once every earlier word has landed where it is serialising. -/
def Obligations.ControlRegisterWordsComplete : Prop :=
  ∀ f : FSys,
    Completes (.crd f) .s f.w (fun s => SRegs f.w [] [f.fd] s ∧ Claims.CrReady f.cr.toNat s) (fun _ => none)
      (fun _ s =>
        ((Claims.crdAt f s).acquireFrom s.cur .s (Claims.crdDone f s)).writeS s.cur f.fd (Claims.crdValue f s))
    ∧ Completes (.cwr f) .s f.w
      (fun s => SRegs f.w [f.fa] [] s ∧ (crSerial f.cr.toNat = true → Claims.Settled .s s)) (fun _ => none)
      (fun _ s => (readS f.w [f.fa] s).crWrite s.cur f.cr.toNat (BitVec.allOnes 64) (sfield (s.ctx s.cur) f.fa))
    ∧ WaitsBefore (.cwr f) .s f.w (fun s => SRegs f.w [f.fa] [] s ∧ crSerial f.cr.toNat = true ∧ ¬Claims.Settled .s s)
    ∧ SkipsOnGuard (.crd f) f.w ∧ SkipsOnGuard (.cwr f) f.w

/-- 04 R127–R138, 00 R9: a write of a control register of the job sets its RW bits, clears the W1C bits that the value
names, and leaves every other bit; the hard-wired bits, every other control register and every s register stay. -/
def Obligations.ControlRegisterWrites : Prop :=
  ∀ (s : State) (c : CoreId) (v : W64),
    (∀ n, n ∈ [0x010, 0x011, 0x012, 0x013, 0x040, 0x041, 0x042, 0x043, 0x044, 0x045, 0x0A0, 0x0A1, 0x0A2, 0x0A3, 0x0A4,
        0x0A5, 0x0A6, 0x0A7] ++ (upTo 16).map (0x020 + ·) →
      (s.crWrite c n (BitVec.allOnes 64) v).crRead c n = (s.crRead c n &&& ~~~crRw n) ||| (v &&& crRw n)
      ∧ ∀ m, m ≠ n → (s.crWrite c n (BitVec.allOnes 64) v).crRead c m = s.crRead c m)
    ∧ (∀ n, crRw n = 0 → crW1c n = 0 → ∀ m, (s.crWrite c n (BitVec.allOnes 64) v).crRead c m = s.crRead c m)
    ∧ (s.crWrite c 0x090 (BitVec.allOnes 64) v).crRead c 0x090 = s.crRead c 0x090 &&& ~~~(v &&& 0x0000FFFFFFFFFFFF)
    ∧ (s.crWrite c 0x091 (BitVec.allOnes 64) v).crRead c 0x091
        = ((s.crRead c 0x091 &&& ~~~0xFFFF0000) ||| (v &&& 0xFFFF0000)) &&& ~~~(v &&& 0xF)
    ∧ (∀ n, ((s.crWrite c n (BitVec.allOnes 64) v).ctx c).sreg = (s.ctx c).sreg
        ∧ (s.crWrite c n (BitVec.allOnes 64) v).mem = s.mem)

/-- 12 R402: a counter whose EVT is the event takes n more, modulo 2^48, and no other changes; the no-op of each engine counts
as one of its words; a CWR of a performance counter leaves there its value merged with the written bits, uncounted, while
every other counter counts the CWR. -/
def Obligations.PerformanceCountersCount : Prop :=
  (∀ (x : Ctx) (evt n i : Nat), evt < 256 → i < 8 →
    let r := vget x.cr.pmc i
    let q := vget (x.count evt n).cr.pmc i
    (r.toNat / 2 ^ 56 = evt → q.toNat / 2 ^ 48 = r.toNat / 2 ^ 48
      ∧ q.toNat % 2 ^ 48 = (r.toNat % 2 ^ 48 + n) % 2 ^ 48)
    ∧ (r.toNat / 2 ^ 56 ≠ evt → q = r))
  ∧ (∀ (w : Common) (s : State) (got : Option Entry),
    (Claims.Ready .s w got s → Instr.wf (.nop w) = true →
      ∃ t, exec (.nop w) s = .next t ∧ (t.ctx s.cur).cr.pmc = Claims.counted .s (tokened .s w s))
    ∧ (Claims.Ready .v w got s → Instr.wf (.vnop w) = true →
      ∃ t, exec (.vnop w) s = .next t ∧ (t.ctx s.cur).cr.pmc = Claims.counted .v (tokened .v w s))
    ∧ (Claims.Ready .m w got s → Instr.wf (.mnop w) = true →
      ∃ t, exec (.mnop w) s = .next t ∧ (t.ctx s.cur).cr.pmc = Claims.counted .m (tokened .m w s))
    ∧ (Claims.Ready .p w got s → Instr.wf (.pnop w) = true →
      ∃ t, exec (.pnop w) s = .next t ∧ (t.ctx s.cur).cr.pmc = Claims.counted .p (tokened .p w s))
    ∧ (Claims.Ready .c w got s → Instr.wf (.cnop w) = true →
      ∃ t, exec (.cnop w) s = .next t ∧ (t.ctx s.cur).cr.pmc = Claims.counted .c (tokened .c w s)))
  ∧ ∀ (f : FSys) (s : State) (got : Option Entry) (i : Nat), i < 8 → f.cr.toNat = 0x0A0 + i → Instr.wf (.cwr f) = true →
    Claims.Ready .s f.w got s → SRegs f.w [f.fa] [] s →
      let u := readS f.w [f.fa] s
      ∃ t, exec (.cwr f) s = .next t
        ∧ vget (t.ctx s.cur).cr.pmc i
          = (vget (u.ctx s.cur).cr.pmc i &&& ~~~crRw f.cr.toNat) ||| (sfield (s.ctx s.cur) f.fa &&& crRw f.cr.toNat)
        ∧ ∀ j, j < 8 → j ≠ i → vget (t.ctx s.cur).cr.pmc j = vget (Claims.counted .s u) j

/-- 09 R305, R310, R311, R314: which writes a stream's accesses see. A read of bytes returns a version not older than the
last its stream has seen of them, the newest where its page is SO; it then has seen that version, and with an acquire all
that a release whose value it read passes on, where their scopes include each other. A write is seen by its own stream, and a
release hands on what its stream has seen. Behind an `.acq` or `.ar` fence that has not taken effect no load is performed,
and behind any fence no write. The model's choices in it are those of log entry 91. -/
def Sys2Proof.Claims.AccessesKeepOrder : Prop :=
  (∀ (s : State) (c : CoreId) (e : Eng) (sp : Span), 0 < sp.n → sp.via ≠ 6 →
    let v := ((s.ctx c).stream e).view
    v.bound sp ≤ s.stamp →
    let (τ, s1) := s.readTime v sp
    let w := (((s1.readNoted c e 0 sp τ).ctx c).stream e).view
    v.bound sp ≤ τ ∧ τ ≤ s.stamp ∧ (sp.so = true → τ = s.stamp)
    ∧ (s.stale sp (v.bound sp) = true → τ ≤ w.bound sp)
    ∧ ∀ q, v.bound q ≤ w.bound q)
  ∧ (∀ (s : State) (c : CoreId) (e : Eng) (acq τ : Nat) (sp q : Span) (t : RelTag), t ∈ s.tagsAt sp τ →
    t.mutual c acq = true → t.view.bound q ≤ ((((s.readNoted c e acq sp τ).ctx c).stream e).view).bound q)
  ∧ (∀ (s : State) (c : CoreId) (e : Eng) (rel : Nat) (sp : Span), 0 < sp.n → sp.via ≠ 6 →
    let t := s.writeNoted c e rel sp
    s.stamp ≤ (((t.ctx c).stream e).view).bound sp
    ∧ (rel ≠ 0 → (⟨c.val, rel, ((s.ctx c).stream e).view.everyForm⟩ : RelTag) ∈ t.tagsAt sp s.stamp)
    ∧ (∀ r ∈ ((s.ctx c).stream e).rel, r ∈ t.tagsAt sp s.stamp) ∧ t.mem = s.mem)
  ∧ (∀ (s : State) (c : CoreId) (j i : Nat) (p : Pend) (els : List LoadEl) (m : FenceMark), (s.ctx c).pend[j]? = some p →
    p.what = .load els → i < 65536 → m ∈ (s.ctx c).fences → m.eng = p.eng → m.seq < p.seq → m.kind ≠ 2 →
    exec (.deferredWriteLand c (65536 * j + i)) s = .next (s.settleFences c))
  ∧ ∀ (s : State) (c : CoreId) (j i : Nat) (b : SbEntry) (m : FenceMark), j < 64 → (s.ctx c).sb[j]? = some b →
    m ∈ (s.ctx c).fences → m.eng = b.eng → m.seq < b.seq → exec (.sendBufferDeparture c (64 * i + j)) s = .next s

/-- 09 R305, R311, R314, R319, R320, R325: the accesses of a stream keep their order, as the part above says; FENCE retires and
leaves its mark, behind which the accesses it orders wait; PUBLISH of an active entry swaps its sides once no write to its
hidden side whose issue happens before it is left; CBSYNC discards cached control blocks, after every earlier acquire; none
changes a register or a byte of memory. The model's choices
in it are those of log entries 23, 24, 91 and 92. -/
def Obligations.OrderingWordsComplete : Prop :=
  Claims.AccessesKeepOrder ∧ ∀ f : FSys,
    Completes (.fence f) .s f.w (SRegs f.w [] []) (fun _ => none) (fun _ s => Claims.fenced f .s (readS f.w [] s))
    ∧ Completes (.publish f) .s f.w
      (fun s => SRegs f.w [f.fa] [] s ∧ Claims.snapOf .s s = [] ∧ Claims.Settled .s s ∧ drained .s (s.ctx s.cur) = true
        ∧ s.dev.pactive.getLsbD (Claims.pubEntry f s) = true
        ∧ ∃ bs, (Claims.pubRead f s).1 = .bytes bs ∧ blockNat bs 0 1 % 2 = 1
          ∧ ∀ w ∈ (Claims.pubRead f s).2.hiddenWriters (Claims.pubEntry f s), w ∉ Claims.pubNoted f s)
      (fun _ => none)
      (fun _ s => (Claims.pubRead f s).2.swapSides s.cur (Claims.pubEntry f s) (Claims.fenceScope f))
    ∧ Completes (.publish f) .s f.w
      (fun s => SRegs f.w [f.fa] [] s ∧ ∃ b ws, Claims.snapOf .s s = .block b :: ws
        ∧ ∀ w ∈ (readS f.w [f.fa] s).hiddenWriters (Claims.pubEntry f s), w ∉ snapWriters ws)
      (fun _ => none)
      (fun _ s => (readS f.w [f.fa] s).swapSides s.cur (Claims.pubEntry f s) (Claims.fenceScope f))
    ∧ Holds (.publish f) .s f.w
      (fun s => SRegs f.w [f.fa] [] s ∧ Claims.snapOf .s s = [] ∧ Claims.Settled .s s ∧ drained .s (s.ctx s.cur) = true
        ∧ s.dev.pactive.getLsbD (Claims.pubEntry f s) = true
        ∧ ∃ bs, (Claims.pubRead f s).1 = .bytes bs ∧ blockNat bs 0 1 % 2 = 1
          ∧ ∃ w ∈ (Claims.pubRead f s).2.hiddenWriters (Claims.pubEntry f s), w ∈ Claims.pubNoted f s)
      (fun s => (Claims.pubRead f s).2.modCtx s.cur fun x => x.modStream .s fun r =>
        { r with snap := .block (leBytes 1 (Claims.pubEntry f s)) :: (Claims.pubNoted f s).map Snap.writer })
    ∧ (∀ (s : State) (c : CoreId) (e scope : Nat),
      let t := s.swapSides c e scope
      t.dev = { s.dev with pside := s.dev.pside ^^^ BitVec.ofNat 256 (2 ^ e) } ∧ t.mem = s.mem ∧ t.clusters = s.clusters
        ∧ (∀ d, d ≠ c → t.core d = s.core d)
        ∧ t.ctx c = (s.ctx c).modStream .s fun r => { r with view := ((t.ctx c).stream .s).view })
    ∧ Completes (.cbsync f) .s f.w (fun s => SRegs f.w [f.fa] [] s ∧ acquiring (s.ctx s.cur) = false) (fun _ => none)
      (fun _ s => s.modCore s.cur fun k =>
        { k with cbc := k.cbc.filter fun b =>
            b.space != 0 || decide (b.addr + b.bytes.length ≤ (sfield (s.ctx s.cur) f.fa).toNat / 128 * 128)
              || decide ((sfield (s.ctx s.cur) f.fa).toNat / 128 * 128 + 128 ≤ b.addr) })
    ∧ Completes (.cbsyncAll f) .s f.w (fun s => SRegs f.w [] [] s ∧ acquiring (s.ctx s.cur) = false) (fun _ => none)
      (fun _ s => s.modCore s.cur fun k => { k with cbc := [] })
    ∧ WaitsBefore (.cbsync f) .s f.w (fun s => SRegs f.w [f.fa] [] s ∧ acquiring (s.ctx s.cur) = true)
    ∧ WaitsBefore (.cbsyncAll f) .s f.w (fun s => SRegs f.w [] [] s ∧ acquiring (s.ctx s.cur) = true)
    ∧ SkipsOnGuard (.fence f) f.w ∧ SkipsOnGuard (.publish f) f.w ∧ SkipsOnGuard (.cbsync f) f.w
    ∧ SkipsOnGuard (.cbsyncAll f) f.w

namespace Sys2Proof.Claims

/-- The four engines beside S are Done or Idle. -/
def OthersAtRest (s : State) : Prop := ∀ e, e ≠ .s → AtRest e s

/-- S is in the handler, and the trap registers that the record of its job takes may be read (04 R158, 13 R410). -/
def HaltsJob (s : State) : Prop :=
  (s.ctx s.cur).cr.tm = true ∧ Settled .s s ∧ CrReady 0x040 s ∧ CrReady 0x042 s ∧ CrReady 0x043 s ∧ CrReady 0x045 s

/-- The end of a job by HALT in the handler carries the trap registers as they stand (04 R158, 13 R412). -/
def haltEnd (s : State) : EndInfo :=
  let r := (s.ctx s.cur).cr
  { code := BitVec.ofNat 8 r.trapcause.toNat, gang := false, nested := false, novec := false, hhalt := true,
    kill := false, disp := false, prior := BitVec.ofNat 8 r.trapcause.toNat, info0 := r.trapinfo0, info1 := r.trapinfo1,
    eng := r.trapeng, ticks := s.dev.ticks.toNat }

/-- The engines of the outgoing trailer mask. -/
def trailerEngines (j : Job) : List Eng := [Eng.v, Eng.m, Eng.p, Eng.c].filter fun e => j.trailer.getLsbD e.num.val

/-- What HALT.chain loads: the job, the image's header, and the state with the image loaded (03 R117, 01 R43). -/
def chainLoad (f : FSys) (s : State) : Option (Job × Image × State) :=
  let u := readS f.w [f.fa] s
  let handle := (sfield (s.ctx s.cur) f.fa).toNat
  match (u.core s.cur).job with
  | none => none
  | some j =>
    match (u.acquireFrom s.cur .s (trailerEngines j)).readHeader s.cur j.root handle with
    | .wait => none
    | .bad _ _ _ => none
    | .ok m s1 =>
      if !imageOk m || ([Eng.v, Eng.m, Eng.p, Eng.c].any fun e => m.has e && !(trailerEngines j).contains e)
          || decide (4096 * j.tk.tower < m.tower) then none
      else match s1.loadImage s.cur j.root handle m (.s :: trailerEngines j) (.s :: trailerEngines j)
          ((trailerEngines j).contains .p) with
        | .ok s2 => some (j, m, s2)
        | .wait => none
        | .bad _ _ _ => none

/-- A trap is taken to the handler: its code may be, S is not in the handler, which is enabled, and no other trap is being
taken (13 R409). -/
def EntersHandler (t : Trap) (x : Ctx) : Prop :=
  t.classJ = false ∧ x.cr.tm = false ∧ x.cr.trapvec.getLsbD 63 = true ∧ x.trapping = none

/-- What a trap of engine e of core c writes: y has its record in the trap registers, x is the context before it (04 R136,
R138, R156; 13 R408). -/
def Recorded (c : CoreId) (e : Eng) (t : Trap) (x y : Ctx) : Prop :=
  y.cr.trapcause = BitVec.ofNat 64 (t.code % 256) ∧ y.cr.trappc = BitVec.ofNat 64 (t.resume.toNat % 2 ^ 32)
  ∧ (fld y.cr.trapinfo0.toNat 16 32 = t.pc.toNat % 2 ^ 32 ∧ fld y.cr.trapinfo0.toNat 11 3 = e.code
      ∧ fld y.cr.trapinfo0.toNat 5 6 = coreIn c ∧ fld y.cr.trapinfo0.toNat 0 5 = (clusterOf c).val
      ∧ y.cr.trapinfo0.getLsbD 63 = t.addr.isSome ∧ y.cr.trapinfo0.getLsbD 62 = t.lane.isSome
      ∧ y.cr.trapinfo0.getLsbD 61 = t.opnd.isSome ∧ y.cr.trapinfo0.getLsbD 60 = t.reg.isSome)
  ∧ (fld y.cr.trapinfo1.toNat 56 8 = t.reg.getD 0 % 2 ^ 8 ∧ fld y.cr.trapinfo1.toNat 54 2 = t.opnd.getD 0 % 2 ^ 2
      ∧ fld y.cr.trapinfo1.toNat 48 6 = t.lane.getD 0 % 2 ^ 6 ∧ fld y.cr.trapinfo1.toNat 0 48 = t.addr.getD 0 % 2 ^ 48)
  ∧ fld y.cr.trapeng.toNat 0 3 = e.code
  ∧ ∀ d, y.cr.trapeng.getLsbD (8 + d.num.val) = true ↔ d ≠ e ∧ (x.stream d).st = .running

/-- The other engines once a trap of engine e is taken: that one is Faulted, a Running one is Stopped, and each keeps all
else but what a waiting word had read (01 R35). -/
def Halted (e : Eng) (x y : Ctx) : Prop :=
  ∀ d, d ≠ .s → y.stream d =
    if d = e then { x.stream d with st := .faulted, snap := [] }
    else if (x.stream d).st = .running then { x.stream d with st := .stopped, snap := [] } else x.stream d

/-- What a trap leaves of a context (04 R156): every register of S, V, M and P, the FIFOs, tags and what is in flight. -/
def KeepsWork (x y : Ctx) : Prop :=
  y.sreg = x.sreg ∧ y.sfill = x.sfill ∧ y.v = x.v ∧ y.m = x.m ∧ y.p = x.p ∧ y.fifos = x.fifos ∧ y.tags = x.tags
    ∧ y.sb = x.sb ∧ y.pend = x.pend

/-- S is in the handler: y is x with trap mode on, loop bank 1 cleared, the held entry set aside with a word that waits to
retire, and S going on at TRAPVEC.ADDR; TRAPENG.SPC is where S stood (04 R156). -/
def InHandler (x y : Ctx) : Prop :=
  y.cr.tm = true ∧ y.trapping = none ∧ y.bank1 = Vector.replicate 4 Loop.reset ∧ y.aside = (x.stream .s).held
    ∧ y.asideDone = (x.stream .s).done ∧ fld y.cr.trapeng.toNat 16 32 = (x.stream .s).pc.toNat % 2 ^ 32
    ∧ y.stream .s = { x.stream .s with held := none, done := none, snap := [], pc := x.cr.trapvec &&& 0xFFFC }

end Sys2Proof.Claims

/-- 04 R155, R157, R158; 01 R34, R43; 03 R117: TRAP raises 0x7F with the following word as resume address and imm12 as ADDR;
ERET in the handler retires with no loop level tested (04 R126) and then returns, and outside it raises 0x01 with no token
taken; HALT retires the job; HALT.chain loads the image that follows and goes on at its entry; either in the handler ends the
job. Each waits until the deferred writes of S have landed, HALT outside the handler also until the other engines are Done or
Idle, and HALT.chain until those of the outgoing trailer mask are. The model's choice in it, that the pop and push of these
words act as those of every word, is that of log entry 97. -/
def Obligations.TrapReturnAndHaltComplete : Prop :=
  ∀ f : FSys,
    Raises (.trap f) .s f.w (fun s => SRegs f.w [] [] s ∧ Claims.Settled .s s)
      (fun s => { Claims.faultAt .s (fltAddr 0x7F f.imm12.toNat) s with resume := Claims.pcAfter .s s }) (readS f.w [])
    ∧ WaitsBefore (.trap f) .s f.w (fun s => SRegs f.w [] [] s ∧ ¬Claims.Settled .s s)
    ∧ (Instr.wf (.trap f) = true → ∀ s got, TokensTaken .s f.w got (s.ctx s.cur) → SRegs f.w [] [] s →
      (s.ctx s.cur).cr.tm = false → (s.ctx s.cur).cr.trapvec.getLsbD 63 = true → unsettled (s.ctx s.cur) = false →
      (s.ctx s.cur).trapping = none → (s.core s.cur).pwr.susp = false →
      ∃ t, exec (.trap f) s = .next t ∧ (t.ctx s.cur).cr.tm = true ∧ (t.ctx s.cur).cr.trapcause = 0x7F
        ∧ (t.ctx s.cur).cr.trappc = BitVec.ofNat 64 ((Claims.pcAfter .s s).toNat % 2 ^ 32)
        ∧ fld (t.ctx s.cur).cr.trapinfo1.toNat 0 48 = f.imm12.toNat ∧ (t.ctx s.cur).cr.trapinfo0.getLsbD 63 = true)
    ∧ CompletesByRet (.eret f) .s f.w
      (fun s => SRegs f.w [] [] s ∧ (s.ctx s.cur).cr.tm = true ∧ Claims.Settled .s s ∧ Claims.CrReady 0x041 s
        ∧ Claims.CrReady 0x045 s)
      (fun s => s) (fun s t => t.modCtx s.cur trapReturn)
    ∧ (∀ s : State, (s.ctx s.cur).cr.tm = false →
        exec (.eret f) s = .next (raise s.cur .s (Trap.plain 0x01 (Claims.pcOf .s s)) s))
    ∧ WaitsBefore (.eret f) .s f.w
      (fun s => SRegs f.w [] [] s ∧ (s.ctx s.cur).cr.tm = true ∧ ¬Claims.Settled .s s)
    ∧ CompletesThen (.halt f) .s f.w
      (fun s => SRegs f.w [] [] s ∧ (s.ctx s.cur).cr.tm = false ∧ Claims.Settled .s s ∧ Claims.OthersAtRest s)
      (fun _ s => s) (fun s t => t.modCore s.cur fun k => { k with phase := .retiring })
    ∧ CompletesThen (.halt f) .s f.w
      (fun s => SRegs f.w [] [] s ∧ Claims.HaltsJob s)
      (fun _ s => s) (fun s t => endJob s.cur (Claims.haltEnd s) t)
    ∧ CompletesThen (.haltChain f) .s f.w
      (fun s => SRegs f.w [f.fa] [] s ∧ Claims.HaltsJob s)
      (fun _ s => s) (fun s t => endJob s.cur (Claims.haltEnd s) t)
    ∧ WaitsBefore (.halt f) .s f.w (fun s => SRegs f.w [] [] s
        ∧ (¬Claims.Settled .s s ∨ (s.ctx s.cur).cr.tm = false ∧ ¬Claims.OthersAtRest s))
    ∧ WaitsBefore (.haltChain f) .s f.w (fun s => SRegs f.w [f.fa] [] s
        ∧ (¬Claims.Settled .s s ∨ (s.ctx s.cur).cr.tm = false
          ∧ ∃ j, (s.core s.cur).job = some j ∧ ∃ e ∈ Claims.trailerEngines j, ¬Claims.AtRest e s))
    ∧ CompletesAt (.haltChain f) .s f.w
      (fun s => SRegs f.w [f.fa] [] s ∧ (s.ctx s.cur).cr.tm = false ∧ Claims.Settled .s s
        ∧ ∃ j m s2, Claims.chainLoad f s = some (j, m, s2)
          ∧ ∀ e ∈ Claims.trailerEngines j, Claims.AtRest e s)
      (fun s => match Claims.chainLoad f s with
        | some (_, m, _) => BitVec.ofNat 64 m.entry
        | none => 0)
      (fun s => match Claims.chainLoad f s with
        | some (j, m, s2) => s2.modCore s.cur fun k => { k with job := some { j with trailer := BitVec.ofNat 5 m.trailer } }
        | none => s)
    ∧ SkipsOnGuard (.trap f) f.w ∧ SkipsOnGuard (.halt f) f.w ∧ SkipsOnGuard (.haltChain f) f.w

/-- 04 R123, R156; 12 R396; 13 R408; 01 R35: entry into the handler. A trap of any engine writes the trap registers and stops
every other Running engine, the one that trapped is Faulted. S enters at its own trap once its deferred writes have landed
and its power units are held, at once where that is so; at another engine's trap it goes on until its next boundary, at which it enters: in trap mode, at
TRAPVEC.ADDR, with loop bank 1 cleared and its held entry set aside. Every s register, V, M and P, the FIFOs, the other
cores and every byte of memory are as they were. The model's choices in it are those of log entries 21, 79,
81, 82 and 98. -/
def Obligations.TrapEntrySavesAndGoesToHandler : Prop :=
  (∀ (c : CoreId) (e : Eng) (t : Trap) (s : State), Claims.EntersHandler t (s.ctx c) →
    let u := raise c e t s
    let x := s.ctx c
    let y := u.ctx c
    Claims.Recorded c e t x y ∧ Claims.Halted e x y ∧ Claims.KeepsWork x y
    ∧ u.mem = s.mem ∧ u.memErr = s.memErr ∧ u.clusters = s.clusters ∧ (∀ d, d ≠ c → u.core d = s.core d)
    ∧ (e = .s → unsettled x = false → (s.core c).pwr.susp = false → Claims.InHandler x y)
    ∧ (e ≠ .s ∨ unsettled x = true ∨ (s.core c).pwr.susp = true → y.cr.tm = false ∧ y.trapping = some ⟨e, t, e != .s⟩
        ∧ (e ≠ .s → y.stream .s = x.stream .s)
        ∧ (e = .s → y.stream .s = { x.stream .s with snap := [] })))
  ∧ ∀ (c : CoreId) (s : State) (q : Trapping), s.tickClosed = false → (s.core c).phase = .running →
    ((s.ctx c).stream .s).st = .running → (s.ctx c).trapping = some q → q.late = false → (s.core c).pwr.susp = false →
    ∃ u, runTurn (.issue c .s) s = .next u ∧ u.mem = s.mem ∧ (∀ d, d ≠ c → u.core d = s.core d)
      ∧ (unsettled (s.ctx c) = false → Claims.InHandler (s.ctx c) (u.ctx c) ∧ Claims.KeepsWork (s.ctx c) (u.ctx c)
          ∧ (u.ctx c).cr.trapcause = (s.ctx c).cr.trapcause ∧ (u.ctx c).cr.trappc = (s.ctx c).cr.trappc)
      ∧ (unsettled (s.ctx c) = true → u = s)

/-- 13 R409, R411: a trap of class J, one in trap mode, and one without a handler end the job: its record is fixed with
the code, and every stream that ran stops, that of the trap Faulted. While a trap is being taken no other is raised: the
word executes again after ERET (04 R156). -/
def Sys2Proof.Claims.TrapsThatEndTheJob : Prop :=
  ∀ (c : CoreId) (e : Eng) (t : Trap) (s : State),
    ((s.ctx c).trapping = none →
      (t.classJ = true ∨ (s.ctx c).cr.tm = true ∨ (s.ctx c).cr.trapvec.getLsbD 63 = false) →
      ∃ i, ((raise c e t s).core c).phase = .ending i ∧ i.code = BitVec.ofNat 8 t.code ∧ i.nested = (s.ctx c).cr.tm
        ∧ i.novec = !(s.ctx c).cr.trapvec.getLsbD 63 ∧ i.kill = false ∧ i.disp = false ∧ i.gang = false
        ∧ i.ticks = s.dev.ticks.toNat ∧ (((raise c e t s).ctx c).stream e).st = .faulted
        ∧ (∀ d, d ≠ e → (((raise c e t s).ctx c).stream d).st
            = if ((s.ctx c).stream d).st = .running then .stopped else ((s.ctx c).stream d).st)
        ∧ (raise c e t s).mem = s.mem ∧ ∀ d, d ≠ c → (raise c e t s).core d = s.core d)
    ∧ ((s.ctx c).trapping ≠ none → raise c e t s = s)

/-- 04 R157: the return from the handler. Trap mode ends, S goes on at TRAPENG.SPC or, if S trapped, at TRAPPC, with the entry
it held and the word that waited to retire, the engine that trapped at TRAPPC, and the stopped engines that TRAPENG names run again; every register, the
FIFOs and the trap registers stay. -/
def Sys2Proof.Claims.TrapReturnResumes : Prop :=
  ∀ x : Ctx,
    let y := trapReturn x
    let eng := fld x.cr.trapeng.toNat 0 3
    y.cr = { x.cr with tm := false }
    ∧ ((y.stream .s).st = .running ∧ (y.stream .s).held = x.aside ∧ (y.stream .s).done = x.asideDone ∧ (y.stream .s).pc
        = BitVec.ofNat 64 (if eng = 1 then fld x.cr.trappc.toNat 0 32 else fld x.cr.trapeng.toNat 16 32))
    ∧ (∀ d, d ≠ .s → d.code = eng → (y.stream d).st = .running
        ∧ (y.stream d).pc = BitVec.ofNat 64 (fld x.cr.trappc.toNat 0 32) ∧ (y.stream d).held = (x.stream d).held)
    ∧ (∀ d, d ≠ .s → d.code ≠ eng → (y.stream d).pc = (x.stream d).pc ∧ (y.stream d).held = (x.stream d).held
        ∧ (y.stream d).st = if x.cr.trapeng.getLsbD (8 + d.num.val) ∧ (x.stream d).st = .stopped then .running
            else (x.stream d).st)
    ∧ y.sreg = x.sreg ∧ y.sfill = x.sfill ∧ y.v = x.v ∧ y.m = x.m ∧ y.p = x.p ∧ y.fifos = x.fifos ∧ y.tags = x.tags
    ∧ y.bank1 = x.bank1 ∧ y.bar = x.barAside

/-- 04 R157; 13 R409, R411: traps that end the job, and the return from the handler, as the two parts above say. The model's choices
in it are those of log entries 30 and 82. -/
def Obligations.TrapsEndOrReturn : Prop := Claims.TrapsThatEndTheJob ∧ Claims.TrapReturnResumes

namespace Sys2Proof.Claims

/-- The registers a LAUNCH reads, its cluster, its queue, and whether that queue takes it (10 R332). -/
def launchRegs (f : FSys) : List (BitVec 6) := f.fa :: if launchOwn f then [] else [f.fb]
def launchCluster (f : FSys) (s : State) : ClusterId :=
  if launchOwn f then clusterOf s.cur else clusterAt (sfield (s.ctx s.cur) f.fb).toNat
def launchQueue (f : FSys) (s : State) : Queue :=
  vget (s.cluster (launchCluster f s)).queues (f.imm12.toNat % 8)
def LaunchAllowed (f : FSys) (s : State) : Prop :=
  (launchOwn f = false → (sfield (s.ctx s.cur) f.fb).toNat < 24)
    ∧ (launchQueue f s).owner = true ∧ (launchQueue f s).en = true ∧ (launchQueue f s).rootAddr = s.rootOf s.cur
    ∧ Settled .s s ∧ drained .s (s.ctx s.cur) = true

/-- The ring of the queue is full. -/
def launchFull (f : FSys) (s : State) : Prop :=
  ((launchQueue f s).tail.toNat + 1) % (launchQueue f s).slots = (launchQueue f s).head.toNat

/-- The ticket's 128 bytes at s[fa], and the slot they go to. -/
def launchSrc (f : FSys) (s : State) : Checked × State :=
  (readS f.w (launchRegs f) s).scalarRef s.cur 0 (sfield (s.ctx s.cur) f.fa).toNat 128 .read true false
def launchDst (f : FSys) (s : State) : Checked × State :=
  (launchSrc f s).2.scalarRef s.cur 0 ((launchQueue f s).slotVa (launchQueue f s).tail.toNat) 128 .write true false

/-- It is the turn of its LAUNCH at the queue (10 R332). -/
def LaunchTurn (f : FSys) (s : State) : Prop :=
  ∃ r, (s.ctx s.cur).launchReq = some r ∧ (readS f.w (launchRegs f) s).launchServed s.cur r = true

/-- The LAUNCH is no longer at its queue. -/
def unqueued (s u : State) : State := u.modCtx s.cur fun x => { x with launchReq := none }

/-- The core in turn is a member of a barrier of level n ≥ 1 (10 R339). -/
def BarMember (n : Nat) (s : State) : Prop := s.barMember s.cur n = true

/-- The registers its membership is read from may be read: that level's DOMMASK (10 R339, 13 R415). -/
def MaskReady (n : Nat) (s : State) : Prop := ∀ r ∈ barCrs n, CrReady r s

/-- The state in which it arrives, with its DOMMASK read, and for BAR.D4 the group entry that DOMMASK4 names, read with its
list at issue (11 R369, R372). -/
def barAt (f : FSys) (s : State) : State :=
  (readS f.w [] s).correct s.cur ((barCrs (f.imm12.toNat % 8)).map Site.creg)
def barEntry (f : FSys) (s : State) : BlockRead × State :=
  if f.imm12.toNat % 8 = 4 then (barAt f s).readEntry s.cur .s (s.ctx s.cur).gidx else (.bytes [], barAt f s)

/-- Its arrival: the count of arrivals of its job at the level is the instance (10 R339, 01 R41). -/
def arrived (f : FSys) (s : State) : State :=
  match barEntry f s with
  | (.bytes b, s1) => s1.arrive s.cur (f.imm12.toNat % 8) b
  | (_, s1) => s1

end Sys2Proof.Claims

/-- 10 R332, 01 R494: LAUNCH reaches its queue, which takes it at a later tick, those of one tick in the order of their cores;
then it copies the 128 bytes of a ticket into the slot at TAIL, a release, advances TAIL, which passes on what S has seen, and
gives its old value; into a full ring it gives all ones and changes nothing else. The model's choices
in it are those of log entry 35. -/
def Obligations.LaunchCompletes : Prop :=
  (∀ f : FSys,
    Holds (.launch f) .s f.w
      (fun s => SRegs f.w (Claims.launchRegs f) [f.fd] s ∧ Claims.LaunchAllowed f s ∧ (s.ctx s.cur).launchReq = none
        ∧ Claims.Passes (Claims.launchSrc f s))
      (fun s => (Claims.launchSrc f s).2.modCtx s.cur fun x =>
        { x with launchReq := some ⟨(Claims.launchCluster f s).val, f.imm12.toNat % 8, s.dev.ticks.toNat⟩ })
    ∧ WaitsBefore (.launch f) .s f.w
      (fun s => SRegs f.w (Claims.launchRegs f) [f.fd] s ∧ Claims.LaunchAllowed f s
        ∧ Claims.Passes (Claims.launchSrc f s)
        ∧ ∃ r, (s.ctx s.cur).launchReq = some r ∧ (readS f.w (Claims.launchRegs f) s).launchServed s.cur r = false)
    ∧ Completes (.launch f) .s f.w
      (fun s => SRegs f.w (Claims.launchRegs f) [f.fd] s ∧ Claims.LaunchAllowed f s ∧ Claims.launchFull f s
        ∧ Claims.Passes (Claims.launchSrc f s) ∧ Claims.LaunchTurn f s)
      (fun _ => none)
      (fun _ s => (Claims.unqueued s (Claims.launchSrc f s).2).writeS s.cur f.fd (BitVec.allOnes 64))
    ∧ Completes (.launch f) .s f.w
      (fun s => SRegs f.w (Claims.launchRegs f) [f.fd] s ∧ Claims.LaunchAllowed f s ∧ ¬Claims.launchFull f s
        ∧ Claims.Passes (Claims.launchSrc f s) ∧ Claims.Passes (Claims.launchDst f s) ∧ Claims.LaunchTurn f s
        ∧ Claims.SendRoom s
        ∧ ∀ a b, (Claims.launchSrc f s).1 = .ok a → (Claims.launchDst f s).1 = .ok b →
            (Claims.launchDst f s).2.anyStalled (a.pieces ++ b.pieces) = false)
      (fun _ => none)
      (fun _ s =>
        let q := Claims.launchQueue f s
        Claims.onPass (Claims.launchSrc f s) fun src _ =>
          Claims.onPass (Claims.launchDst f s) fun dst s2 =>
            ((Claims.unqueued s (dst.pieces.foldl (fun u p => u.writeNoted s.cur .s 3 (u.spanOf p))
              (s2.copyRef s.cur src dst))).modCluster (Claims.launchCluster f s) fun k =>
              { k with queues := vset k.queues (f.imm12.toNat % 8)
                         { vget k.queues (f.imm12.toNat % 8) with
                           tail := BitVec.ofNat 16 ((q.tail.toNat + 1) % q.slots),
                           seen := (vget k.queues (f.imm12.toNat % 8)).seen.join
                             (((dst.pieces.foldl (fun u p => u.writeNoted s.cur .s 3 (u.spanOf p))
                               (s2.copyRef s.cur src dst)).ctx s.cur).stream .s).view.everyForm },
                       passDue := true }).writeS s.cur f.fd (q.tail.zeroExtend 64))
    ∧ WaitsBefore (.launch f) .s f.w (fun s => SRegs f.w (Claims.launchRegs f) [f.fd] s
        ∧ (launchOwn f = false → (sfield (s.ctx s.cur) f.fb).toNat < 24)
        ∧ ¬(Claims.Settled .s s ∧ drained .s (s.ctx s.cur) = true))
    ∧ SkipsOnGuard (.launch f) f.w)
  ∧ ∀ (s : State) (c d : CoreId) (q : LaunchReq),
    (s.launchServed c q = true → q.tick < s.dev.ticks.toNat)
    ∧ ((s.ctx c).launchReq = some q → (s.ctx d).launchReq = some q → c.val < d.val → s.launchServed d q = false)

/-- 10 R338–R340; 09 R316: BAR at level 0 retires with 0 once no other engine runs, and acquires from them; at a higher level it arrives, BAR.D4 with its group entry read (11 R369), waits, and retires
with its rank once the instance is complete and its power units are held; a core that is no member raises 0x02. The model's
choices in it are those of log entries 72 and 79. -/
def Obligations.BarCompletes : Prop :=
  ∀ f : FSys,
    Completes (.bar f) .s f.w
      (fun s => SRegs f.w [] [f.fd] s ∧ f.imm12.toNat % 8 = 0 ∧ (∀ e, e ≠ .s → ((s.ctx s.cur).stream e).st ≠ .running)
        ∧ drained .s (s.ctx s.cur) = true)
      (fun _ => none)
      (fun _ s => ((readS f.w [] s).acquireFrom s.cur .s [.v, .m, .p, .c]).writeS s.cur f.fd 0)
    ∧ Completes (.bar f) .s f.w
      (fun s => SRegs f.w [] [f.fd] s ∧ f.imm12.toNat % 8 ≠ 0 ∧ Claims.MaskReady (f.imm12.toNat % 8) s ∧ (s.core s.cur).pwr.susp = false
        ∧ ∃ a r, (s.ctx s.cur).bar = some a ∧ a.rank = some r)
      (fun _ => none)
      (fun _ s => (s.modCtx s.cur fun y => { y with bar := none }).writeS s.cur f.fd
        (BitVec.ofNat 64 (((s.ctx s.cur).bar.bind Arrival.rank).getD 0)))
    ∧ Holds (.bar f) .s f.w
      (fun s => SRegs f.w [] [f.fd] s ∧ f.imm12.toNat % 8 ≠ 0 ∧ Claims.MaskReady (f.imm12.toNat % 8) s ∧ (s.ctx s.cur).bar = none
        ∧ Claims.BarMember (f.imm12.toNat % 8) s ∧ drained .s (s.ctx s.cur) = true
        ∧ ∃ b, (Claims.barEntry f s).1 = .bytes b)
      (Claims.arrived f)
    ∧ WaitsBefore (.bar f) .s f.w
      (fun s => SRegs f.w [] [f.fd] s ∧ f.imm12.toNat % 8 ≠ 0 ∧ Claims.MaskReady (f.imm12.toNat % 8) s
        ∧ ∃ a, (s.ctx s.cur).bar = some a ∧ a.rank = none)
    ∧ Raises (.bar f) .s f.w
      (fun s => SRegs f.w [] [f.fd] s ∧ f.imm12.toNat % 8 ≠ 0 ∧ Claims.MaskReady (f.imm12.toNat % 8) s ∧ (s.ctx s.cur).bar = none
        ∧ ¬Claims.BarMember (f.imm12.toNat % 8) s)
      (fun s => Claims.faultAt .s (fltAddr 0x02 (f.imm12.toNat % 8)) s)
      (fun s => (readS f.w [] s).correct s.cur ((barCrs (f.imm12.toNat % 8)).map Site.creg))
    ∧ SkipsOnGuard (.bar f) f.w

/-- 12 R385, R393, R394: PACQ to a level not above the present one retires at once with the old level, to a higher one it
queues its request and retires with the old level once it is granted; PREL gives the level up; BOOST ends, refuses or
takes a lease; REFDEF defers the next sweep, never past DUE, or, in the tick of a sweep start still to come, past the DUE
which that start sets, and keeps what a sweep of its own tick goes by (12 R383, R403). The model's choices in it are those of
log entry 80. -/
def Obligations.PowerWordsComplete : Prop :=
  ∀ f : FSys,
    Completes (.pacq f) .s f.w
      (fun s => SRegs f.w [] [f.fd] s ∧ Claims.Settled .s s ∧ f.imm12.toNat % 4 ≤ (s.core s.cur).pwr.level
        ∧ (s.ctx s.cur).pacqFrom = none)
      (fun _ => none)
      (fun _ s => (s.setLevel s.cur (f.imm12.toNat % 4)).writeS s.cur f.fd (BitVec.ofNat 64 (s.core s.cur).pwr.level))
    ∧ Completes (.pacq f) .s f.w
      (fun s => SRegs f.w [] [f.fd] s ∧ Claims.Settled .s s ∧ (s.ctx s.cur).granted = true
        ∧ (s.ctx s.cur).pacqFrom ≠ none)
      (fun _ => none)
      (fun _ s => (s.modCtx s.cur fun y => { y with pacqFrom := none, granted := false }).writeS s.cur f.fd
        (BitVec.ofNat 64 ((s.ctx s.cur).pacqFrom.getD 0)))
    ∧ Holds (.pacq f) .s f.w
      (fun s => SRegs f.w [] [f.fd] s ∧ Claims.Settled .s s ∧ (s.core s.cur).pwr.level < f.imm12.toNat % 4
        ∧ (s.ctx s.cur).pacqFrom = none)
      (fun s =>
        let u := readS f.w [] s
        let old := (s.core s.cur).pwr.level
        (u.modPlate (plateOf (clusterOf s.cur)) fun p => { p with
          reqs := p.reqs ++ [⟨s.cur, f.imm12.toNat % 4 - old % 4, false, s.dev.ticks.toNat⟩] }).modCore s.cur fun q =>
            { q with pwr := { q.pwr with wait := true },
                     ctx := { q.ctx with
                       pacqFrom := some old, granted := false,
                       pacqSince := some (q.ctx.pacqSince.getD s.dev.ticks.toNat) } })
    ∧ Completes (.prel f) .s f.w (fun s => SRegs f.w [] [] s ∧ Claims.Settled .s s) (fun _ => none)
      (fun _ s => s.setLevel s.cur 0)
    ∧ Completes (.boost f) .s f.w (SRegs f.w [] [f.fd]) (fun _ => none)
      (fun _ s =>
        let q := s.core s.cur
        let n := f.imm12.toNat % 256
        let old := if q.lease.act then q.lease.rem else 0
        let lease : Lease := if n = 0 then { q.lease with act := false }
          else if (s.cluster (clusterOf s.cur)).rec_.boostOk then ⟨true, n, n⟩ else q.lease
        (let t := s.modCore s.cur fun q => { q with lease := lease }
         if n = 0 then t.retarget (clusterOf s.cur) else t).writeS s.cur f.fd
          (BitVec.ofNat 64 (if n ≠ 0 ∧ (s.cluster (clusterOf s.cur)).rec_.boostOk = false then old + 256 else old)))
    ∧ Completes (.refdef f) .s f.w (SRegs f.w [f.fa] [f.fd]) (fun _ => none)
      (fun _ s =>
        let d := (sfield (s.ctx s.cur) f.fa).toNat
        let r := (s.core s.cur).refresh
        let limit := if s.sweepDue s.cur then s.dev.ticks.toNat + dueAfter r.band else r.due
        let u := min (s.dev.ticks.toNat + d) limit
        let before : Deferral := match r.prior with
          | some b => if b.tick = s.dev.ticks.toNat then b else ⟨s.dev.ticks.toNat, r.until_, r.act, r.notify, false⟩
          | none => ⟨s.dev.ticks.toNat, r.until_, r.act, r.notify, false⟩
        if d = 0 then
          (s.modCore s.cur fun q => { q with refresh :=
            { r with act := false, notify := false, prior := some { before with asks := false } } }).writeS s.cur f.fd 0
        else
          (s.modCore s.cur fun q => { q with refresh :=
            { r with until_ := u, act := true, notify := r.notify || f.sub == 1,
                     prior := some { before with asks := before.asks || f.sub == 1 } } }).writeS s.cur f.fd
              (BitVec.ofNat 64 u))
    ∧ SkipsOnGuard (.pacq f) f.w ∧ SkipsOnGuard (.prel f) f.w ∧ SkipsOnGuard (.boost f) f.w
    ∧ SkipsOnGuard (.refdef f) f.w

/-- 03 R88 row 2, 04 R159: the no-operations of the engines and every hint retire with no effect but their tokens;
a token code that names no engine, or S itself, is illegal in S; every opcode of the hint region is one of them. -/
def Sys2Proof.Claims.NoOperationsComplete : Prop :=
  ∀ w : Common,
    Completes (.nop w) .s w (fun _ => True) (fun _ => none) (fun _ s => s)
    ∧ Completes (.vnop w) .v w (fun _ => True) (fun _ => none) (fun _ s => s)
    ∧ Completes (.mnop w) .m w (fun _ => True) (fun _ => none) (fun _ s => s)
    ∧ Completes (.pnop w) .p w (fun _ => True) (fun _ => none) (fun _ s => s)
    ∧ Completes (.cnop w) .c w (fun _ => True) (fun _ => none) (fun _ s => s)
    ∧ (∀ e op, Completes (.hint e op w) e w (fun _ => True) (fun _ => none) fun _ s => s)
    ∧ (Eng.ofCode w.push.toNat = some .s ∨ Eng.ofCode w.pop.toNat = some .s ∨ 6 ≤ w.push.toNat ∨ 6 ≤ w.pop.toNat →
      Claims.Illegal (.nop w) .s ∧ ∀ op, Claims.Illegal (.hint .s op w) .s)
    ∧ ∀ p0 p1 : W32, (opcodeOf p0 = 0x78 → decodeFull .s p0 p1 = .nop (commonOf p0 p1))
      ∧ (0x79 ≤ (opcodeOf p0).toNat → decodeFull .s p0 p1 = .hint .s (opcodeOf p0) (commonOf p0 p1))

/-- 03 R88 rows 3–5, R106: a word with an unassigned opcode raises 0x01 at its address; a word with an illegal field raises
0x01 and one whose operands form no legal group 0x02, before its tokens are looked at. -/
def Sys2Proof.Claims.IllegalWordsTrap : Prop :=
  (∀ (e : Eng) (op : BitVec 7) (w : Common) (s : State),
    exec (.unassignedOpcode e op w) s = .next (raise s.cur e (Trap.plain 0x01 (Claims.pcOf e s)) s))
  ∧ (∀ (f : FRrr) (s : State), Instr.wf (.add f) = false →
    exec (.add f) s = .next (raise s.cur .s (Trap.plain 0x01 (Claims.pcOf .s s)) s))
  ∧ ∀ (e : Eng) (p0 p1 : W32) (s : State), (decodeFull e p0 p1).wf = false →
    ∃ code, (code = 0x01 ∨ code = 0x02)
      ∧ exec (decodeFull e p0 p1) s = .next (raise s.cur e (Trap.plain code (Claims.pcOf e s)) s)

/-- 03 R88, R106; 04 R159: the words with no effect and those that are not legal, as the two parts above say. -/
def Obligations.NoOperationsAndIllegalWords : Prop := Claims.NoOperationsComplete ∧ Claims.IllegalWordsTrap

/-- 03 R86, R108, R109: a patch word runs the word its template makes with one field replaced, as a word of 4 bytes; an
entry that cannot be amended raises 0x01. Field code 0 replaces nothing. -/
def Obligations.PatchWordsRunTheirTemplate : Prop :=
  ∀ (e : Eng) (tidx : BitVec 6) (fsel : BitVec 5) (value : BitVec 16) (s : State),
    (Site.tmpl e tidx.toNat, true) ∉ (s.ctx s.cur).errs →
    let entry := vget ((s.ctx s.cur).stream e).tmpl tidx.toNat
    (∀ p0 p1, amend e entry fsel.toNat value.toNat = some (p0, p1) →
      ∃ t, exec (.patch e tidx fsel value) s = .next t
        ∧ exec (decodeFull e p0 p1) { s.correct s.cur [.tmpl e tidx.toNat] with patched := true } = .next t)
    ∧ (amend e entry fsel.toNat value.toNat = none →
      exec (.patch e tidx fsel value) s = .next (raise s.cur e (Trap.plain 0x01 (Claims.pcOf e s))
        (s.correct s.cur [.tmpl e tidx.toNat])))
    ∧ (entry.getLsbD 31 = false → amend e entry 0 value.toNat = some (entry.extractLsb' 0 32, entry.extractLsb' 32 32))
    ∧ (entry.getLsbD 31 = true → amend e entry fsel.toNat value.toNat = none)

namespace Sys2Proof.Claims

/-- A V word on lanes: one source, two or three, each read on the active lanes. -/
def Lanes1 (i : FRrr → Instr) (val : FRrr → Ctx → Nat → W32) : Prop :=
  ∀ f : FRrr, VWrites (i f) f.w [(f.fa.toNat, id)] f.fd f.prf (val f)
def Lanes2 (i : FRrr → Instr) (val : FRrr → Ctx → Nat → W32) : Prop :=
  ∀ f : FRrr, VWrites (i f) f.w [(f.fa.toNat, id), (f.fb.toNat, id)] f.fd f.prf (val f)

/-- Element i of a register of a float word, as a number; and a float word's result: rounded once (05 R164, R179). -/
def num (f : FRrr) (r : BitVec 6) (x : Ctx) (i : Nat) : Ext := elemVal f.fmt.toNat (vElem x r i)
def rounded (f : FRrr) (v : Ext) : W32 := floatElem f.fmt.toNat (Rm.ofCode f.rm.toNat) f.sat v

/-- Element i of a register of an integer word, as a number (05 R164, R181). -/
def int (f : FRrr) (r : BitVec 6) (x : Ctx) (i : Nat) : Int := intOf f.fmt.toNat (vElem x r i)

/-- A bitwise word of V: on the lanes of two registers, or on two predicates (05 R182). -/
def Bits2 (i : FRrr → Instr) (plain : FRrr → Prop) (vec : W32 → W32 → W32) (pr : W64 → W64 → W64) : Prop :=
  ∀ f : FRrr, plain f →
    (predForm f = false → VWrites (i f) f.w [(f.fa.toNat, id), (f.fb.toNat, id)] f.fd f.prf
      fun x k => vec (vElem x f.fa k) (vElem x f.fb k))
    ∧ (predForm f = true → VTests (i f) f.w [] f.fd fun x => pr (predOf x.v f.fa.toNat) (predOf x.v f.fb.toNat))

/-- A shift of V by v[fb] or by aux, modulo 32 (05 R182). -/
def Shifts (i : FRrr → Instr) (op : W32 → Nat → W32) : Prop :=
  ∀ f : FRrr, VWrites (i f) f.w ((f.fa.toNat, id) :: if f.sub = 0 then [(f.fb.toNat, id)] else []) f.fd f.prf
    fun x k => op (vElem x f.fa k) (if f.sub = 0 then (vElem x f.fb k).toNat % 32 else f.aux.toNat % 32)

/-- The mask of the lanes that pass a test. -/
def laneMask (test : Nat → Bool) : W64 := maskOf test

/-- The stochastic draws of a word: one per active lane under rm 4, none else; and the generator after them (02 R68). -/
def draws (f : FRrr) (act : W64) (x : Ctx) : List (Nat × Nat) × W32 :=
  if f.rm = 4 then drawLanes (onLanes act) x.v.lfsr else ([], x.v.lfsr)

/-- The generator stepped past them. -/
def stepped (f : FRrr) (act : W64) (x : Ctx) : Ctx := { x with v := { x.v with lfsr := (draws f act x).2 } }

/-- The word of V at the PC, and its active lanes. -/
def vNow (got : Option Entry) (s : State) : Wd := wordNow .v got s
def act (w : Common) (s : State) : W64 := activeMask (s.ctx s.cur).v w

end Sys2Proof.Claims

/-- 05 R179, R180: each float word of V writes, on its active lanes, the exact result of its operands rounded once in its
format; VMIN, VMAX, VABS and VNEG also act on integers. -/
def Obligations.VectorFloatWordsWrite : Prop :=
  Claims.Lanes2 .vadd (fun f x i =>
    Claims.rounded f (Ext.addZ (f.rm == 3) (Claims.num f f.fa x i) (Claims.num f f.fb x i)))
  ∧ Claims.Lanes2 .vsub (fun f x i =>
    Claims.rounded f (Ext.addZ (f.rm == 3) (Claims.num f f.fa x i) (Claims.num f f.fb x i).neg))
  ∧ Claims.Lanes2 .vmul (fun f x i => Claims.rounded f ((Claims.num f f.fa x i).mul (Claims.num f f.fb x i)))
  ∧ (∀ f : FRrr, VWrites (.vfma f) f.w [(f.fa.toNat, id), (f.fb.toNat, id), (f.fc.toNat, id)] f.fd f.prf fun x i =>
      Claims.rounded f (Ext.addZ (f.rm == 3) ((Claims.num f f.fa x i).mul (Claims.num f f.fb x i))
        (Claims.num f f.fc x i)))
  ∧ (∀ f : FRrr, VWrites (.vfms f) f.w [(f.fa.toNat, id), (f.fb.toNat, id), (f.fc.toNat, id)] f.fd f.prf fun x i =>
      Claims.rounded f (Ext.addZ (f.rm == 3) ((Claims.num f f.fa x i).mul (Claims.num f f.fb x i))
        (Claims.num f f.fc x i).neg))
  ∧ Claims.Lanes1 .vrcp (fun f x i => Claims.rounded f (Claims.num f f.fa x i).rcp)
  ∧ Claims.Lanes1 .vrsq (fun f x i => Claims.rounded f (Claims.num f f.fa x i).rsq)
  ∧ Claims.Lanes2 .vmin (fun f x i =>
    if f.fmt.toNat ≤ 2 then floatElem f.fmt.toNat .rne false ((Claims.num f f.fa x i).min (Claims.num f f.fb x i))
    else intElem f.fmt.toNat false (min (Claims.int f f.fa x i) (Claims.int f f.fb x i)))
  ∧ Claims.Lanes2 .vmax (fun f x i =>
    if f.fmt.toNat ≤ 2 then floatElem f.fmt.toNat .rne false ((Claims.num f f.fa x i).max (Claims.num f f.fb x i))
    else intElem f.fmt.toNat false (max (Claims.int f f.fa x i) (Claims.int f f.fb x i)))
  ∧ Claims.Lanes1 .vabs (fun f x i =>
    if f.fmt.toNat ≤ 2 then floatElem f.fmt.toNat .rne false (Claims.num f f.fa x i).abs
    else intElem f.fmt.toNat f.sat ((Claims.int f f.fa x i).natAbs : Int))
  ∧ Claims.Lanes1 .vneg (fun f x i =>
    if f.fmt.toNat ≤ 2 then floatElem f.fmt.toNat .rne false (Claims.num f f.fa x i).neg
    else intElem f.fmt.toNat f.sat (-Claims.int f f.fa x i))

/-- 05 R189–R193, 02 R59, R68, R78: VCVT converts each active lane, its stochastic draws in lane order and its SPFSTAT flags
collected; VQNT quantises by block and writes the scales; VDQNT undoes it; VSPL3 writes three parts; VTIP interpolates a
table. The model's choices
in it are those of log entry 31. -/
def Obligations.VectorConversionsWrite : Prop :=
  ∀ f : FRrr,
    Completes (.vcvt f) .v f.w (VRegs f.w [(f.fa.toNat, id)] [f.fd.toNat]) (fun _ => none)
      (fun got s =>
        let x := s.ctx s.cur
        let m := Claims.act f.w s
        let res := fun i => convert f.fmt.toNat (laneMode f.rm (Claims.draws f m x).1 i) f.sat
          (elemVal (cvtSrc f).toNat (vElem x f.fa i))
        (s.modCtx s.cur fun y => setSpf ((onLanes m).foldl (fun a i => orFlags a (res i).2) 0)
          (Claims.stepped f m y)).writeV (Claims.vNow got s) f.fd m f.prf fun i => (res i).1)
    ∧ Completes (.vqnt f) .v f.w (VRegs f.w [(f.fa.toNat, id)] [f.fd.toNat, f.aux.toNat]) (fun _ => none)
      (fun got s =>
        let x := s.ctx s.cur
        let m := Claims.act f.w s
        ((s.modCtx s.cur (Claims.stepped f m)).writeV (Claims.vNow got s) f.fd m false fun i =>
          match (blockScale x f m (i / 32)).2 with
          | none => 0
          | some e => BitVec.ofNat 32 (mxQuant f.fmt.toNat (laneMode f.rm (Claims.draws f m x).1 i) e
              (val32 (vElem x f.fa i)))).writeV (Claims.vNow got s) f.aux (blockHeads m) false fun i =>
                BitVec.ofNat 32 (blockScale x f m (i / 32)).1)
    ∧ VWrites (.vdqnt f) f.w [(f.fa.toNat, id), (f.fb.toNat, blockHeads)] f.fd f.prf (fun x i =>
        rne32 (mxVal f.fmt.toNat (vElem x f.fa i).toNat ((vElem x f.fb (i / 32 * 32)).toNat % 256)))
    ∧ Completes (.vspl3 f) .v f.w
      (VRegs f.w [(f.fa.toNat, id)] [f.fd.toNat, f.fd.toNat + 1, f.fd.toNat + 2]) (fun _ => none)
      (fun got s =>
        let x := s.ctx s.cur
        let k := Claims.vNow got s
        let m := Claims.act f.w s
        ((s.writeV k f.fd m false fun i => BitVec.ofNat 32 (split3 (vElem x f.fa i)).1).writeV k (f.fd + 1) m false
          fun i => BitVec.ofNat 32 (split3 (vElem x f.fa i)).2.1).writeV k (f.fd + 2) m false
            fun i => BitVec.ofNat 32 (split3 (vElem x f.fa i)).2.2)
    ∧ Completes (.vtip f) .v f.w
      (fun s => VRegs f.w [(f.fa.toNat, id)] [f.fd.toNat] s
        ∧ ∃ b, ((readV f.w [(f.fa.toNat, id)] s).readTip s.cur (f.aux.toNat % 16)).1 = .bytes b
          ∧ (parseTip b).valid = true)
      (fun _ => none)
      (fun got s => match (readV f.w [(f.fa.toNat, id)] s).readTip s.cur (f.aux.toNat % 16) with
        | (.bytes b, s1) => s1.writeV (Claims.vNow got s) f.fd (Claims.act f.w s) f.prf fun i =>
            Claims.rounded f (tipValue (f.rm == 3) (parseTip b) (Claims.num f f.fa (s.ctx s.cur) i))
        | (_, s1) => s1)

/-- 05 R181–R185: the integer, bitwise, shift, compare, select and move words of V. VCMP, VMOV and VBCAST with a sub that
has no meaning are illegal. -/
def Obligations.VectorIntegerWordsWrite : Prop :=
  Claims.Lanes2 .viadd (fun f x i => intElem f.fmt.toNat f.sat (Claims.int f f.fa x i + Claims.int f f.fb x i))
  ∧ Claims.Lanes2 .visub (fun f x i => intElem f.fmt.toNat f.sat (Claims.int f f.fa x i - Claims.int f f.fb x i))
  ∧ Claims.Lanes2 .vimul (fun f x i => intElem f.fmt.toNat f.sat (Claims.int f f.fa x i * Claims.int f f.fb x i))
  ∧ Claims.Bits2 .vand (fun f => f.sub ≠ 2) (· &&& ·) (· &&& ·)
  ∧ (∀ f : FRrr, f.sub = 2 → VWrites (.vand f) f.w [(f.fa.toNat, id), (f.fb.toNat, id)] f.fd f.prf fun x i =>
      vElem x f.fa i &&& ~~~(vElem x f.fb i))
  ∧ Claims.Bits2 .vor (fun _ => True) (· ||| ·) (· ||| ·)
  ∧ Claims.Bits2 .vxor (fun _ => True) (· ^^^ ·) (· ^^^ ·)
  ∧ (∀ f : FRrr, (predForm f = false → VWrites (.vnot f) f.w [(f.fa.toNat, id)] f.fd f.prf fun x i =>
        ~~~(vElem x f.fa i))
      ∧ (predForm f = true → VTests (.vnot f) f.w [] f.fd fun x => ~~~(predOf x.v f.fa.toNat)))
  ∧ Claims.Shifts .vshl (fun a n => a <<< n) ∧ Claims.Shifts .vshr (fun a n => a >>> n)
  ∧ Claims.Shifts .vsra (fun a n => a.sshiftRight n)
  ∧ (∀ f : FRrr, f.sub = 7 → Claims.Illegal (.vcmp f) .v)
  ∧ (∀ f : FRrr, 5 ≤ f.sub.toNat → Claims.Illegal (.vmov f) .v)
  ∧ (∀ f : FRrr, 3 ≤ f.sub.toNat → Claims.Illegal (.vbcast f) .v)
  ∧ (∀ f : FRrr, VTests (.vcmp f) f.w [(f.fa.toNat, id), (f.fb.toNat, id)] f.fd fun x => Claims.laneMask fun i =>
      if f.fmt.toNat ≤ 2 then condF f.sub.toNat (Claims.num f f.fa x i) (Claims.num f f.fb x i)
      else condI f.sub.toNat (Claims.int f f.fa x i) (Claims.int f f.fb x i))
  ∧ (∀ f : FRrr, VWrites (.vsel f) f.w [(f.fa.toNat, id), (f.fb.toNat, id)] f.fd f.prf fun x i =>
      if (predOf x.v f.aux.toNat).getLsbD i then vElem x f.fa i else vElem x f.fb i)
  ∧ (∀ f : FRrr,
      (f.sub = 0 → VWrites (.vmov f) f.w [(f.fa.toNat, id)] f.fd f.prf fun x i => vElem x f.fa i)
      ∧ (f.sub = 1 → VWrites (.vmov f) f.w [] f.fd f.prf fun x i => if (predOf x.v f.fa.toNat).getLsbD i then 1 else 0)
      ∧ (f.sub = 2 → VTests (.vmov f) f.w [(f.fa.toNat, id)] f.fd fun x => Claims.laneMask fun i => vElem x f.fa i != 0)
      ∧ (f.sub = 4 → VTests (.vmov f) f.w [] f.fd fun x => predOf x.v f.fa.toNat))
  ∧ (∀ f : FRrr, VWrites (.vmovIota f) f.w [] f.fd f.prf fun _ i => BitVec.ofNat 32 i)
  ∧ (∀ f : FRrr, VWrites (.vbcast f) f.w [(f.fa.toNat, fun _ => oneLane f.aux.toNat)] f.fd f.prf fun x _ =>
      vElem x f.fa f.aux.toNat)
  ∧ (∀ f : FRrr, VWrites (.vbcastI f) f.w [] f.fd f.prf fun _ _ =>
      ((f.fb ++ f.fc ++ f.aux : BitVec 18)).signExtend 32)
  ∧ ∀ f : FRrr, VWrites (.vbcastH f) f.w [] f.fd f.prf fun _ _ =>
      ((f.fb ++ f.fc ++ f.aux : BitVec 18)).zeroExtend 32 <<< 14

/-- 05 R163, R167, R170, R173, R182: what a register and a predicate write come to. Active lanes take the value, and
their proof flag as asked; every other lane, register and predicate keeps its own; the register is full; with no active
lane nothing changes; p0 always reads all ones. -/
def Obligations.VectorWritesByLane : Prop :=
  (∀ (k : Wd) (phys : Nat) (m : W64) (prf : Bool) (g : Nat → W32) (x : Ctx), phys < 64 →
    let y := writeV k phys m prf g x
    (∀ i, i < 64 → vget (vget y.v.regs phys) i = if m.getLsbD i then g i else vget (vget x.v.regs phys) i)
    ∧ (∀ i, i < 64 → (vget y.v.proof phys).getLsbD i = if m.getLsbD i then prf else (vget x.v.proof phys).getLsbD i)
    ∧ (∀ r, r < 64 → r ≠ phys → vget y.v.regs r = vget x.v.regs r ∧ vget y.v.proof r = vget x.v.proof r
        ∧ vget y.v.fill r = vget x.v.fill r ∧ vget y.v.writer r = vget x.v.writer r)
    ∧ (m = 0 → y = x) ∧ (m ≠ 0 → vget y.v.fill phys = .full ∧ vget y.v.writer phys = BitVec.ofNat 15 k.pc.toNat)
    ∧ y.v.p = x.v.p ∧ y.v.q = x.v.q ∧ y.v.masks = x.v.masks ∧ y.v.rrb = x.v.rrb ∧ y.sreg = x.sreg ∧ y.cr = x.cr
    ∧ y.m = x.m ∧ y.p = x.p)
  ∧ (∀ (code : Nat) (m bits : W64) (x : Ctx), code < 16 →
    let y := writePred code m bits x
    (code = 0 → y = x)
    ∧ (code ≠ 0 → predOf y.v code = (predOf x.v code &&& ~~~m) ||| (bits &&& m))
    ∧ (∀ d, d < 16 → d ≠ code → predOf y.v d = predOf x.v d) ∧ y.v.regs = x.v.regs ∧ y.v.rrb = x.v.rrb
    ∧ predOf y.v 0 = BitVec.allOnes 64)
  ∧ (∀ (rrb : BitVec 5) (j k : Nat), j < 64 → k < 64 → vPhys rrb j = vPhys rrb k → j = k)
  ∧ ∀ (rrb : BitVec 5) (j : Nat), vPhys rrb j < 32 ↔ j < 32

namespace Sys2Proof.Claims

/-- A word of the mask stack: where the depth allows it, the stack becomes `g` of V's state; else 0x02 with the depth in
ADDR (05 R194). -/
def MaskWord (i : FRrr → Instr) (fits : Nat → Prop) (g : FRrr → VState → List W64) : Prop :=
  ∀ f : FRrr,
    Completes (i f) .v f.w (fun s => fits (s.ctx s.cur).v.masks.length) (fun _ => none)
      (fun _ s => s.modCtx s.cur fun y => { y with v := { y.v with masks := g f y.v } })
    ∧ Raises (i f) .v f.w (fun s => ¬fits (s.ctx s.cur).v.masks.length)
      (fun s => faultAt .v (fltAddr 0x02 (s.ctx s.cur).v.masks.length) s) (readV f.w [])

/-- The lanes that active lanes take their value from, of the register where `fb` is false and of the other where it is
true. -/
def sourceLanes (src : Nat → Bool × Nat) (fb : Bool) (m : W64) : W64 :=
  imageOf m fun i => if (src i).1 == fb then some (src i).2 else none

/-- A V memory word's address sources, with the lanes they are read on. -/
def vAddrRegs (f : FMem) (m : VForm) : List (Nat × (W64 → W64)) := (vAddrSrcs f m).map fun r => (r.reg, r.reads)

/-- The state a V load or store acts on, and the checks of its active lanes in ascending order (08 R281, R286). -/
def vLoadAt (f : FMem) (m : VForm) (s : State) : State := readV f.w (vAddrRegs f m) s
def vLoadRefs (f : FMem) (m : VForm) (s : State) : Except Trap (List (Nat × Nat × Ref)) × State :=
  (vLoadAt f m s).vRefs s.cur f m .read (onLanes (act f.w s))
def vStoreRegs (f : FMem) (m : VForm) : List (Nat × (W64 → W64)) :=
  vAddrRegs f m ++ (memGroup f).map fun r => (r % 64, id)
def vStoreAt (f : FMem) (m : VForm) (s : State) : State := readV f.w (vStoreRegs f m) s
def vStoreRefs (f : FMem) (m : VForm) (s : State) : Except Trap (List (Nat × Nat × Ref)) × State :=
  (vStoreAt f m s).vRefs s.cur f m .write (onLanes (act f.w s))

/-- The writer PC of a load's destinations. -/
def vMarked (f : FMem) (w : Wd) (y : Ctx) : Ctx :=
  { y with v := { y.v with writer := (upTo (memRegs f)).foldl (fun q j =>
      vset q (groupReg (vReg y f.fd) j) (BitVec.ofNat 15 w.pc.toNat)) y.v.writer } }

/-- A V load: with the checks passed it is pending, its registers empty; with no active lane it reads and writes nothing
(05 R165; 08 R286–R288). -/
def VLoads (i : FMem → Instr) (m : FMem → VForm) : Prop :=
  ∀ f : FMem, Completes (i f) .v f.w
    (fun s => VRegs f.w (vAddrRegs f (m f)) (memGroup f) s ∧ SendRoom s
      ∧ ∃ rs, (vLoadRefs f (m f) s).1 = .ok rs)
    (fun _ => none)
    (fun got s => match vLoadRefs f (m f) s with
      | (.ok rs, s1) =>
        if rs = [] then s1
        else (s1.modCtx s.cur (vMarked f (vNow got s))).issuePend s.cur
          { eng := .v, reg := vReg (s.ctx s.cur) f.fd, regs := memRegs f, seq := 0, acq := acqScope f,
            poison := none,
            what := .load (rs.map fun r => loadEls r.1 r.2.1 r.2.2.pieces 0).flatten }
      | (.error _, s1) => s1)

/-- A V store: with the checks passed, the bytes of its active lanes enter the send buffer in lane order (08 R287). -/
def VStores (i : FMem → Instr) (m : FMem → VForm) : Prop :=
  ∀ f : FMem, Completes (i f) .v f.w
    (fun s => VRegs f.w (vStoreRegs f (m f)) [] s ∧ SendRoom s
      ∧ ∃ rs, (vStoreRefs f (m f) s).1 = .ok rs)
    (fun _ => none)
    (fun _ s => match vStoreRefs f (m f) s with
      | (.ok rs, s1) =>
        s1.issueStore s.cur .v (relScope f)
          (rs.map fun r => chunksOf r.2.2.pieces (storeBytes (s.ctx s.cur) f r.1)).flatten
      | (.error _, s1) => s1)

/-- The collating loads of a VLCOL's active lanes. -/
def vlcolAt (f : FMem) (s : State) : State := readV f.w [(f.fa.toNat, id), (f.fb.toNat, id)] s
def vlcolStart (f : FMem) (s : State) : ColAll :=
  (vlcolAt f s).startLanes s.cur f ((vlcolAt f s).ctx s.cur) [] (onLanes (act f.w s)) []

/-- The accesses of a VSHIFT.tw (08 R289). -/
def shiftAt (f : FRrr) (s : State) : State :=
  readV f.w [(f.fa.toNat, fun _ => oneLane 0), (f.fb.toNat, fun _ => oneLane 0)] s
def shiftChecked (f : FRrr) (s : State) : Option Trap :=
  (shiftAt f s).towerCheck s.cur (shiftChecks (act f.w s) (vElem (s.ctx s.cur) f.fa 0).toNat
    (vElem (s.ctx s.cur) f.fb 0).toNat f.aux.toNat)

/-- Its sources in the active lanes' own towers, and its destinations aux lanes further on, in ascending order of the active
lane. -/
def shiftSrcs (f : FRrr) (s : State) : List (Nat × Ref) :=
  (shiftAt f s).shiftRefs s.cur (act f.w s) (vElem (s.ctx s.cur) f.fa 0).toNat 0
def shiftDsts (f : FRrr) (s : State) : List (Nat × Ref) :=
  (shiftAt f s).shiftRefs s.cur (act f.w s) (vElem (s.ctx s.cur) f.fb 0).toNat f.aux.toNat

/-- What it reads, and the state its reads leave. -/
def shiftRead (f : FRrr) (s : State) : List (List Byte) × State :=
  (shiftAt f s).readRefs s.cur .v ((shiftAt f s).ctx s.cur).seq ((shiftSrcs f s).map (·.2))

/-- The registers a VSHIFT.tw reads. -/
def shiftRegs (f : FRrr) : List (Nat × (W64 → W64)) :=
  [(f.fa.toNat, fun _ => oneLane 0), (f.fb.toNat, fun _ => oneLane 0)]

end Sys2Proof.Claims

/-- 05 R186–R188, 08 R281, R289: the words of V that cross lanes. An inactive lane may be a source; VRED writes the root of
the tree, inactive lanes standing as the identity, to every active lane; VSHIFT.tw moves 16 bytes from tower to tower, its
reads performed at its issue once nothing keeps them waiting (`mustHold`; the model's choice of log entry 11), or raises what
the first of its checks finds. -/
def Sys2Proof.Claims.CrossLaneWordsComplete : Prop :=
  ∀ f : FRrr,
    Completes (.vperm f) .v f.w
      (fun s => VRegs f.w
        [(f.fa.toNat, looseReads fun m => imageOf m fun i => some ((vElem (s.ctx s.cur) f.fb i).toNat % 64)),
          (f.fb.toNat, id)]
        [f.fd.toNat] s)
      (fun _ => none)
      (fun got s => s.writeV (Claims.vNow got s) f.fd (Claims.act f.w s) f.prf fun i =>
        vElem (s.ctx s.cur) f.fa ((vElem (s.ctx s.cur) f.fb i).toNat % 64))
    ∧ VWrites (.vshiftRot f) f.w
      [(f.fa.toNat, looseReads (Claims.sourceLanes (fun i => (false, (i + 64 - f.aux.toNat) % 64)) false))] f.fd f.prf
      (fun x i => vElem x f.fa ((i + 64 - f.aux.toNat) % 64))
    ∧ VWrites (.vshiftUp f) f.w
      [(f.fa.toNat, looseReads
          (Claims.sourceLanes (fun i => (decide (i < f.aux.toNat), (i + 64 - f.aux.toNat) % 64)) false)),
        (f.fb.toNat, Claims.sourceLanes (fun i => (decide (i < f.aux.toNat), (i + 64 - f.aux.toNat) % 64)) true)]
      f.fd f.prf
      (fun x i => if i < f.aux.toNat then vElem x f.fb (64 + i - f.aux.toNat) else vElem x f.fa (i - f.aux.toNat))
    ∧ VWrites (.vshiftDn f) f.w
      [(f.fa.toNat, looseReads
          (Claims.sourceLanes (fun i => (decide (63 < i + f.aux.toNat), (i + f.aux.toNat) % 64)) false)),
        (f.fb.toNat, Claims.sourceLanes (fun i => (decide (63 < i + f.aux.toNat), (i + f.aux.toNat) % 64)) true)]
      f.fd f.prf
      (fun x i => if i + f.aux.toNat < 64 then vElem x f.fa (i + f.aux.toNat) else vElem x f.fb (i + f.aux.toNat - 64))
    ∧ VWrites (.vred f) f.w [(f.fa.toNat, id)] f.fd false (fun x _ =>
        redResult f (treeRoot (redNode f) 6 (lanes.map fun i =>
          if laneOn (activeMask x.v f.w) i then redLeaf f (vElem x f.fa i) else colIdentity (redOp f))))
    ∧ Completes (.vshiftTw f) .v f.w
      (fun s => VRegs f.w (Claims.shiftRegs f) [] s ∧ Claims.SendRoom s ∧ Claims.shiftChecked f s = none
        ∧ (∀ r ∈ Claims.shiftSrcs f s, (Claims.shiftAt f s).mustHold ((Claims.shiftAt f s).ctx s.cur) .v r.2 = false
            ∧ (Claims.shiftAt f s).refBad r.2 = none))
      (fun _ => none)
      (fun _ s =>
        ((Claims.shiftSrcs f s).foldl (fun u r => u.touchRef s.cur r.2) (Claims.shiftRead f s).2).issueStore s.cur .v
          0 (((Claims.shiftDsts f s).zip (Claims.shiftRead f s).1).map fun p =>
            chunksOf p.1.2.pieces p.2).flatten)
    ∧ ∀ t, t.code ≠ 0x04 → Raises (.vshiftTw f) .v f.w
      (fun s => VRegs f.w (Claims.shiftRegs f) [] s ∧ Claims.shiftChecked f s = some t)
      (Claims.faultAt .v t) (Claims.shiftAt f)

/-- 05 R194: the mask stack's words; a sub outside their values is illegal. -/
def Sys2Proof.Claims.MaskStackWordsComplete : Prop :=
  Claims.MaskWord .vmpush (· < 16) (fun f v => (topMask v &&& predOf v f.fa.toNat) :: v.masks)
  ∧ Claims.MaskWord .vmpushInv (· < 16) (fun f v => (topMask v &&& ~~~(predOf v f.fa.toNat)) :: v.masks)
  ∧ Claims.MaskWord .vminv (· ≠ 0) (fun _ v =>
      ((v.masks.drop 1).headD (BitVec.allOnes 64) &&& ~~~(topMask v)) :: v.masks.drop 1)
  ∧ Claims.MaskWord .vmpop (· ≠ 0) (fun _ v => v.masks.drop 1)
  ∧ ∀ f : FRrr, (2 ≤ f.sub.toNat → Claims.Illegal (.vmpush f) .v ∧ Claims.Illegal (.vmpushInv f) .v)
    ∧ (f.sub ≠ 0 → Claims.Illegal (.vminv f) .v ∧ Claims.Illegal (.vmpop f) .v)

/-- 05 R186–R188, R194; 08 R281, R289: the words of V that cross lanes and those of its mask stack, as the two parts above
say. The model's choices in it are those of log entries 11, 38 and 94. -/
def Obligations.CrossLaneAndMaskWordsComplete : Prop := Claims.CrossLaneWordsComplete ∧ Claims.MaskStackWordsComplete

/-- 08 R286–R288, R293; 05 R165: the memory words of V. The lanes' addresses come from lane 0 with a stride, or from each
lane's own operands. A strided word with no active lane reads no element (`VForm.reads`): the model's choice of log
entry 94. -/
def Obligations.VectorMemoryWordsIssue : Prop :=
  Claims.VLoads .vld (fun f => .strided (2 ^ f.size.toNat)) ∧ Claims.VLoads .vldx (fun _ => .perLane)
  ∧ Claims.VLoads .vtld (fun _ => .strided 0) ∧ Claims.VLoads .vtldx (fun _ => .perLane)
  ∧ Claims.VStores .vst (fun f => .strided (2 ^ f.size.toNat)) ∧ Claims.VStores .vstx (fun _ => .perLane)
  ∧ Claims.VStores .vtst (fun _ => .strided 0)
  ∧ ∀ f : FMem, Completes (.vlcol f) .v f.w
      (fun s => VRegs f.w [(f.fa.toNat, id), (f.fb.toNat, id)] [f.fd.toNat] s
        ∧ ∃ els s1, Claims.vlcolStart f s = .ok els s1)
      (fun _ => none)
      (fun got s => match Claims.vlcolStart f s with
        | .ok els s1 =>
          if els = [] then s1
          else (((s1.modCtx s.cur fun y => { y with v := { y.v with
              writer := vset y.v.writer (vReg (s.ctx s.cur) f.fd) (BitVec.ofNat 15 (Claims.vNow got s).pc.toNat) } }).count
                s.cur 15 els.length).issuePend s.cur
                  ⟨.v, vReg (s.ctx s.cur) f.fd, 1, 0, 0, none, .collate els⟩)
        | _ => s)

/-- 05 R177, R197–R200: VTKSEND pushes an element; VTKRECV writes the value popped, all ones for a bare token, to the
active lanes; VTKRECV.d is armed for them; VFENCE leaves its mark in program order (09 R314); VCRD and VCWR move half a control
register; VEND ends the stream once its writes have landed and its stores are performed. -/
def Obligations.VectorSystemWordsComplete : Prop :=
  ∀ f : FSys,
    Completes (.vtksend f) .v f.w (VRegs f.w [(f.fa.toNat, fun _ => oneLane (f.imm12.toNat % 64))] [])
      (fun s => some (vElem (s.ctx s.cur) f.fa (f.imm12.toNat % 64))) (fun _ s => s)
    ∧ Completes (.vtkrecv f) .v f.w (VRegs f.w [] [f.fd.toNat]) (fun _ => none)
      (fun got s => s.writeV (Claims.vNow got s) f.fd (Claims.act f.w s) false fun _ => match got with
        | some (some v) => v
        | _ => BitVec.allOnes 32)
    ∧ (∀ e, Eng.ofCode (f.imm12.toNat % 8) = some e → Completes (.vtkrecvD f) .v f.w
        (fun s => VRegs f.w [] [f.fd.toNat] s ∧ (s.ctx s.cur).awaiting e .v = false) (fun _ => none)
        (fun got s => (s.modCtx s.cur fun y => if Claims.act f.w s = 0 then y else
          { y with v := { y.v with
            writer := vset y.v.writer (vReg (s.ctx s.cur) f.fd) (BitVec.ofNat 15 (Claims.vNow got s).pc.toNat) }
            }).issuePend s.cur
              ⟨.v, vReg (s.ctx s.cur) f.fd, 1, 0, 0, none, .token e (Claims.act f.w s)⟩))
    ∧ Completes (.vfence f) .v f.w (fun _ => True) (fun _ => none) (fun _ s => Claims.fenced f .v (readV f.w [] s))
    ∧ Completes (.vcrd f) .v f.w (fun s => VRegs f.w [] [f.fd.toNat] s ∧ Claims.CrReady f.cr.toNat s) (fun _ => none)
      (fun got s =>
        let u := readV f.w [] s
        (u.correct s.cur [.creg f.cr.toNat]).writeV (Claims.vNow got s) f.fd (Claims.act f.w s) false fun _ =>
          if f.sub = 0 then (u.crRead s.cur f.cr.toNat).extractLsb' 0 32
          else (u.crRead s.cur f.cr.toNat).extractLsb' 32 32)
    ∧ Completes (.vcwr f) .v f.w
      (fun s => VRegs f.w [(f.fa.toNat, fun _ => oneLane (f.imm12.toNat % 64))] [] s
        ∧ (f.cr = 0x0C0 → Claims.Settled .v s))
      (fun _ => none)
      (fun _ s =>
        let v : W64 := (vElem (s.ctx s.cur) f.fa (f.imm12.toNat % 64)).zeroExtend 64
        (readV f.w [(f.fa.toNat, fun _ => oneLane (f.imm12.toNat % 64))] s).crWrite s.cur f.cr.toNat
          (if f.sub = 0 then 0x00000000FFFFFFFF else 0xFFFFFFFF00000000) (if f.sub = 0 then v else v <<< 32))
    ∧ CompletesThen (.vend f) .v f.w
      (fun s => (∀ p ∈ (s.ctx s.cur).pend, p.eng ≠ .v) ∧ storesDone .v (s.ctx s.cur) = true) (fun _ s => s)
      (fun s t => t.modCtx s.cur fun x => x.modStream .v fun r => { r with st := .done })

namespace Sys2Proof.Claims

/-- The operands of an MMA with their places, and the state their checks leave (06 R223, R224; 13 R407). -/
def mmaPlaces (f : FMma) (s : State) : Option (MmaOps × OpSrc × OpSrc × State) :=
  match mmaOps f ((tokened .m f.w s).ctx s.cur) with
  | .error _ => none
  | .ok o =>
    match (tokened .m f.w s).opRefs s.cur o.a 0 with
    | (.error _, _) => none
    | (.ok p, s1) =>
      match s1.opRefs s.cur o.b 1 with
      | (.error _, _) => none
      | (.ok q, s2) => some (o, p, q, s2)

/-- The charge of an MMA, its streams' advances and its entry in the command window (06 R212, R215, R216). -/
def mmaCharged (f : FMma) (neg : Bool) (o : MmaOps) (c : CoreId) (cost : Nat) (u : State) : State :=
  (u.modCore c fun h => { h with tok := h.tok - cost }).modCtx c fun x =>
    { x with m := { x.m with os := o.after.m.os }.enter (.mma neg f.clr (f.spar == 1) f.fd.toNat o.fa o.fb o.seed o.a o.b) }

/-- An MMA is admitted: its operands resolve to o, p and q with their checks passed, its level, its heat tokens and, for an
operand in memory, room in the send buffer are there, of the reads on SO pages only the last is left, and its operands are
read and its sums made, `bad` telling of an uncorrectable tile (06 R206, R215; 09 R306; 13 R417). -/
def MmaAdmitted (f : FMma) (neg : Bool) (s : State) (o : MmaOps) (p q : OpSrc) (s2 s3 : State) (bad : Bool) : Prop :=
  mmaPlaces f s = some (o, p, q, s2) ∧ mmaLevel o.fa ≤ (s.core s.cur).pwr.level
    ∧ mmaTokens o.fa (f.spar == 1) (s.ctx s.cur).m.red ≤ (s.core s.cur).tok
    ∧ (p.fetches = true ∨ q.fetches = true → SendRoom s)
    ∧ s2.captureNext s.cur 0 (p.accs ++ q.accs) = none
    ∧ s2.doMma s.cur neg f.clr (f.spar == 1) f.fd.toNat o.fa o.fb o.seed p q = .ok () bad s3

/-- The tiles of operand B, two under `.sp24` (06 R214). -/
def tilesOfB (f : FMma) : List Nat := if f.spar = 1 then [f.fb.toNat, f.fb.toNat + 1] else [f.fb.toNat]

/-- The operands of an MMA are tiles which the word may name, of formats that go together, with no uncorrectable word (06
R206, R214, R221, R224). -/
def TileOperands (f : FMma) (x : Ctx) : Prop :=
  f.fa.toNat < 16 ∧ f.fb.toNat < 16 ∧ mmaPair f.fmta.toNat f.fmtb.toNat = true ∧ (f.spar = 1 → f.fb.toNat % 2 = 0)
    ∧ (x.m.red = true → f.fd.toNat < 4) ∧ badRow x f.fa.toNat = none ∧ ∀ t ∈ tilesOfB f, badRow x t = none

/-- The level and the heat tokens an MMA of A's format needs are there (06 R215). -/
def Admits (f : FMma) (fmt : Nat) (s : State) : Prop :=
  mmaLevel fmt ≤ (s.core s.cur).pwr.level ∧ mmaTokens fmt (f.spar == 1) (s.ctx s.cur).m.red ≤ (s.core s.cur).tok

/-- The whole effect of an MMA on tiles: single-bit errors of the tiles corrected, the sums made, the tokens taken, and the
command in the window (06 R206, R215, R216, R224). -/
def tileMma (f : FMma) (neg : Bool) (s : State) : State :=
  let u := ((tokened .m f.w s).correct s.cur (tileSites f.fa.toNat)).correct s.cur ((tilesOfB f).map tileSites).flatten
  let cost := mmaTokens f.fmta.toNat (f.spar == 1) (s.ctx s.cur).m.red
  (u.modCore s.cur fun h => { h with tok := h.tok - cost }).modM s.cur fun m =>
    (m.runMma neg f.clr (if f.spar = 1 then some m.tseed else none) f.fd.toNat f.fmta.toNat f.fmtb.toNat
      [m.tile f.fa.toNat] ((tilesOfB f).map m.tile)).enter
        (.mma neg f.clr (f.spar == 1) f.fd.toNat f.fmta.toNat f.fmtb.toNat m.tseed (.tiles [f.fa.toNat])
          (.tiles (tilesOfB f)))

/-- An operand can be read at once: its tiles hold no uncorrectable word; or none of its accesses waits for an earlier one of
M's stream or meets uncorrectable data, and the send buffer has room (06 R206, R223; 09 R305; 13 R417). -/
def OperandFree (s : State) (c : CoreId) : OpSrc → Prop
  | .tiles ts => ∀ t ∈ ts, badRow (s.ctx c) t = none
  | .mem ts => (s.ctx c).sb.length < 64 ∧ ∀ t ∈ ts, s.mHold c (t.1 ++ t.2) = false
      ∧ ∀ a ∈ t.1 ++ t.2, s.refBadFor (s.ctx c) .m (s.ctx c).seq a.ref = none

/-- MMA or MMAS: it completes on tiles, and on operands of which one or both come from memory; with an uncorrectable tile it
replays; short of tokens it waits, short of level or with an accumulator that RED forbids it faults. -/
def Multiplies (i : FMma → Instr) (neg : Bool) : Prop :=
  ∀ f : FMma,
    Completes (i f) .m f.w (fun s => TileOperands f (s.ctx s.cur) ∧ Admits f f.fmta.toNat s) (fun _ => none)
      (fun _ s => tileMma f neg s)
    ∧ (∀ o p q s2, (i f).wf = true → ∀ s got, TokensTaken .m f.w got (s.ctx s.cur) →
        mmaPlaces f s = some (o, p, q, s2) → Admits f o.fa s → OperandFree s2 s.cur p → OperandFree s2 s.cur q →
        s2.captureNext s.cur 0 (p.accs ++ q.accs) = none →
        ∃ s3, s2.doMma s.cur neg f.clr (f.spar == 1) f.fd.toNat o.fa o.fb o.seed p q = .ok () false s3
          ∧ let u := mmaCharged f neg o s.cur (mmaTokens o.fa (f.spar == 1) (s.ctx s.cur).m.red) s3
            EndsWith (i f) .m f.w got none none u s (RetiresTo .m f.w none u s))
    ∧ (∀ o p q s2 s3, Completes (i f) .m f.w
      (fun s => MmaAdmitted f neg s o p q s2 s3 false) (fun _ => none) (fun _ s =>
        mmaCharged f neg o s.cur (mmaTokens o.fa (f.spar == 1) (s.ctx s.cur).m.red) s3))
    ∧ (∀ o p q s2 s3 s4 b, Completes (i f) .m f.w
      (fun s => MmaAdmitted f neg s o p q s2 s3 true
        ∧ (mmaCharged f neg o s.cur (mmaTokens o.fa (f.spar == 1) (s.ctx s.cur).m.red) s3).replay s.cur f.fd.toNat 3
          = .ok () b s4) (fun _ => none) (fun _ _ => s4))
    ∧ (∀ o p q s2 u, Holds (i f) .m f.w (fun s => mmaPlaces f s = some (o, p, q, s2) ∧ Admits f o.fa s
        ∧ (p.fetches = true ∨ q.fetches = true → SendRoom s)
        ∧ s2.captureNext s.cur 0 (p.accs ++ q.accs) = some (.hold u)) (fun _ => u))
    ∧ WaitsBefore (i f) .m f.w (fun s => ∃ o, mmaOps f ((tokened .m f.w s).ctx s.cur) = .ok o
        ∧ mmaLevel o.fa ≤ (s.core s.cur).pwr.level
        ∧ (s.core s.cur).tok < mmaTokens o.fa (f.spar == 1) (s.ctx s.cur).m.red)
    ∧ Raises (i f) .m f.w (fun s => ∃ o, mmaOps f ((tokened .m f.w s).ctx s.cur) = .ok o
        ∧ (s.core s.cur).pwr.level < mmaLevel o.fa)
      (faultAt .m (flt 0x21)) (tokened .m f.w)
    ∧ Raises (i f) .m f.w (fun s => (s.ctx s.cur).m.red = true ∧ 4 ≤ f.fd.toNat) (faultAt .m (flt 0x02)) (tokened .m f.w)

/-- All 66 tests of an accumulator hold: every row and column of the first 32 × 32 patterns sums to its checksum (06 R207,
R208). -/
def Consistent (a : Acc) : Prop := ∀ k, k < 33 → rowTest a k = 0 ∧ colTest a k = 0

end Sys2Proof.Claims

/-- 06 R215, R223, R224; 13 R407: MMA and MMAS with operands that resolve, at the power level and with the heat tokens of
their format, retire with the sums made, the tokens taken, the streams advanced and the command in the window, on tiles
without a further condition than that no word of them is uncorrectable, on operands in memory where their checks pass and
no access waits; short of tokens they wait with their pop taken, short of level they raise 0x21, and under RED a4–a7 raise
0x02. The model's choices
in it are those of log entries 11, 41 and 44. -/
def Obligations.MatrixMultipliesComplete : Prop :=
  Claims.Multiplies .mma false ∧ Claims.Multiplies .mmas true

/-- 02 R75; 06 R207, R208, R224: what an MMA makes of its accumulator. Each pattern becomes the old one, or 0 under
`.clr`, with the k-groups added in ascending order, each group rounded once; the checksums follow; no other accumulator
changes. The check finds a consistent accumulator clean and restores any one pattern that is wrong. -/
def Obligations.AccumulatorSumsAndChecks : Prop :=
  (∀ (m : MState) (neg clr : Bool) (seed : Option W32) (n fa fb : Nat) (a b : List Tile), n < 8 →
    (m.red = true → n < 4) →
    let y := m.runMma neg clr seed n fa fb a b
    (∀ k, k ∈ m.halves n → ∀ i j, i < 32 → j < 32 → pat (vget y.acc k) i j
      = accumulate neg seed (opElem fa a) (opElem fb b) i j (if clr then 0 else pat (vget m.acc k) i j)
          (upTo (rowElems fa * (if seed.isSome then 2 else 1) / 4)))
    ∧ (∀ k, k ∈ m.halves n → Claims.Consistent (vget m.acc k) → Claims.Consistent (vget y.acc k))
    ∧ (∀ k, k < 8 → k ∉ m.halves n → vget y.acc k = vget m.acc k) ∧ y = { m with acc := y.acc })
  ∧ (∀ (neg : Bool) (a b : Nat → Nat → Ext) (i j g : Nat) (c : W32),
    accumulate neg none a b i j c [g] = rne32 ((((((val32 c).add (groupTerms neg none a b i j g)[0]!).add
      (groupTerms neg none a b i j g)[1]!).add (groupTerms neg none a b i j g)[2]!)).add
        (groupTerms neg none a b i j g)[3]!))
  ∧ (∀ (x : Ctx) (s : State) (c : CoreId) (neg clr sparse : Bool) (n fa fb : Nat) (seed : W32) (ta tb : List Nat),
    s.ctx c = x → x.errs = [] → s.doMma c neg clr sparse n fa fb seed (.tiles ta) (.tiles tb)
      = .ok () false (s.modM c fun m =>
          m.runMma neg clr (if sparse then some seed else none) n fa fb (ta.map x.m.tile) (tb.map x.m.tile)))
  ∧ (∀ a : Acc, Claims.Consistent a → checkAcc a = .clean)
  ∧ ∀ (a : Acc) (i j : Nat) (v : W32), Claims.Consistent a → i < 33 → j < 33 → v ≠ pat a i j →
    checkAcc (vset a (33 * i + j) v) = .fixed a

namespace Sys2Proof.Claims

/-- The accumulator of a word may be named: under RED only a0–a3 (06 R221). -/
def Named (f : FMma) (s : State) : Prop := redBad f (s.ctx s.cur) = false

/-- The accumulator's check passes at once: it, and under RED its shadow which it equals, are clean (06 R208, R221). -/
def AccClean (f : FMma) (x : Ctx) : Prop :=
  checkAcc (vget x.m.acc f.fd.toNat) = .clean ∧ (x.m.red = true →
    checkAcc (vget x.m.acc (f.fd.toNat + 4)) = .clean ∧ vget x.m.acc f.fd.toNat = vget x.m.acc (f.fd.toNat + 4))

/-- The rows of a drain to a stream, and their checks, in a shadow destination on the side that the entry gives the core and
the stream (06 R226; 11 R356, R366). -/
def drainReqs (code count size : Nat) (x : Ctx) : List MReq :=
  (upTo count).map fun r => ⟨(x.os code).rowAddr (x.os code).space.toNat (x.os code).base 0 r, r, count * size, 0, size⟩
def drainRefs (f : FMma) (code count size opnd : Nat) (s : State) : Except Trap (List MAcc) × State :=
  (tokened .m f.w s).mRefs s.cur ((s.ctx s.cur).os code).space.toNat .write false (.drain s.cur code) opnd
    (drainReqs code count size (s.ctx s.cur))

/-- A drain to a stream completes: its accumulator checked, the rows enter the send buffer element by element, the stream
advances one tile, and `.clr` zeroes the accumulator and drops its marker (06 R226, R227). -/
def Drains (i : Instr) (f : FMma) (code count size opnd : Nat) (towers : Bool)
    (rows : MState → List (List Byte) × MState) (form : Prop) : Prop :=
  ∀ as s1 s2 b, Completes i .m f.w
    (fun s => form ∧ Named f s ∧ ((s.ctx s.cur).os code).space ≠ 3
      ∧ (((s.ctx s.cur).os code).space = 2 → towers = true)
      ∧ (∀ q ∈ drainReqs code count size (s.ctx s.cur), q.fits ((s.ctx s.cur).os code).space.toNat = true)
      ∧ drainRefs f code count size opnd s = (.ok as, s1) ∧ SendRoom s
      ∧ s1.settleAcc s.cur f.fd.toNat = .ok () b s2)
    (fun _ => none) (fun _ s =>
      let r := rows (s2.ctx s.cur).m
      ((s2.modM s.cur fun _ => drainClear f r.2).modCtx s.cur (advanceOs code 1)).issueStore s.cur .m 0
        (rowChunks size as r.1))

end Sys2Proof.Claims

/-- 06 R208, R216–R221, R225–R227: MZERO and MTS zero their accumulator, MTS setting its marker; MCHK retires where the
check is clean, repairs one wrong pattern, and without a marker raises 0x14 for more; MDRAIN and MDRAINT store an
accumulator, or write it converted to a tile. The model's choices
in it are those of log entry 42. -/
def Obligations.AccumulatorWordsComplete : Prop :=
  ∀ f : FMma,
    Completes (.mzero f) .m f.w (Claims.Named f) (fun _ => none)
      (fun _ s => s.modM s.cur fun m => (m.zeroAcc f.fd.toNat).enter (.mzero f.fd.toNat))
    ∧ Completes (.mts f) .m f.w (Claims.Named f) (fun _ => none)
      (fun _ s => s.modM s.cur fun m => (m.zeroAcc f.fd.toNat).mark f.fd.toNat)
    ∧ Completes (.mchk f) .m f.w (fun s => Claims.Named f s ∧ Claims.AccClean f (s.ctx s.cur)) (fun _ => none)
      (fun _ s => s)
    ∧ (∀ a, Completes (.mchk f) .m f.w
      (fun s => Claims.Named f s ∧ (s.ctx s.cur).m.red = false
        ∧ checkAcc (vget (s.ctx s.cur).m.acc f.fd.toNat) = .fixed a)
      (fun _ => none) (fun _ s => s.modM s.cur fun m => { m with acc := vset m.acc f.fd.toNat a }))
    ∧ (∀ s1 b, Completes (.mchk f) .m f.w
      (fun s => Claims.Named f s ∧ (tokened .m f.w s).settleAcc s.cur f.fd.toNat = .ok () b s1) (fun _ => none)
      (fun _ _ => s1))
    ∧ Raises (.mchk f) .m f.w
      (fun s => Claims.Named f s ∧ (s.ctx s.cur).m.red = false
        ∧ checkAcc (vget (s.ctx s.cur).m.acc f.fd.toNat) = .bad ∧ vget (s.ctx s.cur).m.replays f.fd.toNat ≠ 2
        ∧ vget (s.ctx s.cur).m.marker f.fd.toNat = none)
      (Claims.faultAt .m (accFault 0x14 f.fd.toNat)) (tokened .m f.w)
    ∧ Claims.Drains (.mdrain f) f f.fa.toNat (if f.fb = 1 then 33 else 32) 4 0 false
      (fun m => (patRows (vget m.acc f.fd.toNat) (if f.fb = 1 then 33 else 32), m)) True
    ∧ Claims.Drains (.mdraint f) f f.fb.toNat 32 (drainBytes f) 1 true (convertAcc f f.fd.toNat) (16 ≤ f.fb.toNat)
    ∧ (∀ s1 b, Completes (.mdraint f) .m f.w
      (fun s => Claims.Named f s ∧ f.fb.toNat < 16 ∧ (tokened .m f.w s).settleAcc s.cur f.fd.toNat = .ok () b s1)
      (fun _ => none) (fun _ s => s1.modCtx s.cur fun x =>
        let r := convertAcc f f.fd.toNat (s1.ctx s.cur).m
        let y := drainTile f.fb.toNat (if drainBytes f = 1 then 32 * f.fa.toNat else 0) r.1 { x with m := r.2 }
        { y with m := drainClear f (y.m.enter (.drain f.fb.toNat)) }))
    ∧ ∀ i ∈ [Instr.mzero f, .mts f, .mchk f, .mdrain f, .mdraint f],
      Raises i .m f.w (fun s => ¬Claims.Named f s) (Claims.faultAt .m (flt 0x02)) (tokened .m f.w)

namespace Sys2Proof.Claims

/-- The stream a tile word names. -/
def tileStream (f : FMem) (s : State) : OStream := (s.ctx s.cur).os f.fa.toNat

/-- The rows and the scales of a tile word (06 R211, R228). -/
def tileRows (f : FMem) (trans : Bool) (s : State) : List MReq :=
  let o := tileStream f s
  if trans = true ∧ ¬o.fmt.toNat ≤ 2 then o.rows f.space.toNat o.base f.disp.toInt 64 32
  else o.rows f.space.toNat o.base f.disp.toInt 32 64
def tileScales (f : FMem) (trans : Bool) (s : State) : List MReq :=
  let o := tileStream f s
  if trans then o.scalesT f.space.toNat o.base f.disp.toInt else o.scales f.space.toNat o.base f.disp.toInt

/-- The stream's fields suit the word: plain geometry, or for a transposed load a format of at most 16 bits, FP4 with
GEO (06 R223, R228). -/
def TileFields (f : FMem) (trans : Bool) (s : State) : Prop :=
  (trans = false → (tileStream f s).geo = false)
  ∧ (trans = true → (tileStream f s).fmt ≠ 0 ∧ (tileStream f s).fmt.toNat ≤ 5
      ∧ ((tileStream f s).fmt = 5 → (tileStream f s).geo = true))
  ∧ ∀ q ∈ tileRows f trans s, q.fits f.space.toNat = true

/-- The checks of its accesses. -/
def tileRefs (f : FMem) (trans : Bool) (use : Use) (s : State) : Except Trap (List MAcc) × State :=
  (tokened .m f.w s).mRefs s.cur f.space.toNat use (f.order != 0) .visible 0 (tileRows f trans s ++ tileScales f trans s)

/-- MTLD or MTLDT: the tile's rows, and scales where the format has them, are those read, those of SO pages one at a time;
the stream advances, and the load enters the command window (06 R212, R216, R228; 09 R306). -/
def TileLoads (i : FMem → Instr) (trans : Bool) : Prop :=
  ∀ (f : FMem) (as : List MAcc) (bs : List (List Byte)) (s1 s2 : State), Completes (i f) .m f.w
    (fun s => TileFields f trans s ∧ tileRefs f trans .read s = (.ok as, s1) ∧ SendRoom s
      ∧ s1.captureNext s.cur (acqScope f) as = none ∧ s1.mHold s.cur as = false
      ∧ s1.mRead s.cur (acqScope f) as = (.ok bs, s2))
    (fun _ => none) (fun _ s =>
      let n := (tileRows f trans s).length
      let rows := if trans then transposed (tileStream f s).fmt.toNat (bs.take n) else bs.take n
      ((s2.modCtx s.cur (writeTile f.fd.toNat (tileOf rows (bs.drop n).flatten) (!(as.drop n).isEmpty))).modCtx s.cur
        (advanceOs f.fa.toNat 1)).modM s.cur fun m =>
          m.enter (.load f.fd.toNat trans (tileStream f s).fmt.toNat f.space.toNat (tileRows f trans s)
            (tileScales f trans s)))
    ∧ ∀ u, Holds (i f) .m f.w (fun s => TileFields f trans s ∧ tileRefs f trans .read s = (.ok as, s1) ∧ SendRoom s
      ∧ s1.captureNext s.cur (acqScope f) as = some (.hold u)) (fun _ => u)

/-- The access of a MOSLD and the descriptor it reads (06 R228, 09 R323). -/
def mosldAddr (f : FMem) (s : State) : Nat :=
  wrap64 (((if f.fa = 0 then (s.ctx s.cur).m.mv.toNat else (tileStream f s).base.toNat : Nat) : Int) + f.disp.toInt)
def mosldRef (f : FMem) (s : State) : (Checked × Option Nat) × State :=
  (tokened .m f.w s).mRef s.cur f.space.toNat .read (f.order != 0) .visible ⟨mosldAddr f s, 0, 32, 0, 1⟩

end Sys2Proof.Claims

/-- 06 R210–R212, R228: MTLD and MTLDT load a tile, MTST stores one, MOSLD loads a stream's fields from its descriptor.
Each needs stream fields that suit it and accesses that pass their checks; with fields that do not, MTLD raises 0x02 and
names operand 0. The model's choices
in it are those of log entries 11, 41, 42 and 45. -/
def Obligations.TileWordsComplete : Prop :=
  Claims.TileLoads .mtld false ∧ Claims.TileLoads .mtldt true
  ∧ (∀ (f : FMem) (as : List MAcc) (s1 : State), Completes (.mtst f) .m f.w
      (fun s => Claims.TileFields f false s ∧ Claims.tileRefs f false .write s = (.ok as, s1)
        ∧ badRow (s.ctx s.cur) f.fd.toNat = none ∧ Claims.SendRoom s)
      (fun _ => none) (fun _ s =>
        ((if (s.ctx s.cur).errs = [] then s1 else s1.correct s.cur (tileSites f.fd.toNat)).modCtx s.cur
          (advanceOs f.fa.toNat 1)).issueStore s.cur .m (relScope f)
            (rowChunks 8 as (tileBytes ((s.ctx s.cur).m.tile f.fd.toNat) (isMx (Claims.tileStream f s).fmt.toNat)))))
  ∧ (∀ (f : FMem) (r : Ref) (b : List Byte) (s1 s2 : State), Completes (.mosld f) .m f.w
      (fun s => Claims.mosldRef f s = ((.ok r, none), s1) ∧ Claims.SendRoom s
        ∧ s1.readBlock s.cur .m (if f.space = 0 then 0 else if f.space = 1 then 4 else 3)
            (if f.space = 0 then s.rootOf s.cur else 0) (Claims.mosldAddr f s) 32 r = (.bytes b, s2))
      (fun _ => none) (fun _ s => s2.modM s.cur fun m =>
        { m with os := vset m.os (f.fd.toNat - 32) (parseStream b) }.enter .other))
  ∧ (∀ f : FMem, Raises (.mtld f) .m f.w (fun s => ¬Claims.TileFields f false s)
      (Claims.faultAt .m { flt 0x02 with opnd := some 0 }) (tokened .m f.w))
  ∧ ∀ f : FMem, Raises (.mtldt f) .m f.w (fun s => ¬Claims.TileFields f true s)
      (Claims.faultAt .m { flt 0x02 with opnd := some 0 }) (tokened .m f.w)

namespace Sys2Proof.Claims

/-- A field of stream j changes and the command enters the window; nothing else of M does. -/
def streamSet (j : Nat) (g : OStream → OStream) (m : MState) : MState :=
  { m with os := vmod m.os (j - 32) g }.enter .other

end Sys2Proof.Claims

/-- 06 R209, R221, R229–R234: MOSSET writes a stream field with an immediate or mv and MOSSET.add adds mv to it; MMODE
switches RED, which starts the accumulators and the window afresh, or writes TSEED; MTKSEND pushes mv or one pattern;
MTKRECV writes mv, all ones for a bare token; MFENCE leaves its mark in program order (09 R314); MEND waits until the
stream's accesses are performed. -/
def Obligations.MatrixSystemWordsComplete : Prop :=
  ∀ f : FSys,
    Completes (.mosset f) .m f.w (fun _ => True) (fun _ => none)
      (fun _ s => s.modM s.cur fun m => Claims.streamSet f.fd.toNat
        (fun o => o.put f.fa.toNat (if f.sub = 0 then fieldImm f else m.mv)) m)
    ∧ Completes (.mossetAdd f) .m f.w (fun _ => True) (fun _ => none)
      (fun _ s => s.modM s.cur fun m => Claims.streamSet f.fd.toNat
        (fun o => if f.fa = 0 then { o with base := o.base + m.mv.signExtend 48 }
          else if f.fa = 4 then { o with rowp := o.rowp + m.mv.truncate 20 }
          else if f.fa = 5 then { o with tilep := o.tilep + m.mv }
          else { o with soff := o.soff + m.mv.truncate 24 }) m)
    ∧ Completes (.mmode f) .m f.w (fun s => (s.ctx s.cur).m.red = f.imm12.getLsbD 0) (fun _ => none) (fun _ s => s)
    ∧ Completes (.mmode f) .m f.w (fun s => (s.ctx s.cur).m.red ≠ f.imm12.getLsbD 0) (fun _ => none)
      (fun _ s => s.modM s.cur fun m =>
        { m with red := f.imm12.getLsbD 0, window := [], acc := Vector.replicate 8 accZero,
                 marker := Vector.replicate 8 none, replays := Vector.replicate 8 0 })
    ∧ Completes (.mmodeSeed f) .m f.w (fun _ => True) (fun _ => none)
      (fun _ s => s.modM s.cur fun m => { m with tseed := m.mv })
    ∧ Completes (.mtksend f) .m f.w (fun _ => True)
      (fun s => some (if f.sub = 0 then (s.ctx s.cur).m.mv
        else pat (vget (s.ctx s.cur).m.acc f.fa.toNat) (f.imm12.toNat / 64 % 64) (f.imm12.toNat % 64)))
      (fun _ s => s)
    ∧ Completes (.mtkrecv f) .m f.w (fun _ => True) (fun _ => none)
      (fun got s => s.modM s.cur fun m => { m with mv := match got with
        | some (some v) => v
        | _ => BitVec.allOnes 32 })
    ∧ Completes (.mfence f) .m f.w (fun _ => True) (fun _ => none) (fun _ s => Claims.fenced f .m (tokened .m f.w s))
    ∧ CompletesThen (.mend f) .m f.w (fun s => drained .m (s.ctx s.cur) = true) (fun _ s => s)
      (fun s t => t.modCtx s.cur fun x => x.modStream .m fun r => { r with st := .done })
    ∧ WaitsBefore (.mend f) .m f.w (fun s => drained .m (s.ctx s.cur) = false)

namespace Sys2Proof.Claims

/-- The shape entry a subtree word names, with no uncorrectable code (13 R410). -/
def shapeOf (f : FSpe) (s : State) : BitVec 128 := vget (s.ctx s.cur).p.shapes f.shape.toNat
def ShapeGood (f : FSpe) (s : State) : Prop := (Site.shape f.shape.toNat, true) ∉ (s.ctx s.cur).errs

/-- Bank words may be read (07 R239). -/
def BanksGood (as : List Nat) (s : State) : Prop := ∀ a ∈ as, (Site.bank (a % 8192), true) ∉ (s.ctx s.cur).errs

/-- A subtree word of P with the phases of its bank accesses and its effect, given the shape entry (07 R245, R250; 13
R407). -/
def Subtrees (i : FSpe → Instr) (phases : FSpe → BitVec 128 → List BankPhase)
    (effect : FSpe → BitVec 128 → Ctx → Ctx) : Prop :=
  ∀ f : FSpe,
    Completes (i f) .p f.w
      (fun s => ShapeGood f s ∧ shapeOffence (shapeOf f s) = none ∧ 3 ≤ (s.core s.cur).pwr.level
        ∧ ((s.ctx s.cur).p.strict = true → excess (phases f (shapeOf f s)) = 0)
        ∧ BanksGood ((phases f (shapeOf f s)).map (·.reads)).flatten s)
      (fun _ => none) (fun _ s => s.modCtx s.cur (effect f (shapeOf f s)))
    ∧ (∀ d, Raises (i f) .p f.w (fun s => ShapeGood f s ∧ shapeOffence (shapeOf f s) = some d)
        (faultAt .p { fltAddr 0x51 d with reg := some f.shape.toNat }) (tokened .p f.w))
    ∧ Raises (i f) .p f.w
        (fun s => ShapeGood f s ∧ shapeOffence (shapeOf f s) = none ∧ (s.core s.cur).pwr.level < 3)
        (faultAt .p (flt 0x21)) (tokened .p f.w)
    ∧ Raises (i f) .p f.w
        (fun s => ShapeGood f s ∧ shapeOffence (shapeOf f s) = none ∧ 3 ≤ (s.core s.cur).pwr.level
          ∧ (s.ctx s.cur).p.strict = true ∧ 0 < excess (phases f (shapeOf f s)))
        (fun s => faultAt .p { fltAddr 0x50 (excess (phases f (shapeOf f s))) with
          reg := some (excessBank (phases f (shapeOf f s))) } s) (tokened .p f.w)

/-- The word of a leaf, the weights of a node, and the formats, of an upward evaluation (07 R244, R251). -/
def upLeaf (f : FSpe) (e : BitVec 128) (x : Ctx) (j : Nat) : W32 :=
  leafWord x.p.mode (bankAt x (16 * f.basel.toNat + leafOff e j))
def upWeight (f : FSpe) (x : Ctx) (n : Nat) : W32 := leafWord x.p.mode (bankAt x (16 * f.basew.toNat + n))

/-- The value of a present node from those of its children. -/
def upValue (f : FSpe) (mx : Bool) (e : BitVec 128) (x : Ctx) (v : Nat → W32) (n : Nat) : W32 :=
  let spf := spfMode x.p
  let a := nodeVal spf (v (2 * n + 1))
  let b := nodeVal spf (v (2 * n + 2))
  let l := (nodeVal spf (upWeight f x n)).mul a
  let r := (nodeVal spf (upWeight f x (16 + n))).mul b
  (nodeRound spf (if isProd e n then a.mul b else if mx then l.max r else l.add r)).1

end Sys2Proof.Claims

/-- 07 R243, R245, R250–R253; 13 R407: PUP, PMAXUP and PDN complete with a legal shape, at level 3, with no excess under
STRICT and with good bank words; else they raise 0x51, 0x21 or 0x50. The model's choices
in it are those of log entry 47. -/
def Obligations.SubtreeWordsComplete : Prop :=
  Claims.Subtrees .pup (fun f => upPhases f false) (fun f => upEffect f false false)
  ∧ Claims.Subtrees .pmaxup (fun f => upPhases f (flag1 f)) (fun f => upEffect f true (flag1 f))
  ∧ Claims.Subtrees .pdn downPhases downEffect

/-- 07 R251–R253: the values of an upward evaluation: a used leaf reads its bank word, a present node is formed from its
children and rounded once, an absent one passes its left child on. Those of the downward pass: the derivative of the root
is the saved root's, and each present node hands its own on, times the sibling of a product or the weight of a sum. The model's choices
in it are those of log entry 48. -/
def Obligations.SubtreeValues : Prop :=
  ∀ (f : FSpe) (mx : Bool) (e : BitVec 128) (x : Ctx),
    let u := evalUp f mx e x
    let v := fun c => vget u.val c
    (∀ j, j < 16 → used e (15 + j) = true → v (15 + j) = Claims.upLeaf f e x j)
    ∧ (∀ n, n < 15 → used e n = true → present e n = true → v n = Claims.upValue f mx e x v n)
    ∧ (∀ n, n < 15 → used e n = true → present e n = false → v n = v (2 * n + 1))
    ∧ (∀ c, c < 31 → used e c = false → v c = 0)
    ∧ let y := evalDown f e x
      let d := fun c => vget y.d c
      let spf := spfMode x.p
      let sv := savedAt x (16 * f.baseo.toNat)
      d 0 = nodeWord x.p.mode (bankAt x (16 * f.baseo.toNat + 15))
      ∧ ∀ n, n < 15 → used e n = true →
        (present e n = false → d (2 * n + 1) = d n)
        ∧ (present e n = true →
          d (2 * n + 1) = (nodeRound spf ((nodeVal spf (d n)).mul
            (nodeVal spf (if isProd e n then sv (2 * n + 2) else Claims.upWeight f x n)))).1
          ∧ d (2 * n + 2) = (nodeRound spf ((nodeVal spf (d n)).mul
            (nodeVal spf (if isProd e n then sv (2 * n + 1) else Claims.upWeight f x (16 + n))))).1)

namespace Sys2Proof.Claims

/-- A run's words, and their addresses. -/
def runAt (f : FSpe) : List Nat := (upTo (f.shape.toNat + 1)).map (16 * f.basel.toNat + ·)

/-- The address, the words and the bank of a transfer (08 R290). -/
def pAddr (f : FMem) (s : State) : Nat := ((s.ctx s.cur).p.pv.zeroExtend 64 + f.disp.signExtend 64 : W64).toNat
def pWordsOf (f : FMem) : Nat := if f.size = 5 then 16 else 2 ^ (f.size.toNat - 2)
def pBank (f : FMem) : Nat := f.fd.toNat * 128 + f.fb.toNat * 2 + f.fa.toNat % 2

/-- A load of n words into P: its place checks, nothing of the stream holds it; `effect` is given its bytes and which of
its words are uncorrectable. -/
def PLoads (i : Instr) (f : FMem) (n : Nat) (effect : List Byte → List Nat → Ctx → Ctx) : Prop :=
  (∀ r, Completes i .p f.w
    (fun s => xferRef s.cur (pAddr f s) (4 * n) = .ok r ∧ (tokened .p f.w s).mustHold (s.ctx s.cur) .p r = false
      ∧ SendRoom s)
    (fun _ => none)
    (fun _ s =>
      let u := tokened .p f.w s
      let q := u.readPieces s.cur .p (s.ctx s.cur).seq (acqScope f) (r.pieces.map fun p => cutPiece p 4).flatten
      (q.2.touchRef s.cur r).modCtx s.cur (effect q.1 ((upTo n).filter (u.badWord s.cur (pAddr f s))))))
  ∧ (∀ r, WaitsBefore i .p f.w
      (fun s => xferRef s.cur (pAddr f s) (4 * n) = .ok r
        ∧ ((tokened .p f.w s).mustHold (s.ctx s.cur) .p r = true ∨ ¬SendRoom s)))
  ∧ ∀ code, Raises i .p f.w (fun s => xferRef s.cur (pAddr f s) (4 * n) = .bad code)
      (fun s => faultAt .p (accessFault code (pAddr f s) none 0) s) (tokened .p f.w)

end Sys2Proof.Claims

/-- 07 R249, R254–R262; 08 R290: the other words of P. PNORM shifts the exponents of a run and 0x02 stops it outside SPF; PZERO
zeroes a run; PLD and PST move words between scratchpad and banks, PLD.shape loads a shape entry; PMODE sets format and
STRICT; PTKSEND pushes pv or a bank word, PTKRECV writes one; PFENCE leaves its mark in program order (09 R314), PEND waits until
the stream's accesses are performed. The model's choices in it are those of log entries 11 (the reads of PLD and PLD.shape,
made at issue, and what they wait for), 91 (what those reads see) and 97 (the tokens of PEND). -/
def Obligations.SubtreeRunsAndTransfersComplete : Prop :=
  (∀ f : FSpe,
    Completes (.pnorm f) .p f.w
      (fun s => (s.ctx s.cur).p.mode = 2 ∧ (flag0 f = true → Claims.CrReady 0x091 s) ∧ Claims.BanksGood (Claims.runAt f) s)
      (fun _ => none) (fun _ s => s.modCtx s.cur (normEffect f))
    ∧ Raises (.pnorm f) .p f.w (fun s => (s.ctx s.cur).p.mode ≠ 2) (Claims.faultAt .p (flt 0x02)) (tokened .p f.w)
    ∧ Completes (.pzero f) .p f.w (fun _ => True) (fun _ => none)
      (fun _ s => s.modCtx s.cur (setBanks ((upTo (f.shape.toNat + 1)).map fun j => (16 * f.baseo.toNat + j, (0 : W32))))))
  ∧ (∀ f : FMem,
    Claims.PLoads (.pld f) f (Claims.pWordsOf f) (fun bs bad => loadBanks (Claims.pBank f) bs bad (Claims.pWordsOf f))
    ∧ Claims.PLoads (.pldShape f) f 4 (fun bs bad x =>
        { x with p := { x.p with shapes := vset x.p.shapes f.fd.toNat (BitVec.ofNat 128 (leNat bs)) },
                 errs := (if bad = [] then [] else [(Site.shape f.fd.toNat, true)])
                   ++ x.errs.filter fun q => q.1 != .shape f.fd.toNat })
    ∧ ∀ r, Completes (.pst f) .p f.w
      (fun s => xferRef s.cur (Claims.pAddr f s) (4 * Claims.pWordsOf f) = .ok r ∧ Claims.SendRoom s
        ∧ Claims.BanksGood ((upTo (Claims.pWordsOf f)).map (Claims.pBank f + ·)) s)
      (fun _ => none)
      (fun _ s =>
        let u := tokened .p f.w s
        (if (s.ctx s.cur).errs = [] then u else
          u.correct s.cur ((upTo (Claims.pWordsOf f)).map fun m => .bank ((Claims.pBank f + m) % 8192))).issueStore s.cur .p
            (relScope f) ((upTo (Claims.pWordsOf f)).map fun m =>
              ⟨.phys (spAddrKey s.cur (Claims.pAddr f s + 4 * m)),
                leBytes 4 (bankAt (s.ctx s.cur) (Claims.pBank f + m)).toNat, 5, false⟩)))
  ∧ ∀ f : FSys,
    Completes (.pmode f) .p f.w (fun _ => True) (fun _ => none)
      (fun _ s => s.modCtx s.cur fun x =>
        { x with p := { x.p with mode := BitVec.ofNat 2 (f.imm12.toNat % 4), strict := f.imm12.getLsbD 2 } })
    ∧ (f.sub ≠ 0 ∨ f.imm12.toNat % 4 = 3 → Claims.Illegal (.pmode f) .p)
    ∧ (f.sub = 0 → Completes (.ptksend f) .p f.w (fun _ => True) (fun s => some (s.ctx s.cur).p.pv) fun _ s => s)
    ∧ (f.sub = 1 → Completes (.ptksend f) .p f.w (Claims.BanksGood [tokenBank f])
        (fun s => some (bankAt (s.ctx s.cur) (tokenBank f))) fun _ s => s)
    ∧ Completes (.ptkrecv f) .p f.w (fun _ => True) (fun _ => none)
      (fun got s =>
        let v : W32 := match got with
          | some (some v) => v
          | _ => BitVec.allOnes 32
        s.modCtx s.cur fun x => if f.sub = 0 then { x with p := { x.p with pv := v } } else setBank (tokenBank f) v x)
    ∧ Completes (.pfence f) .p f.w (fun _ => True) (fun _ => none) (fun _ s => Claims.fenced f .p (tokened .p f.w s))
    ∧ CompletesThen (.pend f) .p f.w (fun s => drained .p (s.ctx s.cur) = true) (fun _ s => s)
      (fun s t => t.modCtx s.cur fun x => x.modStream .p fun r => { r with st := .done })
    ∧ WaitsBefore (.pend f) .p f.w (fun s => drained .p (s.ctx s.cur) = false)

namespace Sys2Proof.Claims

/-- The descriptor offset of a command word: dsc, plus what the pop gives under ix, all ones for a bare token (03 R102). -/
def cOff (f : FCpy) (s : State) : Nat :=
  f.dsc.toNat + if f.ix then
    match popped .c f.w (s.ctx s.cur) with
    | some (some (some v)) => v.toNat
    | _ => 2 ^ 32 - 1
  else 0

/-- The descriptor read, and in range (10 R343 steps 1–3, R344). -/
def cDesc (f : FCpy) (s : State) : BlockRead × State := (tokened .c f.w s).ownFresh s.cur .c (cOff f s) 32
def DescGood (f : FCpy) (op : CmdOp) (s : State) (d : List Byte) (s1 : State) : Prop :=
  snapOf .c s = [] ∧ cOff f s % 32 = 0 ∧ cOff f s + 32 ≤ 2 ^ 20 ∧ cDesc f s = (.bytes d, s1) ∧ fieldBad op d = none
    ∧ overlaps s.cur op d f.unit.toNat = false

/-- A command enters queue u: it stands last there with nothing performed, its tag's OUT rises, DONE starting anew from
an OUT of 0, and C has issued it from then on (10 R343 step 6; 09 R317, R319). -/
def commandEntered (f : FCpy) (op : CmdOp) (d : List Byte) (pages : List TlbEnt) (u : CopyUnit) (ms : List (Nat × Nat))
    (sw : Bool) (c : CoreId) (s2 : State) : State :=
  let new : Cmd :=
    { core := c, op := op, tag := f.tag.toNat, desc := d, col := f.unit.toNat, root := s2.rootOf c, pages := pages,
      unit := 0, seq := (s2.ctx c).cseq, fences := (s2.ctx c).cfences, members := ms, tries := 0, inSwitch := sw,
      chunk := [], buf := [], wrote := false, view := ((s2.ctx c).stream .c).view, seen := ⟨0, [], []⟩, observed := [],
      failed := false, ahead := [], id := s2.dev.issues }
  (((s2.modCluster (clusterOf c) fun q => q.setCmds u (q.cmds u ++ [new])).modCtx c fun x =>
    let t := vget x.tags f.tag.toNat
    { x with cseq := x.cseq + 1,
             tags := vset x.tags f.tag.toNat { t with out := t.out + 1, done := if t.out = 0 then 0 else t.done } }).modDev
    fun d => { d with issues := d.issues + 1 }).modCtx c fun x => x.modStream .c fun r =>
      { r with view := { r.view with issued := s2.dev.issues :: r.view.issued } }

/-- A command word that has read and checked its descriptor and waits for a slot keeps what it read (10 R343, 09 R323). -/
def slotAwaited (d : List Byte) (ms : List (Nat × Nat)) (pages : List TlbEnt) (c : CoreId) (u : State) : State :=
  u.modCtx c fun x => x.modStream .c fun r =>
    { r with snap := .block d :: pages.map Snap.page ++ ms.map fun m => Snap.member m.1 m.2 }

/-- A command word with a descriptor in the own scratchpad: it enters a queue with a free slot, or waits for one with its
snapshot, which it enters with once there is one, whatever its descriptor holds by then; a range that fails its check
faults. -/
def Commands (i : FCpy → Instr) (op : CmdOp) : Prop :=
  ∀ f : FCpy,
    (∀ d pages u s1 s2, Completes (i f) .c f.w
      (fun s => DescGood f op s d s1 ∧ s1.checkCmd s.cur (s1.rootOf s.cur) op d f.unit.toNat = .ok pages s2
        ∧ (s2.cluster (clusterOf s.cur)).pickQueue op f.unit.toNat = some u)
      (fun _ => none) (fun _ s => commandEntered f op d pages u [] false s.cur s2))
    ∧ (∀ d pages s1 s2, Holds (i f) .c f.w
      (fun s => DescGood f op s d s1 ∧ s1.checkCmd s.cur (s1.rootOf s.cur) op d f.unit.toNat = .ok pages s2
        ∧ (s2.cluster (clusterOf s.cur)).pickQueue op f.unit.toNat = none)
      fun s => slotAwaited d [] pages s.cur s2)
    ∧ (∀ d pages u, Completes (i f) .c f.w
      (fun s => snapOf .c s = .block d :: pages.map Snap.page
        ∧ (s.cluster (clusterOf s.cur)).pickQueue op f.unit.toNat = some u)
      (fun _ => none) (fun _ s => commandEntered f op d pages u [] false s.cur (tokened .c f.w s)))
    ∧ (∀ d pages, Holds (i f) .c f.w
      (fun s => snapOf .c s = .block d :: pages.map Snap.page
        ∧ (s.cluster (clusterOf s.cur)).pickQueue op f.unit.toNat = none)
      fun s => slotAwaited d [] pages s.cur (tokened .c f.w s))
    ∧ ∀ d t s1 s2, Raises (i f) .c f.w (fun s => DescGood f op s d s1
        ∧ s1.checkCmd s.cur (s1.rootOf s.cur) op d f.unit.toNat = .bad t s2 ∧ Mapped t.code s) (faultAt .c t) fun _ => s2

/-- What every command word checks of its descriptor first: its range, its alignment, its fields (08 R281, 10 R343). -/
def DescChecks (i : FCpy → Instr) (op : CmdOp) : Prop :=
  ∀ f : FCpy,
    Raises (i f) .c f.w (fun s => snapOf .c s = [] ∧ 2 ^ 20 < cOff f s + 32)
      (fun s => faultAt .c (fltAddr 0x05 (cOff f s)) s) (tokened .c f.w)
    ∧ Raises (i f) .c f.w (fun s => snapOf .c s = [] ∧ cOff f s + 32 ≤ 2 ^ 20 ∧ cOff f s % 32 ≠ 0)
      (fun s => faultAt .c (fltAddr 0x06 (cOff f s)) s) (tokened .c f.w)
    ∧ ∀ d o s1, Raises (i f) .c f.w
      (fun s => snapOf .c s = [] ∧ cOff f s % 32 = 0 ∧ cOff f s + 32 ≤ 2 ^ 20 ∧ cDesc f s = (.bytes d, s1)
        ∧ fieldBad op d = some o)
      (fun s => faultAt .c { fltAddr 0x02 (cOff f s) with reg := some o } s) fun _ => s1

end Sys2Proof.Claims

/-- 10 R343, R344, R346, R348; 03 R102: the command words. With a legal descriptor whose ranges pass their checks, the
command enters a queue with a free slot and its tag is counted; without a slot it waits with what it has read and checked;
a collective reads its group first. A descriptor that is misaligned, beyond the scratchpad or out of range raises 0x06, 0x05 or 0x02. The model's choices
in it are those of log entries 49 and 92. -/
def Obligations.CopyCommandsEnterTheirQueue : Prop :=
  Claims.Commands .cpy .cpy ∧ Claims.Commands .cpy2d .cpy2d ∧ Claims.Commands .cpys .cpys
  ∧ Claims.Commands .cpytw .cpytw ∧ Claims.Commands .cpyex .cpyex ∧ Claims.Commands .cpybc .cpybc
  ∧ (∀ (f : FCpy) d g ms pages u s1 s2 s3, Completes (.ccoll f) .c f.w
      (fun s => Claims.DescGood f .ccoll s d s1 ∧ s1.readCollective s.cur d = .ok g ms s2
        ∧ s2.inPublished (blockNat d 8 8) (4 * blockNat d 0x10 4) = true ∧ s2.collSource d ms = true
        ∧ s2.checkCmd s.cur (s2.rootOf s.cur) .ccoll d f.unit.toNat = .ok pages s3
        ∧ (s3.cluster (clusterOf s.cur)).pickQueue .ccoll f.unit.toNat = some u)
      (fun _ => none) (fun _ s => Claims.commandEntered f .ccoll d pages u ms (s3.switched d) s.cur s3))
  ∧ Claims.DescChecks .cpy .cpy ∧ Claims.DescChecks .cpy2d .cpy2d ∧ Claims.DescChecks .cpys .cpys
  ∧ Claims.DescChecks .cpytw .cpytw ∧ Claims.DescChecks .cpyex .cpyex ∧ Claims.DescChecks .cpybc .cpybc
  ∧ Claims.DescChecks .ccoll .ccoll

namespace Sys2Proof.Claims

/-- The tags a wait names are all idle; and hold no error (10 R349). -/
def Idle (tags : List Nat) (x : Ctx) : Prop := ∀ t ∈ tags, (vget x.tags t).out = 0
def NoErrors (tags : List Nat) (x : Ctx) : Prop := ∀ t ∈ tags, (vget x.tags t).err = none

/-- The lowest error of a wait: tag t holds p, and no earlier one does. -/
def FirstError (tags : List Nat) (x : Ctx) (t : Nat) (p : Poison) : Prop :=
  ∃ before after, tags = before ++ t :: after ∧ NoErrors before x ∧ (vget x.tags t).err = some p

/-- A word of C that waits for tags, and raises and clears the error of the lowest that holds one. -/
def WaitsForTags (i : Instr) (w : Common) (tags : List Nat) : Prop :=
  WaitsBefore i .c w (fun s => ¬Idle tags (s.ctx s.cur))
  ∧ ∀ t p, Raises i .c w (fun s => Idle tags (s.ctx s.cur) ∧ FirstError tags (s.ctx s.cur) t p)
      (faultAt .c { fltAddr p.code.toNat p.addr.toNat with
        reg := some t, lane := if p.code = 0x12 then some p.lane.toNat else none })
      (fun s => (tokened .c w s).modCtx s.cur fun x =>
        { x with tags := vset x.tags t { vget x.tags t with err := none } })

end Sys2Proof.Claims

/-- 10 R349, 09 R309, R315: CWAIT and CWAIT.all wait until their tags' OUT is 0 and raise the lowest error; CTKSEND pushes
a tag's error, OUT and DONE, CTKSEND.i its immediate; CTKRECV takes a token; CFENCE, at core scope and above, leaves its
kind and scope for the commands issued after it; CEND waits for every tag and ends the stream. The model's choices
in it are those of log entry 83. -/
def Obligations.CopyWaitAndSystemWordsComplete : Prop :=
  (∀ f : FCpy,
    Completes (.cwait f) .c f.w
      (fun s => Claims.Idle [f.tag.toNat] (s.ctx s.cur) ∧ Claims.NoErrors [f.tag.toNat] (s.ctx s.cur)) (fun _ => none)
      (fun _ s => s)
    ∧ Completes (.cwaitAll f) .c f.w
      (fun s => Claims.Idle (List.range 64) (s.ctx s.cur) ∧ Claims.NoErrors (List.range 64) (s.ctx s.cur)) (fun _ => none)
      (fun _ s => s)
    ∧ Claims.WaitsForTags (.cwait f) f.w [f.tag.toNat] ∧ Claims.WaitsForTags (.cwaitAll f) f.w (List.range 64))
  ∧ ∀ f : FSys,
    Completes (.ctksend f) .c f.w (fun _ => True)
      (fun s =>
        let t := vget (s.ctx s.cur).tags (f.imm12.toNat % 64)
        some (BitVec.ofNat 32 (((t.err.map fun p => p.code.toNat).getD 0) * 2 ^ 24 + t.out.toNat * 2 ^ 16 + t.done.toNat)))
      (fun _ s => s)
    ∧ Completes (.ctksendI f) .c f.w (fun _ => True) (fun _ => some (f.imm12.zeroExtend 32)) (fun _ s => s)
    ∧ Completes (.ctkrecv f) .c f.w (fun _ => True) (fun _ => none) (fun _ s => s)
    ∧ Completes (.cfence f) .c f.w (fun _ => True) (fun _ => none)
      (fun _ s => s.modCtx s.cur fun x =>
        let scope := f.imm12.toNat % 8
        if scope = 0 then x
        else { x with cfences := ⟨x.cseq, f.sub.toNat, scope⟩ ::
                 x.cfences.filter fun m => !(m.kind == f.sub.toNat && m.scope == scope) })
    ∧ CompletesThen (.cend f) .c f.w
      (fun s => Claims.Idle (List.range 64) (s.ctx s.cur) ∧ Claims.NoErrors (List.range 64) (s.ctx s.cur)) (fun _ s => s)
      (fun s t => t.modCtx s.cur fun x => x.modStream .c fun r => { r with st := .done })
    ∧ Claims.WaitsForTags (.cend f) f.w (List.range 64)

namespace Sys2Proof.Claims

/-- The write of its unit that a command performs next: the only one, or one the device chooses; and the state after the
choice (09 R317). -/
def nextWrite (s : State) (d : Cmd) : Nat × State :=
  if d.buf.length ≤ 1 then (0, s) else ((s.drawNat).1 % d.buf.length, (s.drawNat).2)

/-- Command k of a queue is d, and may perform its next access: those before it have started, its fences are passed, and it
does not wait for a remapping step or a sweep (10 R344, 11 R365, 08 R275; 09 R315). -/
def MayMove (s : State) (cl : ClusterId) (u : CopyUnit) (k : Nat) (d : Cmd) : Prop :=
  k < 16 ∧ ((s.cluster cl).cmds u)[k]? = some d ∧ (s.cluster cl).mayRun u k d (!d.buf.isEmpty) = true
    ∧ s.cmdStalled d (nextWrite s d).1 = false

/-- Command k of a queue becomes d. -/
def commandSet (cl : ClusterId) (u : CopyUnit) (k : Nat) (d : Cmd) (s : State) : State :=
  s.modCluster cl fun q => q.setCmds u ((q.cmds u).set k d)

/-- A command ended with an error, recorded in its tag (10 R346). -/
def commandFailed (cl : ClusterId) (u : CopyUnit) (k : Nat) (d : Cmd) (p : Poison) (s : State) : State :=
  (commandSet cl u k { d with failed := true, buf := [], ahead := [] } s).modCtx d.core fun x =>
    { x with tags := vset x.tags d.tag { vget x.tags d.tag with err := some p } }

/-- The reads of a unit or of a chunk: uncorrectable data end the command with their code; else a unit's source is read as
the command sees it, which is memory as it stands where no byte of it was superseded since, of several pieces on SO pages one
at a time, and joined with what was read ahead; CPYS takes its pattern, a collective forms its chunk; the writes wait in the
command. No byte of memory changes. -/
def UnitReads (s : State) (cl : ClusterId) (u : CopyUnit) (k : Nat) (d : Cmd) : Prop :=
  let m := d.move d.unit
  let ps := (s.cmdRef d m.src m.n false).pieces
  let todo := s.cmdTodo d d.unit
  let src : Ref := ⟨todo.map (·.2)⟩
  let v := s.cmdView (s.cluster cl) d
  (d.op ≠ .cpys → d.op ≠ .ccoll →
    (s.refBad src = none → (todo.filter (·.2.so)).length ≤ 1 →
      ∃ bs d1 s1, s.cmdRead d v src.pieces = ((bs, d1), s1) ∧ s1.mem = s.mem
        ∧ d1 = { d with seen := d1.seen, observed := d1.observed }
        ∧ ((∀ p ∈ src.pieces, s.stale (s.spanOf p) (v.bound (s.spanOf p)) = false) →
            bs = (src.pieces.map fun p => readCells s.mem (s.keyOf p.loc) p.n).flatten)
        ∧ exec (.copyUnit cl u k) s
          = .next (commandSet cl u k { d1 with
              buf := s1.unitChunks d m.dsts (joinPieces d d.unit ((upTo ps.length).zip ps) bs),
              ahead := d.ahead.filter fun a => a.1 != d.unit } (s1.touchRef d.core src)))
    ∧ (∀ q p rest, s.refBad src = none → todo.filter (·.2.so) = q :: p :: rest →
        exec (.copyUnit cl u k) s = .next (s.readAhead cl u k d.unit q d))
    ∧ ∀ code, s.refBad src = some code → exec (.copyUnit cl u k) s
        = .next (commandFailed cl u k d ⟨BitVec.ofNat 8 code, BitVec.ofNat 48 m.src.value, BitVec.ofNat 6 m.src.lane⟩ s))
  ∧ (d.op = .cpys → ∃ bs, bs.length = m.n / 4 * 4
      ∧ (∀ i, i < bs.length → bs.getD i 0 = BitVec.ofNat 8 (blockNat d.desc 0 4 / 2 ^ (8 * (i % 4))))
      ∧ exec (.copyUnit cl u k) s = .next (commandSet cl u k { d with buf := s.unitChunks d m.dsts bs } s))
  ∧ (d.op = .ccoll →
      let put (bs : List Byte) (d1 : Cmd) (s1 : State) : State :=
        commandSet cl u k { d1 with
          buf := s1.unitChunks d [.mem 0 (blockNat d.desc 8 8 + 64 * d.unit)] (bs.take (min 64 bs.length)),
          chunk := bs.drop (min 64 bs.length) } s1
      (d.chunk ≠ [] → exec (.copyUnit cl u k) s = .next (put d.chunk d s))
      ∧ (d.chunk = [] → s.chunkBad d d.unit = none →
          let r := s.collElems d v (d.chunkElems d.unit)
          exec (.copyUnit cl u k) s = .next (put r.1.1 { r.1.2 with tries := 0 } r.2))
      ∧ ∀ code off, d.chunk = [] → s.chunkBad d d.unit = some (code, off) →
          exec (.copyUnit cl u k) s
            = .next (commandFailed cl u k d ⟨BitVec.ofNat 8 code, BitVec.ofNat 48 off, 0⟩ s))

/-- One write of a unit: its bytes stand at its place and no other byte of memory changes, none of the map block; with the
unit's last write the unit counts, in DONE of the tag too. -/
def UnitWrites (s : State) (cl : ClusterId) (u : CopyUnit) (k : Nat) (d : Cmd) : Prop :=
  ∀ i s0 ch, nextWrite s d = (i, s0) → d.buf[i]? = some ch → Memory.wf s.mem = true →
    ∃ t v, exec (.copyUnit cl u k) s = .next t
      ∧ (∀ a, readCell t.mem a
          = if s.keyOf ch.loc ≤ a ∧ a < s.keyOf ch.loc + ch.bytes.length ∧ ¬InMapBlock s a
            then ch.bytes.getD (a - s.keyOf ch.loc) 0 else readCell s.mem a)
      ∧ (t.cluster cl).cmds u = ((s.cluster cl).cmds u).set k
          (if d.buf.length = 1 then { d with buf := [], wrote := false, seen := v, unit := d.unit + 1 }
           else { d with buf := d.buf.eraseIdx i, wrote := true, seen := v })
      ∧ let g := vget (s.ctx d.core).tags d.tag
        t.ctx d.core = (if d.buf.length = 1 then
          { s.ctx d.core with tags := vset (s.ctx d.core).tags d.tag { g with done := g.done + 1 } } else s.ctx d.core)

/-- A read ahead of its unit's turn: piece j of the unit i places after the current one, which the device may take at any
time, for the accesses of a command are unordered among themselves; its bytes wait in the command (09 R317; 10 R344). -/
def ReadsAhead (s : State) (cl : ClusterId) (u : CopyUnit) (k : Nat) (d : Cmd) : Prop :=
  ∀ i j q, j < 2 → k < 16 → ((s.cluster cl).cmds u)[k]? = some d → (s.cluster cl).mayRun u k d false = true →
    d.op ≠ .cpys → d.op ≠ .ccoll → d.unit + i < d.total → (d.buf ≠ [] → 0 < i) →
    (s.cmdTodo d (d.unit + i)).find? (fun p => p.1 == j) = some q → s.refBad ⟨[q.2]⟩ = none → s.stalled (s.spanOf q.2) = false →
    ∃ bs d1 s1, s.cmdRead d (s.cmdView (s.cluster cl) d) [q.2] = ((bs, d1), s1) ∧ s1.mem = s.mem
      ∧ exec (.copyUnit cl u (k + 16 * (1 + 2 * i + j))) s
        = .next (commandSet cl u k { d1 with ahead := d1.ahead ++ [(d.unit + i, j, bs)] } (s1.touchRef d.core ⟨[q.2]⟩))

/-- A chunk formed again without the members that failed: one, or every one behind a switch; after the third time the
command ends with 0x60 and the lowest of them. -/
def ChunkRetries (s : State) (cl : ClusterId) (u : CopyUnit) (k : Nat) (d : Cmd) : Prop :=
  ∀ n gone, gone = d.failing n → gone ≠ [] → d.op = .ccoll → d.chunk = [] → d.buf = [] →
    ((s.cluster cl).cmds u)[k]? = some d → (s.cluster cl).mayRun u k d false = true →
    (∀ m, m ∈ gone ↔ (m, 0) ∈ d.members
      ∧ if n < 2 ^ 12 then m = n else d.inSwitch = true ∧ Config.leafSwitch m = n - 2 ^ 12)
    ∧ (d.tries < 3 →
      let t := commandSet cl u k { d with
        members := d.members.map (fun p => if p.1 ∈ gone then (p.1, 2) else p), tries := d.tries + 1 } s
      exec (.collectiveChunkRetry cl u k n) s
        = .next (if blockNat d.desc 0x15 1 = 2
            then gone.foldl (fun t m => t.logEvent 5 cl.val (d.tag * 256 + m)) t else t))
    ∧ (3 ≤ d.tries → exec (.collectiveChunkRetry cl u k n) s
        = .next (commandFailed cl u k d ⟨0x60, BitVec.ofNat 48 (gone.headD 0), 0⟩ s))

end Sys2Proof.Claims

/-- 10 R344, R346, R348; 14 R443; 09 R315, R317: a unit of a command reads its source, or ends the command with the code of
uncorrectable data, and then writes it to each destination, one access in each turn in any order; CPYS fills; a collective
forms a chunk whole, writes it unit by unit, and forms it again without the failed members up to three times. A finished
command leaves its queue, OUT falls, and C sees what its accesses saw. The model's choices
in it are those of log entries 50, 51, 85 and 91. -/
def Obligations.CopyUnitsMoveBytes : Prop :=
  ∀ (s : State) (cl : ClusterId) (u : CopyUnit) (k : Nat) (d : Cmd),
    (Claims.MayMove s cl u k d → d.buf = [] → Claims.UnitReads s cl u k d)
    ∧ (Claims.MayMove s cl u k d → Claims.UnitWrites s cl u k d)
    ∧ Claims.ReadsAhead s cl u k d
    ∧ Claims.ChunkRetries s cl u k d
    ∧ (((s.cluster cl).cmds u)[k]? = some d → d.finished = true →
      exec (.copyCompletion cl u k) s = .next
        ((s.modCluster cl fun q => q.setCmds u ((q.cmds u).eraseIdx k)).modCtx d.core fun x =>
          { x with tags := vset x.tags d.tag { vget x.tags d.tag with out := (vget x.tags d.tag).out - 1 } }.modStream .c
            fun r => { r with view := r.view.join d.seen, observed := r.observed ++ d.observed }))
    ∧ ∀ (c : CoreId) (src dst n : Nat) (bs : List Byte), Memory.wf s.mem = true → ∀ a,
      readCell (s.storeMoved c src dst n bs).mem a
        = if dst ≤ a ∧ a < dst + bs.length ∧ ¬Claims.InMapBlock s a then bs.getD (a - dst) 0 else readCell s.mem a

namespace Sys2Proof.Claims

/-- Only core c differs between s and t; only cluster cl does. -/
def OnlyCore (c : CoreId) (s t : State) : Prop := t = s.modCore c fun _ => t.core c
def OnlyCluster (cl : ClusterId) (s t : State) : Prop := t = s.modCluster cl fun _ => t.cluster cl

/-- The reference tick now. -/
def now (s : State) : Nat := s.dev.ticks.toNat

/-- The context of a core is kept but for its performance counters. -/
def CtxKept (s t : State) (c : CoreId) : Prop :=
  t.ctx c = { s.ctx c with cr := { (s.ctx c).cr with pmc := (t.ctx c).cr.pmc } }

/-- An interval of 400 ticks starts at this tick and has not been settled (12 R390). -/
def IntervalDue (s : State) : Prop := now s % 400 = 0 ∧ s.dev.intervalDone ≤ now s / 400

/-- All that falls at this tick, but for the start of an interval, has happened: the samples of the cooling loops and of the
cores' temperatures, the sweeps, the WAITs whose time is over, the sequencers' steps, a selection of records whose millisecond
is over, and the passes of which none has been made for 100 ticks (04 R149; 10 R333; 11 R375; 12 R381–R383, R398; 14 R448). -/
structure TickOver (s : State) : Prop where
  counting : s.dev.ticking = true
  loops : now s < s.dev.loopSamples * 10000
  records : ∀ t, s.dev.recordDue = some t → now s < t + 100000
  cores : ∀ c, s.sweepDue c = false ∧ now s < (s.core c).samples * 1000 ∧ s.waitDue c = false
  clusters : ∀ cl, (s.cluster cl).fllDue (now s) = false ∧ s.passLate (s.cluster cl) = false

/-- The sequencer of a cluster: a step takes 4 ticks; at its end it is complete, and the next one starts towards the target,
a rise moving the LDO by one step of 6.25 mV before it and a fall after it (12 R398). -/
def FllMoves (s t : State) (cl : ClusterId) : Prop :=
  let k := s.cluster cl
  let q := t.cluster cl
  (k.fllDue (now s) = true ↔ (k.ramp = .still ∧ (k.fstep < k.ftgt ∨ (k.ftgt < k.fstep ∧ 20 < k.fstep)))
      ∨ (k.ramp ≠ .still ∧ k.rampAt + 4 ≤ now s))
  ∧ (k.fllDue (now s) = false → q = k)
  ∧ (k.fllDue (now s) = true →
      q.fstep = (match k.ramp with
        | .up => k.fstep + 1
        | .down => k.fstep - 1
        | .still => k.fstep)
      ∧ q.ramp = (if q.fstep < k.ftgt then .up else if k.ftgt < q.fstep ∧ 20 < q.fstep then .down else .still)
      ∧ q.rampAt = (if q.ramp = .still then k.rampAt else now s)
      ∧ q.ldo = k.ldo - (if k.ramp = .down then 1 else 0) + (if q.ramp = .up then 1 else 0)
      ∧ (20 ≤ k.fstep → (k.ramp = .down → 20 < k.fstep) → 20 ≤ q.fstep ∧ (q.ramp = .down → 20 < q.fstep)))
  ∧ q.ftgt = k.ftgt ∧ q.queues = k.queues

/-- A cooling loop after a sample: it is lost by three bad ones in a row, and back with a good one (14 R448). -/
def LoopSampled (good : Bool) (l m : Cooling) : Prop :=
  m.ok = (good || (l.ok && decide (l.bad + 1 < 3))) ∧ m.bad = (if good then 0 else l.bad + 1)

end Sys2Proof.Claims

/-- 04 R140; 12 R386, R390–R392, R398; 14 R448; 11 R374, R375: the reference tick advances TICKS by one and refills heat
tokens, once all that falls at it has happened and the interval is settled; the start of an interval, the last event of its
tick, counts the leases down and gives boost to at most two clusters of a plate; the sequencer moves one step in 4 ticks;
cooling loops are sampled each 10000 ticks and records follow them. The model's choices
in it are those of log entries 15, 19, 56, 64, 65, 75 and 86. -/
def Obligations.TimeEventsAdvance : Prop :=
  ∀ s : State,
    (Claims.TickOver s → ¬Claims.IntervalDue s → ∃ t, exec .referenceTick s = .next t
      ∧ t.dev = { s.dev with ticks := s.dev.ticks + 1 } ∧ t.mem = s.mem ∧ t.clusters = s.clusters
      ∧ ∀ c, Claims.CtxKept s t c
        ∧ (t.core c).tok = min 256 ((s.core c).tok
            + ((s.core c).frac + thallowRate (s.cluster (clusterOf c)) (s.core c)) / 100)
        ∧ (t.core c).frac = ((s.core c).frac + thallowRate (s.cluster (clusterOf c)) (s.core c)) % 100)
    ∧ (¬Claims.TickOver s ∨ Claims.IntervalDue s → exec .referenceTick s = .next s)
    ∧ (Claims.IntervalDue s → Claims.TickOver s → ∃ t, exec .intervalStart s = .next t ∧ t.mem = s.mem
      ∧ t.dev = { s.dev with intervalDone := Claims.now s / 400 + 1 }
      ∧ (∀ c, t.ctx c = s.ctx c ∧ ((s.core c).lease.act = true → (t.core c).lease
          = { (s.core c).lease with rem := (s.core c).lease.rem - 1, act := decide (1 < (s.core c).lease.rem) })
        ∧ ((s.core c).lease.act = false → (t.core c).lease = (s.core c).lease))
      ∧ (∀ p, (s.plate p).slots.length ≤ 2 → (t.plate p).slots.length ≤ 2)
      ∧ ∀ cl, 90 < (t.cluster cl).ftgt → cl ∈ (t.plate (plateOf cl)).slots)
    ∧ (¬Claims.IntervalDue s ∨ ¬Claims.TickOver s → exec .intervalStart s = .next s)
    ∧ (∀ cl, ∃ t, exec (.fllStep cl) s = .next t ∧ Claims.OnlyCluster cl s t ∧ Claims.FllMoves s t cl)
    ∧ (∀ top bottom, s.dev.loopSamples * 10000 ≤ Claims.now s → ∃ t, exec (.loopSample top bottom) s = .next t
      ∧ t.mem = s.mem ∧ t.cores = s.cores ∧ t.clusters = s.clusters ∧ t.dev.loopSamples = s.dev.loopSamples + 1
      ∧ Claims.LoopSampled top s.dev.topLoop t.dev.topLoop ∧ Claims.LoopSampled bottom s.dev.bottomLoop t.dev.bottomLoop)
    ∧ (∀ since, s.dev.recordDue = some since → ∃ t, exec .recordSelection s = .next t ∧ t.mem = s.mem
      ∧ t.dev.recordDue = none
      ∧ ∀ cl, (t.cluster cl).recNum = recordFor s.dev (s.cluster cl)
        ∧ ∀ c, clusterOf c = cl → t.ctx c = s.ctx c
          ∧ ((t.cluster cl).rec_.boostOk = false → (t.core c).lease.act = false))

namespace Sys2Proof.Claims

/-- The sweep period in force for a core, in ticks (12 R382). -/
def sweepEvery (s : State) (c : CoreId) : Nat :=
  let b := (s.core c).refresh.band
  (if (s.cluster (clusterOf c)).rec_.refForce = true ∨ (s.core c).tripped = true then 128 else if b = 0 then 512 else if b = 1 then 256 else 128) * 100000

/-- The deferral a sweep of this tick goes by: that of REFDEFER before the REFDEF words of the tick (12 R385, R403). -/
def deferralOf (s : State) (c : CoreId) : Deferral := (s.core c).refresh.before (now s)

/-- A sweep of core c has started at this tick: DUE is the retention of its band less 32 ms away, a deferral is over but for
one asked for in this tick, and it is a rotation where 64 ms have passed since the last (08 R274; 12 R381–R383, R385). -/
def SweepStarted (s t : State) (c : CoreId) : Prop :=
  let r := (s.core c).refresh
  let q := (t.core c).refresh
  q.lastSweep = now s ∧ q.act = (r.act && decide (∃ d, r.prior = some d ∧ d.tick = now s)) ∧ q.band = r.band
    ∧ q.due = now s + (if r.band = 0 then 992 else if r.band = 1 then 480 else 224) * 100000
    ∧ q.sweep = some ⟨decide (r.lastRotation + 6400000 ≤ now s), 0⟩
    ∧ q.lastRotation = if r.lastRotation + 6400000 ≤ now s then now s else r.lastRotation

/-- The temperature band after a reading in units of 0.25 °C: it rises above 70 and 85 °C, and falls at 68 and 83 °C (12
R381). -/
def bandOf (old : Nat) (t : Int) : Nat :=
  if 340 < t then 2
  else if 332 < t then max (min old 2) (if 280 < t then 1 else 0)
  else if 272 < t then (if 280 < t then 1 else min old 1)
  else 0

end Sys2Proof.Claims

/-- 08 R274; 12 R380–R384; 13 R416, R418: a sweep starts when its period has passed and no deferral holds, at DUE in any
case, and then a notified job has its trap pending, taken at S's next boundary outside the handler; a rotation moves each
logical layer up by one; temperature samples set the bands, and a reading above the limits ends the job, during the remapping step once it is over,
and gates the core;
a late result replays. The model's choices
in it are those of log entries 46, 55 and 86. -/
def Obligations.RefreshAndTemperatureEvents : Prop :=
  ∀ (s : State) (c : CoreId),
    let r := (s.core c).refresh
    (Claims.now s ≠ r.due → r.lastSweep + Claims.sweepEvery s c ≤ Claims.now s →
      ((Claims.deferralOf s c).act = false ∨ (Claims.deferralOf s c).until_ ≤ Claims.now s) → ∃ t, exec (.sweep c) s = .next t ∧ Claims.OnlyCore c s t
        ∧ t.ctx c = s.ctx c ∧ Claims.SweepStarted s t c ∧ (t.core c).refresh.pendingTrap = r.pendingTrap)
    ∧ (Claims.now s = r.due → ∃ t, exec (.forcedSweep c) s = .next t ∧ Claims.OnlyCore c s t ∧ Claims.CtxKept s t c
      ∧ Claims.SweepStarted s t c
      ∧ ((Claims.deferralOf s c).notify = true ∧ (s.core c).phase = .running →
          (t.core c).refresh.pendingTrap = some r.due ∧ (t.core c).refresh.notify = (Claims.deferralOf s c).asks)
      ∧ (¬((Claims.deferralOf s c).notify = true ∧ (s.core c).phase = .running) →
          (t.core c).refresh.pendingTrap = r.pendingTrap ∧ (t.core c).refresh.notify = r.notify))
    ∧ (∀ due, r.pendingTrap = some due → (s.core c).phase = .running → ((s.ctx c).stream .s).st = .running →
      (s.ctx c).cr.tm = false → (s.ctx c).trapping = none →
      exec (.refreshDeadline c) s = .next ((raise c .s
        { Trap.plain 0x20 ((s.ctx c).stream .s).pc with addr := some due } s).modCore c fun k =>
          { k with refresh := { k.refresh with pendingTrap := none } }))
    ∧ (∃ t, exec (.sweepStepEnd c) s = .next t ∧ Claims.OnlyCore c s t ∧ t.ctx c = s.ctx c
      ∧ ∀ w, r.sweep = some w → (t.core c).refresh.sweep
          = if (if w.rotation then 8 else 7) ≤ w.step then none else some { w with step := w.step + 1 })
    ∧ (r.sweep = some ⟨true, 0⟩ → ∀ n, n < 68 → vget (sweepFinished r).phase n
        = if ∃ m ∈ r.stopped, m.2 = n then vget r.phase n else vget r.phase n + 1)
    ∧ (∀ tower logic : BitVec 16, (s.core c).samples * 1000 ≤ Claims.now s → tower.toInt ≤ 380 → logic.toInt ≤ 440 →
      ¬((s.core c).tripped = true ∧ tower.toInt < 320 ∧ logic.toInt < 320) →
      ∃ t, exec (.temperatureSample c tower logic) s = .next t ∧ Claims.OnlyCore c s t ∧ t.ctx c = s.ctx c
        ∧ (t.core c).towerTemp = tower.toInt ∧ (t.core c).logicTemp = logic.toInt
        ∧ (t.core c).refresh.band = Claims.bandOf r.band tower.toInt
        ∧ (t.core c).refresh.thBand = Claims.bandOf r.thBand (max tower.toInt logic.toInt)
        ∧ (t.core c).tripped = (s.core c).tripped ∧ (t.core c).power = (s.core c).power)
    ∧ (∀ tower logic : BitVec 16, (s.core c).samples * 1000 ≤ Claims.now s → 380 < tower.toInt ∨ 440 < logic.toInt →
      (s.core c).tripped = false → ∃ t, exec (.temperatureSample c tower logic) s = .next t
        ∧ (t.core c).tripped = true ∧ (t.core c).power = .gated ∧ (s.dev.remapGo = false → (t.core c).job = none))
    ∧ (∀ tower logic : BitVec 16, (s.core c).samples * 1000 ≤ Claims.now s → tower.toInt < 320 → logic.toInt < 320 →
      (s.core c).tripped = true → ∃ t, exec (.temperatureSample c tower logic) s = .next t
        ∧ Claims.OnlyCore c s t ∧ (t.core c).tripped = false ∧ (t.core c).power = .called)
    ∧ ∀ e, (s.core c).phase = .running → ((s.ctx c).stream e).st = .running →
      ∃ t, exec (.timingErrorReplay c e) s = .next t ∧ t.mem = s.mem ∧ t.clusters = s.clusters
        ∧ (∀ d, t.ctx d = if d = c ∧ e = .s then { s.ctx d with waitEnd := none } else s.ctx d)
        ∧ t.dev = { s.dev with mail := { s.dev.mail with replays := t.dev.mail.replays } }
        ∧ t.dev.mail.replays = vset s.dev.mail.replays (clusterOf c).val
            ((vget s.dev.mail.replays (clusterOf c).val + 1) % 2 ^ 64)

namespace Sys2Proof.Claims

/-- The head of a plate's requests: a reacquisition before any other, then by the tick it was taken, then by core number;
the arbiter serves those of earlier ticks (12 R395). -/
def HeadRequest (s : State) (p : PlateId) (r : PowerReq) : Prop :=
  r ∈ (s.plate p).reqs ∧ r.tick < now s ∧ ∀ q ∈ (s.plate p).reqs, q.tick < now s → q ≠ r → servedFirst q r = false
    ∧ servedFirst r q = true

/-- A free core (10 R337): it has no job, is neither held, drained, tripped nor failed, and each logical tower is available
on a physical one that has not failed. -/
def FreeCore (s : State) (c : CoreId) : Prop :=
  (s.core c).phase = .free ∧ (s.core c).job = none ∧ (s.core c).hold = false ∧ (s.core c).tripped = false
    ∧ (s.core c).logicFailed = false ∧ (s.cluster (clusterOf c)).service = .inService
    ∧ ∀ i, i < 64 → (vget (s.core c).imp i).av = true ∧ (vget (s.core c).imp i).phys.toNat ∉ (s.core c).failedTowers

/-- A core that may be gated: free and on (13 R427; 14 R436). -/
def Gateable (s : State) (c : CoreId) : Prop := FreeCore s c ∧ (s.core c).power = .on

end Sys2Proof.Claims

/-- 12 R389, R395–R397; 13 R425–R427; 04 R149: a request is granted in the arbiter's order once its units fit the plate's
budget; a job waiting at a barrier lends its units; a core idle for GATEIDLE ticks is gated, a called one wakes, tests and
is powered, or has its failure noted, that of a tower in which the march meets an uncorrectable word too; a WAIT whose time
is over completes. The model's choices
in it are those of log entries 14, 80, 87 and 102. -/
def Obligations.PowerEvents : Prop :=
  ∀ (s : State) (c : CoreId), Memory.wf s.mem = true →
    ((s.cluster (clusterOf c)).gateidle ≠ 0 → Claims.Gateable s c →
      (s.core c).freeSince + (s.cluster (clusterOf c)).gateidle.toNat ≤ Claims.now s →
      exec (.idleGating c) s = .next (s.modCore c fun k => { k with power := .gated }))
    ∧ ((s.core c).power = .called → s.dev.boot = .done ∨ s.dev.boot = .running 8 → ∃ t, exec (.coreWake c) s = .next t
      ∧ (t.core c).power = .waking ∧ (t.core c).resident = Vector.replicate 5 none
      ∧ (t.ctx c).cr = (s.ctx c).cr ∧ (t.core c).imp = (s.core c).imp ∧ (t.core c).march = (s.core c).march + 1
      ∧ (∀ a, a < imemKey c .s 0 → readCell t.mem a = readCell s.mem a) ∧ ∀ d, d ≠ c → t.core d = s.core d)
    ∧ ((s.core c).power = .waking → ∃ t, exec (.wakeTestResult c .pass) s = .next t ∧ (t.core c).power = .on
      ∧ (t.core c).freeSince = Claims.now s ∧ t.mem = s.mem ∧ t.ctx c = s.ctx c ∧ (∀ d, d ≠ c → t.core d = s.core d)
      ∧ (t.core c).failedTowers = (s.marchBad c).eraseDups ++ (s.core c).failedTowers)
    ∧ ((s.core c).power = .waking → ∃ t, exec (.wakeTestResult c .logicFailure) s = .next t
      ∧ (t.core c).logicFailed = true ∧ t.mem = s.mem ∧ t.ctx c = s.ctx c)
    ∧ (∀ ps, (s.core c).power = .waking → ∃ t, exec (.wakeTestResult c (.towerFailures ps)) s = .next t
      ∧ (t.core c).failedTowers = (s.marchBad c ++ ps).eraseDups ++ (s.core c).failedTowers ∧ t.mem = s.mem ∧ t.ctx c = s.ctx c)
    ∧ (∀ a, (s.core c).phase = .running → (s.ctx c).bar = some a → a.rank = none →
      (∀ e, e = .m ∨ e = .p → ((s.ctx c).stream e).st = .idle ∨ ((s.ctx c).stream e).st = .done) →
      0 < (s.core c).pwr.level → (s.core c).pwr.susp = false →
      exec (.grantSuspension c) s = .next (s.modCore c fun k => { k with pwr := { k.pwr with susp := true } }))
    ∧ (∀ p r, Claims.HeadRequest s p r → s.unitsUsed p + r.units ≤ s.plateBudget p → r.reacquire = false →
      exec (.plateGrant p) s = .next
        ((s.modPlate p fun q => { q with reqs := q.reqs.filter fun x => x != r }).modCore r.core fun k =>
          { k with pwr := { k.pwr with level := k.pwr.level + r.units, wait := false },
                   ctx := { k.ctx with granted := true } }))
    ∧ (∀ p r, Claims.HeadRequest s p r → s.unitsUsed p + r.units ≤ s.plateBudget p → r.reacquire = true →
      (s.core r.core).pwr.susp = true → exec (.plateGrant p) s = .next
        ((s.modPlate p fun q => { q with reqs := q.reqs.filter fun x => x != r }).modCore r.core fun k =>
          { k with pwr := { k.pwr with susp := false } }))
    ∧ (∀ p r, Claims.HeadRequest s p r → s.plateBudget p < s.unitsUsed p + r.units → exec (.plateGrant p) s = .next s)
    ∧ ∀ d f s1, (s.ctx c).waitEnd = some (some d) → d ≤ Claims.now s → fetchWord c .s s = .word (.wait f) s1 →
      ∃ t, exec (.waitTimeout c) s = .next t ∧ exec (.wait f) { s1 with cur := c, patched := false } = .next t

namespace Sys2Proof.Claims

/-- Core c has returned to its dispatcher: no job, no units, no lease, no stream or access left (01 R34; 12 R378, R392,
R397; 13 R413). -/
def Returned (t : State) (c : CoreId) : Prop :=
  (t.core c).job = none ∧ (t.core c).phase = .free ∧ (t.core c).pwr = ⟨0, false, false⟩ ∧ (t.core c).lease.act = false
    ∧ (t.core c).freeSince = now t ∧ (∀ e, ((t.ctx c).stream e).st = .idle) ∧ (t.ctx c).pend = [] ∧ (t.ctx c).sb = []
    ∧ (t.ctx c).bar = none

/-- The job of core c has ended: the core has returned, its token FIFOs emptied (10 R327; 13 R413). -/
def Ended (t : State) (c : CoreId) : Prop := Returned t c ∧ (t.ctx c).fifos = Vector.replicate 25 []

/-- A job that retires: its accesses are performed and its commands complete, and no remapping step holds the increment of
its counter (01 R34; 11 R365). -/
def Retirable (s : State) (c : CoreId) : Prop :=
  s.dev.remapGo = false ∧ (s.core c).phase = .retiring ∧ unsettled (s.ctx c) = false ∧ (s.ctx c).sb = [] ∧ s.hasCmds c = false

/-- Where core c may take a new job: free and powered (10 R337). -/
def Placeable (s : State) (c : CoreId) : Prop := FreeCore s c ∧ (s.core c).power = .on

/-- A pass of a cluster's dispatcher is due (10 R333), outside a remapping step (11 R365). -/
def PassDue (s : State) (cl : ClusterId) : Prop :=
  (s.cluster cl).service = .inService ∧ s.dev.remapGo = false
    ∧ ((s.cluster cl).passDue = true ∨ (s.cluster cl).lastPass + 100 ≤ now s)

/-- A placed job may be started: no remapping step, and no job of its launch with a smaller index is still to start (10
R334; 11 R365). -/
def MayStartJob (s : State) (c : CoreId) (j : Job) : Prop :=
  (s.core c).phase = .placed ∧ s.dev.remapGo = false
    ∧ ∀ d i, (s.core d).phase = .placed → (s.core d).job = some i → i.launch = j.launch → j.n ≤ i.n

/-- The image as dispatch reads it: past the core's control-block cache, and after what the job's ticket and its dependences
have released (09 R316, R324). -/
def headerOfJob (s : State) (c : CoreId) (j : Job) : HeaderRead :=
  (s.clean c j.seen).readHeader c j.root j.tk.image.toNat

/-- A placed job's image is good and loads, after the zeroing of 01 R33 and with every register at its dispatch value. -/
def Loads (s : State) (c : CoreId) (j : Job) (m : Image) (s3 : State) : Prop :=
  ∃ s1, headerOfJob s c j = .ok m s1 ∧ imageOk m = true ∧ m.tower ≤ 4096 * j.tk.tower
    ∧ let s2 := (s1.zeroFor c j).modCtx c fun x =>
        { dispatchCtx j x with str := Ctx.reset.str.map (Stream.fresh (x.stream .s).view) }
      s2.loadImage c j.root j.tk.image.toNat m (notResident (s2.core c) j.root j.tk.image.toNat) engines true = .ok s3

/-- A context at dispatch, x before it and y after: every register of the engines, tag, FIFO and control register has its
value there, but for the templates and shapes that the image preloads, the banks of P, and what reading the image has counted
(01 R32; 02 R68; 03 R107, R115; 04 R120, R127; 05 R163; 06 R204; 07 R238). -/
structure Dispatched (j : Job) (m : Image) (x y : Ctx) : Prop where
  rest : y = { Ctx.reset with
    str := y.str, errs := y.errs, sreg := vset (Vector.replicate 32 0) 9 (BitVec.ofNat 64 (0x3F00000 + m.scratch / 16 * 16)),
    cr := { CtlRegs.reset with
      pri := x.cr.pri, epri := x.cr.epri, jobid := x.cr.jobid, dommask := x.cr.dommask, mbox := bootMail j.tk, pmc := y.cr.pmc },
    v := { VState.reset with lfsr := lfsrSeed 0x2545F491 j.n }, m := { MState.reset with lfsr := lfsrSeed 0x9E3779B9 j.n },
    p := { PState.reset with banks := y.p.banks, shapes := y.p.shapes } }
  s : (y.stream .s).st = .running ∧ (y.stream .s).pc = BitVec.ofNat 64 m.entry
  others : ∀ e, e ≠ .s → (y.stream e).st = .idle
  streams : ∀ e, (y.stream e).held = none ∧ (y.stream e).done = none ∧ (y.stream e).loops = Vector.replicate 4 Loop.reset

/-- Every member of core c's job may be stopped: it runs outside the handler with no boundary trap due (13 R421, R424). -/
def Stoppable (s : State) (c : CoreId) : Prop := ∀ d ∈ s.members c, s.canStop d = true

/-- A saved job that can be restored to core c without waiting: its slot is there, it has no command of C, and c waits for
no grant. -/
def Restorable (s : State) (c : CoreId) (cl slot : Nat) (j : Job) (v : Saved) : Prop :=
  s.dev.remapGo = false ∧ (s.core c).phase = .restoring cl slot ∧ (s.core c).job = some j ∧ (s.core c).pwr.wait = false
    ∧ (s.cluster (clusterAt cl)).slots.lookup slot = some v ∧ v.cmds = []

end Sys2Proof.Claims

/-- 01 R31–R37; 10 R327, R329, R333–R337; 12 R397, R401; 13 R411–R413, R419–R422: the events of a job's life. A pass places jobs
only on cores that may take them; dispatch, in the order of a launch's indices, starts S at the image's entry with every register at its dispatch value; a
retiring job raises its completion counter and frees its core; an ended one, of no gang, leaves its record in the fault queue; a
job asked to stop stops with its gang, and one of no gang is saved in a slot and leaves its core; a saved one that has no
command of C pending is written back and resumes. The model's choices
in it are those of log entries 14, 17, 18, 53, 57, 58, 59, 60, 61, 84 and 91. -/
def Obligations.JobEvents : Prop :=
  ∀ s : State,
    (∀ cl, Claims.PassDue s cl → ∃ t, exec (.selectionPass cl) s = .next t ∧ (t.cluster cl).lastPass = Claims.now s
      ∧ ∀ c, ((s.core c).job = none → (t.core c).job ≠ none → Claims.Placeable s c
            ∧ ((t.core c).phase = .placed ∨ ∃ a b, (t.core c).phase = .restoring a b))
        ∧ ∀ j, (s.core c).job = some j → ∃ n, (t.core c).job = some { j with epri := n } ∧ t.ctx c = s.ctx c)
    ∧ (∀ cl, ¬Claims.PassDue s cl → exec (.selectionPass cl) s = .next s)
    ∧ ∀ c j, (s.core c).job = some j →
      (∀ m s3, Claims.MayStartJob s c j → Claims.Loads s c j m s3 → ∃ t, exec (.jobDispatch c) s = .next t
        ∧ (t.core c).phase = .running ∧ (t.core c).job = some { j with trailer := BitVec.ofNat 5 m.trailer }
        ∧ (t.core c).lastRoot = some j.root ∧ Claims.Dispatched j m (s.ctx c) (t.ctx c) ∧ t.mem = s3.mem)
      ∧ (∀ code a s1, Claims.MayStartJob s c j → Claims.headerOfJob s c j = .bad code a s1 →
        ∃ t, exec (.jobDispatch c) s = .next t ∧ Claims.Ended t c)
      ∧ ((s.core c).phase = .placed → ¬Claims.MayStartJob s c j ∨ Claims.headerOfJob s c j = .wait →
        exec (.jobDispatch c) s = .next s)
      ∧ (Claims.Retirable s c → ∃ t, exec (.jobRetirement c) s = .next t ∧ Claims.Returned t c
        ∧ t.mem = (s.bumpCounter j.root j.tk.done j.tk.inc c.val (s.jobSeen c)).mem ∧ (t.ctx c).sreg = (s.ctx c).sreg
        ∧ (t.ctx c).fifos = (s.ctx c).fifos ∧ ∀ d, d ≠ c → t.core d = s.core d)
      ∧ ((∃ e, (s.core c).phase = .ending e) → s.dev.remapGo = true → exec (.jobEnd c) s = .next s)
      ∧ (∀ e, (s.core c).phase = .ending e → s.dev.remapGo = false → j.tk.gang = false →
        ∃ t, exec (.jobEnd c) s = .next t ∧ Claims.Ended t c
        ∧ (∀ d, d ≠ c → t.core d = s.core d)
        ∧ (Memory.wf s.mem = true → s.dev.fqFull = false → s.dev.fqwait = [] →
          readCells t.mem (s.dev.fqbase.toNat * 128 + 64 * s.dev.fqtail.toNat) 64
            = recordBytes e false j.tk.addr (s.ctx c).cr.jobid.toNat c.val
          ∧ t.dev.fqtail = BitVec.ofNat 16 ((s.dev.fqtail.toNat + 1) % s.dev.fqSlots)))
      ∧ (∀ b, (s.core c).stopReq = some b → Claims.Stoppable s c → (s.members c).any s.anyRunning = true →
        ∃ t, exec (.contextSave c) s = .next t ∧ t.mem = s.mem
          ∧ ∀ d ∈ s.members c, (∀ e, ((t.ctx d).stream e).st ≠ .running) ∧ (t.ctx d).sreg = (s.ctx d).sreg
            ∧ (t.ctx d).v = (s.ctx d).v ∧ (t.ctx d).m = (s.ctx d).m ∧ (t.ctx d).fifos = (s.ctx d).fifos)
      ∧ (∀ b n, (s.core c).stopReq = some b → j.tk.gang = false → s.canStop c = true → s.anyRunning c = false →
        s.quietForSave c = true → s.dev.remapGo = false → (s.cluster (clusterOf c)).freeSlotNum = some n → (b = false → s.resumeRoom [c] = true) →
        ∃ t v, exec (.contextSave c) s = .next t ∧ Claims.Returned t c
          ∧ (t.cluster (clusterOf c)).slots = (s.cluster (clusterOf c)).slots ++ [(n, v)] ∧ v.job = j
          ∧ v.state = (if b then 2 else 1) ∧ v.ctx = s.ctx c)
      ∧ ∀ cl slot v, Claims.Restorable s c cl slot j v → ∃ t, exec (.contextRestore c) s = .next t
          ∧ t.ctx c = { v.ctx with
              str := (t.ctx c).str, waitEnd := (t.ctx c).waitEnd,
              cr := { v.ctx.cr with rst := true, epri := BitVec.ofNat 2 j.epri,
                                    dommask := vset (s.ctx c).cr.dommask 3 (vget v.ctx.cr.dommask 3) },
              m := { v.ctx.m with window := [], marker := Vector.replicate 8 none, replays := Vector.replicate 8 0 } }
          ∧ (v.level = 0 → (t.core c).phase = .running
            ∧ ∀ e, ((t.ctx c).stream e).st = if (v.ctx.stream e).st = .stopped then .running else (v.ctx.stream e).st)

namespace Sys2Proof.Claims

/-- The core, or device, that a completion counter's increment reaches in this device's memory: key k of an 8-byte counter
at an address under a root (12 R401). -/
def CounterAt (s : State) (root va k : Nat) : Prop :=
  va ≠ 0 ∧ s.pagePermits root va .amo = true ∧ ∃ w loc, s.walk root va = some w
    ∧ ¬(w.pub = none ∧ (w.frame + (va - w.va)) / 2 ^ 48 = 2) ∧ s.placeIn w va 8 .amo false .visible = (loc, 0)
    ∧ s.keyOf loc = k ∧ s.badData k 8 = false

/-- Core d holds a job of a gang of which some member takes part in fabric group g: it ends with that member (04 R133; 10
R341; 14 R441). -/
def InFabricGroup (s : State) (g : BitVec 8) (d : CoreId) : Prop :=
  ∃ c j, (s.core c).job = some j ∧ j.tk.gang = true ∧ (vget (s.jobCtx c).cr.dommask 3).getLsbD 8 = true
    ∧ (vget (s.jobCtx c).cr.dommask 3).toNat % 256 = g.toNat ∧ d ∈ s.members c

/-- A saved job, pre-empted or halted, takes part in fabric group g (10 R341; 14 R441). -/
def SavedInGroup (g : BitVec 8) (v : Saved) : Prop :=
  v.state ≠ 3 ∧ v.job.tk.gang = true ∧ (vget v.ctx.cr.dommask 3).getLsbD 8 = true
    ∧ (vget v.ctx.cr.dommask 3).toNat % 256 = g.toNat

/-- n bytes at an offset another device names are there, and no remapping step or sweep holds them (08 R275; 11 R365; 14
R439). -/
def Reaches (s : State) (addr n : Nat) : Prop := s.remoteOk addr n = true ∧ s.keyWaits (remoteKey addr) n = false

/-- Memory with n bytes from key k replaced, none of the map block. -/
def Stored (s t : State) (k : Nat) (bs : List Byte) : Prop :=
  ∀ a, readCell t.mem a = if k ≤ a ∧ a < k + bs.length ∧ ¬InMapBlock s a then bs.getD (a - k) 0 else readCell s.mem a

end Sys2Proof.Claims

/-- 10 R340, 12 R401, 14 R438–R441: an instance of a barrier completes for a core once every member it names has arrived,
and gives it its rank; a participant at the fabric level that waits too long for an unreachable device ends, and with an
end on another device every local participant does, on a core or saved; lost links clear their reach; remote accesses and completion counters
change the bytes they name. The model's choices
in it are those of log entries 71, 72, 80 and 91. -/
def Obligations.BarrierAndFabricEvents : Prop :=
  ∀ s : State,
    (∀ c j a, (s.core c).job = some j → (s.ctx c).bar = some a → a.rank = none → a.level ≤ 3 →
      s.complete j.launch a.level a.inst c = true → ∃ t, exec (.barrierComplete c) s = .next t
        ∧ (t.ctx c).bar = some { a with rank := some (s.rankOf j.launch c a) } ∧ t.mem = s.mem
        ∧ (t.ctx c).sreg = (s.ctx c).sreg)
    ∧ (∀ c j a, (s.core c).job = some j → (s.ctx c).bar = some a → a.level ≤ 3 →
      s.complete j.launch a.level a.inst c = false → exec (.barrierComplete c) s = .next s)
    ∧ (∀ c a tmo devs d, (s.ctx c).bar = some a → a.level = 4 → a.rank = none → (s.core c).phase = .running →
      s.fabricOthers c = some (tmo, devs) → a.tick + 100 * tmo < Claims.now s → d ∈ devs → s.route d = none →
      (s.core c).job ≠ none → s.dev.remapGo = false → ∃ t, exec (.barD4Timeout c) s = .next t ∧ Claims.Ended t c)
    ∧ (∀ dev core code g, s.dev.remapGo = false → ∃ t, exec (.fabricGroupEnd dev core code g) s = .next t
      ∧ (∀ d, (Claims.InFabricGroup s g d → (t.core d).job = none)
        ∧ (¬Claims.InFabricGroup s g d → t.core d = s.core d))
      ∧ ∀ cl n v, (n, v) ∈ (s.cluster cl).slots → Claims.SavedInGroup g v → (n, v) ∉ (t.cluster cl).slots)
    ∧ (∀ dev core code g, s.dev.remapGo = true → exec (.fabricGroupEnd dev core code g) s = .next s)
    ∧ (∀ port : Fin 8, s.dev.cxlList.getLsbD port.val = true → s.dev.cxlDown.getLsbD port.val = false →
      ∃ t, exec (.cxlPortDown port) s = .next t ∧ t.mem = s.mem ∧ t.dev.cxlList = s.dev.cxlList
        ∧ (∀ i, i < 8 → (t.dev.cxlDown.getLsbD i = true ↔ i = port.val ∨ s.dev.cxlDown.getLsbD i = true))
        ∧ ∀ c, (t.ctx c).sreg = (s.ctx c).sreg)
    ∧ (∀ dev : BitVec 8, s.route dev.toNat ≠ none → ∃ t, exec (.deviceUnreachable dev) s = .next t ∧ t.mem = s.mem
      ∧ t.route dev.toNat = none ∧ (∀ d, d ≠ dev.toNat → t.route d = s.route d) ∧ ∀ c, (t.ctx c).sreg = (s.ctx c).sreg)
    ∧ (∀ dev addr, (∀ n acq, Claims.Reaches s addr n → ∃ t, exec (.remoteAccess dev addr (.read n acq)) s = .next t
        ∧ t.mem = s.mem ∧ t.cores = s.cores)
      ∧ (∀ bs rel, Memory.wf s.mem = true → Claims.Reaches s addr bs.length →
        ∃ t, exec (.remoteAccess dev addr (.write bs rel)) s = .next t ∧ t.cores = s.cores
          ∧ Claims.Stored s t (remoteKey addr) bs)
      ∧ (∀ op n b cmp acq rel, Memory.wf s.mem = true → Claims.Reaches s addr n → s.badData (remoteKey addr) n = false →
        ∃ t, exec (.remoteAccess dev addr (.amo op n b cmp acq rel)) s = .next t ∧ t.cores = s.cores
          ∧ Claims.Stored s t (remoteKey addr)
            (leBytes n (amoNew op n (leNat (readCells s.mem (remoteKey addr) n)) b.toNat cmp.toNat)))
      ∧ ∀ req, ¬Claims.Reaches s addr (remoteLength req) → exec (.remoteAccess dev addr req) s = .next s)
    ∧ (∀ f fs, s.dev.fetchAdds = f :: fs → Memory.wf s.mem = true →
      (∃ t, exec (.fetchaddCompletion true) s = .next t ∧ t.dev.fetchAdds = fs ∧ Claims.Stored s t f.addr
        (leBytes 8 (leNat (readCells s.mem f.addr 8) + f.inc.toNat)))
      ∧ ∃ t, exec (.fetchaddCompletion false) s = .next t ∧ t.dev.fetchAdds = fs ∧ t.mem = s.mem)
    ∧ ∀ root (done : W64) inc by_ seen k, Memory.wf s.mem = true → Claims.CounterAt s root done.toNat k →
      (∀ a, k ≤ a → a < k + 8 → ¬Claims.InMapBlock s a) →
      readCells (s.bumpCounter root done inc by_ seen).mem k 8 = leBytes 8 (leNat (readCells s.mem k 8) + inc.toNat)

namespace Sys2Proof.Claims

/-- The host's registers answer, and a command register's write starts a command (14 R431, R435, R444). -/
def Up (s : State) : Prop := s.dev.boot = .done
def Go (v : W64) : Prop := v.getLsbD 63 = true

/-- An invalidation runs: no core and no cluster holds a translation of its selection, nor a page-table entry that leads to
one (08 R269; 11 R353, R357). -/
def Discarded (s t : State) (sel : TlbEnt → Prop) (i : Inval) : Prop :=
  t.dev.inval = some i ∧ t.mem = s.mem
    ∧ (∀ c, t.ctx c = s.ctx c ∧ ∀ e, e ∈ (t.core c).tlb ↔ e ∈ (s.core c).tlb ∧ ¬sel e)
    ∧ ∀ cl, (∀ e, e ∈ (t.cluster cl).tlb ↔ e ∈ (s.cluster cl).tlb ∧ ¬sel e)
      ∧ ∀ w, w ∈ (t.cluster cl).walks ↔ w ∈ (s.cluster cl).walks ∧ i.covers w.root w.va w.size = false

/-- The pages an invalidation of a range names (11 R357). -/
def rangeBytes (s : State) : Nat := (if s.dev.tinvLen = 0 then 1 else s.dev.tinvLen.toNat) * 2 ^ 16
def InRange (s : State) (e : TlbEnt) : Prop :=
  e.root = s.dev.tinvRoot.toNat * 4096 ∧ e.va < s.dev.tinvVa.toNat * 2 ^ 16 + rangeBytes s
    ∧ s.dev.tinvVa.toNat * 2 ^ 16 < e.va + e.size
def theInval (s : State) (kind : Nat) : Inval :=
  ⟨kind, s.dev.tinvRoot.toNat * 4096, s.dev.tinvVa.toNat * 2 ^ 16, rangeBytes s⟩

/-- The fields of an imposition command, and the state in which it may start (11 R360). -/
def impCore (cl : ClusterId) (v : W64) : CoreId := coreAt (cl.val * 48 + fld v.toNat 42 6 % 48)
def ImpStarts (s : State) (cl : ClusterId) (v : W64) (op : Nat) : Prop :=
  Up s ∧ Go v ∧ (s.cluster cl).impGo = false ∧ fld v.toNat 56 3 = op ∧ fld v.toNat 42 6 < 48
    ∧ (s.core (impCore cl v)).job = none

/-- The core is held and its entry unavailable until the command is done, which then sets entry e (11 R360, R361). -/
def ImpRuns (s t : State) (cl : ClusterId) (v : W64) (e : ImpEnt) (copy : Bool) : Prop :=
  (t.cluster cl).impGo = true ∧ (t.cluster cl).impDone = some ((impCore cl v).val, e, copy) ∧ t.mem = s.mem
    ∧ (t.core (impCore cl v)).hold = true ∧ (vget (t.core (impCore cl v)).imp (fld v.toNat 32 6)).av = false
    ∧ (∀ i, i < 64 → i ≠ fld v.toNat 32 6 →
        vget (t.core (impCore cl v)).imp i = vget (s.core (impCore cl v)).imp i)
    ∧ ∀ d, d ≠ impCore cl v → t.core d = s.core d

/-- A command of imposition that ends at once with an error. -/
def ImpFails (s t : State) (cl : ClusterId) (err : Nat) : Prop :=
  (t.cluster cl).impGo = false ∧ (t.cluster cl).imperr = err ∧ t.mem = s.mem ∧ ∀ d, t.core d = s.core d

/-- The physical tower of a command may be named: it exists, no other available entry names it, and it is no spare that
failed (11 R360, R361; 13 R426). -/
def PhysFree (s : State) (cl : ClusterId) (v : W64) : Prop :=
  let k := s.core (impCore cl v)
  let p := fld v.toNat 0 7
  p < 68 ∧ (∀ i, i < 64 → i ≠ fld v.toNat 32 6 → (vget k.imp i).av = true → (vget k.imp i).phys.toNat ≠ p)
    ∧ (p ∈ k.failedTowers → (vget k.imp (fld v.toNat 32 6)).phys.toNat = p)

/-- The error of a remapping command, or 0 (11 R364, R365). -/
def remapError (s : State) (back : Bool) (v : W64) : Nat :=
  if s.dev.live.getLsbD (fld v.toNat 0 9) = back then 1
  else if back = false ∧ s.liveCount = 1 then 2
  else if s.dev.bamaddr = 0 then 3 else 0

/-- A remapping command taken (11 R364). -/
def RemapTaken (s t : State) (back : Bool) (v : W64) : Prop :=
  t.mem = s.mem ∧ t.cores = s.cores ∧ t.dev.remapErr = remapError s back v ∧ t.dev.remapDir = back
    ∧ t.dev.remapPch.toNat = fld v.toNat 0 9 ∧ (t.dev.remapGo = true ↔ remapError s back v = 0)
    ∧ t.dev.live = s.dev.live

end Sys2Proof.Claims

/-- 11 R353, R357, R359–R367: the host's table commands. An invalidation discards the translations it selects and ends
once no access uses them; an imposition command on a core without a job holds it, makes its entry unavailable and at its
end writes the entry; retiring or returning a pseudo-channel changes LIVE and GEN and writes the map block, and no other byte but those that a
return adds, which read as zero; an entry of the publish table is activated from its 64 bytes, or deactivated once no PUBLISH of
it is past its release. The model's choices
in it are those of log entries 14, 66, 68, 69 and 70. -/
def Obligations.TableCommandEvents : Prop :=
  ∀ (s : State) (cl : ClusterId) (v : W64), Claims.Up s →
    (Claims.Go v → s.dev.inval = none →
      (fld v.toNat 0 2 = 0 ∨ fld v.toNat 0 2 = 3 → ∃ t, exec (.tlbInvalidateDevice v) s = .next t
        ∧ Claims.Discarded s t (fun _ => True) (Claims.theInval s 0))
      ∧ (fld v.toNat 0 2 = 1 → ∃ t, exec (.tlbInvalidateRoot v) s = .next t
        ∧ Claims.Discarded s t (fun e => e.root = s.dev.tinvRoot.toNat * 4096) (Claims.theInval s 1))
      ∧ (fld v.toNat 0 2 = 2 → ∃ t, exec (.tlbInvalidateRange v) s = .next t
        ∧ Claims.Discarded s t (Claims.InRange s) (Claims.theInval s 2)))
    ∧ (∀ i, s.dev.inval = some i → (∀ c, s.usesSelection i c = false) →
      (∀ k d, d ∈ (s.cluster k).allCmds → ∀ e ∈ d.pages, i.selects e = false) →
      ∃ t, exec .invalidationComplete s = .next t ∧ t.dev.inval = none ∧ t.mem = s.mem ∧ ∀ c, t.ctx c = s.ctx c)
    ∧ (Claims.ImpStarts s cl v 0 → (Claims.PhysFree s cl v → ∃ t, exec (.remapWithCopy cl v) s = .next t
        ∧ Claims.ImpRuns s t cl v ⟨true, true, BitVec.ofNat 7 (fld v.toNat 0 7)⟩
          (decide ((vget (s.core (Claims.impCore cl v)).imp (fld v.toNat 32 6)).phys.toNat ≠ fld v.toNat 0 7)))
      ∧ (¬Claims.PhysFree s cl v → ∃ t, exec (.remapWithCopy cl v) s = .next t ∧ Claims.ImpFails s t cl 2))
    ∧ (Claims.ImpStarts s cl v 1 → Claims.PhysFree s cl v → ∃ t, exec (.remapWithoutCopy cl v) s = .next t
        ∧ Claims.ImpRuns s t cl v ⟨true, true, BitVec.ofNat 7 (fld v.toNat 0 7)⟩ false)
    ∧ (Claims.ImpStarts s cl v 2 → Claims.PhysFree s cl v →
      (vget (s.core (Claims.impCore cl v)).imp (fld v.toNat 32 6)).av = false →
      (s.core (Claims.impCore cl v)).softMask.getLsbD (fld v.toNat 32 6) = true →
      ∃ t, exec (.impositionRestore cl v) s = .next t
        ∧ Claims.ImpRuns s t cl v ⟨true, true, BitVec.ofNat 7 (fld v.toNat 0 7)⟩ false)
    ∧ (Claims.ImpStarts s cl v 3 →
      let f := vget (s.core (Claims.impCore cl v)).fuse (fld v.toNat 32 6)
      namedByOther (s.core (Claims.impCore cl v)) (fld v.toNat 32 6) f.toNat = false →
      ∃ t, exec (.impositionRelease cl v) s = .next t ∧ Claims.ImpRuns s t cl v ⟨true, false, f⟩ false)
    ∧ (Claims.Go v → (s.cluster cl).impGo = false → 4 ≤ fld v.toNat 56 3 →
      ∃ t, exec (.impcmdRejected cl v) s = .next t ∧ Claims.ImpFails s t cl 4)
    ∧ (∀ n e copy, (s.cluster cl).impDone = some (n, e, copy) → ∃ t, exec (.impositionCommandDone cl) s = .next t
      ∧ (t.core (coreAt n)).hold = false ∧ (t.cluster cl).impGo = false ∧ (t.cluster cl).impDone = none
      ∧ vget (t.core (coreAt n)).imp (fld (s.cluster cl).impcmd.toNat 32 6) = e
      ∧ (copy = false → (t.cluster cl).imperr = 0) ∧ ∀ c, t.ctx c = s.ctx c)
    ∧ (Claims.Go v → s.dev.remapGo = false →
      (v.getLsbD 9 = false → ∃ t, exec (.retirePseudoChannel v) s = .next t ∧ Claims.RemapTaken s t false v)
      ∧ (v.getLsbD 9 = true → ∃ t, exec (.returnPseudoChannel v) s = .next t ∧ Claims.RemapTaken s t true v))
    ∧ (s.dev.remapGo = true → ∃ t, exec .remappingStepDone s = .next t ∧ t.dev.remapGo = false
      ∧ t.dev.gen = s.dev.gen + 1 ∧ t.cores = s.cores
      ∧ ∀ i, i < 512 → t.dev.live.getLsbD i
          = if i = s.dev.remapPch.toNat then s.dev.remapDir else s.dev.live.getLsbD i)
    ∧ (s.dev.remapGo = true → Memory.wf s.mem = true → s.dev.fqwait = [] →
      ∃ t, exec .remappingStepDone s = .next t ∧ t.dev.bamaddr = s.dev.bamaddr
        ∧ (s.dev.bamaddr ≠ 0 → readCells t.mem t.dev.mapKey 128 = mapBlock t.dev)
        ∧ ∀ a, ¬Claims.InMapBlock t a → readCell t.mem a
          = if s.hbmCap ≤ a ∧ a < t.hbmCap then 0 else readCell s.mem a)
    ∧ (s.dev.bamaddr = 0 → Memory.wf s.mem = true → fld v.toNat 7 45 ≠ 0 →
      ∃ t, exec (.bamaddrFirstWrite v) s = .next t ∧ t.dev.bamaddr.toNat = fld v.toNat 7 45
        ∧ readCells t.mem t.dev.mapKey 128 = mapBlock t.dev)
    ∧ (¬Claims.Go v → s.dev.remapGo = false →
      let b := readCells s.mem (s.dev.ptbase.toNat * 2 ^ 14 + 64 * (v.toNat % 256)) 64
      blockNat b 0 4 % 2 = 1 → (parsePub b).ok = true →
      s.badData (s.dev.ptbase.toNat * 2 ^ 14 + 64 * (v.toNat % 256)) 64 = false →
      ∃ t, exec (.pactActivate v) s = .next t ∧ t.mem = s.mem ∧ t.cores = s.cores
        ∧ t.dev.pubs.lookup (v.toNat % 256) = some (parsePub b)
        ∧ ∀ i, i < 256 → t.dev.pactive.getLsbD i = (decide (i = v.toNat % 256) || s.dev.pactive.getLsbD i)
          ∧ t.dev.pside.getLsbD i = if i = v.toNat % 256 then decide (blockNat b 0 4 / 2 % 2 = 1)
              else s.dev.pside.getLsbD i)
    ∧ (Claims.Go v → s.publishing (v.toNat % 256) = true → exec (.pactDeactivate v) s = .next s)
    ∧ (Claims.Go v → s.publishing (v.toNat % 256) = false →
      ∃ t, exec (.pactDeactivate v) s = .next t ∧ t.mem = s.mem ∧ t.cores = s.cores
      ∧ ∀ i, i < 256 → t.dev.pactive.getLsbD i = (decide (i ≠ v.toNat % 256) && s.dev.pactive.getLsbD i))

namespace Sys2Proof.Claims

/-- A job command starts: none runs and its OP is one of those named (13 R419). -/
def JobCommand (s : State) (cl : ClusterId) (v : W64) (op : Nat) : Prop :=
  Up s ∧ Go v ∧ (s.cluster cl).jgo = false ∧ fld v.toNat 60 3 = op

/-- A job command has ended with an error code. -/
def JobDone (t : State) (cl : ClusterId) (err : Nat) : Prop := (t.cluster cl).jgo = false ∧ (t.cluster cl).jerr = err

/-- Queue n of a cluster set to q. -/
def queueSet (cl : ClusterId) (n : Nat) (q : Queue) (s : State) : State :=
  s.modCluster cl fun k => { k with queues := vset k.queues n q }

/-- The core a job command names. -/
def jobCore (cl : ClusterId) (v : W64) : CoreId := coreAt (cl.val * 48 + fld v.toNat 42 6 % 48)

end Sys2Proof.Claims

/-- 10 R331, R332, R334; 13 R419, R423, R424; 14 R430–R434: the host's other writes. Memory-window accesses reach the
physical address the window gives, and one outside the forms is reported; the write of a plain register changes that register's writable bits and nothing else, that of a read-only one nothing; a tail written is taken
modulo its ring; the head of the fault queue lets waiting records in; job commands halt, kill, resume or discard. The model's choices
in it are those of log entries 54, 60, 62, 69 and 91. -/
def Obligations.HostAccessEvents : Prop :=
  ∀ (s : State) (cl : ClusterId) (v : W64), Claims.Up s →
    (∀ off (bs : List Byte), Memory.wf s.mem = true → s.bar2Ok off bs.length .write = true →
      let k := s.keyOfPa (s.dev.winbase.toNat * 2 ^ 36 + off)
      (s.keyWaits k bs.length = false → ∃ t, exec (.hostWindowWrite off bs) s = .next t ∧ t.cores = s.cores
        ∧ t.dev = { s.dev with outer := t.dev.outer } ∧ Claims.Stored s t k bs)
      ∧ (s.keyWaits k bs.length = true → exec (.hostWindowWrite off bs) s = .next s))
    ∧ (∀ off (bs : List Byte), s.bar2Ok off bs.length .write = false → exec (.hostWindowWrite off bs) s
        = .next (s.modDev fun d => { d with pcieErrors := d.pcieErrors + 1 }))
    ∧ (∀ off n, s.bar2Ok off n .read = true →
      let k := s.keyOfPa (s.dev.winbase.toNat * 2 ^ 36 + off)
      (s.keyWaits k n = false → ∃ t, exec (.hostWindowRead off n) s = .next t
        ∧ t.dev = { s.dev with hostRead := t.dev.hostRead, outer := t.dev.outer } ∧ t.cores = s.cores
        ∧ t.clusters = s.clusters ∧ t.mem = s.mem ∧ t.dev.hostRead.length = n
        ∧ (s.stale ⟨k, n, 8, false⟩ ((s.outerView hostObs).bound ⟨k, n, 8, false⟩) = false →
            t.dev.hostRead = readCells s.mem k n))
      ∧ (s.keyWaits k n = true → exec (.hostWindowRead off n) s = .next s))
    ∧ (∀ off n, s.bar2Ok off n .read = false → exec (.hostWindowRead off n) s = .next (s.modDev fun d =>
        { d with hostRead := (upTo n).map fun _ => BitVec.allOnes 8, pcieErrors := d.pcieErrors + 1 }))
    ∧ (∀ q : Fin 8, ((s.cluster cl).queues.get q).owner = false → ∃ t, exec (.qtailWrite cl q v) s = .next t
      ∧ t.cores = s.cores ∧ t.mem = s.mem ∧ ∀ r : Fin 8, (t.cluster cl).queues.get r
        = if r = q then { (s.cluster cl).queues.get r with
            tail := BitVec.ofNat 16 (fld v.toNat 32 16 % ((s.cluster cl).queues.get r).slots) }
          else (s.cluster cl).queues.get r)
    ∧ (∀ n, n < 8 →
      let off := 0x100000 + 0x4000 * cl.val + 0x20 * n
      let q := vget (s.cluster cl).queues n
      exec (.registerWrite off v) s = .next (Claims.queueSet cl n
          { q with en := v.getLsbD 31, owner := v.getLsbD 30, size := if q.en then q.size else v.truncate 5 } s)
      ∧ exec (.registerWrite (off + 8) v) s = .next (Claims.queueSet cl n
          (if q.en then q else { q with base := v.extractLsb' 7 41 }) s)
      ∧ exec (.registerWrite (off + 16) v) s = .next (Claims.queueSet cl n
          (if q.en then q else { q with root := v.extractLsb' 12 40 }) s))
    ∧ (let w (off : Nat) (g : Device → Device) : Prop := exec (.registerWrite off v) s = .next (s.modDev g)
      w 0x000 (fun d => { d with fqbase := v.extractLsb' 7 41 }) ∧ w 0x008 (fun d => { d with fqsize := v.truncate 5 })
      ∧ (s.dev.inval = none → w 0x108 (fun d => { d with tinvRoot := v.extractLsb' 12 40 })
        ∧ w 0x110 (fun d => { d with tinvVa := v.extractLsb' 16 32 }) ∧ w 0x118 (fun d => { d with tinvLen := v.truncate 32 }))
      ∧ (s.dev.inval ≠ none → ∀ off ∈ [0x108, 0x110, 0x118], exec (.registerWrite off v) s = .next s)
      ∧ w 0x138 (fun d => { d with ptbase := v.extractLsb' 14 38 }) ∧ w 0x200 (fun d => { d with winbase := v.extractLsb' 36 16 })
      ∧ w 0x210 (fun d => { d with rwbase := v.extractLsb' 21 27 }) ∧ w 0x218 (fun d => { d with rwlen := v.truncate 32 })
      ∧ ∀ off ∈ [0x130, 0x150, 0x158, 0x160, 0x168, 0x170, 0x178, 0x180, 0x188, 0x208, 0x220],
        exec (.registerWrite off v) s = .next s)
    ∧ (let off (o : Nat) := 0x100000 + 0x4000 * cl.val + o
      exec (.registerWrite (off 0x360) v) s = .next (s.modCluster cl fun k => { k with gateidle := v.truncate 32 })
      ∧ ((s.cluster cl).slots = [] →
        exec (.registerWrite (off 0x300) v) s = .next (s.modCluster cl fun k => { k with spbase := v.extractLsb' 21 31 })
        ∧ exec (.registerWrite (off 0x308) v) s = .next (s.modCluster cl fun k => { k with spcount := v.truncate 10 }))
      ∧ ((s.cluster cl).slots ≠ [] → ∀ o ∈ [0x300, 0x308], exec (.registerWrite (off o) v) s = .next s)
      ∧ ∀ o ∈ [0x208, 0x310, 0x318, 0x320, 0x328, 0x330, 0x338, 0x340, 0x348, 0x358],
        exec (.registerWrite (off o) v) s = .next s)
    ∧ (∃ t, exec (.registerWrite 0x000 v) s = .next t ∧ t.registerRead 0x000 = v &&& 0xFFFFFFFFFF80)
    ∧ (s.dev.fqwait = [] → exec (.fqheadWrite v) s = .next (s.modDev fun d => { d with fqhead := v.truncate 16 }))
    ∧ (∀ b bs, s.dev.fqwait = b :: bs → s.dev.remapGo = false → (s.dev.fqtail.toNat + 1) % s.dev.fqSlots ≠ v.toNat % 2 ^ 16 →
      ∃ t, exec (.fqheadWrite v) s = .next t ∧ t.dev.fqhead = v.truncate 16 ∧ t.dev.fqwait.length ≤ bs.length)
    ∧ exec (.fqlostWrite v) s = .next (if v.truncate 32 = (0 : W32) then s.modDev fun d => { d with fqlost := 0 } else s)
    ∧ (Claims.JobCommand s cl v 0 → fld v.toNat 42 6 < 48 → (s.core (Claims.jobCore cl v)).job ≠ none →
      s.slotsSuffice (s.members (Claims.jobCore cl v)) = true → ∃ t, exec (.jcmdHalt cl v) s = .next t
        ∧ (t.cluster cl).jgo = true ∧ (∀ c ∈ s.members (Claims.jobCore cl v), (t.core c).stopReq = some true)
        ∧ ∀ c, t.ctx c = s.ctx c)
    ∧ (Claims.JobCommand s cl v 1 → s.dev.remapGo = false → fld v.toNat 42 6 < 48 → (s.core (Claims.jobCore cl v)).job ≠ none →
      ∃ t, exec (.jcmdKill cl v) s = .next t ∧ Claims.JobDone t cl 0
        ∧ ∀ c ∈ s.members (Claims.jobCore cl v), (t.core c).job = none)
    ∧ (∀ i ∈ [Instr.jcmdHalt cl v, .jcmdKill cl v],
      (Claims.JobCommand s cl v 0 ∧ i = .jcmdHalt cl v ∨ Claims.JobCommand s cl v 1 ∧ i = .jcmdKill cl v) →
      (48 ≤ fld v.toNat 42 6 ∨ (s.core (Claims.jobCore cl v)).job = none) → s.dev.remapGo = false →
      ∃ t, exec i s = .next t ∧ Claims.JobDone t cl 1 ∧ t.cores = s.cores)
    ∧ (∀ h, Claims.JobCommand s cl v 2 → s.dev.remapGo = false → s.haltedAt cl (fld v.toNat 0 9) = some h → fld v.toNat 27 5 < 24 →
      let u := vget (s.cluster (clusterAt (fld v.toNat 27 5))).queues (fld v.toNat 24 3)
      u.rootAddr = h.job.root → u.resume.length + (s.haltedGroup cl (fld v.toNat 0 9) h).length ≤ 64 →
      ∃ t, exec (.jcmdResume cl v) s = .next t ∧ Claims.JobDone t cl 0 ∧ t.cores = s.cores
        ∧ (vget (t.cluster (clusterAt (fld v.toNat 27 5))).queues (fld v.toNat 24 3)).resume
          = u.resume ++ (s.haltedGroup cl (fld v.toNat 0 9) h).map fun p => (p.1.val, p.2.1))
    ∧ (s.dev.remapGo = true → ∀ i ∈ [Instr.jcmdKill cl v, .jcmdResume cl v, .jcmdDiscardSlot cl v], exec i s = .next s)
    ∧ (∀ h, Claims.JobCommand s cl v 3 → s.dev.remapGo = false → s.haltedAt cl (fld v.toNat 0 9) = some h →
      ∃ t, exec (.jcmdDiscardSlot cl v) s = .next t ∧ Claims.JobDone t cl 0 ∧ t.cores = s.cores
        ∧ ∀ p, p ∈ (t.cluster cl).slots ↔ p ∈ (s.cluster cl).slots ∧ p.1 ≠ fld v.toNat 0 9)
    ∧ (∀ op, 4 ≤ op → Claims.JobCommand s cl v op →
      ∃ t, exec (.jcmdRejected cl v) s = .next t ∧ Claims.JobDone t cl 6 ∧ t.cores = s.cores ∧ t.mem = s.mem)

namespace Sys2Proof.Claims

/-- A mailbox command starts: the boot is done, none runs, and CMD is the one named (14 R436). -/
def MailCommand (s : State) (v : W64) (cmd : Nat) : Prop :=
  Up s ∧ s.dev.mail.go = false ∧ Go v ∧ fld v.toNat 0 16 = cmd

/-- A mailbox command has ended with an error code. -/
def MailDone (t : State) (err : Nat) : Prop := t.dev.mail.go = false ∧ t.dev.mail.err = err

/-- The cluster that ARG names. -/
def ArgCluster (v : W64) (cl : ClusterId) : Prop := fld v.toNat 16 8 = cl.val

/-- The cores of a cluster that the 8 bytes in the data area name. -/
def Masked (s : State) (cl : ClusterId) (c : CoreId) : Prop :=
  clusterOf c = cl ∧ (leNat (readCells s.mem (mailBase + 0x1000) 8)).testBit (coreIn c) = true

/-- The service state of a cluster changes, and nothing of memory. -/
def ServiceSet (s t : State) (cl : ClusterId) (x : Service) : Prop :=
  MailDone t 0 ∧ (t.cluster cl).service = x ∧ (t.cluster cl).queues = (s.cluster cl).queues

/-- Own HBM, the second tier, the host and other devices are kept: keys below the scratchpad windows (08 R267). -/
def OutsideKept (s t : State) (lo : Nat) : Prop :=
  ∀ a, lo ≤ a → a < 4 * 2 ^ 48 → readCell t.mem a = readCell s.mem a

/-- The boot status after a stretch of the sequence that begins with step n and ends with step `stop` at the latest, for the
firmware and tables that a mailbox holds: step 1 verifies one, step 2 the others; step 7, after it has called the cores, ends
with the last of their tests, at once where none was called (14 R444). -/
def bootAt (m : Mailbox) (n stop : Nat) (called : Bool) : Boot :=
  if stop < n then .running n
  else if n = 1 ∧ itemGood m m.thafy = false then .failed 1
  else if stop < 2 then .running 2
  else if n ≤ 2 ∧ (m.bed.toList.all (itemGood m) && m.optable.toList.all (itemGood m)) = false then .failed 2
  else if stop < 7 then .running (stop + 1)
  else if called then .running 8 else .done

/-- The sequence has reached the wakes of its last step, or its end. -/
def Booted (t : State) : Prop := t.dev.boot = .running 8 ∨ t.dev.boot = .done

/-- Some core has not tripped, so that the last step calls it (13 R418). -/
def anyToCall (s : State) : Bool := allCores.any fun c => !(s.core c).tripped

/-- The imposition entries of a core's fuse image, those soft-repaired not available (11 R363). -/
def FuseEntries (k t : Core) : Prop :=
  ∀ i, i < 64 → vget t.imp i = ⟨!k.softMask.getLsbD i, false, vget k.fuse i⟩

/-- A core after a warm reset: no job, no stream, no cached translation or control block; gated until the last boot step,
which then calls it, but for one that has not cooled since its trip; the imposition that of the fuse image from step 4 on
(13 R418, R425; 14 R444, R445; 11 R363). -/
def WarmCore (s t : State) (c : CoreId) : Prop :=
  (t.core c).job = none ∧ (t.core c).phase = .free ∧ (t.core c).tlb = [] ∧ (t.core c).cbc = []
    ∧ (∀ e, ((t.ctx c).stream e).st = .idle)
    ∧ (Booted t → (s.core c).tripped = false → (t.core c).power = .called)
    ∧ (¬Booted t ∨ (s.core c).tripped = true → (t.core c).power = .gated)
    ∧ (Booted t → FuseEntries (s.core c) (t.core c))

/-- A warm reset and a stretch of the boot sequence after it, from step n (14 R445). -/
def WarmReset (s t : State) (b : BootData) (n : Nat) : Prop :=
  t.dev.ticks = 0 ∧ t.dev.gen = s.dev.gen ∧ OutsideKept s t 0
    ∧ (∃ m, m = (match s.dev.mail.stagedThafy with
        | some f => if itemGood s.dev.mail f then { s.dev.mail with thafy := f } else s.dev.mail
        | none => s.dev.mail) ∧ t.dev.mail.thafy = m.thafy ∧ t.dev.boot = bootAt m n (min 7 b.stop) (anyToCall s))
    ∧ t.dev.mail.stagedThafy = none ∧ ∀ c, WarmCore s t c

/-- A core after a module reset: every item at its reset value but its fuses, its power and the imposition that follows them
(01 R15; 13 R425; 14 R444). -/
def ModuleCore (s t : State) (c : CoreId) : Prop :=
  t.core c = { State.reset.core c with fuse := (s.core c).fuse, imp := (t.core c).imp, power := (t.core c).power }
    ∧ (Booted t → (t.core c).power = .called ∧ FuseEntries { s.core c with softMask := 0 } (t.core c))
    ∧ (¬Booted t → (t.core c).power = .gated)

/-- A cluster after a module reset: every item at its reset value but its operating table and fuses, the core mapping that
follows those, and its clock, which the last step starts (01 R17; 11 R376; 14 R444). -/
def ModuleCluster (s t : State) (cl : ClusterId) : Prop :=
  let k := t.cluster cl
  k = { State.reset.cluster cl with
        table := (s.cluster cl).table, coreFuse := (s.cluster cl).coreFuse, coreMap := k.coreMap, fstep := k.fstep,
        ftgt := k.ftgt, ldo := k.ldo }
    ∧ (Booted t → k.coreMap = (s.cluster cl).coreFuse)

/-- The device's registers after a module reset: every one at its reset value but what the boot steps make, and the mailbox,
which keeps the installed firmware and tables and the rollback counter (14 R444, R446). -/
def ModuleDevice (s t : State) (b : BootData) : Prop :=
  t.dev = { State.reset.dev with
      boot := t.dev.boot, bedDelay := t.dev.bedDelay, live := t.dev.live, cxlList := t.dev.cxlList, cxlCap := t.dev.cxlCap,
      devnum := t.dev.devnum, routes := t.dev.routes,
      mail := { Mailbox.reset with
        thafy := s.dev.mail.thafy, bed := s.dev.mail.bed, optable := s.dev.mail.optable, rollback := s.dev.mail.rollback,
        boots := s.dev.mail.boots + 1 } }
    ∧ t.dev.boot = bootAt s.dev.mail 1 (min 7 b.stop) true
    ∧ (Booted t → t.dev.live = b.live ∧ t.dev.cxlList = b.ports ∧ t.dev.cxlCap.toNat = min b.pcap 768
        ∧ t.dev.devnum = b.devnum ∧ t.dev.routes = b.routes)

end Sys2Proof.Claims

/-- 14 R436, R438, R444–R449; 13 R425: the management mailbox. Each command ends with its error code: a cluster drains, is
tested, takes an item that verifies, and returns; cores are gated and woken; an attestation report is written to the data
area; a port is retrained; firmware is staged; an item that a remapping step or a sweep holds is waited for. An unknown command ends with 1, a cluster that is not there with 2, one in
another service state with 3. The model's choices
in it are those of log entries 15, 63, 73 and 74. -/
def Obligations.MailboxEvents : Prop :=
  ∀ (s : State) (v : W64),
    (Claims.MailCommand s v 1 → Memory.wf s.mem = true → ∃ t b, exec (.attest v) s = .next t ∧ Claims.MailDone t 0
      ∧ b = reportBody { s.dev with mail := { s.dev.mail with cmd := v &&& mgMask, go := true } }
          (readCells s.mem (mailBase + 0x1000) 32)
      ∧ readCells t.mem (mailBase + 0x1000) (b ++ (Config.signReport b).toList).length = b ++ (Config.signReport b).toList)
    ∧ (∀ cl, Claims.ArgCluster v cl →
      (Claims.MailCommand s v 3 →
        ((s.cluster cl).service = .inService → ∃ t, exec (.drainCluster v) s = .next t
          ∧ Claims.ServiceSet s t cl .draining ∧ t.cores = s.cores ∧ t.mem = s.mem)
        ∧ ((s.cluster cl).service ≠ .inService → ∃ t, exec (.drainCluster v) s = .next t ∧ Claims.MailDone t 3
          ∧ t.clusters = s.clusters))
      ∧ ((s.cluster cl).service = .draining → (∀ c, clusterOf c = cl → (s.core c).job = none) →
        exec (.drainComplete cl) s = .next (s.modCluster cl fun k => { k with service := .drained }))
      ∧ (Claims.MailCommand s v 4 → Memory.wf s.mem = true → (s.cluster cl).service = .drained → ∀ r : W64,
        ∃ t, exec (.testCluster v r) s = .next t ∧ Claims.ServiceSet s t cl .testing
          ∧ readCells t.mem (mailBase + 0x1000) 8 = leBytes 8 r.toNat)
      ∧ (∀ item kind, Claims.MailCommand s v 5 → s.itemWaits = false → (s.cluster cl).service = .drained →
        s.mailItem = some (item, kind) → itemGood s.dev.mail item = true →
        (kind = 0 → tableOk (parseTable item) = true → ∃ t, exec (.installIntoCluster v) s = .next t
          ∧ Claims.ServiceSet s t cl .testing ∧ (t.cluster cl).table = parseTable item
          ∧ vget t.dev.mail.optable cl.val = item)
        ∧ (kind = 1 → ∃ t, exec (.installIntoCluster v) s = .next t ∧ Claims.ServiceSet s t cl .testing
          ∧ vget t.dev.mail.bed cl.val = item ∧ (t.cluster cl).table = (s.cluster cl).table))
      ∧ (∀ item kind, Claims.MailCommand s v 5 → s.itemWaits = false → (s.cluster cl).service = .drained →
        s.mailItem = some (item, kind) → kind ≤ 1 → itemGood s.dev.mail item = false → ∃ t, exec (.installIntoCluster v) s = .next t
          ∧ Claims.MailDone t 4 ∧ t.clusters = s.clusters)
      ∧ (Claims.MailCommand s v 6 → (s.cluster cl).service = .drained ∨ (s.cluster cl).service = .testing →
        ∃ t, exec (.returnCluster v) s = .next t ∧ Claims.MailDone t 0 ∧ (t.cluster cl).service = .returning
          ∧ (t.cluster cl).coreMap = (s.cluster cl).coreFuse ∧ ∀ c, (clusterOf c = cl → (t.core c).power = (if (s.core c).tripped then .gated else .called) ∧ (t.core c).logicFailed = false
              ∧ (t.core c).failedTowers = []) ∧ (clusterOf c ≠ cl → t.core c = s.core c))
      ∧ (∀ i ∈ [Instr.testCluster v 0, .installIntoCluster v, .returnCluster v],
        (Claims.MailCommand s v 4 ∧ i = .testCluster v 0 ∨ Claims.MailCommand s v 5 ∧ i = .installIntoCluster v
          ∨ Claims.MailCommand s v 6 ∧ i = .returnCluster v) → (i = .installIntoCluster v → s.itemWaits = false) →
        (s.cluster cl).service ≠ .drained → (i = .returnCluster v → (s.cluster cl).service ≠ .testing) →
        ∃ t, exec i s = .next t ∧ Claims.MailDone t 3 ∧ t.cores = s.cores ∧ t.clusters = s.clusters ∧ t.mem = s.mem)
      ∧ (Claims.MailCommand s v 9 → ∃ t, exec (.gateCores v) s = .next t ∧ Claims.MailDone t 0 ∧ t.mem = s.mem
        ∧ ∀ c, (t.core c).ctx = (s.core c).ctx ∧ (Claims.Masked s cl c → Claims.Gateable s c → (t.core c).power = .gated)
          ∧ (¬(Claims.Masked s cl c ∧ Claims.Gateable s c) → t.core c = s.core c))
      ∧ (Claims.MailCommand s v 10 → ∃ t, exec (.wakeCores v) s = .next t ∧ Claims.MailDone t 0 ∧ t.mem = s.mem
        ∧ ∀ c, (Claims.Masked s cl c → (s.core c).power = .gated → (s.core c).tripped = false →
            (t.core c).power = .called)
          ∧ (¬(Claims.Masked s cl c ∧ (s.core c).power = .gated ∧ (s.core c).tripped = false) → t.core c = s.core c)))
    ∧ (s.itemWaits = true → exec (.installIntoCluster v) s = .next s ∧ exec (.stageThafyFirmware v) s = .next s)
    ∧ (∀ item kind, Claims.MailCommand s v 7 → s.itemWaits = false → s.mailItem = some (item, kind) →
      ∃ t, exec (.stageThafyFirmware v) s = .next t ∧ Claims.MailDone t 0 ∧ t.dev.mail.stagedThafy = some item
        ∧ t.cores = s.cores ∧ t.clusters = s.clusters ∧ t.mem = s.mem)
    ∧ (∀ ok, Claims.MailCommand s v 8 → fld v.toNat 16 8 < 8 → ∃ t, exec (.retrainCxlPort v ok) s = .next t
      ∧ Claims.MailDone t 0 ∧ t.cores = s.cores ∧ t.mem = s.mem
      ∧ ∀ i, i < 8 → t.dev.cxlDown.getLsbD i
          = (s.dev.cxlDown.getLsbD i && !(ok && decide (i = fld v.toNat 16 8))))
    ∧ (∀ n, Claims.MailCommand s v n → n = 0 ∨ 10 < n → ∃ t, exec (.unknownCommand v) s = .next t
      ∧ Claims.MailDone t 1 ∧ t.cores = s.cores ∧ t.clusters = s.clusters ∧ t.mem = s.mem)
    ∧ (∀ i ∈ [Instr.drainCluster v, .testCluster v 0, .installIntoCluster v, .returnCluster v, .gateCores v, .wakeCores v],
      (Claims.MailCommand s v 3 ∧ i = .drainCluster v ∨ Claims.MailCommand s v 4 ∧ i = .testCluster v 0 ∨ Claims.MailCommand s v 5 ∧ i = .installIntoCluster v
        ∨ Claims.MailCommand s v 6 ∧ i = .returnCluster v ∨ Claims.MailCommand s v 9 ∧ i = .gateCores v
        ∨ Claims.MailCommand s v 10 ∧ i = .wakeCores v) → (i = .installIntoCluster v → s.itemWaits = false) →
      24 ≤ fld v.toNat 16 8 → ∃ t, exec i s = .next t ∧ Claims.MailDone t 2 ∧ t.cores = s.cores ∧ t.clusters = s.clusters ∧ t.mem = s.mem)

/-- 11 R363, R376; 14 R429, R444, R445: the resets. A module reset leaves every register at its reset value and loses all
memory but the second tier, the host and other devices, and keeps the installed firmware and tables, the rollback counter and
the fuses; the boot sequence follows in its seven steps, of which an item that does not verify stops the first or second, and of
which the last ends with the last core's test; a warm reset, which the function-level reset is too, discards every job, keeps
HBM and GEN, and makes soft-repaired towers unavailable. TICKS starts at 0. The model's choices
in it are those of log entries 6, 13, 14, 67, 77 and 104. -/
def Obligations.ResetEvents : Prop :=
  ∀ (s : State) (b : BootData), Memory.wf s.mem = true →
    (b.start = 0 → ∃ t, exec (.moduleReset b) s = .next t ∧ t.dev.ticks = 0 ∧ t.plates = State.reset.plates
      ∧ (∀ c, Claims.ModuleCore s t c) ∧ (∀ cl, Claims.ModuleCluster s t cl) ∧ Claims.ModuleDevice s t b
      ∧ ∀ a, readCell t.mem a = if 2 ^ 48 ≤ a ∧ a < 4 * 2 ^ 48 then readCell s.mem a else 0)
    ∧ (∀ n, 0 < n → n ≤ 7 → b.start = n → s.dev.boot = .running n → ∃ t, exec (.moduleReset b) s = .next t
      ∧ t.dev.boot = Claims.bootAt s.dev.mail n (min 7 b.stop) (Claims.anyToCall s) ∧ t.dev.mail = s.dev.mail
      ∧ ∀ c, t.ctx c = s.ctx c)
    ∧ (∀ c, s.dev.boot = .running 8 → (s.core c).power = .waking →
      (∀ d, d ≠ c → (s.core d).power = .on ∨ (s.core d).power = .gated) →
      ∃ t, exec (.wakeTestResult c .pass) s = .next t ∧ t.dev.boot = .done)
    ∧ (b.start ≠ 0 → s.dev.boot ≠ .running b.start → exec (.moduleReset b) s = .next s)
    ∧ (s.dev.boot ≠ .failed 1 → ∃ t, exec (.functionLevelReset b) s = .next t
      ∧ Claims.WarmReset s t b (if s.dev.boot = .running 1 then 1 else 2))
    ∧ (s.dev.boot = .failed 1 → exec (.functionLevelReset b) s = .next s)
    ∧ ∀ v, Claims.MailCommand s v 2 → ∃ t, exec (.warmReset v b) s = .next t ∧ Claims.MailDone t 0
      ∧ Claims.WarmReset s t b 2

namespace Sys2Proof.Claims

/-- Two parcels of an engine are the word of an instruction. -/
def WordIs (e : Eng) (p0 p1 : W32) (i : Instr) : Prop := decode e (parcelBytes [p0, p1]) = .ok (i, []) ∧ i.wf = true

/-- The common fields of a word with no guard, no token and both policies `error`. -/
def plain : Common := ⟨0, false, 0, 0, false, false⟩

end Sys2Proof.Claims

/-- 03 R86, R94–R109: words of the five engines, written out from the encodings of chapter 03, decode to the instructions
they stand for; the fields of a patch word lie where its layout says, its reserved bits ignored. -/
def Obligations.DecodeWords : Prop :=
  Claims.WordIs .v 0x03105198 0x0C1C0200
    (.vfma ⟨{ Claims.plain with guard := 3, pop := 3 }, 4, 5, 6, 7, 0, 0, false, true, 0, 0⟩)
  ∧ Claims.WordIs .s 0x40189000 0x001A8018 (.ld ⟨Claims.plain, 6, 9, 0, 0, 0, 3, 1, 2, 0x18⟩)
  ∧ Claims.WordIs .s 0x34200000 0x00000004 (.call ⟨Claims.plain, 8, 0, 0, 0, 0, 4⟩)
  ∧ Claims.WordIs .s 0x59185000 0x0000000A (.launch ⟨Claims.plain, 6, 5, 0, 0, 0, 0xA⟩)
  ∧ Claims.WordIs .s 0x50005000 0x00000001 (.fork ⟨Claims.plain, 0, 5, 0, 0, 0, 1⟩)
  ∧ Claims.WordIs .m 0x00083100 0x00330200 (.mma ⟨Claims.plain, 2, 3, 4, 3, 3, 0, 0, false, true⟩)
  ∧ Claims.WordIs .p 0x00140801 0x00000200 (.pup ⟨Claims.plain, 5, 4, 1, 0, 8⟩)
  ∧ Claims.WordIs .c 0x00203000 0x00000400 (.cpy ⟨Claims.plain, 8, 3, false, 0x400⟩)
  ∧ Claims.WordIs .c 0x50000000 0x20000003 (.ctksend ⟨{ Claims.plain with push := 1 }, 0, 0, 0, 0, 0, 3⟩)
  ∧ decode .s (parcelBytes [0x8AC00018]) = .ok (.patch .s 5 12 0x18, [])
  ∧ (∀ (e : Eng) (tidx : BitVec 6) (fsel : BitVec 5) (reserved : BitVec 4) (value : BitVec 16) (rest : List Byte),
      decode e (parcelBytes [1#1 ++ tidx ++ fsel ++ reserved ++ value] ++ rest) = .ok (.patch e tidx fsel value, rest))
  ∧ ∀ (e : Eng) (p0 : W32), p0.getLsbD 31 = false → decode e (parcelBytes [p0]) = .error .truncated

/-- 03 R83–R102: decoding the parcels that encode a well-formed word gives the word back, with every field at every value
the encoding admits; a word has two parcels, a patch word one. -/
def Obligations.DecodeEncode : Prop :=
  ∀ (i : Instr) (e : Eng), i.eng = some e → i.wf = true →
    ∀ rest, decode e (parcelBytes (encode i) ++ rest) = .ok (i, rest)

namespace Sys2Proof.Claims

/-- The word of engine e of core c that waited to retire with `d` still to do has retired, and nothing else of s has changed but
performance counters: its push is made, nothing of it is left, and the stream goes on where it says (03 R92, R93; 04 R125). -/
structure Leaves (c : CoreId) (e : Eng) (d : Done) (s t : State) : Prop where
  outside : t = s.modCtx c fun _ => t.ctx c
  idle : ((t.ctx c).stream e).done = none ∧ ((t.ctx c).stream e).held = none
  seen : ((t.ctx c).stream e).view = ((s.ctx c).stream e).view
  fifos : (t.ctx c).fifos = match Eng.ofCode d.push.toNat with
    | none => (s.ctx c).fifos
    | some f => vset (s.ctx c).fifos (fifoIdx e f)
        ((s.ctx c).fifo e f ++ [⟨d.v, .good, ((s.ctx c).stream e).view.everyForm⟩])
  regs : (t.ctx c).sreg = (s.ctx c).sreg ∧ (t.ctx c).sfill = (s.ctx c).sfill ∧ (t.ctx c).m = (s.ctx c).m
    ∧ (t.ctx c).p = (s.ctx c).p ∧ (t.ctx c).v.regs = (s.ctx c).v.regs
  goes : match d.onto with
    | some a => ((t.ctx c).stream e).pc = a ∧ loopsOf (t.ctx c) e = loopsOf (s.ctx c) e
    | none => LoopTest e d.pc d.size (s.ctx c) (t.ctx c)

end Sys2Proof.Claims

/-- 03 R83, R87, R92; 01 R26, R44; 04 R125, R156; 12 R390; 13 R424: in a turn of a Running engine of a core whose job runs, where no trap is pending or being taken for S
and no stop that was asked for has reached the job, and the word at the PC lies in the engine's memory with no uncorrectable
parcel, the step executes the instruction its bytes decode to, after the correction of the bytes read; a turn of another
agent is that agent's step; a word outside the memory raises 0x01. Once the start of an interval, the last event of its
tick, is settled, every turn but that of the reference tick changes nothing (12 R390); a job that is to stop issues nothing
more (13 R424); and S, while a trap is being taken, enters the handler (04 R156). A stream whose word has had its effects and waits to retire
retires it once it may push, and goes on, with nothing of the effect made again (03 R92, R93; 01 R44). The model's choices
in it are those of log entries 2, 22, 32 and 86. -/
def Obligations.StepRunsDecodedInstruction : Prop :=
  ∀ (s s1 : State) (c : CoreId) (e : Eng),
    let k := s1.core c
    let pc := (k.ctx.stream e).pc
    let a := pc.toNat / 4 * 4
    let key := imemKey c e a
    let n := s1.wordLen c e a
    let closed := Claims.now s1 % 400 = 0 ∧ Claims.now s1 / 400 < s1.dev.intervalDone
    (s.takeTurn = (.issue c e, s1) → ¬closed → k.phase = .running → (k.ctx.stream e).st = .running →
      ((e = .s → k.ctx.trapping = none) → s1.stopsNow c = false →
        (e = .s → k.ctx.cr.tm = false → k.refresh.pendingTrap = none) →
        (k.ctx.stream e).parked = none →
        (s1.fetchFits c e a = true → s1.badData key n = false →
          ∀ i, decode e (readCells s1.mem key n) = .ok (i, []) →
            step s = exec i { s1.touch c key n with cur := c, patched := false })
        ∧ (s1.fetchFits c e a = false → step s = .next (raise c e (Trap.plain 0x01 pc) s1)))
      ∧ (∀ d, (e = .s → k.ctx.trapping = none) → s1.stopsNow c = false →
        (e = .s → k.ctx.cr.tm = false → k.refresh.pendingTrap = none) → (k.ctx.stream e).parked = some d →
        (pushReady e d.push k.ctx = true → ∃ t, step s = .next t ∧ Claims.Leaves c e d s1 t)
        ∧ (pushReady e d.push k.ctx = false → ∃ t, step s = .next t
          ∧ t = s1.modCtx c fun x => x.modStream e fun r => { r with snap := [] }))
      ∧ ((e = .s → k.ctx.trapping = none) → s1.stopsNow c = true → step s = .next s1)
      ∧ (∀ t, e = .s → k.ctx.trapping = some t → t.late = false → k.pwr.susp = false → unsettled k.ctx = false →
          step s = .next (s1.modCtx c trapEnter)))
    ∧ (∀ i, s.takeTurn = (.event i, s1) → i.eng = none → ¬closed ∨ i = .referenceTick → step s = exec i s1)
    ∧ (closed → ∀ t, s.takeTurn = (t, s1) → t ≠ .event .referenceTick → step s = .next s1)
    ∧ (∀ t ts, s.sched = t :: ts → s.takeTurn = (t, { s with sched := ts }))
    ∧ ∃ i, decode e (readCells s1.mem key n) = .ok (i, [])

/-- 01 R34; 04 R120, R140; 10 R326, R331, R334; 12 R386: what reset leaves. Memory is in canonical form and nothing is
listed in it; the hard-wired registers hold their values; TICKS is 0; every stream is Idle and every FIFO empty; every
launch queue is disabled, the fault queue empty, and every core has its 256 heat tokens. The model's choices
in it are those of log entries 3, 5, 6 and 13. -/
def Obligations.ResetState : Prop :=
  Safe State.reset ∧ State.reset.mem = [] ∧ State.reset.dev.ticks = 0
  ∧ (∀ c e, ((State.reset.ctx c).stream e).st = .idle) ∧ (∀ c i, vget (State.reset.ctx c).fifos i = [])
  ∧ (∀ cl q, (vget (State.reset.cluster cl).queues q).en = false)
  ∧ State.reset.dev.fqhead = State.reset.dev.fqtail ∧ (∀ c, (State.reset.core c).tok = 256)
  ∧ (∀ c, (State.reset.core c).job = none) ∧ ∀ c, (State.reset.ctx c).cr.tm = false

/-- 08 R267, 00 R6: every step keeps the canonical form of memory: one byte at each listed key, keys rising, and none
listed that reads as an unlisted one does. -/
def Obligations.StepKeepsMemoryCanonical : Prop :=
  ∀ s t : State, Memory.wf s.mem = true → step s = .next t → Memory.wf t.mem = true
end

