-- ==== Sys2Proof/Laws/Codec.lean ====
section
/-! SUPPORT. The layouts of words, taken apart and put together: the fields of the parcels that encode a word are the
word's (03 R83–R102). -/

set_option Elab.async false

namespace Sys2Proof

/-- A field that lies in the low part of two joined vectors, in the high part, or is the whole. -/
theorem extract_low {m n : Nat} (x : BitVec m) (y : BitVec n) (s l : Nat) (h : s + l ≤ n) :
    (x ++ y).extractLsb' s l = y.extractLsb' s l := by
  ext i hi
  simp only [BitVec.getElem_extractLsb', BitVec.getLsbD_append]
  rw [if_pos (by omega)]

theorem extract_high {m n : Nat} (x : BitVec m) (y : BitVec n) (s l : Nat) (h : n ≤ s) :
    (x ++ y).extractLsb' s l = x.extractLsb' (s - n) l := by
  ext i hi
  simp only [BitVec.getElem_extractLsb', BitVec.getLsbD_append]
  rw [if_neg (by omega)]
  congr 1
  omega

theorem extract_all {n : Nat} (x : BitVec n) : x.extractLsb' 0 n = x := by
  ext i hi
  simp

/-- The bytes of a parcel make the parcel. -/
theorem parcelOf_bytes (p : W32) :
    parcelOf (p.extractLsb' 0 8) (p.extractLsb' 8 8) (p.extractLsb' 16 8) (p.extractLsb' 24 8) = p := by
  unfold parcelOf
  ext i hi
  simp only [BitVec.getElem_append, BitVec.getElem_extractLsb']
  have h (a b : Nat) (q : a = b) : p.getLsbD a = p.getLsbD b := by rw [q]
  have hp : p[i] = p.getLsbD i := rfl
  repeat' split
  all_goals rw [hp]; exact h _ _ (by omega)

/-- A full word is decoded from its two parcels, a patch word from its one. -/
theorem decode_full (e : Eng) (p0 p1 : W32) (h : bitAt p0 31 = false) (rest : List Byte) :
    decode e (parcelBytes [p0, p1] ++ rest) = .ok (decodeFull e p0 p1, rest) := by
  simp only [parcelBytes, List.cons_append, List.nil_append, decode, parcelOf_bytes, h, Bool.false_eq_true, if_false]

theorem decode_patch (e : Eng) (p : W32) (h : bitAt p 31 = true) (rest : List Byte) :
    decode e (parcelBytes [p] ++ rest) = .ok (decodePatch e p, rest) := by
  simp only [parcelBytes, List.cons_append, List.nil_append, decode, parcelOf_bytes, h, if_true]

/-- A word whose opcode the engine's map gives a form. -/
theorem decode_form {e : Eng} {p0 p1 : W32} {op : Nat} {fm : Form} (hop : opcodeOf p0 = BitVec.ofNat 7 op)
    (hlt : Nat.ble op 127 = true) (h31 : bitAt p0 31 = false) (hm : (opMap e).lookup op = some fm) (rest : List Byte) :
    decode e (parcelBytes [p0, p1] ++ rest) = .ok (fm.build p0 p1, rest) := by
  rw [decode_full _ _ _ h31, decodeFull, hop, BitVec.toNat_ofNat, Nat.mod_eq_of_lt (Nat.lt_succ_of_le (Nat.le_of_ble_eq_true hlt)), hm]

/-- Kind and opcode of parcel 0. -/
theorem parcel0_bit31 (op : Nat) (a b c : BitVec 6) (w : Common) (low : BitVec 2) :
    bitAt (parcel0 op a b c w low) 31 = false := by
  simp only [bitAt, parcel0, BitVec.getLsbD_append]
  rfl

theorem parcel0_opcode (op : Nat) (a b c : BitVec 6) (w : Common) (low : BitVec 2) :
    opcodeOf (parcel0 op a b c w low) = BitVec.ofNat 7 op := by
  simp (disch := decide) only [opcodeOf, parcel0, extract_low, extract_high]
  exact extract_all _

variable {e : Eng} {op : Nat}

theorem rrr_decodes {mk : FRrr → Instr} (hlt : Nat.ble op 127 = true) (hm : (opMap e).lookup op = some (.rrr mk)) (f : FRrr)
    (rest : List Byte) : decode e (parcelBytes (rrrWords op f) ++ rest) = .ok (mk f, rest) := by
  rw [rrrWords, decode_form (parcel0_opcode ..) hlt (parcel0_bit31 ..) hm, Form.build]
  congr 3
  obtain ⟨⟨g, gi, pu, po, ea, eb⟩, fd, fa, fb, fc, fmt, rm, sat, prf, sub, aux⟩ := f
  simp (disch := decide) only [rrrOf, commonOf, parcel0, parcel1, bitAt, extract_low, extract_high,
    BitVec.getLsbD_append]
  simp

theorem rri_decodes {mk : FRri → Instr} (hlt : Nat.ble op 127 = true) (hm : (opMap e).lookup op = some (.rri mk)) (f : FRri)
    (rest : List Byte) : decode e (parcelBytes (rriWords op f) ++ rest) = .ok (mk f, rest) := by
  rw [rriWords, decode_form (parcel0_opcode ..) hlt (parcel0_bit31 ..) hm, Form.build]
  congr 3
  obtain ⟨⟨g, gi, pu, po, ea, eb⟩, fd, fa, sub, fmt, imm⟩ := f
  simp (disch := decide) only [rriOf, commonOf, parcel0, parcel1, bitAt, extract_low, extract_high,
    BitVec.getLsbD_append]
  simp

theorem br_decodes {mk : FBr → Instr} (hlt : Nat.ble op 127 = true) (hm : (opMap e).lookup op = some (.br mk)) (f : FBr)
    (rest : List Byte) : decode e (parcelBytes (brWords op f) ++ rest) = .ok (mk f, rest) := by
  rw [brWords, decode_form (parcel0_opcode ..) hlt (parcel0_bit31 ..) hm, Form.build]
  congr 3
  obtain ⟨⟨g, gi, pu, po, ea, eb⟩, fd, fa, fb, lvl, cond, off⟩ := f
  simp (disch := decide) only [brOf, commonOf, parcel0, parcel1, bitAt, extract_low, extract_high,
    BitVec.getLsbD_append]
  simp

theorem mem_decodes {mk : FMem → Instr} (hlt : Nat.ble op 127 = true) (hm : (opMap e).lookup op = some (.mem mk)) (f : FMem)
    (rest : List Byte) : decode e (parcelBytes (memWords op f) ++ rest) = .ok (mk f, rest) := by
  rw [memWords, decode_form (parcel0_opcode ..) hlt (parcel0_bit31 ..) hm, Form.build]
  congr 3
  obtain ⟨⟨g, gi, pu, po, ea, eb⟩, fd, fa, fb, mode, space, size, order, scope, disp⟩ := f
  simp (disch := decide) only [memOf, commonOf, parcel0, parcel1, bitAt, extract_low, extract_high,
    BitVec.getLsbD_append]
  simp

theorem sys_decodes {mk : FSys → Instr} (hlt : Nat.ble op 127 = true) (hm : (opMap e).lookup op = some (.sys mk)) (f : FSys)
    (rest : List Byte) : decode e (parcelBytes (sysWords op f) ++ rest) = .ok (mk f, rest) := by
  rw [sysWords, decode_form (parcel0_opcode ..) hlt (parcel0_bit31 ..) hm, Form.build]
  congr 3
  obtain ⟨⟨g, gi, pu, po, ea, eb⟩, fd, fa, fb, sub, cr, imm⟩ := f
  simp (disch := decide) only [sysOf, commonOf, parcel0, parcel1, bitAt, extract_low, extract_high,
    BitVec.getLsbD_append]
  simp

theorem mma_decodes {mk : FMma → Instr} (hlt : Nat.ble op 127 = true) (hm : (opMap e).lookup op = some (.mma mk)) (f : FMma)
    (rest : List Byte) : decode e (parcelBytes (mmaWords op f) ++ rest) = .ok (mk f, rest) := by
  rw [mmaWords, decode_form (parcel0_opcode ..) hlt (parcel0_bit31 ..) hm, Form.build]
  congr 3
  obtain ⟨⟨g, gi, pu, po, ea, eb⟩, fd, fa, fb, fmta, fmtb, spar, rm, sat, clr⟩ := f
  simp (disch := decide) only [mmaOf, commonOf, parcel0, parcel1, bitAt, extract_low, extract_high,
    BitVec.getLsbD_append]
  simp

theorem spe_decodes {mk : FSpe → Instr} (hlt : Nat.ble op 127 = true) (hm : (opMap e).lookup op = some (.spe mk)) (f : FSpe)
    (rest : List Byte) : decode e (parcelBytes (speWords op f) ++ rest) = .ok (mk f, rest) := by
  rw [speWords, decode_form (op := op) ?_ hlt ?_ hm, Form.build]
  · congr 3
    obtain ⟨⟨g, gi, pu, po, ea, eb⟩, shape, basew, flg, basel, baseo⟩ := f
    simp (disch := decide) only [speOf, commonOf, parcel1, bitAt, extract_low, extract_high, BitVec.getLsbD_append]
    simp
  · simp (disch := decide) only [opcodeOf, extract_low, extract_high]
    exact extract_all _
  · simp only [bitAt, BitVec.getLsbD_append]
    rfl

theorem cpy_decodes {mk : FCpy → Instr} (hlt : Nat.ble op 127 = true) (hm : (opMap e).lookup op = some (.cpy mk)) (f : FCpy)
    (rest : List Byte) : decode e (parcelBytes (cpyWords op f) ++ rest) = .ok (mk f, rest) := by
  rw [cpyWords, decode_form (parcel0_opcode ..) hlt (parcel0_bit31 ..) hm, Form.build]
  congr 3
  obtain ⟨⟨g, gi, pu, po, ea, eb⟩, unit, tag, ix, dsc⟩ := f
  simp (disch := decide) only [cpyOf, commonOf, parcel0, parcel1, bitAt, extract_low, extract_high,
    BitVec.getLsbD_append]
  simp

/-- The common fields of a word without other fields. -/
theorem commonOf_hint (w : Common) : commonOf (parcel0 op 0 0 0 w 0) (parcel1 w 0) = w := by
  obtain ⟨g, gi, pu, po, ea, eb⟩ := w
  simp (disch := decide) only [commonOf, parcel0, parcel1, bitAt, extract_low, extract_high, BitVec.getLsbD_append]
  simp

theorem hint_decodes {mk : Common → Instr} (hlt : Nat.ble op 127 = true) (hm : (opMap e).lookup op = some (.hint mk)) (w : Common)
    (rest : List Byte) : decode e (parcelBytes (hintWords op w) ++ rest) = .ok (mk w, rest) := by
  rw [hintWords, decode_form (parcel0_opcode ..) hlt (parcel0_bit31 ..) hm, Form.build, commonOf_hint]

/-- A word whose opcode the map does not hold: another hint, or an unassigned opcode. -/
theorem other_decodes (hlt : Nat.ble op 127 = true) (hm : (opMap e).lookup op = none) (w : Common) (rest : List Byte) :
    decode e (parcelBytes (hintWords op w) ++ rest) = .ok (if 0x78 ≤ op then .hint e (BitVec.ofNat 7 op) w
      else .unassignedOpcode e (BitVec.ofNat 7 op) w, rest) := by
  rw [hintWords, decode_full _ _ _ (parcel0_bit31 ..), decodeFull, parcel0_opcode, BitVec.toNat_ofNat,
    Nat.mod_eq_of_lt (Nat.lt_succ_of_le (Nat.le_of_ble_eq_true hlt)), hm, commonOf_hint]

theorem patch_decodes (e : Eng) (t : BitVec 6) (s : BitVec 5) (v : BitVec 16) (rest : List Byte) :
    decode e (parcelBytes [1#1 ++ t ++ s ++ 0#4 ++ v] ++ rest) = .ok (.patch e t s v, rest) := by
  have h : bitAt (1#1 ++ t ++ s ++ 0#4 ++ v) 31 = true := by
    simp only [bitAt, BitVec.getLsbD_append]
    rfl
  rw [decode_patch _ _ h]
  congr 2
  rw [decodePatch]
  congr 1
  · rw [extract_high _ _ _ _ (by decide), extract_high _ _ _ _ (by decide), extract_high _ _ _ _ (by decide),
      extract_low _ _ _ _ (by decide)]
    exact extract_all t
  · rw [extract_high _ _ _ _ (by decide), extract_high _ _ _ _ (by decide), extract_low _ _ _ _ (by decide)]
    exact extract_all s
  · rw [extract_low _ _ _ _ (by decide)]
    exact extract_all v

/-- The maps hold no opcode that is a hint of no engine, and none that is unassigned. -/
theorem hint_unmapped : ∀ (e : Eng) (op : Fin 128), 0x79 ≤ op.val → (opMap e).lookup op.val = none := by
  intro e op h
  cases e <;> revert op <;> decide

theorem unassigned_unmapped : ∀ (e : Eng) (op : Fin 128), unassignedOp e (BitVec.ofNat 7 op.val) = true →
    (opMap e).lookup op.val = none := by
  intro e op h
  cases e <;> revert op <;> decide

theorem unassigned_below (e : Eng) (op : BitVec 7) (h : unassignedOp e op = true) : op.toNat < 0x78 := by
  simp only [unassignedOp, Bool.and_eq_true, decide_eq_true_eq] at h
  exact h.1

end Sys2Proof
end

