-- ==== Sys2Proof/Laws/State.lean ====
section
/-! SUPPORT. The small lemmas of the named updates of State: what each leaves alone, field by field, and what the part
it changes reads as afterwards. -/

namespace Sys2Proof.Machine

/-! Vectors by number. -/

theorem vec_get {α : Type} {n : Nat} (v : Vector α n) (i : Fin n) : v.get i = v[i.val] := rfl

@[simp] theorem vget_vset_self {α : Type} {n : Nat} [NeZero n] (v : Vector α n) (i : Nat) (x : α) :
    vget (vset v i x) i = x := by
  simp [vget, vset, vec_get]

theorem vget_vset_ne {α : Type} {n : Nat} [NeZero n] (v : Vector α n) (i j : Nat) (x : α) (h : i % n ≠ j % n) :
    vget (vset v i x) j = vget v j := by
  simp [vget, vset, vec_get, Fin.ofNat, h]

theorem vget_vset {α : Type} {n : Nat} [NeZero n] (v : Vector α n) (i j : Nat) (x : α) :
    vget (vset v i x) j = if i % n = j % n then x else vget v j := by
  simp [vget, vset, vec_get, Fin.ofNat, Vector.getElem_set]

@[simp] theorem vset_vget_self {α : Type} {n : Nat} [NeZero n] (v : Vector α n) (i : Nat) : vset v i (vget v i) = v := by
  simp [vget, vset, vec_get]

@[simp] theorem vset_vset {α : Type} {n : Nat} [NeZero n] (v : Vector α n) (i : Nat) (x y : α) :
    vset (vset v i x) i y = vset v i y := by
  simp [vset, Vector.set_set]

/-! Parts of the state. -/

@[simp] theorem State.setCore_clusters (s : State) (c : CoreId) (k : Core) : (s.setCore c k).clusters = s.clusters := rfl
@[simp] theorem State.setCore_plates (s : State) (c : CoreId) (k : Core) : (s.setCore c k).plates = s.plates := rfl
@[simp] theorem State.setCore_dev (s : State) (c : CoreId) (k : Core) : (s.setCore c k).dev = s.dev := rfl
@[simp] theorem State.setCore_mem (s : State) (c : CoreId) (k : Core) : (s.setCore c k).mem = s.mem := rfl
@[simp] theorem State.setCore_memErr (s : State) (c : CoreId) (k : Core) : (s.setCore c k).memErr = s.memErr := rfl
@[simp] theorem State.setCore_sched (s : State) (c : CoreId) (k : Core) : (s.setCore c k).sched = s.sched := rfl
@[simp] theorem State.setCore_turns (s : State) (c : CoreId) (k : Core) : (s.setCore c k).turns = s.turns := rfl
@[simp] theorem State.setCore_draw (s : State) (c : CoreId) (k : Core) : (s.setCore c k).draw = s.draw := rfl
@[simp] theorem State.setCore_cur (s : State) (c : CoreId) (k : Core) : (s.setCore c k).cur = s.cur := rfl
@[simp] theorem State.setCore_patched (s : State) (c : CoreId) (k : Core) : (s.setCore c k).patched = s.patched := rfl
@[simp] theorem State.setCore_stamp (s : State) (c : CoreId) (k : Core) : (s.setCore c k).stamp = s.stamp := rfl
@[simp] theorem State.setCore_old (s : State) (c : CoreId) (k : Core) : (s.setCore c k).old = s.old := rfl
@[simp] theorem State.setCore_rels (s : State) (c : CoreId) (k : Core) : (s.setCore c k).rels = s.rels := rfl
@[simp] theorem State.setCore_scs (s : State) (c : CoreId) (k : Core) : (s.setCore c k).scs = s.scs := rfl

@[simp] theorem State.modCore_clusters (s : State) (c : CoreId) (f : Core → Core) : (s.modCore c f).clusters = s.clusters := rfl
@[simp] theorem State.modCore_plates (s : State) (c : CoreId) (f : Core → Core) : (s.modCore c f).plates = s.plates := rfl
@[simp] theorem State.modCore_dev (s : State) (c : CoreId) (f : Core → Core) : (s.modCore c f).dev = s.dev := rfl
@[simp] theorem State.modCore_mem (s : State) (c : CoreId) (f : Core → Core) : (s.modCore c f).mem = s.mem := rfl
@[simp] theorem State.modCore_memErr (s : State) (c : CoreId) (f : Core → Core) : (s.modCore c f).memErr = s.memErr := rfl
@[simp] theorem State.modCore_sched (s : State) (c : CoreId) (f : Core → Core) : (s.modCore c f).sched = s.sched := rfl
@[simp] theorem State.modCore_turns (s : State) (c : CoreId) (f : Core → Core) : (s.modCore c f).turns = s.turns := rfl
@[simp] theorem State.modCore_draw (s : State) (c : CoreId) (f : Core → Core) : (s.modCore c f).draw = s.draw := rfl
@[simp] theorem State.modCore_cur (s : State) (c : CoreId) (f : Core → Core) : (s.modCore c f).cur = s.cur := rfl
@[simp] theorem State.modCore_patched (s : State) (c : CoreId) (f : Core → Core) : (s.modCore c f).patched = s.patched := rfl
@[simp] theorem State.modCore_stamp (s : State) (c : CoreId) (f : Core → Core) : (s.modCore c f).stamp = s.stamp := rfl
@[simp] theorem State.modCore_old (s : State) (c : CoreId) (f : Core → Core) : (s.modCore c f).old = s.old := rfl
@[simp] theorem State.modCore_rels (s : State) (c : CoreId) (f : Core → Core) : (s.modCore c f).rels = s.rels := rfl
@[simp] theorem State.modCore_scs (s : State) (c : CoreId) (f : Core → Core) : (s.modCore c f).scs = s.scs := rfl

@[simp] theorem State.modCtx_clusters (s : State) (c : CoreId) (f : Ctx → Ctx) : (s.modCtx c f).clusters = s.clusters := rfl
@[simp] theorem State.modCtx_plates (s : State) (c : CoreId) (f : Ctx → Ctx) : (s.modCtx c f).plates = s.plates := rfl
@[simp] theorem State.modCtx_dev (s : State) (c : CoreId) (f : Ctx → Ctx) : (s.modCtx c f).dev = s.dev := rfl
@[simp] theorem State.modCtx_mem (s : State) (c : CoreId) (f : Ctx → Ctx) : (s.modCtx c f).mem = s.mem := rfl
@[simp] theorem State.modCtx_memErr (s : State) (c : CoreId) (f : Ctx → Ctx) : (s.modCtx c f).memErr = s.memErr := rfl
@[simp] theorem State.modCtx_sched (s : State) (c : CoreId) (f : Ctx → Ctx) : (s.modCtx c f).sched = s.sched := rfl
@[simp] theorem State.modCtx_turns (s : State) (c : CoreId) (f : Ctx → Ctx) : (s.modCtx c f).turns = s.turns := rfl
@[simp] theorem State.modCtx_draw (s : State) (c : CoreId) (f : Ctx → Ctx) : (s.modCtx c f).draw = s.draw := rfl
@[simp] theorem State.modCtx_cur (s : State) (c : CoreId) (f : Ctx → Ctx) : (s.modCtx c f).cur = s.cur := rfl
@[simp] theorem State.modCtx_patched (s : State) (c : CoreId) (f : Ctx → Ctx) : (s.modCtx c f).patched = s.patched := rfl
@[simp] theorem State.modCtx_stamp (s : State) (c : CoreId) (f : Ctx → Ctx) : (s.modCtx c f).stamp = s.stamp := rfl
@[simp] theorem State.modCtx_old (s : State) (c : CoreId) (f : Ctx → Ctx) : (s.modCtx c f).old = s.old := rfl
@[simp] theorem State.modCtx_rels (s : State) (c : CoreId) (f : Ctx → Ctx) : (s.modCtx c f).rels = s.rels := rfl
@[simp] theorem State.modCtx_scs (s : State) (c : CoreId) (f : Ctx → Ctx) : (s.modCtx c f).scs = s.scs := rfl

@[simp] theorem State.modCluster_cores (s : State) (cl : ClusterId) (f : Cluster → Cluster) : (s.modCluster cl f).cores = s.cores := rfl
@[simp] theorem State.modCluster_plates (s : State) (cl : ClusterId) (f : Cluster → Cluster) : (s.modCluster cl f).plates = s.plates := rfl
@[simp] theorem State.modCluster_dev (s : State) (cl : ClusterId) (f : Cluster → Cluster) : (s.modCluster cl f).dev = s.dev := rfl
@[simp] theorem State.modCluster_mem (s : State) (cl : ClusterId) (f : Cluster → Cluster) : (s.modCluster cl f).mem = s.mem := rfl
@[simp] theorem State.modCluster_memErr (s : State) (cl : ClusterId) (f : Cluster → Cluster) : (s.modCluster cl f).memErr = s.memErr := rfl
@[simp] theorem State.modCluster_sched (s : State) (cl : ClusterId) (f : Cluster → Cluster) : (s.modCluster cl f).sched = s.sched := rfl
@[simp] theorem State.modCluster_turns (s : State) (cl : ClusterId) (f : Cluster → Cluster) : (s.modCluster cl f).turns = s.turns := rfl
@[simp] theorem State.modCluster_draw (s : State) (cl : ClusterId) (f : Cluster → Cluster) : (s.modCluster cl f).draw = s.draw := rfl
@[simp] theorem State.modCluster_cur (s : State) (cl : ClusterId) (f : Cluster → Cluster) : (s.modCluster cl f).cur = s.cur := rfl
@[simp] theorem State.modCluster_patched (s : State) (cl : ClusterId) (f : Cluster → Cluster) : (s.modCluster cl f).patched = s.patched := rfl
@[simp] theorem State.modCluster_stamp (s : State) (cl : ClusterId) (f : Cluster → Cluster) : (s.modCluster cl f).stamp = s.stamp := rfl
@[simp] theorem State.modCluster_old (s : State) (cl : ClusterId) (f : Cluster → Cluster) : (s.modCluster cl f).old = s.old := rfl
@[simp] theorem State.modCluster_rels (s : State) (cl : ClusterId) (f : Cluster → Cluster) : (s.modCluster cl f).rels = s.rels := rfl
@[simp] theorem State.modCluster_scs (s : State) (cl : ClusterId) (f : Cluster → Cluster) : (s.modCluster cl f).scs = s.scs := rfl

@[simp] theorem State.modPlate_cores (s : State) (p : PlateId) (f : Plate → Plate) : (s.modPlate p f).cores = s.cores := rfl
@[simp] theorem State.modPlate_clusters (s : State) (p : PlateId) (f : Plate → Plate) : (s.modPlate p f).clusters = s.clusters := rfl
@[simp] theorem State.modPlate_dev (s : State) (p : PlateId) (f : Plate → Plate) : (s.modPlate p f).dev = s.dev := rfl
@[simp] theorem State.modPlate_mem (s : State) (p : PlateId) (f : Plate → Plate) : (s.modPlate p f).mem = s.mem := rfl
@[simp] theorem State.modPlate_memErr (s : State) (p : PlateId) (f : Plate → Plate) : (s.modPlate p f).memErr = s.memErr := rfl
@[simp] theorem State.modPlate_sched (s : State) (p : PlateId) (f : Plate → Plate) : (s.modPlate p f).sched = s.sched := rfl
@[simp] theorem State.modPlate_turns (s : State) (p : PlateId) (f : Plate → Plate) : (s.modPlate p f).turns = s.turns := rfl
@[simp] theorem State.modPlate_draw (s : State) (p : PlateId) (f : Plate → Plate) : (s.modPlate p f).draw = s.draw := rfl
@[simp] theorem State.modPlate_cur (s : State) (p : PlateId) (f : Plate → Plate) : (s.modPlate p f).cur = s.cur := rfl
@[simp] theorem State.modPlate_patched (s : State) (p : PlateId) (f : Plate → Plate) : (s.modPlate p f).patched = s.patched := rfl
@[simp] theorem State.modPlate_stamp (s : State) (p : PlateId) (f : Plate → Plate) : (s.modPlate p f).stamp = s.stamp := rfl
@[simp] theorem State.modPlate_old (s : State) (p : PlateId) (f : Plate → Plate) : (s.modPlate p f).old = s.old := rfl
@[simp] theorem State.modPlate_rels (s : State) (p : PlateId) (f : Plate → Plate) : (s.modPlate p f).rels = s.rels := rfl
@[simp] theorem State.modPlate_scs (s : State) (p : PlateId) (f : Plate → Plate) : (s.modPlate p f).scs = s.scs := rfl

@[simp] theorem State.modDev_cores (s : State) (f : Device → Device) : (s.modDev f).cores = s.cores := rfl
@[simp] theorem State.modDev_clusters (s : State) (f : Device → Device) : (s.modDev f).clusters = s.clusters := rfl
@[simp] theorem State.modDev_plates (s : State) (f : Device → Device) : (s.modDev f).plates = s.plates := rfl
@[simp] theorem State.modDev_mem (s : State) (f : Device → Device) : (s.modDev f).mem = s.mem := rfl
@[simp] theorem State.modDev_memErr (s : State) (f : Device → Device) : (s.modDev f).memErr = s.memErr := rfl
@[simp] theorem State.modDev_sched (s : State) (f : Device → Device) : (s.modDev f).sched = s.sched := rfl
@[simp] theorem State.modDev_turns (s : State) (f : Device → Device) : (s.modDev f).turns = s.turns := rfl
@[simp] theorem State.modDev_draw (s : State) (f : Device → Device) : (s.modDev f).draw = s.draw := rfl
@[simp] theorem State.modDev_cur (s : State) (f : Device → Device) : (s.modDev f).cur = s.cur := rfl
@[simp] theorem State.modDev_patched (s : State) (f : Device → Device) : (s.modDev f).patched = s.patched := rfl
@[simp] theorem State.modDev_stamp (s : State) (f : Device → Device) : (s.modDev f).stamp = s.stamp := rfl
@[simp] theorem State.modDev_old (s : State) (f : Device → Device) : (s.modDev f).old = s.old := rfl
@[simp] theorem State.modDev_rels (s : State) (f : Device → Device) : (s.modDev f).rels = s.rels := rfl
@[simp] theorem State.modDev_scs (s : State) (f : Device → Device) : (s.modDev f).scs = s.scs := rfl

@[simp] theorem State.modDev_dev (s : State) (f : Device → Device) : (s.modDev f).dev = f s.dev := rfl

/-! Reading a part back. -/

@[simp] theorem State.core_setCore (s : State) (c : CoreId) (k : Core) : (s.setCore c k).core c = k := by
  simp [State.core, State.setCore, vec_get]

theorem State.core_setCore_ne (s : State) {c d : CoreId} (k : Core) (h : c ≠ d) : (s.setCore c k).core d = s.core d := by
  have : c.val ≠ d.val := fun e => h (Fin.ext e)
  simp [State.core, State.setCore, vec_get, this]

@[simp] theorem State.core_modCore (s : State) (c : CoreId) (f : Core → Core) : (s.modCore c f).core c = f (s.core c) := by
  simp [State.modCore]

theorem State.core_modCore_ne (s : State) {c d : CoreId} (f : Core → Core) (h : c ≠ d) :
    (s.modCore c f).core d = s.core d := by
  simp [State.modCore, State.core_setCore_ne _ _ h]

@[simp] theorem State.ctx_modCtx (s : State) (c : CoreId) (f : Ctx → Ctx) : (s.modCtx c f).ctx c = f (s.ctx c) := by
  simp [State.modCtx, State.ctx]

@[simp] theorem State.core_modCtx (s : State) (c : CoreId) (f : Ctx → Ctx) :
    (s.modCtx c f).core c = { s.core c with ctx := f (s.core c).ctx } := by
  simp [State.modCtx]

theorem State.core_modCtx_ne (s : State) {c d : CoreId} (f : Ctx → Ctx) (h : c ≠ d) :
    (s.modCtx c f).core d = s.core d := by
  simp [State.modCtx, State.core_modCore_ne _ _ h]

theorem State.ctx_modCtx_ne (s : State) {c d : CoreId} (f : Ctx → Ctx) (h : c ≠ d) : (s.modCtx c f).ctx d = s.ctx d := by
  simp [State.ctx, State.core_modCtx_ne _ _ h]

theorem State.setCore_setCore (s : State) (c : CoreId) (k l : Core) : (s.setCore c k).setCore c l = s.setCore c l := by
  simp [State.setCore, Vector.set_set]

@[simp] theorem State.setCore_core (s : State) (c : CoreId) : s.setCore c (s.core c) = s := by
  simp [State.core, State.setCore, vec_get]

/-- Two changes of one context are one change. -/
@[simp] theorem State.modCtx_modCtx (s : State) (c : CoreId) (f g : Ctx → Ctx) :
    (s.modCtx c f).modCtx c g = s.modCtx c fun x => g (f x) := by
  simp [State.modCtx, State.modCore, State.setCore_setCore]

@[simp] theorem State.modCtx_id (s : State) (c : CoreId) : (s.modCtx c fun x => x) = s :=
  State.setCore_core s c

/-- A context replaced by itself. -/
theorem State.modCtx_self (s : State) (c : CoreId) : (s.modCtx c fun _ => s.ctx c) = s := by
  rw [show (s.modCtx c fun _ => s.ctx c) = s.modCtx c fun x => x from rfl, State.modCtx_id]

/-- A change of a context depends only on what it makes of the context. -/
theorem State.modCtx_congr (s : State) (c : CoreId) {f g : Ctx → Ctx} (h : f (s.ctx c) = g (s.ctx c)) :
    s.modCtx c f = s.modCtx c g := by
  simp only [State.modCtx, State.modCore, State.ctx] at *
  rw [h]

@[simp] theorem State.cluster_modCluster (s : State) (cl : ClusterId) (f : Cluster → Cluster) :
    (s.modCluster cl f).cluster cl = f (s.cluster cl) := by
  simp [State.cluster, State.modCluster, vec_get]

theorem State.cluster_modCluster_ne (s : State) {cl d : ClusterId} (f : Cluster → Cluster) (h : cl ≠ d) :
    (s.modCluster cl f).cluster d = s.cluster d := by
  have : cl.val ≠ d.val := fun e => h (Fin.ext e)
  simp [State.cluster, State.modCluster, vec_get, this]

@[simp] theorem State.plate_modPlate (s : State) (p : PlateId) (f : Plate → Plate) :
    (s.modPlate p f).plate p = f (s.plate p) := by
  simp [State.plate, State.modPlate, vec_get]

@[simp] theorem State.ctx_modCluster (s : State) (cl : ClusterId) (f : Cluster → Cluster) (c : CoreId) :
    (s.modCluster cl f).ctx c = s.ctx c := rfl

@[simp] theorem State.ctx_modPlate (s : State) (p : PlateId) (f : Plate → Plate) (c : CoreId) :
    (s.modPlate p f).ctx c = s.ctx c := rfl

@[simp] theorem State.ctx_modDev (s : State) (f : Device → Device) (c : CoreId) : (s.modDev f).ctx c = s.ctx c := rfl

@[simp] theorem State.core_modCluster (s : State) (cl : ClusterId) (f : Cluster → Cluster) (c : CoreId) :
    (s.modCluster cl f).core c = s.core c := rfl

@[simp] theorem State.core_modPlate (s : State) (p : PlateId) (f : Plate → Plate) (c : CoreId) :
    (s.modPlate p f).core c = s.core c := rfl

@[simp] theorem State.core_modDev (s : State) (f : Device → Device) (c : CoreId) : (s.modDev f).core c = s.core c := rfl

/-! Parts of a context. -/

@[simp] theorem Ctx.modStream_sreg (x : Ctx) (e : Eng) (g : Stream → Stream) : (x.modStream e g).sreg = x.sreg := rfl
@[simp] theorem Ctx.modStream_sfill (x : Ctx) (e : Eng) (g : Stream → Stream) : (x.modStream e g).sfill = x.sfill := rfl
@[simp] theorem Ctx.modStream_bank1 (x : Ctx) (e : Eng) (g : Stream → Stream) : (x.modStream e g).bank1 = x.bank1 := rfl
@[simp] theorem Ctx.modStream_aside (x : Ctx) (e : Eng) (g : Stream → Stream) : (x.modStream e g).aside = x.aside := rfl
@[simp] theorem Ctx.modStream_asideDone (x : Ctx) (e : Eng) (g : Stream → Stream) : (x.modStream e g).asideDone = x.asideDone := rfl
@[simp] theorem Ctx.modStream_cr (x : Ctx) (e : Eng) (g : Stream → Stream) : (x.modStream e g).cr = x.cr := rfl
@[simp] theorem Ctx.modStream_v (x : Ctx) (e : Eng) (g : Stream → Stream) : (x.modStream e g).v = x.v := rfl
@[simp] theorem Ctx.modStream_m (x : Ctx) (e : Eng) (g : Stream → Stream) : (x.modStream e g).m = x.m := rfl
@[simp] theorem Ctx.modStream_p (x : Ctx) (e : Eng) (g : Stream → Stream) : (x.modStream e g).p = x.p := rfl
@[simp] theorem Ctx.modStream_fifos (x : Ctx) (e : Eng) (g : Stream → Stream) : (x.modStream e g).fifos = x.fifos := rfl
@[simp] theorem Ctx.modStream_tags (x : Ctx) (e : Eng) (g : Stream → Stream) : (x.modStream e g).tags = x.tags := rfl
@[simp] theorem Ctx.modStream_errs (x : Ctx) (e : Eng) (g : Stream → Stream) : (x.modStream e g).errs = x.errs := rfl
@[simp] theorem Ctx.modStream_pend (x : Ctx) (e : Eng) (g : Stream → Stream) : (x.modStream e g).pend = x.pend := rfl
@[simp] theorem Ctx.modStream_sb (x : Ctx) (e : Eng) (g : Stream → Stream) : (x.modStream e g).sb = x.sb := rfl
@[simp] theorem Ctx.modStream_fences (x : Ctx) (e : Eng) (g : Stream → Stream) : (x.modStream e g).fences = x.fences := rfl
@[simp] theorem Ctx.modStream_trapping (x : Ctx) (e : Eng) (g : Stream → Stream) : (x.modStream e g).trapping = x.trapping := rfl
@[simp] theorem Ctx.modStream_seq (x : Ctx) (e : Eng) (g : Stream → Stream) : (x.modStream e g).seq = x.seq := rfl
@[simp] theorem Ctx.modStream_cseq (x : Ctx) (e : Eng) (g : Stream → Stream) : (x.modStream e g).cseq = x.cseq := rfl
@[simp] theorem Ctx.modStream_cfences (x : Ctx) (e : Eng) (g : Stream → Stream) : (x.modStream e g).cfences = x.cfences := rfl
@[simp] theorem Ctx.modStream_waitEnd (x : Ctx) (e : Eng) (g : Stream → Stream) : (x.modStream e g).waitEnd = x.waitEnd := rfl
@[simp] theorem Ctx.modStream_pacqFrom (x : Ctx) (e : Eng) (g : Stream → Stream) : (x.modStream e g).pacqFrom = x.pacqFrom := rfl
@[simp] theorem Ctx.modStream_pacqSince (x : Ctx) (e : Eng) (g : Stream → Stream) : (x.modStream e g).pacqSince = x.pacqSince := rfl
@[simp] theorem Ctx.modStream_granted (x : Ctx) (e : Eng) (g : Stream → Stream) : (x.modStream e g).granted = x.granted := rfl
@[simp] theorem Ctx.modStream_launchReq (x : Ctx) (e : Eng) (g : Stream → Stream) : (x.modStream e g).launchReq = x.launchReq := rfl
@[simp] theorem Ctx.modStream_bar (x : Ctx) (e : Eng) (g : Stream → Stream) : (x.modStream e g).bar = x.bar := rfl
@[simp] theorem Ctx.modStream_barAside (x : Ctx) (e : Eng) (g : Stream → Stream) : (x.modStream e g).barAside = x.barAside := rfl

@[simp] theorem Ctx.stream_modStream (x : Ctx) (e : Eng) (g : Stream → Stream) :
    (x.modStream e g).stream e = g (x.stream e) := by
  simp [Ctx.stream, Ctx.modStream, vec_get]

theorem Ctx.stream_modStream_ne (x : Ctx) {e d : Eng} (g : Stream → Stream) (h : e ≠ d) :
    (x.modStream e g).stream d = x.stream d := by
  have : e.num.val ≠ d.num.val := by cases e <;> cases d <;> first | exact absurd rfl h | decide
  simp [Ctx.stream, Ctx.modStream, vec_get, this]

@[simp] theorem Ctx.modStream_modStream (x : Ctx) (e : Eng) (g h : Stream → Stream) :
    (x.modStream e g).modStream e h = x.modStream e fun r => h (g r) := by
  simp [Ctx.modStream, vec_get, Vector.set_set]

/-! Counting an event changes the counters and nothing else. -/

/-- A context with other performance counters. -/
def Ctx.withPmc (x : Ctx) (v : Vector W64 8) : Ctx := { x with cr := { x.cr with pmc := v } }

theorem Ctx.count_eq (x : Ctx) (evt n : Nat) : x.count evt n = x.withPmc (x.count evt n).cr.pmc := rfl

@[simp] theorem Ctx.withPmc_str (x : Ctx) (v : Vector W64 8) : (x.withPmc v).str = x.str := rfl
@[simp] theorem Ctx.count_str (x : Ctx) (evt n : Nat) : (x.count evt n).str = x.str := rfl
@[simp] theorem Ctx.withPmc_sreg (x : Ctx) (v : Vector W64 8) : (x.withPmc v).sreg = x.sreg := rfl
@[simp] theorem Ctx.count_sreg (x : Ctx) (evt n : Nat) : (x.count evt n).sreg = x.sreg := rfl
@[simp] theorem Ctx.withPmc_sfill (x : Ctx) (v : Vector W64 8) : (x.withPmc v).sfill = x.sfill := rfl
@[simp] theorem Ctx.count_sfill (x : Ctx) (evt n : Nat) : (x.count evt n).sfill = x.sfill := rfl
@[simp] theorem Ctx.withPmc_bank1 (x : Ctx) (v : Vector W64 8) : (x.withPmc v).bank1 = x.bank1 := rfl
@[simp] theorem Ctx.count_bank1 (x : Ctx) (evt n : Nat) : (x.count evt n).bank1 = x.bank1 := rfl
@[simp] theorem Ctx.withPmc_aside (x : Ctx) (v : Vector W64 8) : (x.withPmc v).aside = x.aside := rfl
@[simp] theorem Ctx.count_aside (x : Ctx) (evt n : Nat) : (x.count evt n).aside = x.aside := rfl
@[simp] theorem Ctx.withPmc_asideDone (x : Ctx) (v : Vector W64 8) : (x.withPmc v).asideDone = x.asideDone := rfl
@[simp] theorem Ctx.count_asideDone (x : Ctx) (evt n : Nat) : (x.count evt n).asideDone = x.asideDone := rfl
@[simp] theorem Ctx.withPmc_v (x : Ctx) (v : Vector W64 8) : (x.withPmc v).v = x.v := rfl
@[simp] theorem Ctx.count_v (x : Ctx) (evt n : Nat) : (x.count evt n).v = x.v := rfl
@[simp] theorem Ctx.withPmc_m (x : Ctx) (v : Vector W64 8) : (x.withPmc v).m = x.m := rfl
@[simp] theorem Ctx.count_m (x : Ctx) (evt n : Nat) : (x.count evt n).m = x.m := rfl
@[simp] theorem Ctx.withPmc_p (x : Ctx) (v : Vector W64 8) : (x.withPmc v).p = x.p := rfl
@[simp] theorem Ctx.count_p (x : Ctx) (evt n : Nat) : (x.count evt n).p = x.p := rfl
@[simp] theorem Ctx.withPmc_fifos (x : Ctx) (v : Vector W64 8) : (x.withPmc v).fifos = x.fifos := rfl
@[simp] theorem Ctx.count_fifos (x : Ctx) (evt n : Nat) : (x.count evt n).fifos = x.fifos := rfl
@[simp] theorem Ctx.withPmc_tags (x : Ctx) (v : Vector W64 8) : (x.withPmc v).tags = x.tags := rfl
@[simp] theorem Ctx.count_tags (x : Ctx) (evt n : Nat) : (x.count evt n).tags = x.tags := rfl
@[simp] theorem Ctx.withPmc_errs (x : Ctx) (v : Vector W64 8) : (x.withPmc v).errs = x.errs := rfl
@[simp] theorem Ctx.count_errs (x : Ctx) (evt n : Nat) : (x.count evt n).errs = x.errs := rfl
@[simp] theorem Ctx.withPmc_pend (x : Ctx) (v : Vector W64 8) : (x.withPmc v).pend = x.pend := rfl
@[simp] theorem Ctx.count_pend (x : Ctx) (evt n : Nat) : (x.count evt n).pend = x.pend := rfl
@[simp] theorem Ctx.withPmc_sb (x : Ctx) (v : Vector W64 8) : (x.withPmc v).sb = x.sb := rfl
@[simp] theorem Ctx.count_sb (x : Ctx) (evt n : Nat) : (x.count evt n).sb = x.sb := rfl
@[simp] theorem Ctx.withPmc_fences (x : Ctx) (v : Vector W64 8) : (x.withPmc v).fences = x.fences := rfl
@[simp] theorem Ctx.count_fences (x : Ctx) (evt n : Nat) : (x.count evt n).fences = x.fences := rfl
@[simp] theorem Ctx.withPmc_trapping (x : Ctx) (v : Vector W64 8) : (x.withPmc v).trapping = x.trapping := rfl
@[simp] theorem Ctx.count_trapping (x : Ctx) (evt n : Nat) : (x.count evt n).trapping = x.trapping := rfl
@[simp] theorem Ctx.withPmc_seq (x : Ctx) (v : Vector W64 8) : (x.withPmc v).seq = x.seq := rfl
@[simp] theorem Ctx.count_seq (x : Ctx) (evt n : Nat) : (x.count evt n).seq = x.seq := rfl
@[simp] theorem Ctx.withPmc_cseq (x : Ctx) (v : Vector W64 8) : (x.withPmc v).cseq = x.cseq := rfl
@[simp] theorem Ctx.count_cseq (x : Ctx) (evt n : Nat) : (x.count evt n).cseq = x.cseq := rfl
@[simp] theorem Ctx.withPmc_cfences (x : Ctx) (v : Vector W64 8) : (x.withPmc v).cfences = x.cfences := rfl
@[simp] theorem Ctx.count_cfences (x : Ctx) (evt n : Nat) : (x.count evt n).cfences = x.cfences := rfl
@[simp] theorem Ctx.withPmc_waitEnd (x : Ctx) (v : Vector W64 8) : (x.withPmc v).waitEnd = x.waitEnd := rfl
@[simp] theorem Ctx.count_waitEnd (x : Ctx) (evt n : Nat) : (x.count evt n).waitEnd = x.waitEnd := rfl
@[simp] theorem Ctx.withPmc_pacqFrom (x : Ctx) (v : Vector W64 8) : (x.withPmc v).pacqFrom = x.pacqFrom := rfl
@[simp] theorem Ctx.count_pacqFrom (x : Ctx) (evt n : Nat) : (x.count evt n).pacqFrom = x.pacqFrom := rfl
@[simp] theorem Ctx.withPmc_pacqSince (x : Ctx) (v : Vector W64 8) : (x.withPmc v).pacqSince = x.pacqSince := rfl
@[simp] theorem Ctx.count_pacqSince (x : Ctx) (evt n : Nat) : (x.count evt n).pacqSince = x.pacqSince := rfl
@[simp] theorem Ctx.withPmc_granted (x : Ctx) (v : Vector W64 8) : (x.withPmc v).granted = x.granted := rfl
@[simp] theorem Ctx.count_granted (x : Ctx) (evt n : Nat) : (x.count evt n).granted = x.granted := rfl
@[simp] theorem Ctx.withPmc_launchReq (x : Ctx) (v : Vector W64 8) : (x.withPmc v).launchReq = x.launchReq := rfl
@[simp] theorem Ctx.count_launchReq (x : Ctx) (evt n : Nat) : (x.count evt n).launchReq = x.launchReq := rfl
@[simp] theorem Ctx.withPmc_bar (x : Ctx) (v : Vector W64 8) : (x.withPmc v).bar = x.bar := rfl
@[simp] theorem Ctx.count_bar (x : Ctx) (evt n : Nat) : (x.count evt n).bar = x.bar := rfl
@[simp] theorem Ctx.withPmc_barAside (x : Ctx) (v : Vector W64 8) : (x.withPmc v).barAside = x.barAside := rfl
@[simp] theorem Ctx.count_barAside (x : Ctx) (evt n : Nat) : (x.count evt n).barAside = x.barAside := rfl

@[simp] theorem Ctx.withPmc_stream (x : Ctx) (v : Vector W64 8) (e : Eng) : (x.withPmc v).stream e = x.stream e := rfl
@[simp] theorem Ctx.count_stream (x : Ctx) (evt n : Nat) (e : Eng) : (x.count evt n).stream e = x.stream e := rfl

/-- Counting for a core is a change of its counters alone. -/
theorem State.count_eq (s : State) (c : CoreId) (evt n : Nat) :
    s.count c evt n = s.modCtx c fun x => if n = 0 then x else x.count evt n := by
  unfold State.count
  split <;> simp [*]

@[simp] theorem State.count_clusters (s : State) (c : CoreId) (evt n : Nat) : (s.count c evt n).clusters = s.clusters := by
  simp [State.count_eq]
@[simp] theorem State.count_plates (s : State) (c : CoreId) (evt n : Nat) : (s.count c evt n).plates = s.plates := by
  simp [State.count_eq]
@[simp] theorem State.count_dev (s : State) (c : CoreId) (evt n : Nat) : (s.count c evt n).dev = s.dev := by
  simp [State.count_eq]
@[simp] theorem State.count_mem (s : State) (c : CoreId) (evt n : Nat) : (s.count c evt n).mem = s.mem := by
  simp [State.count_eq]
@[simp] theorem State.count_memErr (s : State) (c : CoreId) (evt n : Nat) : (s.count c evt n).memErr = s.memErr := by
  simp [State.count_eq]
@[simp] theorem State.count_sched (s : State) (c : CoreId) (evt n : Nat) : (s.count c evt n).sched = s.sched := by
  simp [State.count_eq]
@[simp] theorem State.count_turns (s : State) (c : CoreId) (evt n : Nat) : (s.count c evt n).turns = s.turns := by
  simp [State.count_eq]
@[simp] theorem State.count_draw (s : State) (c : CoreId) (evt n : Nat) : (s.count c evt n).draw = s.draw := by
  simp [State.count_eq]
@[simp] theorem State.count_cur (s : State) (c : CoreId) (evt n : Nat) : (s.count c evt n).cur = s.cur := by
  simp [State.count_eq]
@[simp] theorem State.count_patched (s : State) (c : CoreId) (evt n : Nat) : (s.count c evt n).patched = s.patched := by
  simp [State.count_eq]
@[simp] theorem State.count_stamp (s : State) (c : CoreId) (evt n : Nat) : (s.count c evt n).stamp = s.stamp := by
  simp [State.count_eq]
@[simp] theorem State.count_old (s : State) (c : CoreId) (evt n : Nat) : (s.count c evt n).old = s.old := by
  simp [State.count_eq]
@[simp] theorem State.count_rels (s : State) (c : CoreId) (evt n : Nat) : (s.count c evt n).rels = s.rels := by
  simp [State.count_eq]
@[simp] theorem State.count_scs (s : State) (c : CoreId) (evt n : Nat) : (s.count c evt n).scs = s.scs := by
  simp [State.count_eq]

end Sys2Proof.Machine
end

