-- ==== Sys2Proof/Laws/Issue.lean ====
section
/-! SUPPORT. How a word issues and retires, said once: the pop, the push, the loop-end test, and `issue` as a whole for a
word that retires, that faults on its fields, and that waits. -/

set_option Elab.async false

namespace Sys2Proof

open Machine

/-! SameBut is an equivalence that every bookkeeping update respects. -/

theorem SameBut.refl (e : Eng) (x : Ctx) : SameBut e x x :=
  ⟨rfl, fun _ _ => rfl, rfl, rfl, ⟨rfl, rfl⟩, fun _ => rfl, fun _ => rfl⟩

/-- The form of a context that is another but for bookkeeping. -/
theorem SameBut.form {e : Eng} {x y : Ctx} (h : SameBut e x y) : ∃ str fifos errs bank1 pmc q rrb, y = { x with
    str := str, fifos := fifos, errs := errs, bank1 := bank1, cr := { x.cr with pmc := pmc },
    v := { x.v with q := q, rrb := rrb } } := ⟨_, _, _, _, _, _, _, h.rest⟩

/-- What SameBut leaves of a context, field by field. -/
theorem SameBut.fields {e : Eng} {x y : Ctx} (h : SameBut e x y) :
    y.sreg = x.sreg ∧ y.sfill = x.sfill ∧ y.aside = x.aside ∧ y.m = x.m ∧ y.p = x.p ∧ y.tags = x.tags ∧ y.pend = x.pend
      ∧ y.sb = x.sb ∧ y.seq = x.seq ∧ y.cr.tm = x.cr.tm := by
  obtain ⟨_, _, _, _, _, _, _, rfl⟩ := h.form
  exact ⟨rfl, rfl, rfl, rfl, rfl, rfl, rfl, rfl, rfl, rfl⟩

theorem SameBut.trans {e : Eng} {x y z : Ctx} (h : SameBut e x y) (g : SameBut e y z) : SameBut e x z := by
  have tm := h.fields.2.2.2.2.2.2.2.2.2
  refine ⟨?_, fun d hd => (g.streams d hd).trans (h.streams d hd), g.st.trans h.st, g.tmpl.trans h.tmpl,
    ⟨g.orders.1.trans h.orders.1, g.orders.2.trans h.orders.2⟩, fun hb => (g.bank (by rw [tm]; exact hb)).trans (h.bank hb), fun he => (g.turn he).trans (h.turn he)⟩
  obtain ⟨_, _, _, _, _, _, _, rfl⟩ := g.form
  obtain ⟨_, _, _, _, _, _, _, rfl⟩ := h.form
  rfl

theorem SameBut.symm {e : Eng} {x y : Ctx} (h : SameBut e x y) : SameBut e y x := by
  have tm := h.fields.2.2.2.2.2.2.2.2.2
  refine ⟨?_, fun d hd => (h.streams d hd).symm, h.st.symm, h.tmpl.symm,
    ⟨h.orders.1.symm, h.orders.2.symm⟩, fun hb => (h.bank (by rw [← tm]; exact hb)).symm, fun he => (h.turn he).symm⟩
  obtain ⟨_, _, _, _, _, _, _, rfl⟩ := h.form
  rfl

theorem SameBut.withPmc {e : Eng} (x : Ctx) (v : Vector W64 8) : SameBut e x (x.withPmc v) :=
  ⟨rfl, fun _ _ => rfl, rfl, rfl, ⟨rfl, rfl⟩, fun _ => rfl, fun _ => rfl⟩

theorem SameBut.fifos {e : Eng} (x : Ctx) (f : Vector (List FEntry) 25) : SameBut e x { x with fifos := f } :=
  ⟨rfl, fun _ _ => rfl, rfl, rfl, ⟨rfl, rfl⟩, fun _ => rfl, fun _ => rfl⟩

theorem SameBut.errs {e : Eng} (x : Ctx) (l : List (Site × Bool)) : SameBut e x { x with errs := l } :=
  ⟨rfl, fun _ _ => rfl, rfl, rfl, ⟨rfl, rfl⟩, fun _ => rfl, fun _ => rfl⟩

/-- A change of a stream's PC, held entry, loop levels, and of what it has seen or read while it waited. -/
theorem SameBut.stream {e : Eng} (x : Ctx) (f : Stream → Stream) (hs : (f (x.stream e)).st = (x.stream e).st)
    (ht : (f (x.stream e)).tmpl = (x.stream e).tmpl) (ho : (f (x.stream e)).observed = (x.stream e).observed)
    (hr : (f (x.stream e)).rel = (x.stream e).rel) : SameBut e x (x.modStream e f) :=
  ⟨rfl, fun _ hd => Ctx.stream_modStream_ne x f (Ne.symm hd), by simp [hs], by simp [ht], by simp [ho, hr], fun _ => rfl,
    fun _ => rfl⟩

theorem loopsOf_setLoops (x : Ctx) (e : Eng) (ls : Vector Loop 4) : loopsOf (setLoops x e ls) e = ls := by
  unfold loopsOf setLoops
  split
  · simp
  · next h => simp [h]

/-- The loop-end test looks at nothing but the levels, and at V's registers and predicates. -/
theorem LoopTest.of {e : Eng} {p : W64} {size : Nat} {x x' y : Ctx} (h : LoopTest e p size x y)
    (hl : loopsOf x e = loopsOf x' e) (hv : x.v = x'.v) : LoopTest e p size x' y := by
  obtain ⟨h1, h2, h3⟩ := h
  rw [hl] at h1 h2 h3
  rw [hv] at h3
  exact ⟨h1, h2, h3⟩

theorem setLoops_self (x : Ctx) (e : Eng) : setLoops x e (loopsOf x e) = x := by
  unfold setLoops loopsOf
  split
  · rfl
  · show { x with str := x.str.set e.num.val x.str[e.num.val] _ } = x
    rw [Vector.set_getElem_self]

theorem Ctx.modStream_pc_self {x : Ctx} {e : Eng} {p : W64} (h : (x.stream e).pc = p) :
    (x.modStream e fun r => { r with pc := p }) = x := by
  subst h
  show { x with str := x.str.set e.num.val x.str[e.num.val] _ } = x
  rw [Vector.set_getElem_self]

theorem SameBut.setLoops {e : Eng} (x : Ctx) (ls : Vector Loop 4) : SameBut e x (setLoops x e ls) := by
  unfold Machine.setLoops
  split
  · next h => exact ⟨rfl, fun _ _ => rfl, rfl, rfl, ⟨rfl, rfl⟩, fun hb => absurd h hb, fun _ => rfl⟩
  · exact .stream x _ rfl rfl rfl rfl

/-! The loop-end test. -/

theorem ite_same {α : Type} {p q : Prop} [Decidable p] [Decidable q] (h : p ↔ q) (a b : α) :
    (if p then a else b) = if q then a else b := by
  by_cases hp : p
  · rw [if_pos hp, if_pos (h.1 hp)]
  · rw [if_neg hp, if_neg fun hq => hp (h.2 hq)]

theorem loopsOf_withV (x : Ctx) (e : Eng) (v : VState) : loopsOf { x with v := v } e = loopsOf x e := rfl

theorem levelEnds_iff (l : Loop) (a : Nat) : levelEnds l a = true ↔ l.active = true ∧ l.last.toNat = a := by
  simp [levelEnds]

/-- The loop-end test over levels that differ from ls only at levels not tested here: the level that branches, and each
tested level after it. -/
theorem loopEnd_tested (ls : Vector Loop 4) (a : Nat) (ks : List Nat) (hn : ks.Nodup) (hb : ∀ k ∈ ks, k < 4) (ys : Vector Loop 4)
    (hy : ∀ k ∈ ks, vget ys k = vget ls k) :
    let b := ks.find? fun k => levelEnds (vget ls k) a && decide (1 < (vget ls k).count.toNat)
    (loopEnd ys a ks).2 = b.map (fun k => { vget ls k with count := (vget ls k).count - 1 })
    ∧ ∀ k, k < 4 → vget (loopEnd ys a ks).1 k =
        if b = some k then { vget ls k with count := (vget ls k).count - 1 }
        else if k ∈ ks ∧ levelEnds (vget ls k) a = true ∧ ∀ j, b = some j → ks.idxOf k < ks.idxOf j then
          { vget ls k with count := 0, active := false, rot := false, epi := 0 }
        else vget ys k := by
  induction ks generalizing ys with
  | nil => exact ⟨rfl, fun k _ => by simp [loopEnd]⟩
  | cons m ms ih =>
    have hm := hy m (by simp)
    have hm4 := hb m (by simp)
    have hne : ∀ (v : Vector Loop 4) (l : Loop) (k : Nat), k < 4 → m ≠ k → vget (vset v m l) k = vget v k := fun v l k hk h =>
      vget_vset_ne _ _ _ _ (by rwa [Nat.mod_eq_of_lt hm4, Nat.mod_eq_of_lt hk])
    have hmem : m ∉ ms := (List.nodup_cons.1 hn).1
    simp only [loopEnd, hm, ← levelEnds_iff]
    by_cases he : levelEnds (vget ls m) a = true
    · by_cases hc : 1 < (vget ls m).count.toNat
      · simp only [he, hc, if_true, List.find?_cons, Bool.true_and, decide_true, Option.map_some]
        refine ⟨trivial, fun k hk => ?_⟩
        by_cases hkm : m = k
        · subst hkm
          rw [vget_vset_self]
          simp
        · rw [hne _ _ _ hk hkm]
          have hno : ¬(k ∈ m :: ms ∧ levelEnds (vget ls k) a = true ∧ ∀ j, some m = some j →
              (m :: ms).idxOf k < (m :: ms).idxOf j) := by
            rintro ⟨-, -, h⟩
            have := h m rfl
            simp at this
          simp only [Option.some.injEq, hkm, if_false, if_neg hno]
      · simp only [he, hc, if_true, if_false, List.find?_cons, decide_false, Bool.and_false]
        have ih' := ih (List.nodup_cons.1 hn).2 (fun k hk => hb k (by simp [hk]))
          (vset ys m { vget ls m with count := 0, active := false, rot := false, epi := 0 })
          fun k hk => by rw [hne _ _ _ (hb k (by simp [hk])) (by rintro rfl; exact hmem hk)]; exact hy k (by simp [hk])
        refine ⟨ih'.1, fun k hk => ?_⟩
        rw [ih'.2 k hk]
        by_cases hkm : m = k
        · subst hkm
          have h1 : ms.find? (fun k => levelEnds (vget ls k) a && decide (1 < (vget ls k).count.toNat)) ≠ some m := fun h =>
            hmem (List.mem_of_find?_eq_some h)
          have h2 : ∀ j, ms.find? (fun k => levelEnds (vget ls k) a && decide (1 < (vget ls k).count.toNat)) = some j →
              (m :: ms).idxOf m < (m :: ms).idxOf j := fun j hj => by
            have : m ≠ j := by rintro rfl; exact h1 hj
            simp [List.idxOf_cons, beq_eq_false_iff_ne.2 this]
          rw [if_neg h1, if_neg h1, if_neg (by simp [hmem]), if_pos ⟨by simp, he, h2⟩, vget_vset_self]
        · have hi : ∀ j, j ∈ ms → (m :: ms).idxOf j = ms.idxOf j + 1 := fun j hj => by
            have : m ≠ j := by rintro rfl; exact hmem hj
            simp [List.idxOf_cons, beq_eq_false_iff_ne.2 this]
          rw [hne _ _ _ hk hkm]
          congr 1
          refine ite_same ?_ _ _
          refine ⟨fun ⟨h1, h2, h3⟩ => ⟨by simp [h1], h2, fun j hj => ?_⟩, fun ⟨h1, h2, h3⟩ => ?_⟩
          · rw [hi k h1, hi j (List.mem_of_find?_eq_some hj)]
            have := h3 j hj
            omega
          · have h1 : k ∈ ms := by simpa [Ne.symm hkm] using h1
            refine ⟨h1, h2, fun j hj => ?_⟩
            have := h3 j hj
            rw [hi k h1, hi j (List.mem_of_find?_eq_some hj)] at this
            omega
    · simp only [he, Bool.false_eq_true, if_false, List.find?_cons, Bool.false_and]
      have ih' := ih (List.nodup_cons.1 hn).2 (fun k hk => hb k (by simp [hk])) ys fun k hk => hy k (by simp [hk])
      refine ⟨ih'.1, fun k hk => ?_⟩
      rw [ih'.2 k hk]
      by_cases hkm : m = k
      · subst hkm
        simp [hmem, he]
      · have hi : ∀ j, j ∈ ms → (m :: ms).idxOf j = ms.idxOf j + 1 := fun j hj => by
          have : m ≠ j := by rintro rfl; exact hmem hj
          simp [List.idxOf_cons, beq_eq_false_iff_ne.2 this]
        congr 1
        refine ite_same ?_ _ _
        refine ⟨fun ⟨h1, h2, h3⟩ => ⟨by simp [h1], h2, fun j hj => ?_⟩, fun ⟨h1, h2, h3⟩ => ?_⟩
        · rw [hi k h1, hi j (List.mem_of_find?_eq_some hj)]
          have := h3 j hj
          omega
        · have h1 : k ∈ ms := by simpa [Ne.symm hkm] using h1
          refine ⟨h1, h2, fun j hj => ?_⟩
          have := h3 j hj
          rw [hi k h1, hi j (List.mem_of_find?_eq_some hj)] at this
          omega

/-- The loop-end test as `branching` and `loopTested` say. -/
theorem loopEnd_is (ls : Vector Loop 4) (a : Nat) :
    (loopEnd ls a [3, 2, 1, 0]).2 = (branching ls a).map (fun k => { vget ls k with count := (vget ls k).count - 1 })
    ∧ ∀ k, k < 4 → vget (loopEnd ls a [3, 2, 1, 0]).1 k = loopTested ls a k := by
  have h := loopEnd_tested ls a [3, 2, 1, 0] (by decide) (by decide) ls fun _ _ => rfl
  refine ⟨h.1, fun k hk => (h.2 k hk).trans ?_⟩
  unfold loopTested
  have hh : (k ∈ [3, 2, 1, 0] ∧ levelEnds (vget ls k) a = true ∧ ∀ j, branching ls a = some j →
      [3, 2, 1, 0].idxOf k < [3, 2, 1, 0].idxOf j) ↔ levelEnds (vget ls k) a = true ∧ ∀ j, branching ls a = some j → j < k := by
    refine ⟨fun ⟨_, h2, h3⟩ => ⟨h2, fun j hj => ?_⟩, fun ⟨h2, h3⟩ => ⟨?_, h2, fun j hj => ?_⟩⟩
    · have hj4 : j ∈ [3, 2, 1, 0] := List.mem_of_find?_eq_some hj
      have := h3 j hj
      simp only [List.mem_cons, List.not_mem_nil, or_false] at hj4
      have hk' : k = 0 ∨ k = 1 ∨ k = 2 ∨ k = 3 := by omega
      rcases hj4 with rfl | rfl | rfl | rfl <;> rcases hk' with rfl | rfl | rfl | rfl <;> revert this <;> decide
    · have hk' : k = 0 ∨ k = 1 ∨ k = 2 ∨ k = 3 := by omega
      rcases hk' with rfl | rfl | rfl | rfl <;> decide
    · have hj4 : j ∈ [3, 2, 1, 0] := List.mem_of_find?_eq_some hj
      have := h3 j hj
      simp only [List.mem_cons, List.not_mem_nil, or_false] at hj4
      have hk' : k = 0 ∨ k = 1 ∨ k = 2 ∨ k = 3 := by omega
      rcases hj4 with rfl | rfl | rfl | rfl <;> rcases hk' with rfl | rfl | rfl | rfl <;> revert this <;> decide
  by_cases hb : branching ls a = some k
  · exact (if_pos hb).trans (if_pos hb).symm
  · exact (if_neg hb).trans ((ite_same hh _ _).trans (if_neg hb).symm)

theorem SameBut.goOn (e : Eng) (pc : W64) (size : Nat) (x : Ctx) : SameBut e x (goOn e pc size x) := by
  unfold Machine.goOn
  generalize loopEnd (loopsOf x e) pc.toNat [3, 2, 1, 0] = r
  obtain ⟨ls, o⟩ := r
  have h1 := SameBut.setLoops (e := e) x ls
  cases o with
  | none => exact h1.trans (.stream _ _ rfl rfl rfl rfl)
  | some l =>
    have h2 := h1.trans
      (.stream (Machine.setLoops x e ls) (fun t => { t with pc := l.start.zeroExtend 64 }) rfl rfl rfl rfl)
    dsimp only
    split
    · next h => exact h2.trans ⟨rfl, fun _ _ => rfl, rfl, rfl, ⟨rfl, rfl⟩, fun _ => rfl, fun he => absurd h.1 he⟩
    · exact h2

theorem loopsOf_modStream_pc (x : Ctx) (e : Eng) (p : W64) :
    loopsOf (x.modStream e fun t => { t with pc := p }) e = loopsOf x e := by
  unfold loopsOf
  simp

/-- Where the stream goes on after a word. -/
theorem goOn_test (e : Eng) (p : W64) (size : Nat) (x : Ctx) : LoopTest e p size x (goOn e p size x) := by
  have hl := loopEnd_is (loopsOf x e) p.toNat
  have hv : ∀ ls, (setLoops x e ls).v = x.v := fun ls => by unfold setLoops; split <;> rfl
  have hr : ∀ k, branching (loopsOf x e) p.toNat = some k →
      loopTested (loopsOf x e) p.toNat k = { vget (loopsOf x e) k with count := (vget (loopsOf x e) k).count - 1 } :=
    fun k hk => by simp [loopTested, hk]
  unfold goOn
  cases hb : branching (loopsOf x e) p.toNat with
  | none =>
    have h2 : (loopEnd (loopsOf x e) p.toNat [3, 2, 1, 0]).2 = none := by rw [hl.1, hb]; rfl
    simp only [h2]
    exact ⟨fun k hk => by rw [loopsOf_modStream_pc, loopsOf_setLoops]; exact hl.2 k hk, by simp [hb],
      by rw [hb, Ctx.modStream_v, hv]⟩
  | some k =>
    have h2 : (loopEnd (loopsOf x e) p.toNat [3, 2, 1, 0]).2
        = some { vget (loopsOf x e) k with count := (vget (loopsOf x e) k).count - 1 } := by rw [hl.1, hb]; rfl
    simp only [h2]
    by_cases hrot : e = .v ∧ (vget (loopsOf x e) k).rot = true
    · simp only [if_pos hrot]
      refine ⟨fun j hj => ?_, ?_, ?_⟩
      · rw [loopsOf_withV, loopsOf_modStream_pc, loopsOf_setLoops]
        exact hl.2 j hj
      · simp [hb, Ctx.stream, Ctx.modStream, vec_get]
      · rw [hb]
        simp only [if_pos hrot, hr k hb, Ctx.modStream_v, hv]
    · simp only [if_neg hrot]
      exact ⟨fun j hj => by rw [loopsOf_modStream_pc, loopsOf_setLoops]; exact hl.2 j hj, by simp [hb],
        by rw [hb]; simp only [if_neg hrot, Ctx.modStream_v, hv]⟩

@[simp] theorem setLoops_fifos (x : Ctx) (e : Eng) (ls : Vector Loop 4) : (setLoops x e ls).fifos = x.fifos := by
  unfold setLoops; split <;> rfl

@[simp] theorem setLoops_errs (x : Ctx) (e : Eng) (ls : Vector Loop 4) : (setLoops x e ls).errs = x.errs := by
  unfold setLoops; split <;> rfl

@[simp] theorem setLoops_held (x : Ctx) (e : Eng) (ls : Vector Loop 4) :
    ((setLoops x e ls).stream e).held = (x.stream e).held := by
  unfold setLoops; split
  · rfl
  · simp

@[simp] theorem setLoops_pc (x : Ctx) (e : Eng) (ls : Vector Loop 4) :
    ((setLoops x e ls).stream e).pc = (x.stream e).pc := by
  unfold setLoops; split
  · rfl
  · simp

@[simp] theorem setLoops_done (x : Ctx) (e : Eng) (ls : Vector Loop 4) :
    ((setLoops x e ls).stream e).done = (x.stream e).done := by
  unfold setLoops; split
  · rfl
  · simp

@[simp] theorem setLoops_view (x : Ctx) (e : Eng) (ls : Vector Loop 4) :
    ((setLoops x e ls).stream e).view = (x.stream e).view := by
  unfold setLoops; split
  · rfl
  · simp

theorem goOn_keeps (e : Eng) (pc : W64) (size : Nat) (x : Ctx) :
    (goOn e pc size x).fifos = x.fifos ∧ (goOn e pc size x).errs = x.errs
      ∧ ((goOn e pc size x).stream e).held = (x.stream e).held
      ∧ ((goOn e pc size x).stream e).view = (x.stream e).view
      ∧ ((goOn e pc size x).stream e).done = (x.stream e).done := by
  unfold goOn
  generalize loopEnd (loopsOf x e) pc.toNat [3, 2, 1, 0] = r
  obtain ⟨ls, o⟩ := r
  have hd := setLoops_held x e ls
  have hw := setLoops_view x e ls
  have hn := setLoops_done x e ls
  cases o with
  | none => simp [hd, hw, hn]
  | some l =>
    dsimp only
    split
    · exact ⟨by simp, by simp, by rw [← hd]; simp [Ctx.stream, Ctx.modStream, vec_get],
        by rw [← hw]; simp [Ctx.stream, Ctx.modStream, vec_get], by rw [← hn]; simp [Ctx.stream, Ctx.modStream, vec_get]⟩
    · simp [hd, hw, hn]

/-- Where the stream goes on, V's state changes at most by the rotation of the level that branches. -/
theorem goOn_turn (e : Eng) (pc : W64) (size : Nat) (x : Ctx) :
    (goOn e pc size x).v = x.v ∨ (e = .v ∧ ∃ l : Loop, l.rot = true ∧ (goOn e pc size x).v = rotate l x.v) := by
  unfold goOn
  generalize loopEnd (loopsOf x e) pc.toNat [3, 2, 1, 0] = r
  obtain ⟨ls, o⟩ := r
  have hv : (setLoops x e ls).v = x.v := by unfold setLoops; split <;> rfl
  cases o with
  | none => exact .inl hv
  | some l =>
    dsimp only
    split
    · next h => exact .inr ⟨h.1, l, h.2, by rw [← hv]; rfl⟩
    · exact .inl hv

/-! The pop. -/

/-- A context once the word's checks have passed: its pop is taken and held, marks may have been corrected and
counted. -/
structure Taken (e : Eng) (w : Common) (x y : Ctx) : Prop where
  same : SameBut e x y
  pc : (y.stream e).pc = (x.stream e).pc
  loops : loopsOf y e = loopsOf x e
  v : y.v = x.v
  fifos : y.fifos = fifosPopped e w.pop x
  view : (y.stream e).view = ((x.stream e).acquire (poppedViews e w.pop x)).view
  marks : ∀ m, m ∈ y.errs → m ∈ x.errs
  doubles : ∀ m, m ∈ x.errs → m.2 = true → m ∈ y.errs

theorem Taken.count {e : Eng} {w : Common} {x y : Ctx} (h : Taken e w x y) (evt n : Nat) :
    Taken e w x (y.count evt n) :=
  ⟨h.same.trans (.withPmc _ _), h.pc, h.loops, h.v, h.fifos, h.view, h.marks, h.doubles⟩

theorem Taken.correct {e : Eng} {w : Common} {x y : Ctx} (h : Taken e w x y) (sites : List Site) :
    Taken e w x { y with errs := y.errs.filter fun m => m.2 || !sites.contains m.1 } :=
  ⟨h.same.trans (.errs _ _), h.pc, h.loops, h.v, h.fifos, h.view, fun m hm => h.marks m ((List.mem_filter.1 hm).1),
    fun m hm h2 => List.mem_filter.2 ⟨h.doubles m hm h2, by simp [h2]⟩⟩

@[simp] theorem ofCode_zero : Eng.ofCode 0 = none := rfl

theorem fifo_dropFifo_stream (x : Ctx) (a b e : Eng) : (x.dropFifo a b).stream e = x.stream e := rfl

theorem fifo_pushFifo_stream (x : Ctx) (a b e : Eng) (v : Entry) : (x.pushFifo a b v).stream e = x.stream e := rfl

/-- The loop levels in use depend on the stream's own, bank 1 and the mode alone. -/
theorem loopsOf_congr {x y : Ctx} {e : Eng} (hl : (y.stream e).loops = (x.stream e).loops) (hb : y.bank1 = x.bank1)
    (ht : y.cr.tm = x.cr.tm) : loopsOf y e = loopsOf x e := by
  simp [loopsOf, hl, hb, ht]

/-- The pop of a word whose tokens are ready. -/
theorem takePop_ready {c : CoreId} {e : Eng} {w : Common} {got : Option Entry} {s : State}
    (h : popped e w (s.ctx c) = some got) :
    ∃ x1, Taken e w (s.ctx c) x1 ∧ takePop c e w.pop s = .got got (s.modCtx c fun _ => x1) := by
  unfold popped at h
  unfold takePop
  simp only
  cases hsrc : Eng.ofCode w.pop.toNat with
  | none =>
    simp only [hsrc, Option.some.injEq] at h ⊢
    subst h
    refine ⟨s.ctx c, ⟨.refl _ _, rfl, rfl, rfl, ?_, ?_, fun _ h => h, fun _ h _ => h⟩, ?_⟩
    · simp [fifosPopped, hsrc]
    · simp [poppedViews, hsrc, Stream.acquire]
    · rw [State.modCtx_congr s c (g := fun x => x) rfl, State.modCtx_id]
  | some src =>
    simp only [hsrc] at h ⊢
    cases hh : ((s.ctx c).stream e).held with
    | some v =>
      simp only [hh, Option.some.injEq] at h ⊢
      subst h
      refine ⟨s.ctx c, ⟨.refl _ _, rfl, rfl, rfl, ?_, ?_, fun _ h => h, fun _ h _ => h⟩, ?_⟩
      · simp [fifosPopped, hsrc, hh]
      · simp [poppedViews, hsrc, hh, Stream.acquire]
      · rw [State.modCtx_congr s c (g := fun x => x) rfl, State.modCtx_id]
    | none =>
      simp only [hh] at h ⊢
      cases hf : (s.ctx c).fifo src e with
      | nil => simp [hf] at h
      | cons a t =>
        simp only [hf] at h ⊢
        by_cases hw : (s.ctx c).awaiting src e = true
        · simp [hw] at h
        · by_cases hd : a.ecc = .double
          · simp [hd] at h
          · have hg : got = some a.v := by
              have : ¬((s.ctx c).awaiting src e || a.ecc == .double) = true := by simp [hw, hd]
              rw [if_neg this] at h
              exact (Option.some.inj h).symm
            subst hg
            simp only [hw, hd, if_false, Bool.false_eq_true]
            have ht : Taken e w (s.ctx c)
                (((s.ctx c).dropFifo src e).modStream e fun r => { r.acquire [a.view] with held := some a.v }) := by
              refine ⟨(SameBut.fifos _ _).trans (.stream _ _ rfl rfl rfl rfl), ?_, ?_, rfl, ?_, ?_, fun _ h => h,
                fun _ h _ => h⟩
              · rw [Ctx.stream_modStream, fifo_dropFifo_stream]; rfl
              · exact loopsOf_congr (by rw [Ctx.stream_modStream, fifo_dropFifo_stream]; rfl) rfl rfl
              · simp [fifosPopped, hsrc, hh, Ctx.dropFifo]
              · rw [Ctx.stream_modStream, fifo_dropFifo_stream]
                simp [poppedViews, hsrc, hh, hf, Stream.acquire]
            by_cases h1 : a.ecc = .single
            · refine ⟨_, ht.count 10 1, ?_⟩
              simp only [h1, if_true, State.count_eq, State.modCtx_modCtx]
              rfl
            · refine ⟨_, ht, ?_⟩
              simp only [h1, if_false]
              rfl

/-! Retirement. -/

theorem fifo_setHeld (e : Eng) (f : Stream → Stream) (x : Ctx) : (x.modStream e f).fifos = x.fifos := rfl

/-- After the pop, the FIFO of the push is full just where `PushRoom` finds no room. -/
theorem fifoFull_popped {e : Eng} {w : Common} {x y : Ctx} {d : Eng} (ht : y.fifos = fifosPopped e w.pop x) :
    y.fifoFull e d = decide (fifoDepth ≤ (vget (fifosPopped e w.pop x) (fifoIdx e d)).length) := by
  rw [← ht]
  rfl

/-- A retiring word: the push goes out, the counters count, no held entry and nothing that waits is left. -/
theorem retireWord_is {c : CoreId} {e : Eng} {w : Common} {v : Entry} {s1 : State} {x x1 x2 : Ctx} (ht : Taken e w x x1)
    (hf : x2.fifos = x1.fifos) :
    ∃ x3, retireWord c e w.push v none (s1.modCtx c fun _ => x2) = (s1.modCtx c fun _ => x3)
      ∧ SameBut e x2 x3 ∧ (x3.stream e).held = none ∧ (x3.stream e).done = none
      ∧ x3.fifos = fifosAfter e w v (x3.stream e).view x ∧ x3.errs = x2.errs
      ∧ (x3.stream e).view = (x2.stream e).view ∧ (x3.stream e).pc = (x2.stream e).pc ∧ loopsOf x3 e = loopsOf x2 e
      ∧ x3.v = x2.v := by
  unfold retireWord
  simp only
  cases hp : Eng.ofCode w.push.toNat with
  | none =>
    refine ⟨(x2.count (e.num.val + 1) 1).modStream e fun r => { r with held := none, done := none, snap := [] }, ?_, ?_,
      ?_, ?_, ?_, rfl, ?_, ?_, ?_, rfl⟩
    · simp [State.count_eq]
    · exact (SameBut.withPmc _ _).trans (.stream _ _ rfl rfl rfl rfl)
    · simp
    · simp
    · rw [fifo_setHeld, Ctx.count_fifos, hf, ht.fifos]
      simp [fifosAfter, hp]
    · simp
    · simp
    · exact loopsOf_congr (by simp) rfl rfl
  | some d =>
    refine ⟨((x2.pushFifo e d v).count (e.num.val + 1) 1).modStream e fun r =>
      { r with held := none, done := none, snap := [] }, ?_, ?_, ?_, ?_, ?_, rfl, ?_, ?_, ?_, rfl⟩
    · simp [State.count_eq]
    · exact ((SameBut.fifos _ _).trans (.withPmc _ _)).trans (.stream _ _ rfl rfl rfl rfl)
    · simp
    · simp
    · rw [fifo_setHeld, Ctx.count_fifos, Ctx.stream_modStream, Ctx.count_stream, fifo_pushFifo_stream]
      simp only [Ctx.pushFifo, Ctx.fifo, hf, ht.fifos, fifosAfter, hp]
    · rw [Ctx.stream_modStream, Ctx.count_stream, fifo_pushFifo_stream]
    · rw [Ctx.stream_modStream, Ctx.count_stream, fifo_pushFifo_stream]
    · exact loopsOf_congr (by rw [Ctx.stream_modStream, Ctx.count_stream, fifo_pushFifo_stream]) rfl rfl

/-- What the effect of a word comes to beside the word's own bookkeeping: y is the context the effect leaves, starting
from the taken context x1; it differs from `want` only where SameBut allows, and it leaves the bookkeeping of x1 alone. -/
structure Effect (e : Eng) (x1 want y : Ctx) : Prop where
  same : SameBut e want y
  fifos : y.fifos = x1.fifos
  loops : loopsOf y e = loopsOf want e
  v : y.v = want.v
  stands : (y.stream e).held = (x1.stream e).held ∧ (y.stream e).pc = (x1.stream e).pc
  view : (y.stream e).view = (want.stream e).view ∨ (y.stream e).view = (x1.stream e).view
  marks : ∀ m, m ∈ y.errs → m ∈ want.errs
  doubles : ∀ m, m ∈ want.errs → m.2 = true → m ∈ y.errs

/-- A taken context is the one before but for the stream, the FIFOs, the marks and the performance counters. -/
theorem Taken.form {e : Eng} {w : Common} {x y : Ctx} (h : Taken e w x y) : ∃ str fifos errs bank1 pmc,
    y = { x with str := str, fifos := fifos, errs := errs, bank1 := bank1, cr := { x.cr with pmc := pmc } } := by
  have hv := h.v
  obtain ⟨str, fifos, errs, bank1, pmc, q, rrb, hy⟩ := h.same.form
  subst hy
  refine ⟨str, fifos, errs, bank1, pmc, ?_⟩
  dsimp only at hv
  rw [hv]

/-- An effect that changes nothing of what the bookkeeping of a word touches but to remove marks. -/
theorem Effect.ofMarks {e : Eng} {w : Common} {x x1 : Ctx} (h : Taken e w x x1) (f : Ctx → Ctx) (keep : Site × Bool → Bool)
    (hf : f x1 = { f x with str := x1.str, fifos := x1.fifos, errs := x1.errs.filter keep, bank1 := x1.bank1,
                            cr := { (f x).cr with pmc := x1.cr.pmc } })
    (hstr : (f x).str = x.str) (herrs : (f x).errs = x.errs.filter keep) (hbank : (f x).bank1 = x.bank1)
    (htm : (f x).cr.tm = x.cr.tm) : Effect e x1 (f x) (f x1) := by
  have hs : ∀ d, (f x).stream d = x.stream d := fun d => by simp only [Ctx.stream, hstr]
  have hs1 : ∀ d, (f x1).stream d = x1.stream d := fun d => by rw [hf]; rfl
  refine ⟨⟨?_, fun d hd => by rw [hs1, hs, h.same.streams d hd], by rw [hs1, hs, h.same.st], by rw [hs1, hs, h.same.tmpl],
    by rw [hs1, hs]; exact h.same.orders, fun hb => ?_, fun he => ?_⟩, by rw [hf], ?_, ?_, by rw [hs1]; exact ⟨rfl, rfl⟩,
    .inr (by rw [hs1]), fun m hm => ?_, fun m hm h2 => ?_⟩
  · rw [hf]
  · rw [hf, hbank]
    exact h.same.bank (by rw [← htm]; exact hb)
  · rw [hf]
  · have : (f x1).cr.tm = (f x).cr.tm := by rw [hf]
    have h1 : loopsOf (f x1) e = loopsOf x1 e :=
      loopsOf_congr (by rw [hs1]) (by rw [hf]) (by rw [this, htm, h.same.fields.2.2.2.2.2.2.2.2.2])
    rw [h1, h.loops]
    exact (loopsOf_congr (by rw [hs]) hbank htm).symm
  · rw [hf]
  · rw [hf] at hm
    rw [herrs]
    obtain ⟨h1, h2⟩ := List.mem_filter.1 hm
    exact List.mem_filter.2 ⟨h.marks m h1, h2⟩
  · rw [herrs] at hm
    rw [hf]
    obtain ⟨h1, h3⟩ := List.mem_filter.1 hm
    exact List.mem_filter.2 ⟨h.doubles m h1 h2, h3⟩

/-- An effect that reads and changes nothing of what the bookkeeping of a word touches. -/
theorem Effect.of {e : Eng} {w : Common} {x x1 : Ctx} (h : Taken e w x x1) (f : Ctx → Ctx)
    (hf : f x1 = { f x with str := x1.str, fifos := x1.fifos, errs := x1.errs, bank1 := x1.bank1,
                            cr := { (f x).cr with pmc := x1.cr.pmc } })
    (hstr : (f x).str = x.str) (herrs : (f x).errs = x.errs) (hbank : (f x).bank1 = x.bank1)
    (htm : (f x).cr.tm = x.cr.tm) : Effect e x1 (f x) (f x1) :=
  have ht : ∀ l : List (Site × Bool), l.filter (fun _ => true) = l := fun _ => List.filter_eq_self.2 fun _ _ => rfl
  .ofMarks h f (fun _ => true) (by rw [ht]; exact hf) hstr (by rw [ht]; exact herrs) hbank htm

/-- Whether a stream's accesses are performed is no matter of bookkeeping. -/
theorem SameBut.drained {e : Eng} {x y : Ctx} (h : SameBut e x y) (d : Eng) : drained d y = drained d x := by
  have hf := h.fields
  simp only [Machine.drained, storesDone, loadsDone, hf.2.2.2.2.2.2.1, hf.2.2.2.2.2.2.2.1]

/-- After a word's effect its push may go out just where `MayPush` says. -/
theorem pushReady_iff {e : Eng} {w : Common} {x y z : Ctx} (hf : y.fifos = fifosPopped e w.pop x) (hs : SameBut e z y) :
    pushReady e w.push y = true ↔ MayPush e w x z := by
  unfold pushReady MayPush
  rw [hs.drained e]
  cases hd : Eng.ofCode w.push.toNat with
  | none => simp
  | some d => simp [fifoFull_popped hf]

/-- What the pop of a word leaves held. -/
theorem takePop_held {c : CoreId} {e : Eng} {w : Common} {got : Option Entry} {s s1 : State}
    (h : takePop c e w.pop s = .got got s1) :
    ((s1.ctx c).stream e).held = if (Eng.ofCode w.pop.toNat).isSome then got else ((s.ctx c).stream e).held := by
  unfold takePop at h
  simp only at h
  cases hsrc : Eng.ofCode w.pop.toNat with
  | none =>
    simp only [hsrc, Popped.got.injEq] at h
    simp [h.2]
  | some src =>
    simp only [hsrc] at h
    cases hh : ((s.ctx c).stream e).held with
    | some v =>
      simp only [hh, Popped.got.injEq] at h
      simp [← h.1, ← h.2, hh]
    | none =>
      simp only [hh] at h
      split at h
      · exact absurd h (by simp)
      · split at h
        · exact absurd h (by simp)
        · split at h
          · exact absurd h (by simp)
          · simp only [Popped.got.injEq] at h
            obtain ⟨rfl, rfl⟩ := h
            split <;> simp [State.count_eq]

/-- The body of a word comes to `mk` of the state s1 from every context in which its pop is taken: s1 is the state with
the word's own effect and no bookkeeping. -/
def Comes (e : Eng) (w : Common) (got : Option Entry) (body : Wd → State → Out) (mk : State → Out) (s1 s : State) : Prop :=
  ∀ x1, Taken e w (s.ctx s.cur) x1 → ∃ x2, body (wordNow e got s) (s.modCtx s.cur fun _ => x1)
    = mk (s1.modCtx s.cur fun _ => x2) ∧ Effect e x1 (s1.ctx s.cur) x2

/-- The body of a word comes to `mk` of s1 from the context in which its pop is taken. -/
def ComesAt (e : Eng) (w : Common) (got : Option Entry) (body : Wd → State → Out) (mk : State → Out) (s1 s : State) : Prop :=
  ∃ x1 x2, Taken e w (s.ctx s.cur) x1 ∧ takePop s.cur e w.pop s = .got got (s.modCtx s.cur fun _ => x1)
    ∧ body (wordNow e got s) (s.modCtx s.cur fun _ => x1) = mk (s1.modCtx s.cur fun _ => x2)
    ∧ Effect e x1 (s1.ctx s.cur) x2

theorem Comes.here {e : Eng} {w : Common} {got : Option Entry} {body : Wd → State → Out} {mk : State → Out}
    {s1 s : State} (h : Comes e w got body mk s1 s) (hp : popped e w (s.ctx s.cur) = some got) :
    ComesAt e w got body mk s1 s := by
  obtain ⟨x1, ht, hpop⟩ := takePop_ready hp
  obtain ⟨x2, hb, he⟩ := h x1 ht
  exact ⟨x1, x2, ht, hpop, hb, he⟩

/-- A word whose fields are legal and whose pop is taken comes to what its effect comes to. -/
theorem issue_settles {e : Eng} {w : Common} {body : Wd → State → Out} {s s1 : State} {got : Option Entry}
    {mk : State → Out} (hbody : ComesAt e w got body mk s1 s) :
    ∃ x1 x2, Taken e w (s.ctx s.cur) x1 ∧ (x1.stream e).held
        = (if (Eng.ofCode w.pop.toNat).isSome then got else ((s.ctx s.cur).stream e).held)
      ∧ Effect e x1 (s1.ctx s.cur) x2
      ∧ issue e w true false body s
        = settle (wordNow e none s) e w.push (tokened e w s) (mk (s1.modCtx s.cur fun _ => x2)) := by
  obtain ⟨x1, x2, ht, hpop, hb, he⟩ := hbody
  refine ⟨x1, x2, ht, ?_, he, ?_⟩
  · simpa using takePop_held hpop
  · simp only [wordNow, wordBytes] at hb
    simp only [issue, tokened, hpop, Bool.not_true, Bool.false_eq_true, if_false, wordNow, wordBytes, hb, settle]

/-- The retired context of a word whose effect leaves s1. -/
theorem Effect.retires {e : Eng} {w : Common} {v : Entry} {s s1 : State} {x1 x2 : Ctx} (ht : Taken e w (s.ctx s.cur) x1)
    (he : Effect e x1 (s1.ctx s.cur) x2) :
    ∃ x3, retireWord s.cur e w.push v none (s1.modCtx s.cur fun _ => x2) = (s1.modCtx s.cur fun _ => x3)
      ∧ Retired e w v (s.ctx s.cur) (s1.ctx s.cur) x3 ∧ loopsOf x3 e = loopsOf (s1.ctx s.cur) e
      ∧ x3.v = (s1.ctx s.cur).v ∧ (x3.stream e).pc = ((s.ctx s.cur).stream e).pc := by
  obtain ⟨x3, hret, hs3, hheld, hdone, hfif, herr, hw, hpc, hlo, hv⟩ :=
    retireWord_is (c := s.cur) (s1 := s1) (v := v) ht he.fifos
  refine ⟨x3, hret, ⟨he.same.trans hs3, hheld, hdone, hfif, ?_, fun m hm => he.marks m (by rwa [herr] at hm),
    fun m hm h2 => by rw [herr]; exact he.doubles m hm h2, .inl (by rw [hv, he.v])⟩, by rw [hlo, he.loops], by rw [hv, he.v],
    by rw [hpc, he.stands.2, ht.pc]⟩
  rw [hw, ← ht.view]
  exact he.view

/-- The context of a word that has had its effect and waits to retire. -/
theorem Effect.parks {e : Eng} {w : Common} {got : Option Entry} {d : Done} {s s1 : State} {x1 x2 : Ctx}
    (ht : Taken e w (s.ctx s.cur) x1)
    (hh : (x1.stream e).held = if (Eng.ofCode w.pop.toNat).isSome then got else ((s.ctx s.cur).stream e).held)
    (he : Effect e x1 (s1.ctx s.cur) x2) (hd : d.pc = ((s.ctx s.cur).stream e).pc) :
    Parked e w got d (s.ctx s.cur) (s1.ctx s.cur) (x2.modStream e fun r => { r with done := some d, snap := [] }) := by
  have hpc : (x2.stream e).pc = ((s.ctx s.cur).stream e).pc := he.stands.2.trans ht.pc
  refine ⟨he.same.trans (.stream _ _ rfl rfl rfl rfl), ?_, ?_, ?_, he.fifos.trans ht.fifos,
    (by rw [← he.loops]; exact loopsOf_congr (by simp) rfl rfl), he.v, ?_, he.marks, he.doubles⟩
  · simp [Stream.parked, hpc, hd]
  · simp [hpc]
  · simp [he.stands.1, hh]
  · rw [Ctx.stream_modStream, ← ht.view]
    exact he.view

/-- The retirement of a word: where its stream goes on. -/
theorem retired_goes {e : Eng} {w : Common} {v : Entry} {s s1 : State} {x3 : Ctx}
    (h3 : Retired e w v (s.ctx s.cur) (s1.ctx s.cur) x3) (hlo : loopsOf x3 e = loopsOf (s1.ctx s.cur) e)
    (hv : x3.v = (s1.ctx s.cur).v) :
    RetiresTo e w v s1 s (s1.modCtx s.cur fun _ => goOn e ((s.ctx s.cur).stream e).pc (wordBytes s) x3) := by
  have hgo := goOn_keeps e ((s.ctx s.cur).stream e).pc (wordBytes s) x3
  refine ⟨by simp, fun _ => rfl, ?_, ?_⟩ <;> rw [State.ctx_modCtx]
  · exact ⟨h3.same.trans (.goOn _ _ _ _), by rw [hgo.2.2.1]; exact h3.held, by rw [hgo.2.2.2.2]; exact h3.idle,
      by rw [hgo.1, hgo.2.2.2.1]; exact h3.fifos, by rw [hgo.2.2.2.1]; exact h3.seen,
      fun m hm => h3.marks m (by rwa [hgo.2.1] at hm), fun m hm h2 => by rw [hgo.2.1]; exact h3.doubles m hm h2,
      by rw [← hv]; exact goOn_turn _ _ _ _⟩
  · exact (goOn_test e _ _ x3).of hlo hv

/-- The retirement of a word that transfers control. -/
theorem retired_jumps {e : Eng} {w : Common} {target : W64} {s s1 : State} {x3 : Ctx}
    (h3 : Retired e w none (s.ctx s.cur) (s1.ctx s.cur) x3) (hlo : loopsOf x3 e = loopsOf (s1.ctx s.cur) e)
    (hv : x3.v = (s1.ctx s.cur).v) :
    JumpsTo e w target s1 s (s1.modCtx s.cur fun _ => x3.modStream e fun r => { r with pc := target }) := by
  refine ⟨by simp, fun _ => rfl, ?_, ?_, ?_, ?_⟩ <;> rw [State.ctx_modCtx]
  · exact ⟨h3.same.trans (.stream _ _ rfl rfl rfl rfl), by rw [Ctx.stream_modStream]; exact h3.held,
      by rw [Ctx.stream_modStream]; exact h3.idle, by rw [Ctx.stream_modStream]; exact h3.fifos,
      by rw [Ctx.stream_modStream]; exact h3.seen, h3.marks, h3.doubles, h3.turn⟩
  · simp
  · rw [loopsOf_modStream_pc, hlo]
  · rw [Ctx.modStream_v, hv]

/-- A word whose effect retires, by going on or by a jump to `target`, ends as `EndsWith` says. -/
theorem issue_ends {i : Instr} {e : Eng} {w : Common} {body : Wd → State → Out} {s s1 : State}
    {got : Option Entry} {v : Entry} {onto : Option W64} {mk : State → Out} (hexec : exec i s = .next (issue e w true false body s))
    (hbody : ComesAt e w got body mk s1 s) (hmk : ∀ (u a : State), settle (wordNow e none s) e w.push u (mk a)
      = finishWord s.cur e ⟨((s.ctx s.cur).stream e).pc, wordBytes s, w.push, v, onto, none⟩ a) (hv : onto.isSome = true → v = none) :
    EndsWith i e w got v onto s1 s (match onto with
      | none => RetiresTo e w v s1 s
      | some target => JumpsTo e w target s1 s) := by
  obtain ⟨x1, x2, ht, hh, he, hi⟩ := issue_settles hbody
  rw [hmk, finishWord, State.ctx_modCtx] at hi
  have hp : pushReady e w.push x2 = true ↔ MayPush e w (s.ctx s.cur) (s1.ctx s.cur) :=
    pushReady_iff (he.fifos.trans ht.fifos) he.same
  refine ⟨fun room => ⟨_, hexec, ?_⟩, fun full => ⟨_, hexec, ?_⟩⟩
  · obtain ⟨x3, hret, h3, hlo, hv3, -⟩ := he.retires (v := v) ht
    rw [hi, if_pos (hp.2 room), leaveWord]
    simp only [hret]
    cases onto with
    | none =>
      simp only [State.modCtx_modCtx]
      exact retired_goes h3 hlo hv3
    | some target =>
      obtain rfl := hv rfl
      simp only [State.modCtx_modCtx]
      exact retired_jumps h3 hlo hv3
  · rw [hi, if_neg fun h => full (hp.1 h), parkWord, State.modCtx_modCtx]
    refine ⟨by simp, fun _ => rfl, none, ?_⟩
    rw [State.ctx_modCtx]
    exact he.parks ht hh rfl

/-! What keeps a word from issuing or retiring. -/

/-- The pop of a word waits. -/
theorem takePop_waits {e : Eng} {w : Common} {s : State} (h : PopWaits e w (s.ctx s.cur)) :
    takePop s.cur e w.pop s = .wait := by
  obtain ⟨src, h1, h2, h3⟩ := h
  simp only [takePop, h1, h2]
  rcases h3 with h3 | h3
  · rw [if_pos h3]
  · split
    · rfl
    · rw [h3]

/-- The pop of a word finds an uncorrectable entry. -/
theorem takePop_bad {e : Eng} {w : Common} {src : Eng} {s : State} (h : PopBad e w src (s.ctx s.cur)) :
    takePop s.cur e w.pop s = .bad (storageFault 3 (some src.code) 0 true) s := by
  obtain ⟨h1, h2, h3, e1, t, h4, h5⟩ := h
  simp [takePop, h1, h2, h3, h4, h5]

/-- A word that comes to `issue` is kept from issuing by its tokens, whatever its body. -/
theorem issue_blocks {i : Instr} {e : Eng} {w : Common}
    (h : ∀ s, Legal i s → ∃ body, exec i s = .next (issue e w true false body s)) : Blocks i e w where
  pop s hl hp := by
    obtain ⟨body, hb⟩ := h s hl
    rw [hb]
    simp only [issue, takePop_waits hp, Bool.not_true, Bool.false_eq_true, if_false]
  bad s src hl hp := by
    obtain ⟨body, hb⟩ := h s hl
    refine ⟨_, by rw [hb]; simp only [issue, takePop_bad hp, Bool.not_true, Bool.false_eq_true, if_false, settle]; rfl,
      rfl, rfl, rfl, rfl, rfl, ?_⟩
    simp [storageFault, flt, Trap.plain]

/-- The completion of a word of engine e, from what its body comes to. -/
theorem issue_completes_at {i : Instr} {e : Eng} {w : Common} {ok bad : Bool} {body : State → Wd → State → Out}
    {ready : State → Prop} {push : State → Entry} {own : Option Entry → State → State}
    (hexec : ∀ s, exec i s = .next (issue e w ok bad (body s) s)) (hok : i.wf = true → ok = true ∧ bad = false)
    (hbody : ∀ s got, ready s → TokensTaken e w got (s.ctx s.cur) →
      ComesAt e w got (body s) (.retire (push s)) (own got s) s) : Completes i e w ready push own := by
  intro hw
  obtain ⟨rfl, rfl⟩ := hok hw
  exact ⟨issue_blocks fun s _ => ⟨_, hexec s⟩, fun s got ht hr =>
    issue_ends (onto := none) (hexec s) (hbody s got hr ht) (fun _ _ => rfl) (by simp)⟩

/-- The same for a word whose last act follows its retirement. -/
theorem issue_completesThen_at {i : Instr} {e : Eng} {w : Common} {ok bad : Bool} {body : State → Wd → State → Out}
    {ready : State → Prop} {own : Option Entry → State → State} {last : State → State → State}
    (hexec : ∀ s, exec i s = .next (issue e w ok bad (body s) s)) (hok : i.wf = true → ok = true ∧ bad = false)
    (hbody : ∀ s got, ready s → TokensTaken e w got (s.ctx s.cur) →
      ComesAt e w got (body s) (fun u => .last u (last s)) (own got s) s) : CompletesThen i e w ready own last := by
  intro hw
  obtain ⟨rfl, rfl⟩ := hok hw
  refine ⟨issue_blocks fun s _ => ⟨_, hexec s⟩, fun s got ht hr => ?_⟩
  obtain ⟨x1, x2, htk, hh, he, hi⟩ := issue_settles (hbody s got hr ht)
  have hp : pushReady e w.push x2 = true ↔ MayPush e w (s.ctx s.cur) ((own got s).ctx s.cur) :=
    pushReady_iff (he.fifos.trans htk.fifos) he.same
  simp only [settle, wordNow, State.ctx_modCtx] at hi
  refine ⟨fun room => ?_, fun full => ?_⟩
  · obtain ⟨x3, hret, h3, hlo, hv3, -⟩ := he.retires (v := none) htk
    refine ⟨_, ?_, retired_goes h3 hlo hv3⟩
    rw [hexec s, hi, if_pos (hp.2 room), hret, State.modCtx_modCtx]
  · rw [hexec s, hi, if_neg fun h => full (hp.1 h)]

/-- The same for a word whose last act transfers control. -/
theorem issue_completesByRet_at {i : Instr} {e : Eng} {w : Common} {ok : State → Bool} {body : State → Wd → State → Out}
    {ready : State → Prop} {own : State → State} {last : State → State → State}
    (hexec : ∀ s, exec i s = .next (issue e w (ok s) false (body s) s)) (hok : ∀ s, Legal i s → ok s = true)
    (hlegal : i.wf = true → ∀ s, ready s → Legal i s)
    (hbody : ∀ s got, ready s → TokensTaken e w got (s.ctx s.cur) →
      ComesAt e w got (body s) (fun u => .ret u (last s)) (own s) s) : CompletesByRet i e w ready own last := by
  intro hw
  refine ⟨issue_blocks fun s hl => ⟨_, by rw [hexec s, hok s hl]⟩, fun s got ht hr => ?_⟩
  obtain ⟨x1, x2, htk, hh, he, hi⟩ := issue_settles (hbody s got hr ht)
  have hp : pushReady e w.push x2 = true ↔ MayPush e w (s.ctx s.cur) ((own s).ctx s.cur) :=
    pushReady_iff (he.fifos.trans htk.fifos) he.same
  simp only [settle, wordNow, State.ctx_modCtx] at hi
  refine ⟨fun room => ?_, fun full => ?_⟩
  · obtain ⟨x3, hret, h3, hlo, hv3, hpc⟩ := he.retires (v := none) htk
    refine ⟨_, ?_, retired_jumps (target := ((s.ctx s.cur).stream e).pc) h3 hlo hv3⟩
    rw [hexec s, hok s (hlegal hw s hr), hi, if_pos (hp.2 room), hret]
    congr 2
    refine State.modCtx_congr _ _ ?_
    exact (Ctx.modStream_pc_self hpc).symm
  · rw [hexec s, hok s (hlegal hw s hr), hi, if_neg fun h => full (hp.1 h)]

/-- The completion of a word of an engine other than S and V. -/
theorem issue_completes {i : Instr} {e : Eng} {w : Common} {ok : Bool} {body : Wd → State → Out} {ready : State → Prop}
    {push : State → Entry} {own : Option Entry → State → State}
    (hexec : ∀ s, exec i s = .next (issue e w ok false body s)) (hok : i.wf = true → ok = true)
    (hbody : ∀ s got, ready s → TokensTaken e w got (s.ctx s.cur) → Comes e w got body (.retire (push s)) (own got s) s) :
    Completes i e w ready push own :=
  issue_completes_at (body := fun _ => body) hexec (fun h => ⟨hok h, rfl⟩) fun s got hr ht => (hbody s got hr ht).here ht.pop

/-- The completion of a word that transfers control, from what its body comes to. -/
theorem issue_completesAt_at {i : Instr} {e : Eng} {w : Common} {ok bad : Bool} {body : State → Wd → State → Out}
    {ready : State → Prop} {target : State → W64} {own : State → State}
    (hexec : ∀ s, exec i s = .next (issue e w ok bad (body s) s)) (hok : i.wf = true → ok = true ∧ bad = false)
    (hbody : ∀ s got, ready s → TokensTaken e w got (s.ctx s.cur) → ComesAt e w got (body s) (.jump (target s)) (own s) s) :
    CompletesAt i e w ready target own := by
  intro hw
  obtain ⟨rfl, rfl⟩ := hok hw
  exact ⟨issue_blocks fun s _ => ⟨_, hexec s⟩, fun s got ht hr =>
    issue_ends (onto := some (target s)) (hexec s) (hbody s got hr ht) (fun _ _ => rfl) (fun _ => rfl)⟩

/-- The completion of a word of an engine other than S and V that transfers control. -/
theorem issue_completesAt {i : Instr} {e : Eng} {w : Common} {ok : Bool} {body : Wd → State → Out} {ready : State → Prop}
    {target : State → W64} {own : State → State} (hexec : ∀ s, exec i s = .next (issue e w ok false body s))
    (hok : i.wf = true → ok = true) (hbody : ∀ s got, ready s → Comes e w got body (.jump (target s)) (own s) s) :
    CompletesAt i e w ready target own :=
  issue_completesAt_at (body := fun _ => body) hexec (fun h => ⟨hok h, rfl⟩) fun s got hr ht => (hbody s got hr).here ht.pop

/-- A word that issues and then waits to retire holds the state its effect leaves. -/
theorem issue_holds {e : Eng} {w : Common} {ok bad : Bool} {body : Wd → State → Out} {s s1 : State} {got : Option Entry}
    (hok : ok = true) (hbad : bad = false) (hr : TokensTaken e w got (s.ctx s.cur))
    (hbody : Comes e w got body .hold s1 s) :
    ∃ x2, issue e w ok bad body s = s1.modCtx s.cur (fun _ => x2) ∧ SameBut e (s1.ctx s.cur) x2 := by
  subst hok hbad
  obtain ⟨x1, x2, -, -, he, hi⟩ := issue_settles (hbody.here hr.pop)
  exact ⟨x2, hi, he.same⟩

/-- A word whose effect waits stays with its pop taken (03 R92, R93). -/
theorem issue_waits {e : Eng} {w : Common} {ok bad : Bool} {body : Wd → State → Out} {s : State} {got : Option Entry}
    (hok : ok = true) (hbad : bad = false) (hr : TokensTaken e w got (s.ctx s.cur))
    (hb : body (wordNow e got s) (tokened e w s) = .wait) : issue e w ok bad body s = tokened e w s := by
  subst hok hbad
  obtain ⟨x1, ht, hpop⟩ := takePop_ready hr.pop
  simp only [wordNow, wordBytes, tokened, hpop] at hb
  simp only [issue, hpop, Bool.not_true, Bool.false_eq_true, if_false, hb, settle, tokened]

/-- A word that waits to retire, and now may push: it retires, and its stream goes on. -/
theorem leaveWord_retires {e : Eng} {w : Common} {v : Entry} {s : State} (hp : w.pop = 0) :
    RetiresTo e w v s s
      (leaveWord s.cur e ⟨((s.ctx s.cur).stream e).pc, wordBytes s, w.push, v, none, none⟩ s) := by
  have hc : Eng.ofCode w.pop.toNat = none := by simp [hp]
  have ht : Taken e w (s.ctx s.cur) (s.ctx s.cur) :=
    ⟨.refl _ _, rfl, rfl, rfl, by simp [fifosPopped, hc], by simp [poppedViews, hc, Stream.acquire], fun _ h => h,
      fun _ h _ => h⟩
  have he : Effect e (s.ctx s.cur) (s.ctx s.cur) (s.ctx s.cur) :=
    ⟨.refl _ _, rfl, rfl, rfl, ⟨rfl, rfl⟩, .inl rfl, fun _ h => h, fun _ h _ => h⟩
  obtain ⟨x3, hret, h3, hlo, hv3, -⟩ := he.retires (v := v) ht
  rw [show (s.modCtx s.cur fun _ => s.ctx s.cur) = s from State.modCtx_self s s.cur] at hret
  simp only [leaveWord, hret, State.modCtx_modCtx]
  exact retired_goes h3 hlo hv3

/-! The state in which a word's effect takes place. -/

/-- A word's pop, taken: the state `tokened` differs from the state before in bookkeeping alone. -/
theorem tokened_ready {e : Eng} {w : Common} {got : Option Entry} {s : State} (h : popped e w (s.ctx s.cur) = some got) :
    ∃ x1, Taken e w (s.ctx s.cur) x1 ∧ tokened e w s = s.modCtx s.cur (fun _ => x1)
      ∧ takePop s.cur e w.pop s = .got got (s.modCtx s.cur fun _ => x1) := by
  obtain ⟨x1, ht, hp⟩ := takePop_ready h
  exact ⟨x1, ht, by rw [tokened, hp], hp⟩

/-- y has the FIFOs of x, and its stream's held entry and PC. -/
structure Stands (e : Eng) (x y : Ctx) : Prop where
  fifos : y.fifos = x.fifos
  held : (y.stream e).held = (x.stream e).held
  pc : (y.stream e).pc = (x.stream e).pc

theorem Stands.trans {e : Eng} {x y z : Ctx} (h : Stands e x y) (g : Stands e y z) : Stands e x z :=
  ⟨g.fifos.trans h.fifos, g.held.trans h.held, g.pc.trans h.pc⟩

/-- A body whose effect, on the state with the pop taken, leaves s1 with the FIFOs and the stream as the pop left them. -/
theorem ComesAt.own {e : Eng} {w : Common} {got : Option Entry} {body : Wd → State → Out} {mk : State → Out} {s1 s : State}
    (hp : popped e w (s.ctx s.cur) = some got) (hb : body (wordNow e got s) (tokened e w s) = mk s1)
    (hf : Stands e ((tokened e w s).ctx s.cur) (s1.ctx s.cur)) : ComesAt e w got body mk s1 s := by
  obtain ⟨x1, ht, h1, hpop⟩ := tokened_ready hp
  refine ⟨x1, s1.ctx s.cur, ht, hpop, ?_, ⟨.refl _ _, ?_, rfl, rfl, ?_, .inl rfl, fun _ h => h, fun _ h _ => h⟩⟩
  · rw [← h1, hb]
    congr 1
    exact (State.modCtx_self s1 s.cur).symm
  · rw [hf.fifos, h1, State.ctx_modCtx]
  · rw [hf.held, hf.pc, h1, State.ctx_modCtx]
    exact ⟨rfl, rfl⟩

/-- The completion of a word of an engine other than S and V, its effect stated on the state with its pop taken. -/
theorem issue_completes_own {i : Instr} {e : Eng} {w : Common} {ok : Bool} {body : Wd → State → Out} {ready : State → Prop}
    {push : State → Entry} {own : Option Entry → State → State}
    (hexec : ∀ s, exec i s = .next (issue e w ok false body s)) (hok : i.wf = true → ok = true)
    (hbody : ∀ s got, ready s → TokensTaken e w got (s.ctx s.cur) →
      body (wordNow e got s) (tokened e w s) = .retire (push s) (own got s)
        ∧ Stands e ((tokened e w s).ctx s.cur) ((own got s).ctx s.cur)) : Completes i e w ready push own :=
  issue_completes_at (body := fun _ => body) hexec (fun h => ⟨hok h, rfl⟩) fun s got hr ht =>
    .own ht.pop (hbody s got hr ht).1 (hbody s got hr ht).2

/-- A word with an illegal field raises 0x01 and is not issued (03 R88 row 4). -/
theorem issue_illegal (e : Eng) (w : Common) (bad : Bool) (body : Wd → State → Out) (s : State) :
    issue e w false bad body s = raise s.cur e (Trap.plain 0x01 ((s.ctx s.cur).stream e).pc) s := rfl

/-- A word whose operands form no legal group raises 0x02 (03 R88 row 5). -/
theorem issue_badGroup (e : Eng) (w : Common) (body : Wd → State → Out) (s : State) :
    issue e w true true body s = raise s.cur e (Trap.plain 0x02 ((s.ctx s.cur).stream e).pc) s := rfl

end Sys2Proof
end

