-- ==== Sys2Proof/Laws/Operands.lean ====
section
/-! SUPPORT. Operands of S and V words: what a check that passes says, what correcting marks leaves alone, and S words
as a whole: with the guard true, with the guard false. -/

set_option Elab.async false

namespace Sys2Proof

open Machine

/-! Correcting marks. -/

/-- Correcting marks keeps a taken context taken, and its streams as they are. -/
theorem correct_taken {e : Eng} {w : Common} {s : State} {c : CoreId} {x x1 : Ctx} (h : Taken e w x x1) (sites : List Site) :
    ∃ x2, (s.modCtx c fun _ => x1).correct c sites = s.modCtx c (fun _ => x2) ∧ Taken e w x x2 ∧ x2.str = x1.str := by
  unfold State.correct
  simp only [State.ctx_modCtx]
  split
  · exact ⟨x1, rfl, h, rfl⟩
  · rw [State.modCtx_modCtx, State.count_eq, State.modCtx_modCtx]
    split
    · exact ⟨_, rfl, h.correct sites, rfl⟩
    · exact ⟨_, rfl, (h.correct sites).count 10 _, rfl⟩

/-- The same streams give the same views, held entries and PCs. -/
theorem Ctx.stream_of_str {x y : Ctx} (h : y.str = x.str) (e : Eng) : y.stream e = x.stream e := by
  simp only [Ctx.stream, h]

/-- A site reads as uncorrectable only where a mark says so. -/
theorem siteMark_double_mem {l : List (Site × Bool)} {a : Site} (h : siteMark l a = .double) : (a, true) ∈ l := by
  induction l with
  | nil => simp [siteMark] at h
  | cons m t ih =>
    obtain ⟨b, d⟩ := m
    simp only [siteMark] at h
    by_cases hb : b = a
    · subst hb
      cases d
      · simp at h
      · simp
    · simp only [hb, if_false] at h
      exact List.mem_cons_of_mem _ (ih h)

/-! S registers. -/

theorem chkS_ready {x : Ctx} {r : Src} (h : SReady x r.reg) : chkS x r = .ok := by
  unfold chkS
  rcases h with h | ⟨hf, hm⟩
  · simp [h]
  · have : siteMark x.errs (.sreg r.reg) ≠ .double := fun hd => hm (siteMark_double_mem hd)
    simp [hf, this]

theorem chkDest_free {x : Ctx} {r : BitVec 6} (h : SFree x r) : chkDest x r = .ok := by
  unfold chkDest
  rcases h with h | h
  · simp [h]
  · split
    · rfl
    · split
      · next he => exact absurd he h
      · rfl

theorem firstBad_ok {l : List Chk} (h : ∀ k ∈ l, k = .ok) : firstBad l = .ok := by
  induction l with
  | nil => rfl
  | cons k t ih =>
    rw [h k (List.mem_cons_self ..)]
    exact ih fun j hj => h j (List.mem_cons_of_mem _ hj)

/-- Checks that all pass come to no verdict. -/
theorem verdict_ok {l : List Chk} (h : ∀ k ∈ l, k = .ok) : verdict l = .ok := by
  have h7 : l.find? Chk.row7 = none := List.find?_eq_none.2 fun k hk => by rw [h k hk]; decide
  have hw : l.contains .wait = false := by
    rw [← Bool.not_eq_true, List.contains_iff_mem]
    intro hm
    have := h _ hm
    simp at this
  rw [verdict, h7, hw]
  exact firstBad_ok h

/-- A register that may be read still may once the word's pop is taken and marks are corrected. -/
theorem SReady.taken {e : Eng} {w : Common} {x y : Ctx} (h : Taken e w x y) {r : Nat} (hr : SReady x r) : SReady y r := by
  rcases hr with hr | ⟨hf, hm⟩
  · exact .inl hr
  · exact .inr ⟨by rw [h.same.fields.2.1]; exact hf, fun hd => hm (h.marks _ hd)⟩

theorem SFree.taken {e : Eng} {w : Common} {x y : Ctx} (h : Taken e w x y) {r : BitVec 6} (hr : SFree x r) :
    SFree y r := by
  rcases hr with hr | hf
  · exact .inl hr
  · exact .inr (by rw [h.same.fields.2.1]; exact hf)

@[simp] theorem sval_zero (x : Ctx) : sval x 0 = 0 := rfl

theorem sval_taken {e : Eng} {w : Common} {x y : Ctx} (h : Taken e w x y) (r : Nat) : sval y r = sval x r := by
  unfold sval
  rw [h.same.fields.1]

theorem sfield_taken {e : Eng} {w : Common} {x y : Ctx} (h : Taken e w x y) (r : BitVec 6) : sfield y r = sfield x r :=
  sval_taken h r.toNat

theorem sval_same {e : Eng} {x y : Ctx} (h : SameBut e x y) (r : Nat) : sval y r = sval x r := by
  unfold sval
  rw [h.fields.1]

theorem guardHolds_iff (x : Ctx) (w : Common) : guardHolds x w = true ↔ (sval x w.guard.toNat = 0 ↔ w.ginv = true) := by
  unfold guardHolds
  cases w.ginv <;> simp

/-! S words. -/

/-- The checks of an S word's sources and destination pass. -/
theorem sOperands_ok {k : Wd} {srcs : List Src} {dest : Option (BitVec 6)} {body : Wd → State → Out} {s : State} {x1 : Ctx}
    (hs : ∀ r ∈ srcs, SReady x1 r.reg) (hd : ∀ d, dest = some d → SFree x1 d) :
    sOperands k srcs dest body (s.modCtx k.c fun _ => x1)
      = body k ((s.modCtx k.c fun _ => x1).correct k.c (srcs.map fun r => Site.sreg r.reg)) := by
  unfold sOperands
  simp only [State.ctx_modCtx]
  rw [verdict_ok]
  intro q hq
  rcases List.mem_append.1 hq with hq | hq
  · obtain ⟨r, hr, rfl⟩ := List.mem_map.1 hq
    exact chkS_ready (hs r hr)
  · cases dest with
    | none => simp at hq
    | some d =>
      rw [List.mem_singleton.1 hq]
      exact chkDest_free (hd d rfl)

/-- The guard, sources and destination of an S word are ready and its effect comes to `mk` from every taken context:
then so does the word's body as a whole. -/
theorem sGuarded_comes {w : Common} {srcs : List Src} {dest : Option (BitVec 6)} {body : Wd → State → Out} {s s1 : State}
    {got : Option Entry} {mk : State → Out} (hg : GuardTrue w (s.ctx s.cur))
    (hs : ∀ r ∈ srcs, SReady (s.ctx s.cur) r.reg) (hd : ∀ d, dest = some d → SFree (s.ctx s.cur) d)
    (hbody : Comes .s w got body mk s1 s) : Comes .s w got (sGuarded w srcs dest body) mk s1 s := by
  intro x1 ht
  have rest : ∀ x1 x0, Taken .s w (s.ctx s.cur) x1 → x1.fifos = x0.fifos →
      x1.str = x0.str → ∃ x2,
      sOperands (wordNow .s got s) srcs dest body (s.modCtx s.cur fun _ => x1) = mk (s1.modCtx s.cur fun _ => x2)
        ∧ Effect .s x0 (s1.ctx s.cur) x2 := by
    intro x1 x0 ht h0 hw0
    obtain ⟨x2, hc, ht2, hs2⟩ := correct_taken (s := s) (c := s.cur) ht (srcs.map fun r => Site.sreg r.reg)
    obtain ⟨x3, hb, he⟩ := hbody x2 ht2
    refine ⟨x3, ?_, { he with fifos := ?_, stands := ?_, view := ?_ }⟩
    · have h0 := sOperands_ok (k := wordNow .s got s) (body := body) (s := s) (fun r hr => (hs r hr).taken ht)
        fun d h => (hd d h).taken ht
      simp only [wordNow] at h0 hb ⊢
      rw [h0, hc, hb]
    · rw [he.fifos, ht2.fifos, ← ht.fifos, h0]
    · rw [← Ctx.stream_of_str (hs2.trans hw0) .s]
      exact he.stands
    · rw [← Ctx.stream_of_str (hs2.trans hw0) .s]
      exact he.view
  unfold sGuarded
  split
  · exact rest x1 x1 ht rfl rfl
  · next hw =>
    rcases hg with hg | ⟨hgr, hgv⟩
    · exact absurd hg hw
    · have hk : (wordNow .s got s).c = s.cur := rfl
      rw [hk]
      simp only [State.ctx_modCtx]
      rw [chkS_ready (hgr.taken ht)]
      obtain ⟨x2, hc, ht2, hs2⟩ := correct_taken (s := s) (c := s.cur) ht [Site.sreg w.guard.toNat]
      simp only [hc, State.ctx_modCtx]
      have : guardHolds x2 w = true := by rw [guardHolds_iff, sval_taken ht2]; exact hgv
      rw [if_pos this]
      exact rest x2 x1 ht2 (by rw [ht2.fifos, ht.fifos]) hs2

/-- The body of an S word whose guard fails retires with no effect; its push carries a bare token (03 R90, R92). -/
theorem sGuarded_skips {w : Common} {srcs : List Src} {dest : Option (BitVec 6)} {body : Wd → State → Out}
    {s : State} {got : Option Entry} (hg : GuardFalse w (s.ctx s.cur)) :
    Comes .s w got (sGuarded w srcs dest body) (.retire none) s s := by
  intro x1 ht
  obtain ⟨hw, hgr, hgv⟩ := hg
  unfold sGuarded
  rw [if_neg hw]
  have hk : (wordNow .s got s).c = s.cur := rfl
  rw [hk]
  simp only [State.ctx_modCtx]
  rw [chkS_ready (hgr.taken ht)]
  obtain ⟨x2, hc, ht2, hs2⟩ := correct_taken (s := s) (c := s.cur) ht [Site.sreg w.guard.toNat]
  simp only [hc, State.ctx_modCtx]
  have : ¬guardHolds x2 w = true := by rw [guardHolds_iff, sval_taken ht2]; exact hgv
  rw [if_neg this]
  exact ⟨x2, rfl, ⟨ht2.same, by rw [ht2.fifos, ht.fifos], ht2.loops, ht2.v,
    by rw [Ctx.stream_of_str hs2 .s]; exact ⟨rfl, rfl⟩, .inr (by rw [ht2.view, ht.view]), ht2.marks, ht2.doubles⟩⟩

/-! Writing an s register. -/

theorem writeS_fields (r : BitVec 6) (v : W64) (x : Ctx) :
    writeS r v x = { x with sreg := (writeS r v x).sreg, sfill := (writeS r v x).sfill, errs := (writeS r v x).errs } := by
  unfold writeS
  split <;> rfl

/-- The effect of writing an s register. -/
theorem Effect.writeS {w : Common} {x x1 : Ctx} (h : Taken .s w x x1) (r : BitVec 6) (v : W64) :
    Effect .s x1 (writeS r v x) (writeS r v x1) := by
  unfold Machine.writeS
  split
  · exact ⟨h.same, rfl, h.loops, h.v, ⟨rfl, rfl⟩, .inr rfl, h.marks, h.doubles⟩
  · obtain ⟨_, _, _, _, _, _, _, hx⟩ := h.same.form
    refine ⟨⟨?_, h.same.streams, h.same.st, h.same.tmpl, h.same.orders, h.same.bank, h.same.turn⟩, rfl, h.loops, h.v,
      ⟨rfl, rfl⟩, .inr rfl, ?_, ?_⟩
    · subst hx
      rfl
    · intro m hm
      obtain ⟨h1, h2⟩ := List.mem_filter.1 hm
      exact List.mem_filter.2 ⟨h.marks m h1, h2⟩
    · intro m hm hd
      obtain ⟨h1, h2⟩ := List.mem_filter.1 hm
      exact List.mem_filter.2 ⟨h.doubles m h1 hd, h2⟩

/-- The effect of a word that only retires. -/
theorem Effect.nothing {e : Eng} {w : Common} {x x1 : Ctx} (h : Taken e w x x1) : Effect e x1 x x1 :=
  ⟨h.same, rfl, h.loops, h.v, ⟨rfl, rfl⟩, .inr rfl, h.marks, h.doubles⟩

/-! Deferred writes. -/

/-- The context with a deferred write pending: its registers empty, its place in program order taken (04 R121). -/
def deferred (p : Pend) (x : Ctx) : Ctx :=
  let y := clearDest p (setFill p .empty x)
  { y with seq := y.seq + 1, pend := y.pend ++ [{ p with seq := y.seq }] }

/-- A deferred write is a change of its context alone. -/
theorem State.issuePend_is (s : State) (c : CoreId) (p : Pend) : s.issuePend c p = s.modCtx c (deferred p) := by
  simp only [State.issuePend, State.modCtx_modCtx]
  rfl

/-- The effect of a deferred write of S. -/
theorem Effect.deferred {w : Common} {x x1 : Ctx} (h : Taken .s w x x1) (p : Pend) (hp : p.eng = .s) :
    Effect .s x1 (Sys2Proof.deferred p x) (Sys2Proof.deferred p x1) := by
  have hc : ∀ y : Ctx, Sys2Proof.deferred p y = if p.reg = 0 then
      { y with seq := y.seq + 1, pend := y.pend ++ [{ p with seq := y.seq }] }
    else { y with sfill := vset y.sfill p.reg .empty, sreg := vset y.sreg p.reg 0, seq := y.seq + 1,
                  pend := y.pend ++ [{ p with seq := y.seq }] } := by
    intro y
    unfold Sys2Proof.deferred
    simp only [setFill, clearDest, hp]
    split <;> rfl
  rw [hc, hc]
  obtain ⟨_, _, _, _, _, hx⟩ := h.form
  split
  · refine Effect.of h (fun y => { y with seq := y.seq + 1, pend := y.pend ++ [{ p with seq := y.seq }] }) ?_ rfl rfl rfl rfl
    subst hx
    rfl
  · refine Effect.of h (fun y => { y with
      sfill := vset y.sfill p.reg .empty, sreg := vset y.sreg p.reg 0, seq := y.seq + 1,
      pend := y.pend ++ [{ p with seq := y.seq }] }) ?_ rfl rfl rfl rfl
    subst hx
    rfl

end Sys2Proof
end

