-- ==== Sys2Proof/Laws/SWords.lean ====
section
/-! SUPPORT. S words by shape: how the completion of a word follows from what its body comes to. -/

set_option Elab.async false

namespace Sys2Proof

open Machine

/-- An effect on the context alone. -/
theorem Comes.ofCtx {e : Eng} {w : Common} {got : Option Entry} {body : Wd → State → Out} {mk : State → Out} {s : State}
    {eff : Ctx → Ctx} (h : ∀ x1, Taken e w (s.ctx s.cur) x1 → ∃ x2, body (wordNow e got s) (s.modCtx s.cur fun _ => x1)
      = mk (s.modCtx s.cur fun _ => x2) ∧ Effect e x1 (eff (s.ctx s.cur)) x2) :
    Comes e w got body mk (s.modCtx s.cur eff) s := by
  intro x1 ht
  obtain ⟨x2, hb, he⟩ := h x1 ht
  exact ⟨x2, by simpa using hb, by simpa using he⟩

/-- A body that has no effect. -/
theorem Comes.nothing {e : Eng} {w : Common} {got : Option Entry} {body : Wd → State → Out} {mk : State → Out} {s : State}
    (h : ∀ x1, Taken e w (s.ctx s.cur) x1 → body (wordNow e got s) (s.modCtx s.cur fun _ => x1)
      = mk (s.modCtx s.cur fun _ => x1)) : Comes e w got body mk s s :=
  fun x1 ht => ⟨x1, h x1 ht, .nothing ht⟩

/-- A body that writes an s register with a value that the pop and the corrections do not change. -/
theorem Comes.writeS {w : Common} {got : Option Entry} {body : Wd → State → Out} {mk : State → Out} {s : State}
    {fd : BitVec 6} {v : W64} (h : ∀ x1, Taken .s w (s.ctx s.cur) x1 →
      body (wordNow .s got s) (s.modCtx s.cur fun _ => x1) = mk (s.modCtx s.cur fun _ => Machine.writeS fd v x1)) :
    Comes .s w got body mk (s.writeS s.cur fd v) s :=
  Comes.ofCtx fun x1 ht => ⟨_, h x1 ht, .writeS ht fd v⟩

/-- The effect of setting loop levels. -/
theorem Effect.setLoops {e : Eng} {w : Common} {x x1 : Ctx} (h : Taken e w x x1) (ls : Vector Loop 4) :
    Effect e x1 (Machine.setLoops x e ls) (Machine.setLoops x1 e ls) := by
  refine ⟨(SameBut.setLoops x ls).symm.trans (h.same.trans (.setLoops x1 ls)), by simp, by simp [loopsOf_setLoops], ?_,
    ⟨by simp, by simp⟩, .inr (by simp), fun m hm => ?_, fun m hm h2 => ?_⟩
  · unfold Machine.setLoops
    split <;> split <;> exact h.v
  · simp only [setLoops_errs] at hm ⊢
    exact h.marks m hm
  · simp only [setLoops_errs] at hm ⊢
    exact h.doubles m hm h2

/-- The effect of a change of q on top of another effect. -/
theorem Effect.withV {x1 a b : Ctx} (h : Effect .v x1 a b) (f : VState → Vector W64 8) :
    Effect .v x1 { a with v := { a.v with q := f a.v } } { b with v := { b.v with q := f b.v } } := by
  have hv := h.v
  have ha : SameBut .v a { a with v := { a.v with q := f a.v } } :=
    ⟨rfl, fun _ _ => rfl, rfl, rfl, ⟨rfl, rfl⟩, fun _ => rfl, fun he => absurd rfl he⟩
  have hb : SameBut .v b { b with v := { b.v with q := f b.v } } :=
    ⟨rfl, fun _ _ => rfl, rfl, rfl, ⟨rfl, rfl⟩, fun _ => rfl, fun he => absurd rfl he⟩
  exact ⟨ha.symm.trans (h.same.trans hb), h.fifos, h.loops, by simp only [hv], h.stands, h.view, h.marks, h.doubles⟩

/-- The completion of an S word. -/
theorem sIssue_completes {i : Instr} {w : Common} {ok : Bool} {srcs : List Src} {dest : Option (BitVec 6)}
    {body : Wd → State → Out} {ready : State → Prop} {push : State → Entry} {own : Option Entry → State → State}
    (hexec : ∀ s, exec i s = .next (sIssue w ok srcs dest body s)) (hok : i.wf = true → ok = true)
    (hready : ∀ s, ready s → GuardTrue w (s.ctx s.cur) ∧ (∀ r ∈ srcs, SReady (s.ctx s.cur) r.reg)
      ∧ ∀ d, dest = some d → SFree (s.ctx s.cur) d)
    (hbody : ∀ s got, ready s → TokensTaken .s w got (s.ctx s.cur) → Comes .s w got body (.retire (push s)) (own got s) s) :
    Completes i .s w ready push own :=
  issue_completes (body := sGuarded w srcs dest body) hexec hok fun s got hr ht =>
    sGuarded_comes (hready s hr).1 (hready s hr).2.1 (hready s hr).2.2 (hbody s got hr ht)

/-- The same for a word that transfers control. -/
theorem sIssue_completesAt {i : Instr} {w : Common} {ok : Bool} {srcs : List Src} {dest : Option (BitVec 6)}
    {body : Wd → State → Out} {ready : State → Prop} {target : State → W64} {own : State → State}
    (hexec : ∀ s, exec i s = .next (sIssue w ok srcs dest body s)) (hok : i.wf = true → ok = true)
    (hready : ∀ s, ready s → GuardTrue w (s.ctx s.cur) ∧ (∀ r ∈ srcs, SReady (s.ctx s.cur) r.reg)
      ∧ ∀ d, dest = some d → SFree (s.ctx s.cur) d)
    (hbody : ∀ s got, ready s → Comes .s w got body (.jump (target s)) (own s) s) :
    CompletesAt i .s w ready target own :=
  issue_completesAt (body := sGuarded w srcs dest body) hexec hok fun s got hr =>
    sGuarded_comes (hready s hr).1 (hready s hr).2.1 (hready s hr).2.2 (hbody s got hr)

/-- The body of an S word whose registers are ready runs on the state `readS`. -/
theorem sGuarded_own {w : Common} {srcs : List Src} {dest : Option (BitVec 6)} {body : Wd → State → Out} {s : State}
    {got : Option Entry} {regs : List (BitVec 6)} (hg : GuardTrue w (s.ctx s.cur))
    (hs : ∀ r ∈ srcs, SReady (s.ctx s.cur) r.reg) (hd : ∀ d, dest = some d → SFree (s.ctx s.cur) d)
    (hp : popped .s w (s.ctx s.cur) = some got)
    (hr : (srcs.map fun r => Site.sreg r.reg) = regs.map fun r => Site.sreg r.toNat) :
    sGuarded w srcs dest body (wordNow .s got s) (tokened .s w s) = body (wordNow .s got s) (readS w regs s)
      ∧ Stands .s ((tokened .s w s).ctx s.cur) ((readS w regs s).ctx s.cur) := by
  obtain ⟨x1, ht, h1, -⟩ := tokened_ready hp
  have rest : ∀ x1, Taken .s w (s.ctx s.cur) x1 →
      sOperands (wordNow .s got s) srcs dest body (s.modCtx s.cur fun _ => x1) = body (wordNow .s got s)
        ((s.modCtx s.cur fun _ => x1).correct s.cur (regs.map fun r => Site.sreg r.toNat)) := by
    intro x1 ht
    rw [← hr]
    exact sOperands_ok (fun r hr => (hs r hr).taken ht) fun d h => (hd d h).taken ht
  have keep : ∀ x1 l, Taken .s w (s.ctx s.cur) x1 →
      Stands .s x1 (((s.modCtx s.cur fun _ => x1).correct s.cur l).ctx s.cur) := by
    intro x1 l ht
    obtain ⟨x2, hc, ht2, hs2⟩ := correct_taken (s := s) (c := s.cur) ht l
    rw [hc, State.ctx_modCtx]
    exact ⟨ht2.fifos.trans ht.fifos.symm, by rw [Ctx.stream_of_str hs2], by rw [Ctx.stream_of_str hs2]⟩
  unfold readS sGuarded
  simp only [h1]
  split
  · next hw =>
    exact ⟨rest x1 ht, by rw [State.ctx_modCtx]; exact keep _ _ ht⟩
  · next hw =>
    rcases hg with hg | ⟨hgr, hgv⟩
    · exact absurd hg hw
    · have hk : (wordNow .s got s).c = s.cur := rfl
      simp only [hk, State.ctx_modCtx]
      rw [chkS_ready (hgr.taken ht)]
      obtain ⟨x2, hc, ht2, hs2⟩ := correct_taken (s := s) (c := s.cur) ht [Site.sreg w.guard.toNat]
      simp only [hc, State.ctx_modCtx]
      have : guardHolds x2 w = true := by rw [guardHolds_iff, sval_taken ht2]; exact hgv
      rw [if_pos this]
      exact ⟨rest x2 ht2, Stands.trans ⟨ht2.fifos.trans ht.fifos.symm, by rw [Ctx.stream_of_str hs2], by rw [Ctx.stream_of_str hs2]⟩
        (keep _ _ ht2)⟩

/-- The completion of an S word, its effect stated on the state `readS`. -/
theorem sIssue_completes_own {i : Instr} {w : Common} {ok : Bool} {srcs : List Src} {dest : Option (BitVec 6)}
    {body : Wd → State → Out} {ready : State → Prop} {push : State → Entry} {own : Option Entry → State → State}
    {regs : List (BitVec 6)}
    (hexec : ∀ s, exec i s = .next (sIssue w ok srcs dest body s)) (hok : i.wf = true → ok = true)
    (hready : ∀ s, ready s → GuardTrue w (s.ctx s.cur) ∧ (∀ r ∈ srcs, SReady (s.ctx s.cur) r.reg)
      ∧ ∀ d, dest = some d → SFree (s.ctx s.cur) d)
    (hregs : (srcs.map fun r => Site.sreg r.reg) = regs.map fun r => Site.sreg r.toNat)
    (hbody : ∀ s got, ready s → TokensTaken .s w got (s.ctx s.cur) →
      body (wordNow .s got s) (readS w regs s) = .retire (push s) (own got s)
        ∧ Stands .s ((readS w regs s).ctx s.cur) ((own got s).ctx s.cur)) : Completes i .s w ready push own :=
  issue_completes_at (body := fun _ => sGuarded w srcs dest body) hexec (fun h => ⟨hok h, rfl⟩) fun s got hr ht => by
    obtain ⟨hg, hs, hd⟩ := hready s hr
    obtain ⟨h1, h2⟩ := sGuarded_own (body := body) (got := got) hg hs hd ht.pop hregs
    obtain ⟨b1, b2⟩ := hbody s got hr ht
    exact .own ht.pop (h1.trans b1) (h2.trans b2)

/-- An S word whose guard fails. -/
theorem sIssue_skips {i : Instr} {w : Common} {ok : Bool} {srcs : List Src} {dest : Option (BitVec 6)}
    {body : Wd → State → Out} (hexec : ∀ s, exec i s = .next (sIssue w ok srcs dest body s))
    (hok : i.wf = true → ok = true) : SkipsOnGuard i w :=
  issue_completes (body := sGuarded w srcs dest body) hexec hok fun _ _ hg _ => sGuarded_skips hg

/-! What the registers of an S word keep it from. -/

theorem emptyS_iff (trap : Bool) (x : Ctx) (r : Src) :
    emptyS trap x r = true ↔ r.reg ≠ 0 ∧ vget x.sfill r.reg = .empty ∧ r.trap = trap := by
  simp [emptyS, and_assoc]

/-- The check of a source: it passes, it waits, or it is a fault; it is row 7 just where it is empty under trap policy. -/
theorem chkS_empty {x : Ctx} {r : Src} (h : emptyS false x r = true) : chkS x r = .wait := by
  obtain ⟨h1, h2, h3⟩ := (emptyS_iff _ _ _).1 h
  simp [chkS, h1, h2, h3]

theorem poisonFault_code (p : Poison) (reg : Nat) (opnd : Option Nat) : (poisonFault p reg opnd).code = p.code.toNat := by
  unfold poisonFault
  split
  · next h => rw [h]; rfl
  · rfl

theorem chkS_row7 {x : Ctx} {r : Src} (hp : ∀ p, vget x.sfill r.reg = .poisoned p → p.code ≠ 0x03) :
    (chkS x r).row7 = emptyS true x r := by
  unfold chkS emptyS
  by_cases h0 : r.reg = 0
  · simp [h0, Chk.row7]
  · have hn : (r.reg != 0) = true := by simp [h0]
    rw [if_neg h0, hn, Bool.true_and]
    generalize vget x.sfill r.reg = fill at hp ⊢
    cases fill with
    | empty => cases ht : r.trap <;> simp [Chk.row7, flt, Trap.plain]
    | poisoned p =>
      have h3 : p.code.toNat ≠ 3 := fun h => hp p rfl (BitVec.eq_of_toNat_eq h)
      rw [show (Fill.poisoned p == Fill.empty) = false from rfl, Bool.false_and]
      simpa [Chk.row7, poisonFault_code] using h3
    | full =>
      rw [show (Fill.full == Fill.empty) = false from rfl, Bool.false_and]
      simp only
      split <;> simp [Chk.row7, storageFault, flt, Trap.plain]

/-- A check that found row 7 first decides. -/
theorem verdict_row7 {l : List Chk} {k : Chk} (h : l.find? Chk.row7 = some k) : verdict l = k := by
  simp [verdict, h]

/-- With no fault of row 7, one check that waits makes the word wait. -/
theorem verdict_waits {l : List Chk} (h : ∀ k ∈ l, k.row7 = false) (hw : .wait ∈ l) : verdict l = .wait := by
  have : l.find? Chk.row7 = none := List.find?_eq_none.2 fun k hk => by simp [h k hk]
  simp [verdict, this, hw]

theorem emptyS_taken {w : Common} {x y : Ctx} (h : Taken .s w x y) (trap : Bool) (r : Src) :
    emptyS trap y r = emptyS trap x r := by
  simp only [emptyS, h.same.fields.2.1]

theorem correct_nil (s : State) (c : CoreId) : s.correct c [] = s := by
  simp [State.correct]

/-- Where the guard holds, the registers of an S word are checked on the state `readS` with no source read. -/
theorem sGuarded_reaches {w : Common} {srcs : List Src} {dest : Option (BitVec 6)} {body : Wd → State → Out} {s : State}
    {got : Option Entry} (hg : GuardTrue w (s.ctx s.cur)) (hp : popped .s w (s.ctx s.cur) = some got) :
    ∃ x2, Taken .s w (s.ctx s.cur) x2 ∧ readS w [] s = s.modCtx s.cur (fun _ => x2)
      ∧ sGuarded w srcs dest body (wordNow .s got s) (tokened .s w s)
        = sOperands (wordNow .s got s) srcs dest body (s.modCtx s.cur fun _ => x2) := by
  obtain ⟨x1, ht, h1, -⟩ := tokened_ready hp
  unfold readS sGuarded
  simp only [h1, List.map_nil, correct_nil]
  split
  · exact ⟨x1, ht, rfl, rfl⟩
  · next hw =>
    rcases hg with hg | ⟨hgr, hgv⟩
    · exact absurd hg hw
    · have hk : (wordNow .s got s).c = s.cur := rfl
      simp only [hk, State.ctx_modCtx]
      rw [chkS_ready (hgr.taken ht)]
      obtain ⟨x2, hc, ht2, -⟩ := correct_taken (s := s) (c := s.cur) ht [Site.sreg w.guard.toNat]
      simp only [hc, State.ctx_modCtx]
      have : guardHolds x2 w = true := by rw [guardHolds_iff, sval_taken ht2]; exact hgv
      rw [if_pos this]
      exact ⟨x2, ht2, rfl, rfl⟩

theorem chkDest_waits {x : Ctx} {d : BitVec 6} (h : ¬SFree x d) : chkDest x d = .wait := by
  simp only [SFree, not_or, ne_eq, Decidable.not_not] at h
  simp [chkDest, h.1, h.2]

theorem find?_agree {α : Type} {p q : α → Bool} (l : List α) (h : ∀ a ∈ l, p a = q a) : l.find? p = l.find? q := by
  induction l with
  | nil => rfl
  | cons a l ih => rw [List.find?_cons, List.find?_cons, h a (by simp), ih fun b hb => h b (by simp [hb])]

/-- What the checks of an S word's registers come to decides what its body comes to. -/
theorem sOperands_verdict {k : Wd} {srcs : List Src} {dest : Option (BitVec 6)} {body : Wd → State → Out} {s : State} {q : Chk} :
    verdict (srcs.map (chkS (s.ctx k.c)) ++ dest.toList.map (chkDest (s.ctx k.c))) = q →
    sOperands k srcs dest body s = match q with
      | .wait => .wait
      | .bad t => .fault t s
      | .ok => body k (s.correct k.c (srcs.map fun r => Site.sreg r.reg)) := by
  rintro rfl
  cases dest <;> rfl

/-- What the registers of an S word keep it from. -/
theorem sIssue_blocks {i : Instr} {w : Common} {srcs : List Src} {dest : Option (BitVec 6)}
    (hexec : ∀ s, Legal i s → ∃ body, exec i s = .next (sIssue w true srcs dest body s)) :
    SBlocks i w srcs dest.toList where
  guard s got hl ht hg he := by
    obtain ⟨body, hb⟩ := hexec s hl
    obtain ⟨x1, htk, h1, -⟩ := tokened_ready ht.pop
    rw [hb, sIssue, issue_waits rfl rfl ht]
    have hw : w.guard.toNat ≠ 0 := fun h => hg (BitVec.eq_of_toNat_eq h)
    have hs := htk.same.fields.2.1
    rw [h1]
    unfold sGuarded
    rw [if_neg hg]
    simp [wordNow, chkS, hw, hs, he]
  wait s got hl ht hg hs hw := by
    obtain ⟨body, hb⟩ := hexec s hl
    obtain ⟨x2, htk, h1, h2⟩ := sGuarded_reaches (srcs := srcs) (dest := dest) (body := body) hg ht.pop
    rw [hb, sIssue, issue_waits rfl rfl ht]
    rw [h2, sOperands_verdict (verdict_waits ?_ ?_)]
    all_goals simp only [wordNow, State.ctx_modCtx]
    · intro k hk
      rcases List.mem_append.1 hk with hk | hk
      · obtain ⟨r, hr, rfl⟩ := List.mem_map.1 hk
        rcases hs r hr with h | h
        · rw [chkS_ready (h.taken htk)]
          rfl
        · rw [chkS_empty (by rwa [emptyS_taken htk])]
          rfl
      · obtain ⟨d, -, rfl⟩ := List.mem_map.1 hk
        unfold chkDest
        split
        · rfl
        · split <;> rfl
    · rcases hw with ⟨r, hr, h⟩ | ⟨d, hd, h⟩
      · exact List.mem_append_left _ (List.mem_map.2 ⟨r, hr, chkS_empty (by rwa [emptyS_taken htk])⟩)
      · refine List.mem_append_right _ (List.mem_map.2 ⟨d, hd, chkDest_waits fun hf => h ?_⟩)
        rcases hf with hf | hf
        · exact .inl hf
        · exact .inr (by rwa [htk.same.fields.2.1] at hf)
  trap s got r hl ht hg hs hd hf := by
    obtain ⟨body, hb⟩ := hexec s hl
    obtain ⟨x2, htk, h1, h2⟩ := sGuarded_reaches (srcs := srcs) (dest := dest) (body := body) hg ht.pop
    obtain ⟨x1, hx1, -, hpop⟩ := tokened_ready ht.pop
    have hfind : (srcs.map (chkS x2)).find? Chk.row7 = some (chkS x2 r) := by
      rw [List.find?_map, ← Option.map_some (f := chkS x2), ← hf]
      congr 1
      refine find?_agree _ fun q hq => ?_
      rw [Function.comp, chkS_row7 (by rw [htk.same.fields.2.1]; exact (hs q hq).2), emptyS_taken htk]
    have he := (emptyS_iff _ _ _).1 (List.find?_some hf)
    have hc : chkS x2 r = .bad { flt 0x03 with reg := some r.reg, opnd := r.opnd } := by
      simp [chkS, he.1, htk.same.fields.2.1, he.2.1, he.2.2]
    have hbody : sGuarded w srcs dest body (wordNow .s got s) (tokened .s w s)
        = .fault { flt 0x03 with reg := some r.reg, opnd := r.opnd } (readS w [] s) := by
      rw [h2, h1, sOperands_verdict (verdict_row7 (k := .bad { flt 0x03 with reg := some r.reg, opnd := r.opnd }) ?_)]
      simp only [wordNow, State.ctx_modCtx]
      rw [List.find?_append, hfind, Option.some_or, hc]
    refine ⟨{ flt 0x03 with reg := some r.reg, opnd := r.opnd, pc := ((s.ctx s.cur).stream .s).pc,
                            resume := ((s.ctx s.cur).stream .s).pc }, ?_, rfl, rfl, rfl, rfl, rfl, rfl, rfl⟩
    rw [hb, sIssue]
    simp only [wordNow, wordBytes, tokened, hpop] at hbody
    simp only [issue, hpop, Bool.not_true, Bool.false_eq_true, if_false, hbody, settle]
    simp [flt, Trap.plain]

/-- What the registers of an S word being ready says of its sources and destination. -/
theorem SRegs.ready {w : Common} {regs dests : List (BitVec 6)} {srcs : List Src} {dest : Option (BitVec 6)} {s : State}
    (h : SRegs w regs dests s) (hs : ∀ r ∈ srcs, ∃ f ∈ regs, r.reg = f.toNat) (hd : ∀ d, dest = some d → d ∈ dests) :
    GuardTrue w (s.ctx s.cur) ∧ (∀ r ∈ srcs, SReady (s.ctx s.cur) r.reg) ∧ ∀ d, dest = some d → SFree (s.ctx s.cur) d :=
  ⟨h.1, fun r hr => by obtain ⟨f, hf, he⟩ := hs r hr; rw [he]; exact h.2.1 f hf, fun d he => h.2.2 d (hd d he)⟩

/-- An S word that writes one register with a value of its source registers. -/
theorem sIssue_writes {i : Instr} {w : Common} {ok : Bool} {srcs : List Src} {fd : BitVec 6} {regs : List (BitVec 6)}
    {body : Wd → State → Out} {val : Ctx → W64}
    (hexec : ∀ s, exec i s = .next (sIssue w ok srcs (some fd) body s)) (hok : i.wf = true → ok = true)
    (hsrcs : ∀ r ∈ srcs, ∃ f ∈ regs, r.reg = f.toNat)
    (hbody : ∀ k s, body k s = .retire none (s.writeS k.c fd (val (s.ctx k.c))))
    (hval : ∀ x y : Ctx, x.sreg = y.sreg → val x = val y) : SWrites i w regs fd val := by
  refine ⟨sIssue_completes hexec hok (fun s hr => hr.ready hsrcs (by simp)) fun s got _ _ => Comes.writeS fun x1 ht => ?_,
    sIssue_skips hexec hok⟩
  rw [hbody, hval _ (s.ctx s.cur) (by simpa [wordNow] using ht.same.fields.1)]
  simp [State.writeS, wordNow]

end Sys2Proof
end

