-- ==== Sys2Proof/Laws/VWords.lean ====
section
/-! SUPPORT. V words by shape: what checks that pass say, the effect of writing a register or predicate, and how the
completion of a word follows. -/

set_option Elab.async false

namespace Sys2Proof

open Machine

/-- A V register that may be read still may once the word's pop is taken and marks are corrected. -/
theorem VReady.taken {e : Eng} {w : Common} {x y : Ctx} (h : Taken e w x y) {phys : Nat} {m : W64} (hr : VReady x phys m) :
    VReady y phys m := by
  refine ⟨by rw [h.v]; exact hr.1, fun i hi hm => ?_⟩
  obtain ⟨h1, h2⟩ := hr.2 i hi hm
  rw [h.v]
  exact ⟨fun hd => h1 (h.marks _ hd), fun hp hd => h2 hp (h.marks _ hd)⟩

/-- A site reads as wrong in one bit only where a mark says so. -/
theorem siteMark_single_mem {l : List (Site × Bool)} {a : Site} (h : siteMark l a = .single) : (a, false) ∈ l := by
  induction l with
  | nil => simp [siteMark] at h
  | cons m t ih =>
    obtain ⟨b, d⟩ := m
    simp only [siteMark] at h
    by_cases hb : b = a
    · subst hb
      cases d
      · simp
      · simp at h
    · simp only [hb, if_false] at h
      exact List.mem_cons_of_mem _ (ih h)

theorem chkV_ready {x : Ctx} {r : VSrc} {m : W64} (h : VReady x (vPhys x.v.rrb r.reg) m) : chkV x r = .ok := by
  unfold chkV
  rw [h.1]

theorem mem_onLanes {m : W64} {i : Nat} : i ∈ onLanes m ↔ i < 64 ∧ laneOn m i = true := by
  simp [onLanes, lanes, upTo]

theorem chkElems_ready {x : Ctx} {r : VSrc} {m : W64} (h : VReady x (vPhys x.v.rrb r.reg) m) : chkElems x r m = .ok := by
  unfold chkElems
  split
  · rfl
  · refine firstBad_ok fun k hk => ?_
    obtain ⟨i, hi, rfl⟩ := List.mem_map.1 hk
    obtain ⟨hl, hm⟩ := mem_onLanes.1 hi
    obtain ⟨h1, h2⟩ := h.2 i hl hm
    unfold chkElem
    simp only
    cases hs : siteMark x.errs (.vel (vPhys x.v.rrb r.reg) i) with
    | good => rfl
    | double => exact absurd (siteMark_double_mem hs) h1
    | single =>
      by_cases hp : laneOn (vget x.v.proof (vPhys x.v.rrb r.reg)) i = true
      · exact absurd (siteMark_single_mem hs) (h2 hp)
      · simp [hp]

/-- The checks of a V word pass: its body runs on the active lanes, on a state with marks corrected. -/
theorem vOperands_ok {w : Common} {srcs : List VSrc} {dests : List Nat} {body : Wd → W64 → State → Out} {s : State}
    {got : Option Entry} {x1 : Ctx} (ht : Taken .v w (s.ctx s.cur) x1)
    (hr : VRegs w (srcs.map fun r => (r.reg, r.reads)) dests s) :
    vOperands srcs dests body w (wordNow .v got s) (s.modCtx s.cur fun _ => x1)
      = body (wordNow .v got s) (activeMask (s.ctx s.cur).v w) ((s.modCtx s.cur fun _ => x1).correct s.cur
          (srcs.map fun r => velSites x1 r (r.reads (activeMask x1.v w))).flatten) := by
  have hs : ∀ r ∈ srcs, VReady x1 (vPhys x1.v.rrb r.reg) (r.reads (activeMask x1.v w)) := fun r hm => by
    have h := (hr.1 _ (List.mem_map.2 ⟨r, hm, rfl⟩)).taken ht
    rwa [← ht.v] at h
  have hd : ∀ d ∈ dests, chkVDest x1 d = .ok := fun d hm => by
    have h := hr.2 d hm
    rw [← ht.v] at h
    unfold chkVDest
    split
    · next he => exact absurd he h
    · rfl
  have hok : verdict (srcs.map (chkV x1) ++ dests.map (chkVDest x1)
      ++ srcs.map fun r => chkElems x1 r (r.reads (activeMask x1.v w))) = .ok := by
    refine verdict_ok fun k hk => ?_
    rcases List.mem_append.1 hk with hk | hk
    · rcases List.mem_append.1 hk with hk | hk
      · obtain ⟨r, hm, rfl⟩ := List.mem_map.1 hk
        exact chkV_ready (hs r hm)
      · obtain ⟨d, hm, rfl⟩ := List.mem_map.1 hk
        exact hd d hm
    · obtain ⟨r, hm, rfl⟩ := List.mem_map.1 hk
      exact chkElems_ready (hs r hm)
  simp only [vOperands, wordNow, State.ctx_modCtx]
  rw [hok]
  simp only [ht.v]

/-- A V word's body as a whole comes to what its effect comes to on the active lanes of a taken context. -/
theorem vOperands_comes {w : Common} {srcs : List VSrc} {dests : List Nat} {body : Wd → W64 → State → Out} {s s1 : State}
    {got : Option Entry} {mk : State → Out} (hr : VRegs w (srcs.map fun r => (r.reg, r.reads)) dests s)
    (hbody : Comes .v w got (fun k s => body k (activeMask (s.ctx k.c).v w) s) mk s1 s) :
    Comes .v w got (vOperands srcs dests body w) mk s1 s := by
  intro x1 ht
  obtain ⟨x2, hc, ht2, hs2⟩ := correct_taken (s := s) (c := s.cur) ht
    (srcs.map fun r => velSites x1 r (r.reads (activeMask x1.v w))).flatten
  obtain ⟨x3, hb, he⟩ := hbody x2 ht2
  refine ⟨x3, ?_, { he with
    fifos := by rw [he.fifos, ht2.fifos, ← ht.fifos]
    stands := by rw [← Ctx.stream_of_str hs2 .v]; exact he.stands
    view := by rw [ht.view, ← ht2.view]; exact he.view }⟩
  rw [vOperands_ok ht hr, hc, ← hb]
  simp only [wordNow, State.ctx_modCtx, ht2.v]

/-- The completion of a V word. -/
theorem vIssue_completes {i : Instr} {w : Common} {ok bad : Bool} {srcs : List VSrc} {dests : List Nat}
    {body : Wd → W64 → State → Out} {ready : State → Prop} {push : State → Entry} {own : Option Entry → State → State}
    (hexec : ∀ s, exec i s = .next (vIssue w ok bad srcs dests body s)) (hok : i.wf = true → ok = true ∧ bad = false)
    (hready : ∀ s, ready s → VRegs w (srcs.map fun r => (r.reg, r.reads)) dests s)
    (hbody : ∀ s got, ready s → TokensTaken .v w got (s.ctx s.cur) →
      Comes .v w got (fun k s => body k (activeMask (s.ctx k.c).v w) s) (.retire (push s)) (own got s) s) :
    Completes i .v w ready push own :=
  issue_completes_at (body := fun _ => vOperands srcs dests body w) hexec hok fun s got hr ht =>
    (vOperands_comes (hready s hr) (hbody s got hr ht)).here ht.pop

/-- The completion of a V word, its effect stated on the state `readV`. -/
theorem vIssue_completes_own {i : Instr} {w : Common} {ok bad : Bool} {srcs : List VSrc} {dests : List Nat}
    {body : Wd → W64 → State → Out} {ready : State → Prop} {push : State → Entry} {own : Option Entry → State → State}
    (hexec : ∀ s, exec i s = .next (vIssue w ok bad srcs dests body s)) (hok : i.wf = true → ok = true ∧ bad = false)
    (hready : ∀ s, ready s → VRegs w (srcs.map fun r => (r.reg, r.reads)) dests s)
    (hbody : ∀ s got, ready s → TokensTaken .v w got (s.ctx s.cur) →
      body (wordNow .v got s) (activeMask (s.ctx s.cur).v w) (readV w (srcs.map fun r => (r.reg, r.reads)) s)
          = .retire (push s) (own got s)
        ∧ Stands .v ((readV w (srcs.map fun r => (r.reg, r.reads)) s).ctx s.cur) ((own got s).ctx s.cur)) :
    Completes i .v w ready push own := by
  refine issue_completes_at (body := fun _ => vOperands srcs dests body w) hexec hok fun s got hr ht => ?_
  obtain ⟨x1, htk, h1, -⟩ := tokened_ready ht.pop
  obtain ⟨b1, b2⟩ := hbody s got hr ht
  have hv : readV w (srcs.map fun r => (r.reg, r.reads)) s = (s.modCtx s.cur fun _ => x1).correct s.cur
      (srcs.map fun r => velSites x1 r (r.reads (activeMask x1.v w))).flatten := by
    simp only [readV, h1, State.ctx_modCtx, List.map_map]
    rfl
  refine .own ht.pop ?_ (Stands.trans ?_ b2)
  · rw [← b1, hv, h1]
    exact vOperands_ok htk (hready s hr)
  · obtain ⟨x2, hc, ht2, hs2⟩ := correct_taken (s := s) (c := s.cur) htk
      (srcs.map fun r => velSites x1 r (r.reads (activeMask x1.v w))).flatten
    rw [hv, hc, h1, State.ctx_modCtx, State.ctx_modCtx]
    exact ⟨ht2.fifos.trans htk.fifos.symm, by rw [Ctx.stream_of_str hs2], by rw [Ctx.stream_of_str hs2]⟩

/-- The same for a V word that transfers control. -/
theorem vIssue_completesAt {i : Instr} {w : Common} {ok bad : Bool} {srcs : List VSrc} {dests : List Nat}
    {body : Wd → W64 → State → Out} {ready : State → Prop} {target : State → W64} {own : State → State}
    (hexec : ∀ s, exec i s = .next (vIssue w ok bad srcs dests body s)) (hok : i.wf = true → ok = true ∧ bad = false)
    (hready : ∀ s, ready s → VRegs w (srcs.map fun r => (r.reg, r.reads)) dests s)
    (hbody : ∀ s got, ready s → Comes .v w got (fun k s => body k (activeMask (s.ctx k.c).v w) s) (.jump (target s))
      (own s) s) : CompletesAt i .v w ready target own :=
  issue_completesAt_at (body := fun _ => vOperands srcs dests body w) hexec hok fun s got hr ht =>
    (vOperands_comes (hready s hr) (hbody s got hr)).here ht.pop

/-! What the registers of a V word keep it from. -/

/-- A V source as `VBlocks` names it: register, operand and policy. -/
def regOf (r : VSrc) : Src := ⟨r.reg, some r.opnd, r.trap⟩

theorem emptyV_taken {w : Common} {x y : Ctx} (h : Taken .v w x y) (trap : Bool) (r : Src) :
    emptyV trap y r = emptyV trap x r := by
  simp only [emptyV, h.v]

theorem emptyV_iff (trap : Bool) (x : Ctx) (r : Src) :
    emptyV trap x r = true ↔ vget x.v.fill (vPhys x.v.rrb r.reg) = .empty ∧ r.trap = trap := by
  simp [emptyV]

theorem chkV_row7 {x : Ctx} {r : VSrc} (hp : ∀ p, vget x.v.fill (vPhys x.v.rrb r.reg) = .poisoned p → p.code ≠ 0x03) :
    (chkV x r).row7 = emptyV true x (regOf r) := by
  unfold chkV emptyV regOf
  generalize vget x.v.fill (vPhys x.v.rrb r.reg) = fill at hp ⊢
  cases fill with
  | empty => cases ht : r.trap <;> simp [Chk.row7, flt, Trap.plain]
  | poisoned p =>
    have h3 : p.code.toNat ≠ 3 := fun h => hp p rfl (BitVec.eq_of_toNat_eq h)
    rw [show (Fill.poisoned p == Fill.empty) = false from rfl, Bool.false_and]
    simpa [Chk.row7, poisonFault_code] using h3
  | full => rfl

theorem chkVDest_row7 (x : Ctx) (d : Nat) : (chkVDest x d).row7 = false := by
  unfold chkVDest
  split <;> rfl

theorem firstBad_row7 {l : List Chk} (h : ∀ k ∈ l, k.row7 = false) : (firstBad l).row7 = false := by
  induction l with
  | nil => rfl
  | cons k l ih =>
    cases k with
    | ok => exact ih fun q hq => h q (by simp [hq])
    | wait => rfl
    | bad t => exact h (.bad t) (by simp)

theorem chkElems_row7 (x : Ctx) (r : VSrc) (m : W64) : (chkElems x r m).row7 = false := by
  unfold chkElems
  split
  · rfl
  · refine firstBad_row7 fun k hk => ?_
    obtain ⟨i, -, rfl⟩ := List.mem_map.1 hk
    unfold chkElem
    dsimp only
    split
    · rfl
    · rfl
    · split <;> rfl

/-- What the checks of a V word's registers come to decides what its body comes to. -/
theorem vOperands_verdict {k : Wd} {srcs : List VSrc} {dests : List Nat} {body : Wd → W64 → State → Out} {w : Common}
    {s : State} {q : Chk} :
    verdict (srcs.map (chkV (s.ctx k.c)) ++ dests.map (chkVDest (s.ctx k.c))
      ++ srcs.map fun r => chkElems (s.ctx k.c) r (r.reads (activeMask (s.ctx k.c).v w))) = q →
    vOperands srcs dests body w k s = match q with
      | .wait => .wait
      | .bad t => .fault t s
      | .ok => body k (activeMask (s.ctx k.c).v w) (s.correct k.c
          (srcs.map fun r => velSites (s.ctx k.c) r (r.reads (activeMask (s.ctx k.c).v w))).flatten) := by
  rintro rfl
  rfl

/-- What the registers of a V word keep it from; the lanes its sources are read on play no part in it. -/
theorem vIssue_blocks {i : Instr} {w : Common} {srcs : List Src} {dests : List Nat}
    (hexec : ∀ s, Legal i s → ∃ vs body, exec i s = .next (vIssue w true false vs dests body s) ∧ vs.map regOf = srcs) :
    VBlocks i w srcs dests where
  wait s got hl ht hs hw := by
    obtain ⟨vs, body, hb, rfl⟩ := hexec s hl
    obtain ⟨x1, htk, h1, -⟩ := tokened_ready ht.pop
    have hv := htk.v
    rw [hb, vIssue, issue_waits rfl rfl ht]
    rw [h1, vOperands_verdict (verdict_waits ?_ ?_)]
    all_goals simp only [wordNow, State.ctx_modCtx]
    · intro k hk
      rcases List.mem_append.1 hk with hk | hk
      · rcases List.mem_append.1 hk with hk | hk
        · obtain ⟨r, hr, rfl⟩ := List.mem_map.1 hk
          rcases hs (regOf r) (List.mem_map.2 ⟨r, hr, rfl⟩) with h | h
          · rw [chkV_row7 (by rw [hv]; simp only [regOf] at h; rw [h]; simp), emptyV_taken htk]
            simp [emptyV, h]
          · have he := (emptyV_iff _ _ _).1 h
            rw [chkV_row7 (by rw [hv]; have h1 := he.1; simp only [regOf] at h1; rw [h1]; simp), emptyV_taken htk]
            simp [emptyV, he.2]
        · obtain ⟨d, -, rfl⟩ := List.mem_map.1 hk
          exact chkVDest_row7 _ _
      · obtain ⟨r, -, rfl⟩ := List.mem_map.1 hk
        exact chkElems_row7 _ _ _
    · refine List.mem_append_left _ ?_
      rcases hw with ⟨q, hq, h⟩ | ⟨d, hd, h⟩
      · obtain ⟨r, hr, rfl⟩ := List.mem_map.1 hq
        have he := (emptyV_iff _ _ _).1 h
        simp only [regOf] at he
        exact List.mem_append_left _ (List.mem_map.2 ⟨r, hr, by simp [chkV, hv, he.1, he.2]⟩)
      · exact List.mem_append_right _ (List.mem_map.2 ⟨d, hd, by simp [chkVDest, hv, h]⟩)
  trap s got q hl ht hs hd hf := by
    obtain ⟨vs, body, hb, rfl⟩ := hexec s hl
    obtain ⟨x1, htk, h1, hpop⟩ := tokened_ready ht.pop
    rw [List.find?_map] at hf
    obtain ⟨r, hr, rfl⟩ := Option.map_eq_some_iff.1 hf
    have hfind : (vs.map (chkV x1)).find? Chk.row7 = some (chkV x1 r) := by
      rw [List.find?_map, ← Option.map_some (f := chkV x1), ← hr]
      congr 1
      refine find?_agree _ fun p hp => ?_
      rw [Function.comp, chkV_row7 (by rw [htk.v]; exact (hs (regOf p) (List.mem_map.2 ⟨p, hp, rfl⟩)).2), emptyV_taken htk]
      rfl
    have he := (emptyV_iff _ _ (regOf r)).1 (List.find?_some (p := emptyV true (s.ctx s.cur) ∘ regOf) hr)
    simp only [regOf] at he
    have hc : chkV x1 r = .bad { flt 0x03 with reg := some r.reg, opnd := some r.opnd } := by
      simp [chkV, htk.v, he.1, he.2]
    have hbody : vOperands vs dests body w (wordNow .v got s) (tokened .v w s)
        = .fault { flt 0x03 with reg := some r.reg, opnd := some r.opnd } (tokened .v w s) := by
      rw [h1, vOperands_verdict (verdict_row7 (k := .bad { flt 0x03 with reg := some r.reg, opnd := some r.opnd }) ?_)]
      simp only [wordNow, State.ctx_modCtx]
      rw [List.find?_append, List.find?_append, hfind, Option.some_or, Option.some_or, hc]
    refine ⟨{ flt 0x03 with reg := some r.reg, opnd := some r.opnd, pc := ((s.ctx s.cur).stream .v).pc,
                            resume := ((s.ctx s.cur).stream .v).pc }, ?_, rfl, rfl, rfl, rfl, rfl, rfl, rfl⟩
    rw [hb, vIssue]
    simp only [wordNow, wordBytes, tokened, hpop] at hbody
    simp only [issue, tokened, hpop, Bool.not_true, Bool.false_eq_true, if_false, hbody, settle]
    simp [flt, Trap.plain]

/-- The effect of writing a V register. -/
theorem Effect.writeV {e : Eng} {w : Common} {x x1 : Ctx} (h : Taken e w x x1) (k : Wd) (phys : Nat) (m : W64) (proof : Bool)
    (g : Nat → W32) : Effect e x1 (Machine.writeV k phys m proof g x) (Machine.writeV k phys m proof g x1) := by
  by_cases hm : m = 0
  · simp only [Machine.writeV, hm, if_true]
    exact .nothing h
  · obtain ⟨_, _, _, _, _, hx⟩ := h.form
    refine Effect.ofMarks h (Machine.writeV k phys m proof g)
      (fun e => match e.1 with | .vel r i => !(r == phys && laneOn m i) | _ => true) ?_ ?_ ?_ ?_ ?_
    · subst hx
      simp only [Machine.writeV, hm, if_false]
      try rfl
    all_goals
      simp only [Machine.writeV, hm, if_false]
      try rfl

/-- The effect of writing a predicate. -/
theorem Effect.writePred {e : Eng} {w : Common} {x x1 : Ctx} (h : Taken e w x x1) (code : Nat) (m bits : W64) :
    Effect e x1 (Machine.writePred code m bits x) (Machine.writePred code m bits x1) := by
  obtain ⟨_, _, _, _, _, hx⟩ := h.form
  refine Effect.of h (Machine.writePred code m bits) ?_ ?_ ?_ ?_ ?_
  · subst hx
    unfold Machine.writePred
    split
    · rfl
    · split <;> rfl
  all_goals
    unfold Machine.writePred
    split
    · rfl
    · split <;> rfl

/-- A body that writes a V register with values that the pop and the corrections do not change. -/
theorem Comes.writeV {w : Common} {got : Option Entry} {body : Wd → State → Out} {mk : State → Out} {s : State}
    {fd : BitVec 6} {m : W64} {proof : Bool} {g : Nat → W32} (h : ∀ x1, Taken .v w (s.ctx s.cur) x1 →
      body (wordNow .v got s) (s.modCtx s.cur fun _ => x1)
        = mk ((s.modCtx s.cur fun _ => x1).writeV (wordNow .v got s) fd m proof g)) :
    Comes .v w got body mk (s.writeV (wordNow .v got s) fd m proof g) s := by
  refine Comes.ofCtx fun x1 ht => ⟨_, ?_, Effect.writeV ht (wordNow .v got s) (vReg (s.ctx s.cur) fd) m proof g⟩
  rw [h x1 ht]
  have : vReg x1 fd = vReg (s.ctx s.cur) fd := by simp only [vReg, ht.v]
  simp [State.writeV, wordNow, this]

/-- A V word that maps lanes. -/
theorem vMap_writes {i : Instr} {f : FRrr} {ok bad : Bool} {srcs : List VSrc} {regs : List (Nat × (W64 → W64))}
    {g : Ctx → Nat → W32} {val : Ctx → Nat → W32} (hexec : ∀ s, exec i s = .next (vMap f ok bad srcs g s))
    (hok : i.wf = true → ok = true ∧ bad = false) (hregs : srcs.map (fun r => (r.reg, r.reads)) = regs)
    (hg : ∀ x y : Ctx, x.v = y.v → g x = val y) : VWrites i f.w regs f.fd f.prf val := by
  refine vIssue_completes hexec hok (fun s hr => by rw [hregs]; exact hr) fun s got _ _ => Comes.writeV fun x1 ht => ?_
  simp only [wordNow, State.ctx_modCtx, hg x1 _ ht.v, ht.v]

/-- A V word that writes a predicate. -/
theorem vToPred_tests {i : Instr} {f : FRrr} {ok : Bool} {srcs : List VSrc} {regs : List (Nat × (W64 → W64))}
    {g : Ctx → W64} (hexec : ∀ s, exec i s = .next (vToPred f ok srcs g s)) (hok : i.wf = true → ok = true)
    (hregs : srcs.map (fun r => (r.reg, r.reads)) = regs) (hg : ∀ x y : Ctx, x.v = y.v → g x = g y) :
    VTests i f.w regs f.fd g := by
  refine vIssue_completes hexec (fun h => ⟨hok h, rfl⟩) (fun s hr => by rw [hregs]; exact hr) fun s got _ _ =>
    Comes.ofCtx fun x1 ht => ⟨_, ?_, Effect.writePred ht f.fd.toNat _ _⟩
  simp only [wordNow, State.ctx_modCtx, hg x1 _ ht.v, ht.v, State.modCtx_modCtx]

end Sys2Proof
end

