-- ==== Sys2Proof/Laws/Frames.lean ====
section
/-! SUPPORT. What operations leave alone: memory, the core in turn and the token FIFOs. -/

set_option Elab.async false

namespace Sys2Proof

open Machine

/-- t has the memory, the core in turn and the FIFOs of s. -/
structure Keeps (s t : State) : Prop where
  mem : t.mem = s.mem
  cur : t.cur = s.cur
  fifos : ∀ c, (t.ctx c).fifos = (s.ctx c).fifos

theorem Keeps.refl (s : State) : Keeps s s := ⟨rfl, rfl, fun _ => rfl⟩

theorem Keeps.trans {s t u : State} (h : Keeps s t) (g : Keeps t u) : Keeps s u :=
  ⟨g.mem.trans h.mem, g.cur.trans h.cur, fun c => (g.fifos c).trans (h.fifos c)⟩

theorem Keeps.modCore {s : State} {c : CoreId} {f : Core → Core} (hf : ∀ k, (f k).ctx.fifos = k.ctx.fifos) :
    Keeps s (s.modCore c f) := by
  refine ⟨rfl, rfl, fun d => ?_⟩
  by_cases h : d = c
  · subst h
    simp [State.ctx, hf]
  · simp only [State.ctx]
    rw [State.core_modCore_ne _ _ (Ne.symm h)]

theorem Keeps.modCtx {s : State} {c : CoreId} {f : Ctx → Ctx} (hf : ∀ x, (f x).fifos = x.fifos) :
    Keeps s (s.modCtx c f) :=
  .modCore fun k => hf k.ctx

theorem Keeps.modCluster {s : State} {cl : ClusterId} {f : Cluster → Cluster} : Keeps s (s.modCluster cl f) :=
  ⟨rfl, rfl, fun _ => rfl⟩

theorem Keeps.modPlate {s : State} {p : PlateId} {f : Plate → Plate} : Keeps s (s.modPlate p f) :=
  ⟨rfl, rfl, fun _ => rfl⟩

theorem Keeps.modDev {s : State} {f : Device → Device} : Keeps s (s.modDev f) := ⟨rfl, rfl, fun _ => rfl⟩

theorem Keeps.drawNat {s : State} : Keeps s s.drawNat.2 := ⟨rfl, rfl, fun _ => rfl⟩

theorem Keeps.drawBool {s : State} : Keeps s s.drawBool.2 := ⟨rfl, rfl, fun _ => rfl⟩

theorem Keeps.count {s : State} {c : CoreId} {evt n : Nat} : Keeps s (s.count c evt n) := by
  unfold State.count
  split
  · exact .refl s
  · exact .modCtx fun _ => rfl

theorem Keeps.memErr {s : State} {l : List (Nat × Bool)} : Keeps s { s with memErr := l } := ⟨rfl, rfl, fun _ => rfl⟩

theorem Keeps.touch {s : State} {c : CoreId} {k n : Nat} : Keeps s (s.touch c k n) :=
  Keeps.memErr.trans .count

theorem Keeps.foldl {α : Type} {g : State → α → State} (hg : ∀ s a, Keeps s (g s a)) (l : List α) (s : State) :
    Keeps s (l.foldl g s) := by
  induction l generalizing s with
  | nil => exact .refl s
  | cons a l ih => exact (hg s a).trans (ih _)

theorem Keeps.touchRef {s : State} {c : CoreId} {r : Ref} : Keeps s (s.touchRef c r) :=
  .foldl (fun _ _ => .touch) _ _

theorem Keeps.correct {s : State} {c : CoreId} {l : List Site} : Keeps s (s.correct c l) := by
  unfold State.correct
  dsimp only
  split
  · exact .refl s
  · refine Keeps.trans ?_ .count
    exact .modCtx fun _ => rfl

/-! Translation and the checks of an access. -/

/-- A translation entered into the TLB of core c. -/
def fillTlb (c : CoreId) (t : TlbEnt) (s : State) : State :=
  let (p, s2) := if (s.core c).tlb.length < 256 then (0, s) else s.drawNat
  s2.modCore c fun k => { k with tlb := tlbAdd k.tlb 256 t p }

theorem Keeps.fillTlb {s : State} {c : CoreId} {t : TlbEnt} : Keeps s (fillTlb c t s) := by
  by_cases h : (s.core c).tlb.length < 256
  · simp only [Sys2Proof.fillTlb, h, if_true]
    exact .modCore fun _ => rfl
  · simp only [Sys2Proof.fillTlb, h, if_false]
    refine Keeps.trans .drawNat ?_
    exact .modCore fun _ => rfl

/-- A translation entered into the TLB of a cluster. -/
def fillClusterTlb (cl : ClusterId) (t : TlbEnt) (s : State) : State :=
  let (p, s3) := if (s.cluster cl).tlb.length < 8192 then (0, s) else s.drawNat
  s3.modCluster cl fun k => { k with tlb := tlbAdd k.tlb 8192 t p }

theorem Keeps.fillClusterTlb {s : State} {cl : ClusterId} {t : TlbEnt} : Keeps s (fillClusterTlb cl t s) := by
  by_cases h : (s.cluster cl).tlb.length < 8192
  · simp only [Sys2Proof.fillClusterTlb, h, if_true]
    exact .modCluster
  · simp only [Sys2Proof.fillClusterTlb, h, if_false]
    exact Keeps.trans .drawNat .modCluster

/-- What a translation does where the TLB of the core misses. -/
def missFill (c : CoreId) (root va : Nat) (s : State) : Option TlbEnt × State :=
  match tlbFind (s.cluster (clusterOf c)).tlb root va with
  | none =>
    match (s.count c 17 1).walkFor (clusterOf c) root va with
    | (none, s1) => (none, s1)
    | (some t, s1) => (some t, fillTlb c t (fillClusterTlb (clusterOf c) t s1))
  | some t => (some t, fillTlb c t s)

theorem translate_eq (s : State) (c : CoreId) (root va : Nat) : s.translate c root va =
    match tlbFind (s.core c).tlb root va with
    | none => if s.dev.remapGo then (none, s) else missFill c root va (s.count c 16 1)
    | some t => (some t, s) := by
  unfold State.translate missFill
  cases tlbFind (s.core c).tlb root va with
  | some t => rfl
  | none =>
    dsimp only
    split
    · rfl
    · cases tlbFind ((s.count c 16 1).cluster (clusterOf c)).tlb root va with
      | some t => rfl
      | none =>
        dsimp only
        rcases ((s.count c 16 1).count c 17 1).walkFor (clusterOf c) root va with ⟨_ | t, s1⟩ <;> rfl

theorem Keeps.levelEntry {s : State} {cl : ClusterId} {root va size key : Nat} :
    Keeps s (s.levelEntry cl root va size key).2 := by
  have hk : ∀ (b : Bool) (t : State) (f : Cluster → Cluster) (e : Nat),
      Keeps t (if b then (e, t.modCluster cl f) else (e, t)).2 := fun b t f e => by
    cases b
    · exact .refl t
    · exact .modCluster
  unfold State.levelEntry
  dsimp only
  split
  · exact hk _ _ _ _
  · next w _ =>
    by_cases hw : w.entry = s.word64 key
    · simp only [hw, if_true]
      exact hk _ _ _ _
    · simp only [hw, if_false]
      exact Keeps.drawBool.trans (hk _ _ _ _)

theorem Keeps.walkFor {s : State} {cl : ClusterId} {root va : Nat} : Keeps s (s.walkFor cl root va).2 := by
  unfold State.walkFor
  split
  · exact .refl s
  · dsimp only
    split
    · exact .levelEntry
    · split
      · exact .levelEntry
      · split
        · exact .levelEntry
        · split
          · exact Keeps.trans .levelEntry .levelEntry
          · split
            · exact Keeps.trans .levelEntry .levelEntry
            · split
              · exact Keeps.trans .levelEntry .levelEntry
              · exact Keeps.trans (Keeps.trans .levelEntry .levelEntry) .levelEntry

theorem Keeps.translate {s : State} {c : CoreId} {root va : Nat} : Keeps s (s.translate c root va).2 := by
  rw [translate_eq]
  split
  · split
    · exact .refl s
    · refine Keeps.trans (t := s.count c 16 1) .count ?_
      generalize s.count c 16 1 = s
      unfold missFill
      split
      · refine Keeps.trans (t := s.count c 17 1) .count ?_
        generalize s.count c 17 1 = s
        have h := Keeps.walkFor (s := s) (cl := clusterOf c) (root := root) (va := va)
        split
        · next h1 =>
          rw [h1] at h
          exact h
        · next h1 =>
          rw [h1] at h
          exact h.trans (Keeps.trans .fillClusterTlb .fillTlb)
      · exact .fillTlb
  · exact .refl s

theorem Keeps.translateAll {c : CoreId} {root : Nat} (ps : List (Nat × Nat)) (s : State) :
    Keeps s (s.translateAll c root ps).2 := by
  induction ps generalizing s with
  | nil => exact .refl s
  | cons p ps ih =>
    have h := Keeps.translate (s := s) (c := c) (root := root) (va := p.1)
    unfold State.translateAll
    split
    · next s1 h1 =>
      rw [h1] at h
      exact h
    · next t s1 h1 =>
      rw [h1] at h
      have h2 := ih s1
      split
      · next s2 h3 =>
        rw [h3] at h2
        exact h.trans h2
      · next ts s2 h3 =>
        rw [h3] at h2
        exact h.trans h2

theorem Keeps.globalRef {s : State} {c : CoreId} {root va n : Nat} {use : Use} {o : Bool} {h : Side} :
    Keeps s (s.globalRef c root va n use o h).2 := by
  unfold State.globalRef
  split
  · exact .refl s
  · dsimp only
    have h := Keeps.translateAll (c := c) (root := root) (cutPages va n (n / 2 ^ 16 + 2)) s
    split
    · next h1 =>
      rw [h1] at h
      exact h
    · next h1 =>
      rw [h1] at h
      exact h

theorem Keeps.scalarRef {s : State} {c : CoreId} {space a n : Nat} {use : Use} {al o : Bool} :
    Keeps s (s.scalarRef c space a n use al o).2 := by
  unfold State.scalarRef
  split
  · exact .refl s
  · split
    · exact .refl s
    · split
      · exact .refl s
      · split
        · exact .refl s
        · exact .globalRef

theorem Keeps.laneRef {s : State} {c : CoreId} {space lane a n : Nat} {use : Use} {o : Bool} :
    Keeps s (s.laneRef c space lane a n use o).2 := by
  unfold State.laneRef
  split
  · exact .refl s
  · exact .scalarRef

/-! Reads. -/

theorem Keeps.readTime {s : State} {v : View} {sp : Span} : Keeps s (s.readTime v sp).2 := by
  unfold State.readTime
  dsimp only
  split
  · exact .refl s
  · exact .drawNat

theorem Keeps.readNoted {s : State} {c : CoreId} {e : Eng} {acq : Nat} {sp : Span} {at_ : Nat} :
    Keeps s (s.readNoted c e acq sp at_) := by
  unfold State.readNoted
  dsimp only
  split
  · exact .refl s
  · exact .modCtx fun _ => rfl

theorem Keeps.readParts {c : CoreId} {e : Eng} {q acq : Nat} {sp : Span} (ps : List (Nat × Nat)) (s : State) :
    Keeps s (s.readParts c e q acq sp ps).2 := by
  induction ps generalizing s with
  | nil => exact .refl s
  | cons p ps ih =>
    unfold State.readParts
    dsimp only
    exact Keeps.readTime.trans (Keeps.readNoted.trans (ih _))

theorem Keeps.readPiece {s : State} {c : CoreId} {e : Eng} {q acq : Nat} {p : Piece} :
    Keeps s (s.readPiece c e q acq p).2 :=
  Keeps.readParts _ _

/-! Control blocks and groups. -/

theorem Keeps.blockTime {s : State} {c : CoreId} {e : Eng} {ps : List Piece} : Keeps s (s.blockTime c e ps).2 := by
  unfold State.blockTime
  dsimp only
  split
  · exact .refl s
  · exact .drawNat

theorem Keeps.entryTime {s : State} {c : CoreId} {e : Eng} {head : Piece} {at_ : Nat → List Piece} :
    Keeps s (s.entryTime c e head at_).2 := by
  unfold State.entryTime
  dsimp only
  split
  · exact .refl s
  · exact .drawNat

theorem Keeps.fetchVersion {s : State} {c : CoreId} {e : Eng} {at_ : Nat → Nat} {r : Ref} {τ : Nat} :
    Keeps s (s.fetchVersion c e at_ r τ).2 := by
  unfold State.fetchVersion
  dsimp only
  split
  · exact .refl s
  · split
    · exact .refl s
    · exact (Keeps.foldl (fun _ _ => .readNoted) _ _).trans .touchRef

theorem Keeps.fetchBlock {s : State} {c : CoreId} {e : Eng} {addr : Nat} {r : Ref} :
    Keeps s (s.fetchBlock c e addr r).2 := Keeps.blockTime.trans .fetchVersion

theorem Keeps.fetchEntry {s : State} {c : CoreId} {e : Eng} {head : Piece} {at_ : State → Nat → List Piece} :
    Keeps s (s.fetchEntry c e head at_).2 := Keeps.entryTime.trans .fetchVersion

/-- A read through the cache keeps what its fetch keeps. -/
theorem Keeps.readCached {s : State} {c : CoreId} {hit : CBlock → Bool} {copy : List Byte → CBlock}
    {fetch : State → BlockRead × State} (hf : ∀ s, Keeps s (fetch s).2) : Keeps s (s.readCached c hit copy fetch).2 := by
  have hfill : ∀ s : State, Keeps s (match fetch s with
      | (.bytes bs, s1) => ((BlockRead.bytes bs, s1.modCore c fun k => { k with cbc := copy bs :: k.cbc }) : BlockRead × State)
      | q => q).2 := by
    intro s
    have h := hf s
    split
    · next h1 =>
      rw [h1] at h
      refine h.trans ?_
      dsimp only
      exact .modCore fun _ => rfl
    · exact h
  unfold State.readCached
  dsimp only
  split
  · exact hfill s
  · split
    · exact .drawBool
    · refine Keeps.trans ?_ (hfill _)
      refine Keeps.trans .drawBool ?_
      exact .modCore fun _ => rfl

theorem Keeps.readBlock {s : State} {c : CoreId} {e : Eng} {space root addr n : Nat} {r : Ref} :
    Keeps s (s.readBlock c e space root addr n r).2 := .readCached fun _ => .fetchBlock

theorem Keeps.readGroup {s : State} {c : CoreId} {e : Eng} {g : Nat} : Keeps s (s.readGroup c e g).2 :=
  .readCached fun _ => .fetchEntry

theorem Keeps.readEntry {s : State} {c : CoreId} {e : Eng} {g : Nat} : Keeps s (s.readEntry c e g).2 :=
  .readCached fun _ => .fetchEntry

theorem Keeps.startCollate {s s1 : State} {c : CoreId} {e : Eng} {op off g : Nat} {lane : Option Nat} {el : ColEl}
    {gone : List Nat} (h : s.startCollate c e op lane off g = .ok el gone s1) : Keeps s s1 := by
  unfold State.startCollate at h
  split at h
  · cases h
  · have hk := Keeps.readGroup (s := s) (c := c) (e := e) (g := g)
    split at h
    · cases h
    · cases h
    · cases h
    · next h1 =>
      rw [h1] at hk
      unfold State.collateWith at h
      dsimp only at h
      split at h
      · cases h
      · split at h
        · cases h
        · cases h
          exact hk

/-! Deferred writes. -/

theorem foldl_fifos {α : Type} {g : Ctx → α → Ctx} (hg : ∀ x a, (g x a).fifos = x.fifos) (l : List α) (x : Ctx) :
    (l.foldl g x).fifos = x.fifos := by
  induction l generalizing x with
  | nil => rfl
  | cons a l ih => exact (ih _).trans (hg x a)

theorem setFill_fifos (p : Pend) (f : Fill) (x : Ctx) : (setFill p f x).fifos = x.fifos := by
  unfold setFill
  split
  · apply foldl_fifos
    exact fun _ _ => rfl
  · split <;> rfl

theorem landBytes_fifos (p : Pend) (lane sh : Nat) (bs : List Byte) (x : Ctx) :
    (landBytes p lane sh bs x).fifos = x.fifos := by
  unfold landBytes
  split
  · apply foldl_fifos
    exact fun _ _ => rfl
  · split <;> rfl

theorem clearDest_fifos (p : Pend) (x : Ctx) : (clearDest p x).fifos = x.fifos := by
  unfold clearDest
  split
  · rfl
  · split <;> rfl

theorem finishPend_fifos (p : Pend) (x : Ctx) : (finishPend p x).fifos = x.fifos := by
  unfold finishPend
  split <;> exact setFill_fifos ..

theorem Keeps.bindLoad {s : State} {c : CoreId} {p : Pend} {e : LoadEl} : Keeps s (s.bindLoad c p e).1 := by
  unfold State.bindLoad
  dsimp only
  split
  · exact .touch
  · exact (Keeps.readPiece.trans .touch).trans (.modCtx fun _ => landBytes_fifos ..)

theorem landCollate_fifos (p : Pend) (e : ColEl) (ws : List W32) (x : Ctx) : (landCollate p e ws x).fifos = x.fifos := by
  unfold landCollate
  dsimp only
  split <;> exact landBytes_fifos ..

theorem Keeps.memberValues {c : CoreId} {p : Pend} {e : ColEl} (ms : List (Nat × Bool)) (s : State) :
    Keeps s (s.memberValues c p e ms).2 := by
  induction ms generalizing s with
  | nil => exact .refl s
  | cons m ms ih =>
    unfold State.memberValues
    dsimp only
    split
    · exact ih s
    · exact (Keeps.readPiece.trans .touch).trans (ih _)

theorem Keeps.bindCollate {s : State} {c : CoreId} {p : Pend} {e : ColEl} : Keeps s (s.bindCollate c p e).1 := by
  unfold State.bindCollate
  dsimp only
  split
  · exact .memberValues _ _
  · exact (Keeps.memberValues _ _).trans (.modCtx fun _ => landCollate_fifos ..)

/-- A deferred write at its issue. -/
theorem Keeps.issuePend {s : State} {c : CoreId} {p : Pend} : Keeps s (s.issuePend c p) := by
  have h1 : Keeps s (s.modCtx c fun x => clearDest p (setFill p .empty x)) :=
    .modCtx fun x => (clearDest_fifos _ _).trans (setFill_fifos _ _ _)
  exact h1.trans (.modCtx fun _ => rfl)

theorem Keeps.numbered {s : State} {c : CoreId} {e : Eng} : Keeps s (s.numbered c e) :=
  Keeps.trans .modDev (.modCtx fun _ => rfl)

/-- A store at its issue writes no memory. -/
theorem Keeps.issueStore {s : State} {c : CoreId} {e : Eng} {rel : Nat} {chunks : List Chunk} :
    Keeps s (s.issueStore c e rel chunks) := by
  unfold State.issueStore
  split
  · exact .refl s
  · dsimp only
    split
    · exact Keeps.numbered.trans (.modCtx fun _ => rfl)
    · exact .modCtx fun _ => rfl

theorem Keeps.issueAmo {s : State} {c : CoreId} {rel reg : Nat} {a : AmoReq} : Keeps s (s.issueAmo c rel reg a) := by
  have h1 : ∀ (t : State) (f : Ctx → Ctx), (∀ x, (f x).fifos = x.fifos) → Keeps t (t.modCtx c f) := fun _ _ h => .modCtx h
  unfold State.issueAmo
  dsimp only
  exact (h1 _ _ fun x => setFill_fifos _ _ x).trans (h1 _ _ fun _ => rfl)

end Sys2Proof
end

