-- ==== Sys2Proof/Laws/Memory.lean ====
section
/-! SUPPORT. The one list of memory: its canonical form, what a read gives after a write, a clearing and a copy, and that
every memory operation keeps the form. -/

set_option Elab.async false

namespace Sys2Proof

open Machine

/-- The list is sorted above a bound and lists no byte that reads as an unlisted one: in terms of a lower bound that a
key must reach. -/
def Sorted (lo : Nat) : List Host.Cell → Prop
  | [] => True
  | (a, b) :: t => lo ≤ a ∧ b ≠ unlisted ∧ Sorted (a + 1) t

theorem wfAbove_some (l : Nat) (m : List Host.Cell) : wfAbove (some l) m = true ↔ Sorted (l + 1) m := by
  induction m generalizing l with
  | nil => simp [wfAbove, Sorted]
  | cons p t ih =>
    obtain ⟨a, b⟩ := p
    simp only [wfAbove, Sorted, Bool.and_eq_true, decide_eq_true_eq, bne_iff_ne, ne_eq, ih, and_assoc, Nat.lt_iff_add_one_le]

theorem wf_iff (m : List Host.Cell) : Memory.wf m = true ↔ Sorted 0 m := by
  cases m with
  | nil => simp [Memory.wf, wfAbove, Sorted]
  | cons p t =>
    obtain ⟨a, b⟩ := p
    simp only [Memory.wf, wfAbove, Sorted, Bool.and_eq_true, bne_iff_ne, ne_eq, wfAbove_some, true_and, Nat.zero_le]

theorem Sorted.mono {lo hi : Nat} {m : List Host.Cell} (h : Sorted hi m) (hle : lo ≤ hi) : Sorted lo m := by
  cases m with
  | nil => trivial
  | cons p t =>
    obtain ⟨a, b⟩ := p
    exact ⟨Nat.le_trans hle h.1, h.2⟩

/-- Every key of a sorted list reaches its bound. -/
theorem Sorted.le {lo : Nat} {m : List Host.Cell} (h : Sorted lo m) : ∀ c ∈ m, lo ≤ c.1 := by
  induction m generalizing lo with
  | nil => simp
  | cons p t ih =>
    obtain ⟨a, b⟩ := p
    intro c hc
    rcases List.mem_cons.1 hc with rfl | hc
    · exact h.1
    · have h1 := ih h.2.2 c hc
      have h2 := h.1
      omega

/-- Below its bound a sorted list reads as unlisted. -/
theorem Sorted.read_below {lo : Nat} {m : List Host.Cell} (h : Sorted lo m) {k : Nat} (hk : k < lo) :
    readCell m k = unlisted := by
  cases m with
  | nil => rfl
  | cons p t =>
    obtain ⟨a, b⟩ := p
    have := h.1
    simp only [readCell]
    rw [if_neg (by omega), if_pos (by omega)]

/-- Two sorted runs, the first below a key and the second from it on, join. -/
theorem Sorted.append {lo mid : Nat} {l r : List Host.Cell} (hl : Sorted lo l) (hr : Sorted mid r) (hle : lo ≤ mid)
    (hlt : ∀ c ∈ l, c.1 < mid) : Sorted lo (l ++ r) := by
  induction l generalizing lo with
  | nil => exact hr.mono hle
  | cons p t ih =>
    obtain ⟨a, b⟩ := p
    exact ⟨hl.1, hl.2.1, ih hl.2.2 (hlt (a, b) (by simp)) fun c hc => hlt c (by simp [hc])⟩

/-- A read of a joined list. -/
theorem readCell_append {lo mid : Nat} {l r : List Host.Cell} (hl : Sorted lo l) (hr : Sorted mid r)
    (hlt : ∀ c ∈ l, c.1 < mid) (k : Nat) : readCell (l ++ r) k = if k < mid then readCell l k else readCell r k := by
  induction l generalizing lo with
  | nil =>
    simp only [List.nil_append, readCell]
    split
    · next h => exact hr.read_below h
    · rfl
  | cons p t ih =>
    obtain ⟨a, b⟩ := p
    have ha := hlt (a, b) (by simp)
    have := ih hl.2.2 fun c hc => hlt c (by simp [hc])
    simp only [List.cons_append, readCell, this]
    dsimp only at ha
    by_cases h1 : k = a
    · subst h1
      simp [ha]
    · by_cases h2 : k < a
      · simp [h1, h2, Nat.lt_trans h2 ha]
      · simp [h1, h2]

/-- The cells at or above a key, in a list that reaches the key, are all. -/
theorem cellsFrom_all {m : List Host.Cell} {lo k : Nat} (h : Sorted lo m) (hk : k ≤ lo) : cellsFrom m k = m := by
  refine List.filter_eq_self.2 fun c hc => ?_
  have := h.le c hc
  simp only [decide_eq_true_eq]
  omega

theorem Sorted.below {lo k : Nat} {m : List Host.Cell} (h : Sorted lo m) : Sorted lo (cellsBelow m k) := by
  induction m generalizing lo with
  | nil => trivial
  | cons p t ih =>
    obtain ⟨a, b⟩ := p
    have h1 := h.1
    have h2 := ih (h.2.2)
    simp only [cellsBelow, List.filter_cons]
    split
    · exact ⟨h1, h.2.1, h2⟩
    · exact h2.mono (by omega)

theorem Sorted.from_ {lo k : Nat} {m : List Host.Cell} (h : Sorted lo m) : Sorted k (cellsFrom m k) := by
  induction m generalizing lo with
  | nil => trivial
  | cons p t ih =>
    obtain ⟨a, b⟩ := p
    simp only [cellsFrom, List.filter_cons]
    split
    · next hk =>
      simp only [decide_eq_true_eq] at hk
      refine ⟨hk, h.2.1, ?_⟩
      rw [show (t.filter fun c => decide (k ≤ c.1)) = t from cellsFrom_all h.2.2 (by omega)]
      exact h.2.2
    · exact ih h.2.2

theorem cellsBelow_lt {m : List Host.Cell} {k : Nat} : ∀ c ∈ cellsBelow m k, c.1 < k := by
  intro c hc
  simpa using (List.mem_filter.1 hc).2

/-- A read of the cells below a key. -/
theorem read_cellsBelow {lo : Nat} {m : List Host.Cell} (h : Sorted lo m) (k a : Nat) :
    readCell (cellsBelow m k) a = if a < k then readCell m a else unlisted := by
  induction m generalizing lo with
  | nil => simp [cellsBelow, readCell]
  | cons p t ih =>
    obtain ⟨x, b⟩ := p
    have h2 := ih h.2.2
    simp only [cellsBelow, List.filter_cons] at h2 ⊢
    split
    · next hx =>
      simp only [decide_eq_true_eq] at hx
      simp only [readCell, h2]
      by_cases h1 : a = x
      · subst h1
        simp [hx]
      · by_cases h3 : a < x
        · simp [h1, h3]
        · simp [h1, h3]
    · next hx =>
      simp only [decide_eq_true_eq, Nat.not_lt] at hx
      rw [h2]
      split
      · next ha =>
        have h4 : readCell t a = unlisted := h.2.2.read_below (by omega)
        simp only [readCell, h4]
        rw [if_neg (by omega), if_pos (by omega)]
      · rfl

/-- A read of the cells from a key on. -/
theorem read_cellsFrom {lo : Nat} {m : List Host.Cell} (h : Sorted lo m) (k a : Nat) :
    readCell (cellsFrom m k) a = if k ≤ a then readCell m a else unlisted := by
  induction m generalizing lo with
  | nil => simp [cellsFrom, readCell]
  | cons p t ih =>
    obtain ⟨x, b⟩ := p
    simp only [cellsFrom, List.filter_cons]
    split
    · next hx =>
      simp only [decide_eq_true_eq] at hx
      rw [show (t.filter fun c => decide (k ≤ c.1)) = t from cellsFrom_all h.2.2 (by omega)]
      split
      · rfl
      · next ha =>
        simp only [readCell]
        rw [if_neg (by omega), if_pos (by omega)]
    · next hx =>
      simp only [decide_eq_true_eq, Nat.not_le] at hx
      have h2 := ih h.2.2
      simp only [cellsFrom] at h2
      rw [h2]
      split
      · next ha =>
        simp only [readCell]
        rw [if_neg (by omega), if_neg (by omega)]
      · rfl

theorem Sorted.cellsOf (k : Nat) (bs : List Byte) : Sorted k (cellsOf k bs) := by
  induction bs generalizing k with
  | nil => trivial
  | cons b bs ih =>
    simp only [Machine.cellsOf]
    split
    · exact (ih (k + 1)).mono (by omega)
    · next h => exact ⟨Nat.le_refl _, h, ih (k + 1)⟩

theorem cellsOf_lt (k : Nat) (bs : List Byte) : ∀ c ∈ cellsOf k bs, c.1 < k + bs.length := by
  induction bs generalizing k with
  | nil => simp [cellsOf]
  | cons b bs ih =>
    intro c hc
    simp only [cellsOf] at hc
    have h1 := ih (k + 1) c
    simp only [List.length_cons]
    split at hc
    · have := h1 hc
      omega
    · rcases List.mem_cons.1 hc with rfl | hc
      · dsimp only
        omega
      · have := h1 hc
        omega

theorem read_cellsOf (k : Nat) (bs : List Byte) (a : Nat) :
    readCell (cellsOf k bs) a = if k ≤ a then bs.getD (a - k) unlisted else unlisted := by
  induction bs generalizing k with
  | nil => simp [cellsOf, readCell]
  | cons b bs ih =>
    have h0 : ∀ a, a < k + 1 → readCell (cellsOf (k + 1) bs) a = unlisted := fun a ha =>
      (Sorted.cellsOf (k + 1) bs).read_below ha
    simp only [cellsOf]
    by_cases h1 : a = k
    · subst h1
      split
      · next hb => simp [h0 a (by omega), hb]
      · simp [readCell]
    · split
      · rw [ih]
        by_cases h2 : k ≤ a
        · have : a - k = (a - (k + 1)) + 1 := by omega
          simp [h2, show k + 1 ≤ a by omega, this]
        · simp [h2, show ¬k + 1 ≤ a by omega]
      · simp only [readCell, if_neg h1, ih]
        by_cases h2 : k ≤ a
        · have : a - k = (a - (k + 1)) + 1 := by omega
          simp [h2, show k + 1 ≤ a by omega, this, show ¬a < k by omega]
        · simp [h2, show a < k by omega]

/-- Three runs one above the other form a sorted list. -/
theorem Sorted.splice {m : List Host.Cell} (h : Sorted 0 m) {k n : Nat} {mid : List Host.Cell} (hm : Sorted k mid)
    (hlt : ∀ c ∈ mid, c.1 < k + n) : Sorted 0 (cellsBelow m k ++ mid ++ cellsFrom m (k + n)) := by
  rw [List.append_assoc]
  exact (Sorted.below h).append (mid := k) (hm.append (mid := k + n) (Sorted.from_ h) (by omega) hlt) (by omega)
    cellsBelow_lt

/-- A read of three runs one above the other. -/
theorem read_splice {m : List Host.Cell} (h : Sorted 0 m) {k n : Nat} {mid : List Host.Cell} (hm : Sorted k mid)
    (hlt : ∀ c ∈ mid, c.1 < k + n) (a : Nat) : readCell (cellsBelow m k ++ mid ++ cellsFrom m (k + n)) a
      = if k ≤ a ∧ a < k + n then readCell mid a else readCell m a := by
  rw [List.append_assoc, readCell_append (Sorted.below h) (hm.append (mid := k + n) (Sorted.from_ h) (by omega) hlt)
    cellsBelow_lt, readCell_append hm (Sorted.from_ h) hlt, read_cellsBelow h, read_cellsFrom h]
  by_cases h1 : a < k
  · simp [h1, show ¬k ≤ a by omega]
  · by_cases h2 : a < k + n
    · simp [h1, h2, show k ≤ a by omega]
    · simp [h1, h2, show k + n ≤ a by omega]

/-- Writing bytes keeps the canonical form. -/
theorem wf_writeCells {m : List Host.Cell} (h : Memory.wf m = true) (k : Nat) (bs : List Byte) :
    Memory.wf (writeCells m k bs) = true :=
  (wf_iff _).2 (Sorted.splice ((wf_iff m).1 h) (Sorted.cellsOf k bs) (cellsOf_lt k bs))

/-- A read after a write: the bytes written, and every other byte as before. -/
theorem read_writeCells {m : List Host.Cell} (h : Memory.wf m = true) (k : Nat) (bs : List Byte) (a : Nat) :
    readCell (writeCells m k bs) a
      = if k ≤ a ∧ a < k + bs.length then bs.getD (a - k) unlisted else readCell m a := by
  unfold writeCells
  rw [read_splice ((wf_iff m).1 h) (Sorted.cellsOf k bs) (cellsOf_lt k bs), read_cellsOf]
  split
  · next h1 => simp [h1.1]
  · rfl

/-- Making a range unlisted keeps the canonical form. -/
theorem wf_clearCells {m : List Host.Cell} (h : Memory.wf m = true) (k n : Nat) : Memory.wf (clearCells m k n) = true := by
  have h1 := Sorted.splice ((wf_iff m).1 h) (k := k) (n := n) (mid := []) trivial (by simp)
  rw [List.append_nil] at h1
  exact (wf_iff _).2 h1

theorem read_clearCells {m : List Host.Cell} (h : Memory.wf m = true) (k n a : Nat) :
    readCell (clearCells m k n) a = if k ≤ a ∧ a < k + n then unlisted else readCell m a := by
  have h1 := read_splice ((wf_iff m).1 h) (k := k) (n := n) (mid := []) trivial (by simp) a
  rw [List.append_nil] at h1
  exact h1

theorem Sorted.filter {lo : Nat} {m : List Host.Cell} (h : Sorted lo m) (p : Host.Cell → Bool) :
    Sorted lo (m.filter p) := by
  induction m generalizing lo with
  | nil => exact h
  | cons q t ih =>
    obtain ⟨a, b⟩ := q
    rw [List.filter_cons]
    split
    · exact ⟨h.1, h.2.1, ih h.2.2⟩
    · exact (ih h.2.2).mono (Nat.le_succ_of_le h.1)

/-- A sorted list moved from a key to another stays sorted. -/
theorem Sorted.shift {lo : Nat} {m : List Host.Cell} (h : Sorted lo m) (src dst : Nat) (hs : src ≤ lo) :
    Sorted (lo - src + dst) (m.map fun c => (c.1 - src + dst, c.2)) := by
  induction m generalizing lo with
  | nil => trivial
  | cons q t ih =>
    obtain ⟨a, b⟩ := q
    have h1 := h.1
    refine ⟨by dsimp only; omega, h.2.1, ?_⟩
    have h2 := ih h.2.2 (by omega)
    rwa [show a + 1 - src + dst = a - src + dst + 1 by omega] at h2

/-- Copying a range to a range keeps the canonical form. -/
theorem wf_copyCells {m : List Host.Cell} (h : Memory.wf m = true) (src n dst : Nat) :
    Memory.wf (copyCells m src n dst) = true := by
  have h0 := (wf_iff m).1 h
  have h1 : Sorted src (cellsFrom (cellsBelow m (src + n)) src) := Sorted.from_ (Sorted.below h0)
  have h2 := h1.shift src dst (Nat.le_refl _)
  rw [Nat.sub_self, Nat.zero_add] at h2
  refine (wf_iff _).2 (Sorted.splice h0 (n := n) h2 fun c hc => ?_)
  obtain ⟨d, hd, rfl⟩ := List.mem_map.1 hc
  have h3 := cellsBelow_lt d (List.mem_filter.1 hd).1
  have h4 := h1.le d hd
  dsimp only
  omega

/-- The memory outside the module keeps the canonical form. -/
theorem wf_outsideCells {m : List Host.Cell} (h : Memory.wf m = true) : Memory.wf (outsideCells m) = true :=
  (wf_iff _).2 (Sorted.filter ((wf_iff m).1 h) _)

theorem length_readCells (m : List Host.Cell) (k n : Nat) : (readCells m k n).length = n := by
  induction n generalizing k with
  | zero => rfl
  | succ n ih => simp [readCells, ih]

theorem getD_readCells (m : List Host.Cell) (k n i : Nat) (h : i < n) :
    (readCells m k n).getD i unlisted = readCell m (k + i) := by
  induction n generalizing k i with
  | zero => omega
  | succ n ih =>
    cases i with
    | zero => simp [readCells]
    | succ i =>
      have := ih (k + 1) i (by omega)
      simp only [List.getD_eq_getElem?_getD] at this
      simp only [readCells, List.getD_eq_getElem?_getD, List.getElem?_cons_succ, this]
      congr 1
      omega

/-! The operations of the machine that write memory keep its form. -/

/-- The memory is in canonical form. -/
def MemOk (s : State) : Prop := Memory.wf s.mem = true

theorem MemOk.keeps {s t : State} (h : MemOk s) (k : Keeps s t) : MemOk t := by
  unfold MemOk
  rw [k.mem]
  exact h

theorem MemOk.poke {s : State} (h : MemOk s) (k : Nat) (bs : List Byte) : MemOk (s.poke k bs) := wf_writeCells h k bs

theorem MemOk.putBytes {s : State} (h : MemOk s) (k : Nat) (bs : List Byte) : MemOk (s.putBytes k bs) := by
  unfold State.putBytes
  dsimp only
  split
  · exact h.poke _ _
  · exact (h.poke _ _).poke _ _

theorem MemOk.store {s : State} (h : MemOk s) (c : CoreId) (k : Nat) (bs : List Byte) : MemOk (s.store c k bs) :=
  (h.putBytes k bs).keeps .count

theorem MemOk.storeChunk {s : State} (h : MemOk s) (c : CoreId) (ch : Chunk) : MemOk (s.storeChunk c ch) := h.store _ _ _

theorem MemOk.storeMoved {s : State} (h : MemOk s) (c : CoreId) (src dst n : Nat) (bs : List Byte) :
    MemOk (s.storeMoved c src dst n bs) := MemOk.keeps (h.store c dst bs) .memErr

/-- Copying the pieces of an image keeps the form. -/
theorem MemOk.copyPieces (c : CoreId) (ps : List Piece) (dst : Nat) {s : State} (h : MemOk s) :
    MemOk (s.copyPieces c ps dst) := by
  induction ps generalizing s dst with
  | nil => exact h
  | cons p ps ih => exact ih _ ((h.keeps (Keeps.readPiece.trans .touch)).storeMoved _ _ _ _ _)

theorem MemOk.zero {s : State} (h : MemOk s) (k n : Nat) : MemOk (s.zero k n) := wf_clearCells h k n

theorem MemOk.renew {s : State} (h : MemOk s) (k n : Nat) : MemOk (s.renew k n) := h

theorem MemOk.forget {s : State} (h : MemOk s) (k n : Nat) : MemOk (s.forget k n) := wf_writeCells h k _

theorem MemOk.moveRaw {s : State} (h : MemOk s) (src dst n : Nat) : MemOk (s.moveRaw src dst n) := wf_copyCells h src n dst

theorem MemOk.copyTower {s : State} (h : MemOk s) (c : CoreId) (src dst : Nat) : MemOk (s.copyTower c src dst) :=
  wf_copyCells h _ _ _

theorem MemOk.perform {s : State} (h : MemOk s) (c : CoreId) (e : Eng) (rel : Nat) (ch : Chunk) :
    MemOk (s.perform c e rel ch) := h.storeChunk c ch

theorem MemOk.outerWrite {s : State} (h : MemOk s) (o : Nat) (rel : Bool) (k : Nat) (bs : List Byte) :
    MemOk (s.outerWrite o rel k bs) := by
  unfold State.outerWrite
  cases rel <;> exact h.putBytes k bs

theorem MemOk.addReleased {s : State} (h : MemOk s) (k n inc c scope : Nat) (v : View) :
    MemOk (s.addReleased k n inc c scope v) := h.putBytes k _

end Sys2Proof
end

