-- ==== Sys2Proof/Laws/PerInstr.lean ====
section
/-! SUPPORT. Family Codec: an instruction's words decode to it, one lemma per constructor of Instr (03 R83–R106). -/

set_option Elab.async false

open Sys2Proof Sys2Proof.Machine

/-- The decoder gives back the word whose parcels the encoder wrote, whatever bytes follow. -/
def Sys2Proof.Laws.Codec.Statement (i : Instr) : Prop :=
  ∀ (e : Eng), i.eng = some e → i.wf = true → ∀ rest, decode e (parcelBytes (encode i) ++ rest) = .ok (i, rest)

theorem Sys2Proof.Laws.Codec.own {i : Instr} {e : Eng} (he : i.eng = some e)
    (h : ∀ rest, decode e (parcelBytes (encode i) ++ rest) = .ok (i, rest)) : Statement i := by
  intro e' he' _ rest
  rw [he] at he'
  cases he'
  exact h rest

theorem Sys2Proof.Laws.Codec.own_when {i : Instr} {e : Eng} (he : i.eng = some e)
    (h : i.wf = true → ∀ rest, decode e (parcelBytes (encode i) ++ rest) = .ok (i, rest)) : Statement i := by
  intro e' he' hw rest
  rw [he] at he'
  cases he'
  exact h hw rest

theorem Sys2Proof.Laws.Codec.none_own {i : Instr} (he : i.eng = none) : Statement i := by
  intro e he'
  rw [he] at he'
  cases he'

theorem Sys2Proof.Laws.Codec.add (f : FRrr) : Statement (.add f) :=
  own rfl (rrr_decodes rfl rfl f)

theorem Sys2Proof.Laws.Codec.sub (f : FRrr) : Statement (.sub f) :=
  own rfl (rrr_decodes rfl rfl f)

theorem Sys2Proof.Laws.Codec.mul (f : FRrr) : Statement (.mul f) :=
  own rfl (rrr_decodes rfl rfl f)

theorem Sys2Proof.Laws.Codec.mulh (f : FRrr) : Statement (.mulh f) :=
  own rfl (rrr_decodes rfl rfl f)

theorem Sys2Proof.Laws.Codec.mulhu (f : FRrr) : Statement (.mulhu f) :=
  own rfl (rrr_decodes rfl rfl f)

theorem Sys2Proof.Laws.Codec.div (f : FRrr) : Statement (.div f) :=
  own rfl (rrr_decodes rfl rfl f)

theorem Sys2Proof.Laws.Codec.divu (f : FRrr) : Statement (.divu f) :=
  own rfl (rrr_decodes rfl rfl f)

theorem Sys2Proof.Laws.Codec.rem (f : FRrr) : Statement (.rem f) :=
  own rfl (rrr_decodes rfl rfl f)

theorem Sys2Proof.Laws.Codec.remu (f : FRrr) : Statement (.remu f) :=
  own rfl (rrr_decodes rfl rfl f)

theorem Sys2Proof.Laws.Codec.and (f : FRrr) : Statement (.and f) :=
  own rfl (rrr_decodes rfl rfl f)

theorem Sys2Proof.Laws.Codec.or (f : FRrr) : Statement (.or f) :=
  own rfl (rrr_decodes rfl rfl f)

theorem Sys2Proof.Laws.Codec.xor (f : FRrr) : Statement (.xor f) :=
  own rfl (rrr_decodes rfl rfl f)

theorem Sys2Proof.Laws.Codec.andn (f : FRrr) : Statement (.andn f) :=
  own rfl (rrr_decodes rfl rfl f)

theorem Sys2Proof.Laws.Codec.shl (f : FRrr) : Statement (.shl f) :=
  own rfl (rrr_decodes rfl rfl f)

theorem Sys2Proof.Laws.Codec.shr (f : FRrr) : Statement (.shr f) :=
  own rfl (rrr_decodes rfl rfl f)

theorem Sys2Proof.Laws.Codec.sra (f : FRrr) : Statement (.sra f) :=
  own rfl (rrr_decodes rfl rfl f)

theorem Sys2Proof.Laws.Codec.rotr (f : FRrr) : Statement (.rotr f) :=
  own rfl (rrr_decodes rfl rfl f)

theorem Sys2Proof.Laws.Codec.clz (f : FRrr) : Statement (.clz f) :=
  own rfl (rrr_decodes rfl rfl f)

theorem Sys2Proof.Laws.Codec.ctz (f : FRrr) : Statement (.ctz f) :=
  own rfl (rrr_decodes rfl rfl f)

theorem Sys2Proof.Laws.Codec.popc (f : FRrr) : Statement (.popc f) :=
  own rfl (rrr_decodes rfl rfl f)

theorem Sys2Proof.Laws.Codec.min (f : FRrr) : Statement (.min f) :=
  own rfl (rrr_decodes rfl rfl f)

theorem Sys2Proof.Laws.Codec.max (f : FRrr) : Statement (.max f) :=
  own rfl (rrr_decodes rfl rfl f)

theorem Sys2Proof.Laws.Codec.minu (f : FRrr) : Statement (.minu f) :=
  own rfl (rrr_decodes rfl rfl f)

theorem Sys2Proof.Laws.Codec.maxu (f : FRrr) : Statement (.maxu f) :=
  own rfl (rrr_decodes rfl rfl f)

theorem Sys2Proof.Laws.Codec.sel (f : FRrr) : Statement (.sel f) :=
  own rfl (rrr_decodes rfl rfl f)

theorem Sys2Proof.Laws.Codec.mov (f : FRrr) : Statement (.mov f) :=
  own rfl (rrr_decodes rfl rfl f)

theorem Sys2Proof.Laws.Codec.cmp (f : FRrr) : Statement (.cmp f) :=
  own rfl (rrr_decodes rfl rfl f)

theorem Sys2Proof.Laws.Codec.addi (f : FRri) : Statement (.addi f) :=
  own rfl (rri_decodes rfl rfl f)

theorem Sys2Proof.Laws.Codec.andi (f : FRri) : Statement (.andi f) :=
  own rfl (rri_decodes rfl rfl f)

theorem Sys2Proof.Laws.Codec.ori (f : FRri) : Statement (.ori f) :=
  own rfl (rri_decodes rfl rfl f)

theorem Sys2Proof.Laws.Codec.xori (f : FRri) : Statement (.xori f) :=
  own rfl (rri_decodes rfl rfl f)

theorem Sys2Proof.Laws.Codec.shli (f : FRri) : Statement (.shli f) :=
  own rfl (rri_decodes rfl rfl f)

theorem Sys2Proof.Laws.Codec.shri (f : FRri) : Statement (.shri f) :=
  own rfl (rri_decodes rfl rfl f)

theorem Sys2Proof.Laws.Codec.srai (f : FRri) : Statement (.srai f) :=
  own rfl (rri_decodes rfl rfl f)

theorem Sys2Proof.Laws.Codec.li (f : FRri) : Statement (.li f) :=
  own rfl (rri_decodes rfl rfl f)

theorem Sys2Proof.Laws.Codec.lihM (f : FRri) : Statement (.lihM f) := by
  refine own_when rfl (fun h rest => ?_)
  have h : (lihOk f && f.sub == 0) = true := h
  simp only [lihOk, Bool.and_eq_true, beq_iff_eq] at h
  refine (rri_decodes rfl rfl f rest).trans ?_
  simp [h]

theorem Sys2Proof.Laws.Codec.lihH (f : FRri) : Statement (.lihH f) := by
  refine own_when rfl (fun h rest => ?_)
  have h : (lihOk f && f.sub == 1) = true := h
  simp only [lihOk, Bool.and_eq_true, beq_iff_eq] at h
  refine (rri_decodes rfl rfl f rest).trans ?_
  simp [h]

theorem Sys2Proof.Laws.Codec.br (f : FBr) : Statement (.br f) :=
  own rfl (br_decodes rfl rfl f)

theorem Sys2Proof.Laws.Codec.bri (f : FBr) : Statement (.bri f) :=
  own rfl (br_decodes rfl rfl f)

theorem Sys2Proof.Laws.Codec.jmp (f : FBr) : Statement (.jmp f) :=
  own rfl (br_decodes rfl rfl f)

theorem Sys2Proof.Laws.Codec.jmpr (f : FBr) : Statement (.jmpr f) :=
  own rfl (br_decodes rfl rfl f)

theorem Sys2Proof.Laws.Codec.call (f : FBr) : Statement (.call f) :=
  own rfl (br_decodes rfl rfl f)

theorem Sys2Proof.Laws.Codec.ret (f : FBr) : Statement (.ret f) :=
  own rfl (br_decodes rfl rfl f)

theorem Sys2Proof.Laws.Codec.loop (f : FBr) : Statement (.loop f) :=
  own rfl (br_decodes rfl rfl f)

theorem Sys2Proof.Laws.Codec.loopr (f : FBr) : Statement (.loopr f) :=
  own rfl (br_decodes rfl rfl f)

theorem Sys2Proof.Laws.Codec.ld (f : FMem) : Statement (.ld f) :=
  own rfl (mem_decodes rfl rfl f)

theorem Sys2Proof.Laws.Codec.st (f : FMem) : Statement (.st f) :=
  own rfl (mem_decodes rfl rfl f)

theorem Sys2Proof.Laws.Codec.amo (f : FMem) : Statement (.amo f) :=
  own rfl (mem_decodes rfl rfl f)

theorem Sys2Proof.Laws.Codec.lcol (f : FMem) : Statement (.lcol f) :=
  own rfl (mem_decodes rfl rfl f)

theorem Sys2Proof.Laws.Codec.fork (f : FSys) : Statement (.fork f) := by
  refine own_when rfl (fun h rest => ?_)
  have h : (forkOk f) = true := h
  simp only [forkOk, Bool.and_eq_true, beq_iff_eq] at h
  refine (sys_decodes rfl rfl f rest).trans ?_
  simp [h]

theorem Sys2Proof.Laws.Codec.forkI (f : FSys) : Statement (.forkI f) := by
  refine own_when rfl (fun h rest => ?_)
  have h : (forkIOk f) = true := h
  simp only [forkIOk, Bool.and_eq_true, beq_iff_eq] at h
  refine (sys_decodes rfl rfl f rest).trans ?_
  simp [h]

theorem Sys2Proof.Laws.Codec.join (f : FSys) : Statement (.join f) :=
  own rfl (sys_decodes rfl rfl f)

theorem Sys2Proof.Laws.Codec.wait (f : FSys) : Statement (.wait f) :=
  own rfl (sys_decodes rfl rfl f)

theorem Sys2Proof.Laws.Codec.tksend (f : FSys) : Statement (.tksend f) :=
  own rfl (sys_decodes rfl rfl f)

theorem Sys2Proof.Laws.Codec.tkrecv (f : FSys) : Statement (.tkrecv f) := by
  refine own_when rfl (fun h rest => ?_)
  have h : (tkrecvOk f) = true := h
  simp only [tkrecvOk, Bool.and_eq_true, beq_iff_eq] at h
  refine (sys_decodes rfl rfl f rest).trans ?_
  simp [h]

theorem Sys2Proof.Laws.Codec.tkrecvD (f : FSys) : Statement (.tkrecvD f) := by
  refine own_when rfl (fun h rest => ?_)
  have h : (tkrecvDOk f) = true := h
  simp only [tkrecvDOk, Bool.and_eq_true, beq_iff_eq] at h
  refine (sys_decodes rfl rfl f rest).trans ?_
  simp [h]

theorem Sys2Proof.Laws.Codec.tmset (f : FSys) : Statement (.tmset f) :=
  own rfl (sys_decodes rfl rfl f)

theorem Sys2Proof.Laws.Codec.crd (f : FSys) : Statement (.crd f) :=
  own rfl (sys_decodes rfl rfl f)

theorem Sys2Proof.Laws.Codec.cwr (f : FSys) : Statement (.cwr f) :=
  own rfl (sys_decodes rfl rfl f)

theorem Sys2Proof.Laws.Codec.fence (f : FSys) : Statement (.fence f) :=
  own rfl (sys_decodes rfl rfl f)

theorem Sys2Proof.Laws.Codec.publish (f : FSys) : Statement (.publish f) :=
  own rfl (sys_decodes rfl rfl f)

theorem Sys2Proof.Laws.Codec.cbsync (f : FSys) : Statement (.cbsync f) := by
  refine own_when rfl (fun h rest => ?_)
  have h : (cbsyncOk f) = true := h
  simp only [cbsyncOk, Bool.and_eq_true, beq_iff_eq] at h
  refine (sys_decodes rfl rfl f rest).trans ?_
  simp [h]

theorem Sys2Proof.Laws.Codec.cbsyncAll (f : FSys) : Statement (.cbsyncAll f) := by
  refine own_when rfl (fun h rest => ?_)
  have h : (cbsyncAllOk f) = true := h
  simp only [cbsyncAllOk, Bool.and_eq_true, beq_iff_eq] at h
  refine (sys_decodes rfl rfl f rest).trans ?_
  simp [h]

theorem Sys2Proof.Laws.Codec.trap (f : FSys) : Statement (.trap f) :=
  own rfl (sys_decodes rfl rfl f)

theorem Sys2Proof.Laws.Codec.eret (f : FSys) : Statement (.eret f) :=
  own rfl (sys_decodes rfl rfl f)

theorem Sys2Proof.Laws.Codec.halt (f : FSys) : Statement (.halt f) := by
  refine own_when rfl (fun h rest => ?_)
  have h : (haltOk f) = true := h
  simp only [haltOk, Bool.and_eq_true, beq_iff_eq] at h
  refine (sys_decodes rfl rfl f rest).trans ?_
  simp [h]

theorem Sys2Proof.Laws.Codec.haltChain (f : FSys) : Statement (.haltChain f) := by
  refine own_when rfl (fun h rest => ?_)
  have h : (haltChainOk f) = true := h
  simp only [haltChainOk, Bool.and_eq_true, beq_iff_eq] at h
  refine (sys_decodes rfl rfl f rest).trans ?_
  simp [h]

theorem Sys2Proof.Laws.Codec.launch (f : FSys) : Statement (.launch f) :=
  own rfl (sys_decodes rfl rfl f)

theorem Sys2Proof.Laws.Codec.bar (f : FSys) : Statement (.bar f) :=
  own rfl (sys_decodes rfl rfl f)

theorem Sys2Proof.Laws.Codec.pacq (f : FSys) : Statement (.pacq f) :=
  own rfl (sys_decodes rfl rfl f)

theorem Sys2Proof.Laws.Codec.prel (f : FSys) : Statement (.prel f) :=
  own rfl (sys_decodes rfl rfl f)

theorem Sys2Proof.Laws.Codec.boost (f : FSys) : Statement (.boost f) :=
  own rfl (sys_decodes rfl rfl f)

theorem Sys2Proof.Laws.Codec.refdef (f : FSys) : Statement (.refdef f) :=
  own rfl (sys_decodes rfl rfl f)

theorem Sys2Proof.Laws.Codec.nop (w : Common) : Statement (.nop w) :=
  own rfl (hint_decodes rfl rfl w)

theorem Sys2Proof.Laws.Codec.hint (e : Eng) (op : BitVec 7) (w : Common) : Statement (.hint e op w) := by
  refine own_when rfl (fun h rest => ?_)
  have h : (hintOp op && toksOk e w) = true := h
  have h9 : 0x79 ≤ op.toNat := by
    simp only [hintOp, Bool.and_eq_true, decide_eq_true_eq] at h
    exact h.1
  have hd := other_decodes (Nat.ble_eq_true_of_le (Nat.le_of_lt_succ op.isLt)) (hint_unmapped e ⟨op.toNat, op.isLt⟩ h9) w rest
  rw [if_pos (by omega), BitVec.ofNat_toNat, BitVec.setWidth_eq] at hd
  exact hd

theorem Sys2Proof.Laws.Codec.patch (e : Eng) (tidx : BitVec 6) (fsel : BitVec 5) (value : BitVec 16) :
    Statement (.patch e tidx fsel value) := by
  exact own rfl (patch_decodes e tidx fsel value)

theorem Sys2Proof.Laws.Codec.unassignedOpcode (e : Eng) (op : BitVec 7) (w : Common) :
    Statement (.unassignedOpcode e op w) := by
  refine own_when rfl (fun h rest => ?_)
  have h : unassignedOp e op = true := h
  have hb := unassigned_below e op h
  have hd := other_decodes (Nat.ble_eq_true_of_le (Nat.le_of_lt_succ op.isLt)) (unassigned_unmapped e ⟨op.toNat, op.isLt⟩ (by
    rw [BitVec.ofNat_toNat, BitVec.setWidth_eq]; exact h)) w rest
  rw [if_neg (by omega), BitVec.ofNat_toNat, BitVec.setWidth_eq] at hd
  exact hd

theorem Sys2Proof.Laws.Codec.vadd (f : FRrr) : Statement (.vadd f) :=
  own rfl (rrr_decodes rfl rfl f)

theorem Sys2Proof.Laws.Codec.vsub (f : FRrr) : Statement (.vsub f) :=
  own rfl (rrr_decodes rfl rfl f)

theorem Sys2Proof.Laws.Codec.vmul (f : FRrr) : Statement (.vmul f) :=
  own rfl (rrr_decodes rfl rfl f)

theorem Sys2Proof.Laws.Codec.vfma (f : FRrr) : Statement (.vfma f) :=
  own rfl (rrr_decodes rfl rfl f)

theorem Sys2Proof.Laws.Codec.vfms (f : FRrr) : Statement (.vfms f) :=
  own rfl (rrr_decodes rfl rfl f)

theorem Sys2Proof.Laws.Codec.vmin (f : FRrr) : Statement (.vmin f) :=
  own rfl (rrr_decodes rfl rfl f)

theorem Sys2Proof.Laws.Codec.vmax (f : FRrr) : Statement (.vmax f) :=
  own rfl (rrr_decodes rfl rfl f)

theorem Sys2Proof.Laws.Codec.vabs (f : FRrr) : Statement (.vabs f) :=
  own rfl (rrr_decodes rfl rfl f)

theorem Sys2Proof.Laws.Codec.vneg (f : FRrr) : Statement (.vneg f) :=
  own rfl (rrr_decodes rfl rfl f)

theorem Sys2Proof.Laws.Codec.vrcp (f : FRrr) : Statement (.vrcp f) :=
  own rfl (rrr_decodes rfl rfl f)

theorem Sys2Proof.Laws.Codec.vrsq (f : FRrr) : Statement (.vrsq f) :=
  own rfl (rrr_decodes rfl rfl f)

theorem Sys2Proof.Laws.Codec.vtip (f : FRrr) : Statement (.vtip f) :=
  own rfl (rrr_decodes rfl rfl f)

theorem Sys2Proof.Laws.Codec.vcvt (f : FRrr) : Statement (.vcvt f) :=
  own rfl (rrr_decodes rfl rfl f)

theorem Sys2Proof.Laws.Codec.vqnt (f : FRrr) : Statement (.vqnt f) :=
  own rfl (rrr_decodes rfl rfl f)

theorem Sys2Proof.Laws.Codec.vdqnt (f : FRrr) : Statement (.vdqnt f) :=
  own rfl (rrr_decodes rfl rfl f)

theorem Sys2Proof.Laws.Codec.vspl3 (f : FRrr) : Statement (.vspl3 f) :=
  own rfl (rrr_decodes rfl rfl f)

theorem Sys2Proof.Laws.Codec.viadd (f : FRrr) : Statement (.viadd f) :=
  own rfl (rrr_decodes rfl rfl f)

theorem Sys2Proof.Laws.Codec.visub (f : FRrr) : Statement (.visub f) :=
  own rfl (rrr_decodes rfl rfl f)

theorem Sys2Proof.Laws.Codec.vimul (f : FRrr) : Statement (.vimul f) :=
  own rfl (rrr_decodes rfl rfl f)

theorem Sys2Proof.Laws.Codec.vand (f : FRrr) : Statement (.vand f) :=
  own rfl (rrr_decodes rfl rfl f)

theorem Sys2Proof.Laws.Codec.vor (f : FRrr) : Statement (.vor f) :=
  own rfl (rrr_decodes rfl rfl f)

theorem Sys2Proof.Laws.Codec.vxor (f : FRrr) : Statement (.vxor f) :=
  own rfl (rrr_decodes rfl rfl f)

theorem Sys2Proof.Laws.Codec.vnot (f : FRrr) : Statement (.vnot f) :=
  own rfl (rrr_decodes rfl rfl f)

theorem Sys2Proof.Laws.Codec.vshl (f : FRrr) : Statement (.vshl f) :=
  own rfl (rrr_decodes rfl rfl f)

theorem Sys2Proof.Laws.Codec.vshr (f : FRrr) : Statement (.vshr f) :=
  own rfl (rrr_decodes rfl rfl f)

theorem Sys2Proof.Laws.Codec.vsra (f : FRrr) : Statement (.vsra f) :=
  own rfl (rrr_decodes rfl rfl f)

theorem Sys2Proof.Laws.Codec.vcmp (f : FRrr) : Statement (.vcmp f) :=
  own rfl (rrr_decodes rfl rfl f)

theorem Sys2Proof.Laws.Codec.vsel (f : FRrr) : Statement (.vsel f) :=
  own rfl (rrr_decodes rfl rfl f)

theorem Sys2Proof.Laws.Codec.vmov (f : FRrr) : Statement (.vmov f) := by
  refine own_when rfl (fun h rest => ?_)
  have h : (vmovOk f) = true := h
  simp only [vmovOk, Bool.and_eq_true] at h
  refine (rrr_decodes rfl rfl f rest).trans ?_
  have h3 : ¬f.sub = 3 := by
    have h := h.2
    revert h
    generalize f.sub = x
    revert x
    simp only [Bool.or_eq_true, Bool.and_eq_true, beq_iff_eq]
    rintro x (((h | h) | h) | h)
    · simp [h]
    · simp [h.1]
    · simp [h.1]
    · simp [h.1.1]
  exact congrArg (fun i => Except.ok (i, rest)) (if_neg (by rwa [beq_iff_eq]))

theorem Sys2Proof.Laws.Codec.vmovIota (f : FRrr) : Statement (.vmovIota f) := by
  refine own_when rfl (fun h rest => ?_)
  have h : (vmovIotaOk f) = true := h
  simp only [vmovIotaOk, Bool.and_eq_true, beq_iff_eq] at h
  refine (rrr_decodes rfl rfl f rest).trans ?_
  simp [h]

theorem Sys2Proof.Laws.Codec.vbcast (f : FRrr) : Statement (.vbcast f) := by
  refine own_when rfl (fun h rest => ?_)
  have h : (vbcastOk 0 f) = true := h
  simp only [vbcastOk, Bool.and_eq_true, beq_iff_eq] at h
  refine (rrr_decodes rfl rfl f rest).trans ?_
  simp [h]

theorem Sys2Proof.Laws.Codec.vbcastI (f : FRrr) : Statement (.vbcastI f) := by
  refine own_when rfl (fun h rest => ?_)
  have h : (vbcastOk 1 f) = true := h
  simp only [vbcastOk, Bool.and_eq_true, beq_iff_eq] at h
  refine (rrr_decodes rfl rfl f rest).trans ?_
  simp [h]

theorem Sys2Proof.Laws.Codec.vbcastH (f : FRrr) : Statement (.vbcastH f) := by
  refine own_when rfl (fun h rest => ?_)
  have h : (vbcastOk 2 f) = true := h
  simp only [vbcastOk, Bool.and_eq_true, beq_iff_eq] at h
  refine (rrr_decodes rfl rfl f rest).trans ?_
  simp [h]

theorem Sys2Proof.Laws.Codec.vperm (f : FRrr) : Statement (.vperm f) :=
  own rfl (rrr_decodes rfl rfl f)

theorem Sys2Proof.Laws.Codec.vshiftRot (f : FRrr) : Statement (.vshiftRot f) := by
  refine own_when rfl (fun h rest => ?_)
  have h : (vshiftOk 0 f) = true := h
  simp only [vshiftOk, Bool.and_eq_true, beq_iff_eq] at h
  refine (rrr_decodes rfl rfl f rest).trans ?_
  simp [h]

theorem Sys2Proof.Laws.Codec.vshiftUp (f : FRrr) : Statement (.vshiftUp f) := by
  refine own_when rfl (fun h rest => ?_)
  have h : (vshiftOk 1 f) = true := h
  simp only [vshiftOk, Bool.and_eq_true, beq_iff_eq] at h
  refine (rrr_decodes rfl rfl f rest).trans ?_
  simp [h]

theorem Sys2Proof.Laws.Codec.vshiftDn (f : FRrr) : Statement (.vshiftDn f) := by
  refine own_when rfl (fun h rest => ?_)
  have h : (vshiftOk 2 f) = true := h
  simp only [vshiftOk, Bool.and_eq_true, beq_iff_eq] at h
  refine (rrr_decodes rfl rfl f rest).trans ?_
  simp [h]

theorem Sys2Proof.Laws.Codec.vshiftTw (f : FRrr) : Statement (.vshiftTw f) := by
  refine own_when rfl (fun h rest => ?_)
  have h : (vshiftOk 3 f) = true := h
  simp only [vshiftOk, Bool.and_eq_true, beq_iff_eq] at h
  refine (rrr_decodes rfl rfl f rest).trans ?_
  simp [h]

theorem Sys2Proof.Laws.Codec.vred (f : FRrr) : Statement (.vred f) :=
  own rfl (rrr_decodes rfl rfl f)

theorem Sys2Proof.Laws.Codec.vmpush (f : FRrr) : Statement (.vmpush f) := by
  refine own_when rfl (fun h rest => ?_)
  have h : (vmpushOk 0 f) = true := h
  simp only [vmpushOk, Bool.and_eq_true, beq_iff_eq] at h
  refine (rrr_decodes rfl rfl f rest).trans ?_
  simp [h]

theorem Sys2Proof.Laws.Codec.vmpushInv (f : FRrr) : Statement (.vmpushInv f) := by
  refine own_when rfl (fun h rest => ?_)
  have h : (vmpushOk 1 f) = true := h
  simp only [vmpushOk, Bool.and_eq_true, beq_iff_eq] at h
  refine (rrr_decodes rfl rfl f rest).trans ?_
  simp [h]

theorem Sys2Proof.Laws.Codec.vminv (f : FRrr) : Statement (.vminv f) :=
  own rfl (rrr_decodes rfl rfl f)

theorem Sys2Proof.Laws.Codec.vmpop (f : FRrr) : Statement (.vmpop f) :=
  own rfl (rrr_decodes rfl rfl f)

theorem Sys2Proof.Laws.Codec.vbz (f : FBr) : Statement (.vbz f) :=
  own rfl (br_decodes rfl rfl f)

theorem Sys2Proof.Laws.Codec.vbnz (f : FBr) : Statement (.vbnz f) :=
  own rfl (br_decodes rfl rfl f)

theorem Sys2Proof.Laws.Codec.vjmp (f : FBr) : Statement (.vjmp f) :=
  own rfl (br_decodes rfl rfl f)

theorem Sys2Proof.Laws.Codec.vloop (f : FBr) : Statement (.vloop f) :=
  own rfl (br_decodes rfl rfl f)

theorem Sys2Proof.Laws.Codec.vloopr (f : FBr) : Statement (.vloopr f) :=
  own rfl (br_decodes rfl rfl f)

theorem Sys2Proof.Laws.Codec.vld (f : FMem) : Statement (.vld f) :=
  own rfl (mem_decodes rfl rfl f)

theorem Sys2Proof.Laws.Codec.vst (f : FMem) : Statement (.vst f) :=
  own rfl (mem_decodes rfl rfl f)

theorem Sys2Proof.Laws.Codec.vldx (f : FMem) : Statement (.vldx f) :=
  own rfl (mem_decodes rfl rfl f)

theorem Sys2Proof.Laws.Codec.vstx (f : FMem) : Statement (.vstx f) :=
  own rfl (mem_decodes rfl rfl f)

theorem Sys2Proof.Laws.Codec.vtld (f : FMem) : Statement (.vtld f) :=
  own rfl (mem_decodes rfl rfl f)

theorem Sys2Proof.Laws.Codec.vtst (f : FMem) : Statement (.vtst f) :=
  own rfl (mem_decodes rfl rfl f)

theorem Sys2Proof.Laws.Codec.vtldx (f : FMem) : Statement (.vtldx f) :=
  own rfl (mem_decodes rfl rfl f)

theorem Sys2Proof.Laws.Codec.vlcol (f : FMem) : Statement (.vlcol f) :=
  own rfl (mem_decodes rfl rfl f)

theorem Sys2Proof.Laws.Codec.vtksend (f : FSys) : Statement (.vtksend f) :=
  own rfl (sys_decodes rfl rfl f)

theorem Sys2Proof.Laws.Codec.vtkrecv (f : FSys) : Statement (.vtkrecv f) := by
  refine own_when rfl (fun h rest => ?_)
  have h : (vtkrecvOk f) = true := h
  simp only [vtkrecvOk, Bool.and_eq_true, beq_iff_eq] at h
  refine (sys_decodes rfl rfl f rest).trans ?_
  simp [h]

theorem Sys2Proof.Laws.Codec.vtkrecvD (f : FSys) : Statement (.vtkrecvD f) := by
  refine own_when rfl (fun h rest => ?_)
  have h : (vtkrecvDOk f) = true := h
  simp only [vtkrecvDOk, Bool.and_eq_true, beq_iff_eq] at h
  refine (sys_decodes rfl rfl f rest).trans ?_
  simp [h]

theorem Sys2Proof.Laws.Codec.vfence (f : FSys) : Statement (.vfence f) :=
  own rfl (sys_decodes rfl rfl f)

theorem Sys2Proof.Laws.Codec.vcrd (f : FSys) : Statement (.vcrd f) :=
  own rfl (sys_decodes rfl rfl f)

theorem Sys2Proof.Laws.Codec.vcwr (f : FSys) : Statement (.vcwr f) :=
  own rfl (sys_decodes rfl rfl f)

theorem Sys2Proof.Laws.Codec.vend (f : FSys) : Statement (.vend f) :=
  own rfl (sys_decodes rfl rfl f)

theorem Sys2Proof.Laws.Codec.vnop (w : Common) : Statement (.vnop w) :=
  own rfl (hint_decodes rfl rfl w)

theorem Sys2Proof.Laws.Codec.mma (f : FMma) : Statement (.mma f) :=
  own rfl (mma_decodes rfl rfl f)

theorem Sys2Proof.Laws.Codec.mmas (f : FMma) : Statement (.mmas f) :=
  own rfl (mma_decodes rfl rfl f)

theorem Sys2Proof.Laws.Codec.mzero (f : FMma) : Statement (.mzero f) :=
  own rfl (mma_decodes rfl rfl f)

theorem Sys2Proof.Laws.Codec.mts (f : FMma) : Statement (.mts f) :=
  own rfl (mma_decodes rfl rfl f)

theorem Sys2Proof.Laws.Codec.mchk (f : FMma) : Statement (.mchk f) :=
  own rfl (mma_decodes rfl rfl f)

theorem Sys2Proof.Laws.Codec.mdrain (f : FMma) : Statement (.mdrain f) :=
  own rfl (mma_decodes rfl rfl f)

theorem Sys2Proof.Laws.Codec.mdraint (f : FMma) : Statement (.mdraint f) :=
  own rfl (mma_decodes rfl rfl f)

theorem Sys2Proof.Laws.Codec.mtld (f : FMem) : Statement (.mtld f) :=
  own rfl (mem_decodes rfl rfl f)

theorem Sys2Proof.Laws.Codec.mtldt (f : FMem) : Statement (.mtldt f) :=
  own rfl (mem_decodes rfl rfl f)

theorem Sys2Proof.Laws.Codec.mtst (f : FMem) : Statement (.mtst f) :=
  own rfl (mem_decodes rfl rfl f)

theorem Sys2Proof.Laws.Codec.mosld (f : FMem) : Statement (.mosld f) :=
  own rfl (mem_decodes rfl rfl f)

theorem Sys2Proof.Laws.Codec.mosset (f : FSys) : Statement (.mosset f) := by
  refine own_when rfl (fun h rest => ?_)
  have h : (mossetOk f) = true := h
  simp only [mossetOk, Bool.and_eq_true] at h
  refine (sys_decodes rfl rfl f rest).trans ?_
  have h2 : ¬f.sub = 2 := by
    have h := h.2
    revert h
    generalize f.sub = x
    revert x
    decide
  exact congrArg (fun i => Except.ok (i, rest)) (if_neg (by rwa [beq_iff_eq]))

theorem Sys2Proof.Laws.Codec.mossetAdd (f : FSys) : Statement (.mossetAdd f) := by
  refine own_when rfl (fun h rest => ?_)
  have h : (mossetAddOk f) = true := h
  simp only [mossetAddOk, Bool.and_eq_true, beq_iff_eq] at h
  refine (sys_decodes rfl rfl f rest).trans ?_
  simp [h]

theorem Sys2Proof.Laws.Codec.mmode (f : FSys) : Statement (.mmode f) := by
  refine own_when rfl (fun h rest => ?_)
  have h : (mmodeOk 0 f) = true := h
  simp only [mmodeOk, Bool.and_eq_true, beq_iff_eq] at h
  refine (sys_decodes rfl rfl f rest).trans ?_
  simp [h]

theorem Sys2Proof.Laws.Codec.mmodeSeed (f : FSys) : Statement (.mmodeSeed f) := by
  refine own_when rfl (fun h rest => ?_)
  have h : (mmodeOk 1 f) = true := h
  simp only [mmodeOk, Bool.and_eq_true, beq_iff_eq] at h
  refine (sys_decodes rfl rfl f rest).trans ?_
  simp [h]

theorem Sys2Proof.Laws.Codec.mtksend (f : FSys) : Statement (.mtksend f) :=
  own rfl (sys_decodes rfl rfl f)

theorem Sys2Proof.Laws.Codec.mtkrecv (f : FSys) : Statement (.mtkrecv f) :=
  own rfl (sys_decodes rfl rfl f)

theorem Sys2Proof.Laws.Codec.mfence (f : FSys) : Statement (.mfence f) :=
  own rfl (sys_decodes rfl rfl f)

theorem Sys2Proof.Laws.Codec.mloop (f : FBr) : Statement (.mloop f) :=
  own rfl (br_decodes rfl rfl f)

theorem Sys2Proof.Laws.Codec.mloopr (f : FBr) : Statement (.mloopr f) :=
  own rfl (br_decodes rfl rfl f)

theorem Sys2Proof.Laws.Codec.mjmp (f : FBr) : Statement (.mjmp f) :=
  own rfl (br_decodes rfl rfl f)

theorem Sys2Proof.Laws.Codec.mend (f : FSys) : Statement (.mend f) :=
  own rfl (sys_decodes rfl rfl f)

theorem Sys2Proof.Laws.Codec.mnop (w : Common) : Statement (.mnop w) :=
  own rfl (hint_decodes rfl rfl w)

theorem Sys2Proof.Laws.Codec.pup (f : FSpe) : Statement (.pup f) :=
  own rfl (spe_decodes rfl rfl f)

theorem Sys2Proof.Laws.Codec.pmaxup (f : FSpe) : Statement (.pmaxup f) :=
  own rfl (spe_decodes rfl rfl f)

theorem Sys2Proof.Laws.Codec.pdn (f : FSpe) : Statement (.pdn f) :=
  own rfl (spe_decodes rfl rfl f)

theorem Sys2Proof.Laws.Codec.pnorm (f : FSpe) : Statement (.pnorm f) :=
  own rfl (spe_decodes rfl rfl f)

theorem Sys2Proof.Laws.Codec.pzero (f : FSpe) : Statement (.pzero f) :=
  own rfl (spe_decodes rfl rfl f)

theorem Sys2Proof.Laws.Codec.pmode (f : FSys) : Statement (.pmode f) :=
  own rfl (sys_decodes rfl rfl f)

theorem Sys2Proof.Laws.Codec.ptksend (f : FSys) : Statement (.ptksend f) :=
  own rfl (sys_decodes rfl rfl f)

theorem Sys2Proof.Laws.Codec.ptkrecv (f : FSys) : Statement (.ptkrecv f) :=
  own rfl (sys_decodes rfl rfl f)

theorem Sys2Proof.Laws.Codec.ploop (f : FBr) : Statement (.ploop f) :=
  own rfl (br_decodes rfl rfl f)

theorem Sys2Proof.Laws.Codec.ploopr (f : FBr) : Statement (.ploopr f) :=
  own rfl (br_decodes rfl rfl f)

theorem Sys2Proof.Laws.Codec.pjmp (f : FBr) : Statement (.pjmp f) :=
  own rfl (br_decodes rfl rfl f)

theorem Sys2Proof.Laws.Codec.pld (f : FMem) : Statement (.pld f) := by
  refine own_when rfl (fun h rest => ?_)
  have h : (pldOk f) = true := h
  simp only [pldOk, Bool.and_eq_true, beq_iff_eq] at h
  refine (mem_decodes rfl rfl f rest).trans ?_
  simp [h]

theorem Sys2Proof.Laws.Codec.pldShape (f : FMem) : Statement (.pldShape f) := by
  refine own_when rfl (fun h rest => ?_)
  have h : (pldShapeOk f) = true := h
  simp only [pldShapeOk, Bool.and_eq_true, beq_iff_eq] at h
  refine (mem_decodes rfl rfl f rest).trans ?_
  simp [h]

theorem Sys2Proof.Laws.Codec.pst (f : FMem) : Statement (.pst f) :=
  own rfl (mem_decodes rfl rfl f)

theorem Sys2Proof.Laws.Codec.pfence (f : FSys) : Statement (.pfence f) :=
  own rfl (sys_decodes rfl rfl f)

theorem Sys2Proof.Laws.Codec.pend (f : FSys) : Statement (.pend f) :=
  own rfl (sys_decodes rfl rfl f)

theorem Sys2Proof.Laws.Codec.pnop (w : Common) : Statement (.pnop w) :=
  own rfl (hint_decodes rfl rfl w)

theorem Sys2Proof.Laws.Codec.cpy (f : FCpy) : Statement (.cpy f) :=
  own rfl (cpy_decodes rfl rfl f)

theorem Sys2Proof.Laws.Codec.cpy2d (f : FCpy) : Statement (.cpy2d f) :=
  own rfl (cpy_decodes rfl rfl f)

theorem Sys2Proof.Laws.Codec.cpys (f : FCpy) : Statement (.cpys f) :=
  own rfl (cpy_decodes rfl rfl f)

theorem Sys2Proof.Laws.Codec.cpytw (f : FCpy) : Statement (.cpytw f) :=
  own rfl (cpy_decodes rfl rfl f)

theorem Sys2Proof.Laws.Codec.cpyex (f : FCpy) : Statement (.cpyex f) :=
  own rfl (cpy_decodes rfl rfl f)

theorem Sys2Proof.Laws.Codec.cpybc (f : FCpy) : Statement (.cpybc f) :=
  own rfl (cpy_decodes rfl rfl f)

theorem Sys2Proof.Laws.Codec.ccoll (f : FCpy) : Statement (.ccoll f) :=
  own rfl (cpy_decodes rfl rfl f)

theorem Sys2Proof.Laws.Codec.cwait (f : FCpy) : Statement (.cwait f) := by
  refine own_when rfl (fun h rest => ?_)
  have h : (cwaitOk 0 f) = true := h
  simp only [cwaitOk, Bool.and_eq_true, beq_iff_eq] at h
  refine (cpy_decodes rfl rfl f rest).trans ?_
  simp [h]

theorem Sys2Proof.Laws.Codec.cwaitAll (f : FCpy) : Statement (.cwaitAll f) := by
  refine own_when rfl (fun h rest => ?_)
  have h : (cwaitOk 1 f) = true := h
  simp only [cwaitOk, Bool.and_eq_true, beq_iff_eq] at h
  refine (cpy_decodes rfl rfl f rest).trans ?_
  simp [h]

theorem Sys2Proof.Laws.Codec.cloop (f : FBr) : Statement (.cloop f) :=
  own rfl (br_decodes rfl rfl f)

theorem Sys2Proof.Laws.Codec.cjmp (f : FBr) : Statement (.cjmp f) :=
  own rfl (br_decodes rfl rfl f)

theorem Sys2Proof.Laws.Codec.ctksend (f : FSys) : Statement (.ctksend f) := by
  refine own_when rfl (fun h rest => ?_)
  have h : (ctksendOk 0 f) = true := h
  simp only [ctksendOk, Bool.and_eq_true, beq_iff_eq] at h
  refine (sys_decodes rfl rfl f rest).trans ?_
  simp [h]

theorem Sys2Proof.Laws.Codec.ctksendI (f : FSys) : Statement (.ctksendI f) := by
  refine own_when rfl (fun h rest => ?_)
  have h : (ctksendOk 1 f) = true := h
  simp only [ctksendOk, Bool.and_eq_true, beq_iff_eq] at h
  refine (sys_decodes rfl rfl f rest).trans ?_
  simp [h]

theorem Sys2Proof.Laws.Codec.ctkrecv (f : FSys) : Statement (.ctkrecv f) :=
  own rfl (sys_decodes rfl rfl f)

theorem Sys2Proof.Laws.Codec.cfence (f : FSys) : Statement (.cfence f) :=
  own rfl (sys_decodes rfl rfl f)

theorem Sys2Proof.Laws.Codec.cend (f : FSys) : Statement (.cend f) :=
  own rfl (sys_decodes rfl rfl f)

theorem Sys2Proof.Laws.Codec.cnop (w : Common) : Statement (.cnop w) :=
  own rfl (hint_decodes rfl rfl w)

theorem Sys2Proof.Laws.Codec.deferredWriteLand (c : CoreId) (k : Nat) : Statement (.deferredWriteLand c k) :=
  none_own rfl

theorem Sys2Proof.Laws.Codec.refreshDeadline (c : CoreId) : Statement (.refreshDeadline c) :=
  none_own rfl

theorem Sys2Proof.Laws.Codec.timingErrorReplay (c : CoreId) (e : Eng) : Statement (.timingErrorReplay c e) :=
  none_own rfl

theorem Sys2Proof.Laws.Codec.sendBufferDeparture (c : CoreId) (k : Nat) : Statement (.sendBufferDeparture c k) :=
  none_own rfl

theorem Sys2Proof.Laws.Codec.selectionPass (cl : ClusterId) : Statement (.selectionPass cl) :=
  none_own rfl

theorem Sys2Proof.Laws.Codec.jobDispatch (c : CoreId) : Statement (.jobDispatch c) :=
  none_own rfl

theorem Sys2Proof.Laws.Codec.jobRetirement (c : CoreId) : Statement (.jobRetirement c) :=
  none_own rfl

theorem Sys2Proof.Laws.Codec.jobEnd (c : CoreId) : Statement (.jobEnd c) :=
  none_own rfl

theorem Sys2Proof.Laws.Codec.contextSave (c : CoreId) : Statement (.contextSave c) :=
  none_own rfl

theorem Sys2Proof.Laws.Codec.contextRestore (c : CoreId) : Statement (.contextRestore c) :=
  none_own rfl

theorem Sys2Proof.Laws.Codec.barrierComplete (c : CoreId) : Statement (.barrierComplete c) :=
  none_own rfl

theorem Sys2Proof.Laws.Codec.grantSuspension (c : CoreId) : Statement (.grantSuspension c) :=
  none_own rfl

theorem Sys2Proof.Laws.Codec.plateGrant (pl : PlateId) : Statement (.plateGrant pl) :=
  none_own rfl

theorem Sys2Proof.Laws.Codec.waitTimeout (c : CoreId) : Statement (.waitTimeout c) :=
  none_own rfl

theorem Sys2Proof.Laws.Codec.copyUnit (cl : ClusterId) (u : CopyUnit) (k : Nat) : Statement (.copyUnit cl u k) :=
  none_own rfl

theorem Sys2Proof.Laws.Codec.copyCompletion (cl : ClusterId) (u : CopyUnit) (k : Nat) : Statement (.copyCompletion cl u k) :=
  none_own rfl

theorem Sys2Proof.Laws.Codec.collectiveChunkRetry (cl : ClusterId) (u : CopyUnit) (k : Nat) (member : Nat) : Statement (.collectiveChunkRetry cl u k member) :=
  none_own rfl

theorem Sys2Proof.Laws.Codec.referenceTick : Statement .referenceTick :=
  none_own rfl

theorem Sys2Proof.Laws.Codec.intervalStart : Statement .intervalStart :=
  none_own rfl

theorem Sys2Proof.Laws.Codec.temperatureSample (c : CoreId) (tower : BitVec 16) (logic : BitVec 16) : Statement (.temperatureSample c tower logic) :=
  none_own rfl

theorem Sys2Proof.Laws.Codec.sweep (c : CoreId) : Statement (.sweep c) :=
  none_own rfl

theorem Sys2Proof.Laws.Codec.forcedSweep (c : CoreId) : Statement (.forcedSweep c) :=
  none_own rfl

theorem Sys2Proof.Laws.Codec.sweepStepEnd (c : CoreId) : Statement (.sweepStepEnd c) :=
  none_own rfl

theorem Sys2Proof.Laws.Codec.fllStep (cl : ClusterId) : Statement (.fllStep cl) :=
  none_own rfl

theorem Sys2Proof.Laws.Codec.loopSample (topOk : Bool) (bottomOk : Bool) : Statement (.loopSample topOk bottomOk) :=
  none_own rfl

theorem Sys2Proof.Laws.Codec.recordSelection : Statement .recordSelection :=
  none_own rfl

theorem Sys2Proof.Laws.Codec.idleGating (c : CoreId) : Statement (.idleGating c) :=
  none_own rfl

theorem Sys2Proof.Laws.Codec.coreWake (c : CoreId) : Statement (.coreWake c) :=
  none_own rfl

theorem Sys2Proof.Laws.Codec.wakeTestResult (c : CoreId) (r : WakeResult) : Statement (.wakeTestResult c r) :=
  none_own rfl

theorem Sys2Proof.Laws.Codec.cxlPortDown (port : Fin 8) : Statement (.cxlPortDown port) :=
  none_own rfl

theorem Sys2Proof.Laws.Codec.deviceUnreachable (dev : BitVec 8) : Statement (.deviceUnreachable dev) :=
  none_own rfl

theorem Sys2Proof.Laws.Codec.barD4Timeout (c : CoreId) : Statement (.barD4Timeout c) :=
  none_own rfl

theorem Sys2Proof.Laws.Codec.remoteAccess (dev : BitVec 8) (addr : Nat) (req : RemoteReq) : Statement (.remoteAccess dev addr req) :=
  none_own rfl

theorem Sys2Proof.Laws.Codec.hostWindowWrite (off : Nat) (bytes : List Byte) : Statement (.hostWindowWrite off bytes) :=
  none_own rfl

theorem Sys2Proof.Laws.Codec.hostWindowRead (off : Nat) (n : Nat) : Statement (.hostWindowRead off n) :=
  none_own rfl

theorem Sys2Proof.Laws.Codec.moduleReset (b : BootData) : Statement (.moduleReset b) :=
  none_own rfl

theorem Sys2Proof.Laws.Codec.functionLevelReset (b : BootData) : Statement (.functionLevelReset b) :=
  none_own rfl

theorem Sys2Proof.Laws.Codec.qtailWrite (cl : ClusterId) (q : Fin 8) (v : W64) : Statement (.qtailWrite cl q v) :=
  none_own rfl

theorem Sys2Proof.Laws.Codec.fqheadWrite (v : W64) : Statement (.fqheadWrite v) :=
  none_own rfl

theorem Sys2Proof.Laws.Codec.fqlostWrite (v : W64) : Statement (.fqlostWrite v) :=
  none_own rfl

theorem Sys2Proof.Laws.Codec.registerWrite (off : Nat) (v : W64) : Statement (.registerWrite off v) :=
  none_own rfl

theorem Sys2Proof.Laws.Codec.tlbInvalidateDevice (v : W64) : Statement (.tlbInvalidateDevice v) :=
  none_own rfl

theorem Sys2Proof.Laws.Codec.tlbInvalidateRoot (v : W64) : Statement (.tlbInvalidateRoot v) :=
  none_own rfl

theorem Sys2Proof.Laws.Codec.tlbInvalidateRange (v : W64) : Statement (.tlbInvalidateRange v) :=
  none_own rfl

theorem Sys2Proof.Laws.Codec.invalidationComplete : Statement .invalidationComplete :=
  none_own rfl

theorem Sys2Proof.Laws.Codec.remapWithCopy (cl : ClusterId) (v : W64) : Statement (.remapWithCopy cl v) :=
  none_own rfl

theorem Sys2Proof.Laws.Codec.remapWithoutCopy (cl : ClusterId) (v : W64) : Statement (.remapWithoutCopy cl v) :=
  none_own rfl

theorem Sys2Proof.Laws.Codec.impositionRestore (cl : ClusterId) (v : W64) : Statement (.impositionRestore cl v) :=
  none_own rfl

theorem Sys2Proof.Laws.Codec.impositionRelease (cl : ClusterId) (v : W64) : Statement (.impositionRelease cl v) :=
  none_own rfl

theorem Sys2Proof.Laws.Codec.impcmdRejected (cl : ClusterId) (v : W64) : Statement (.impcmdRejected cl v) :=
  none_own rfl

theorem Sys2Proof.Laws.Codec.impositionCommandDone (cl : ClusterId) : Statement (.impositionCommandDone cl) :=
  none_own rfl

theorem Sys2Proof.Laws.Codec.retirePseudoChannel (v : W64) : Statement (.retirePseudoChannel v) :=
  none_own rfl

theorem Sys2Proof.Laws.Codec.returnPseudoChannel (v : W64) : Statement (.returnPseudoChannel v) :=
  none_own rfl

theorem Sys2Proof.Laws.Codec.remappingStepDone : Statement .remappingStepDone :=
  none_own rfl

theorem Sys2Proof.Laws.Codec.pactActivate (v : W64) : Statement (.pactActivate v) :=
  none_own rfl

theorem Sys2Proof.Laws.Codec.pactDeactivate (v : W64) : Statement (.pactDeactivate v) :=
  none_own rfl

theorem Sys2Proof.Laws.Codec.jcmdHalt (cl : ClusterId) (v : W64) : Statement (.jcmdHalt cl v) :=
  none_own rfl

theorem Sys2Proof.Laws.Codec.jcmdKill (cl : ClusterId) (v : W64) : Statement (.jcmdKill cl v) :=
  none_own rfl

theorem Sys2Proof.Laws.Codec.jcmdResume (cl : ClusterId) (v : W64) : Statement (.jcmdResume cl v) :=
  none_own rfl

theorem Sys2Proof.Laws.Codec.jcmdDiscardSlot (cl : ClusterId) (v : W64) : Statement (.jcmdDiscardSlot cl v) :=
  none_own rfl

theorem Sys2Proof.Laws.Codec.jcmdRejected (cl : ClusterId) (v : W64) : Statement (.jcmdRejected cl v) :=
  none_own rfl

theorem Sys2Proof.Laws.Codec.attest (v : W64) : Statement (.attest v) :=
  none_own rfl

theorem Sys2Proof.Laws.Codec.warmReset (v : W64) (b : BootData) : Statement (.warmReset v b) :=
  none_own rfl

theorem Sys2Proof.Laws.Codec.drainCluster (v : W64) : Statement (.drainCluster v) :=
  none_own rfl

theorem Sys2Proof.Laws.Codec.testCluster (v : W64) (result : W64) : Statement (.testCluster v result) :=
  none_own rfl

theorem Sys2Proof.Laws.Codec.installIntoCluster (v : W64) : Statement (.installIntoCluster v) :=
  none_own rfl

theorem Sys2Proof.Laws.Codec.returnCluster (v : W64) : Statement (.returnCluster v) :=
  none_own rfl

theorem Sys2Proof.Laws.Codec.stageThafyFirmware (v : W64) : Statement (.stageThafyFirmware v) :=
  none_own rfl

theorem Sys2Proof.Laws.Codec.retrainCxlPort (v : W64) (ok : Bool) : Statement (.retrainCxlPort v ok) :=
  none_own rfl

theorem Sys2Proof.Laws.Codec.gateCores (v : W64) : Statement (.gateCores v) :=
  none_own rfl

theorem Sys2Proof.Laws.Codec.wakeCores (v : W64) : Statement (.wakeCores v) :=
  none_own rfl

theorem Sys2Proof.Laws.Codec.unknownCommand (v : W64) : Statement (.unknownCommand v) :=
  none_own rfl

theorem Sys2Proof.Laws.Codec.drainComplete (cl : ClusterId) : Statement (.drainComplete cl) :=
  none_own rfl

theorem Sys2Proof.Laws.Codec.bamaddrFirstWrite (v : W64) : Statement (.bamaddrFirstWrite v) :=
  none_own rfl

theorem Sys2Proof.Laws.Codec.fabricGroupEnd (dev : BitVec 8) (core : BitVec 11) (code : BitVec 8) (gidx : BitVec 8) : Statement (.fabricGroupEnd dev core code gidx) :=
  none_own rfl

theorem Sys2Proof.Laws.Codec.fetchaddCompletion (ok : Bool) : Statement (.fetchaddCompletion ok) :=
  none_own rfl
end

