-- ==== Sys2Proof/Tests/Slice0.lean ====
section
/-! SUPPORT. The model's own tests: words written out from the layouts of chapter 03, an ill-formed term for each check,
single steps with results the spec states, and for each statement a state that meets its hypotheses. -/

set_option Elab.async false

open Sys2Proof Sys2Proof.Machine

namespace Sys2Proof.Tests

/-- Two parcels are the word of an instruction, and the instruction is well formed. -/
def reads (e : Eng) (p0 p1 : W32) (i : Instr) : Bool :=
  match decode e (parcelBytes [p0, p1]) with
  | .ok (j, []) => decide (j = i) && i.wf
  | _ => false

/-- No field of a word's skeleton set. -/
def w0 : Common := ⟨0, false, 0, 0, false, false⟩

/-! ## Words (03 R84, R95–R102, R106): every field distinct, so that no two can be exchanged. -/

theorem test_decode_s_1 : (
    reads .s 0x0054A4EC 0x527755AD (.add ⟨⟨5, true, 2, 4, true, false⟩, 21, 10, 19, 29, 13, 2, true, false, 6, 45⟩)
    && reads .s 0x0154A4EC 0x527755AD (.sub ⟨⟨5, true, 2, 4, true, false⟩, 21, 10, 19, 29, 13, 2, true, false, 6, 45⟩)
    && reads .s 0x0254A4EC 0x527755AD (.mul ⟨⟨5, true, 2, 4, true, false⟩, 21, 10, 19, 29, 13, 2, true, false, 6, 45⟩)
    && reads .s 0x0354A4EC 0x527751AD (.mulh ⟨⟨5, true, 2, 4, true, false⟩, 21, 10, 19, 29, 13, 2, false, false, 6, 45⟩)
    && reads .s 0x0454A4EC 0x527751AD (.mulhu ⟨⟨5, true, 2, 4, true, false⟩, 21, 10, 19, 29, 13, 2, false, false, 6, 45⟩)
    && reads .s 0x0554A4EC 0x527755AD (.div ⟨⟨5, true, 2, 4, true, false⟩, 21, 10, 19, 29, 13, 2, true, false, 6, 45⟩)
    && reads .s 0x0654A4EC 0x527751AD (.divu ⟨⟨5, true, 2, 4, true, false⟩, 21, 10, 19, 29, 13, 2, false, false, 6, 45⟩)
    && reads .s 0x0754A4EC 0x527751AD (.rem ⟨⟨5, true, 2, 4, true, false⟩, 21, 10, 19, 29, 13, 2, false, false, 6, 45⟩)
    && reads .s 0x0854A4EC 0x527751AD (.remu ⟨⟨5, true, 2, 4, true, false⟩, 21, 10, 19, 29, 13, 2, false, false, 6, 45⟩)
    && reads .s 0x0954A4EC 0x527751AD (.and ⟨⟨5, true, 2, 4, true, false⟩, 21, 10, 19, 29, 13, 2, false, false, 6, 45⟩)
    && reads .s 0x0A54A4EC 0x527751AD (.or ⟨⟨5, true, 2, 4, true, false⟩, 21, 10, 19, 29, 13, 2, false, false, 6, 45⟩)
    && reads .s 0x0B54A4EC 0x527751AD (.xor ⟨⟨5, true, 2, 4, true, false⟩, 21, 10, 19, 29, 13, 2, false, false, 6, 45⟩)
    && reads .s 0x0C54A4EC 0x527751AD (.andn ⟨⟨5, true, 2, 4, true, false⟩, 21, 10, 19, 29, 13, 2, false, false, 6, 45⟩)
    && reads .s 0x0D54A4EC 0x527751AD (.shl ⟨⟨5, true, 2, 4, true, false⟩, 21, 10, 19, 29, 13, 2, false, false, 6, 45⟩)
    && reads .s 0x0E54A4EC 0x527751AD (.shr ⟨⟨5, true, 2, 4, true, false⟩, 21, 10, 19, 29, 13, 2, false, false, 6, 45⟩)
    && reads .s 0x0F54A4EC 0x527751AD (.sra ⟨⟨5, true, 2, 4, true, false⟩, 21, 10, 19, 29, 13, 2, false, false, 6, 45⟩)
    && reads .s 0x1054A4EC 0x527751AD (.rotr ⟨⟨5, true, 2, 4, true, false⟩, 21, 10, 19, 29, 13, 2, false, false, 6, 45⟩)
    && reads .s 0x1154A4EC 0x527751AD (.clz ⟨⟨5, true, 2, 4, true, false⟩, 21, 10, 19, 29, 13, 2, false, false, 6, 45⟩)
    && reads .s 0x1254A4EC 0x527751AD (.ctz ⟨⟨5, true, 2, 4, true, false⟩, 21, 10, 19, 29, 13, 2, false, false, 6, 45⟩)
    && reads .s 0x1354A4EC 0x527751AD (.popc ⟨⟨5, true, 2, 4, true, false⟩, 21, 10, 19, 29, 13, 2, false, false, 6, 45⟩)) = true := by decide

theorem test_decode_s_2 : (
    reads .s 0x1454A4EC 0x527751AD (.min ⟨⟨5, true, 2, 4, true, false⟩, 21, 10, 19, 29, 13, 2, false, false, 6, 45⟩)
    && reads .s 0x1554A4EC 0x527751AD (.max ⟨⟨5, true, 2, 4, true, false⟩, 21, 10, 19, 29, 13, 2, false, false, 6, 45⟩)
    && reads .s 0x1654A4EC 0x527751AD (.minu ⟨⟨5, true, 2, 4, true, false⟩, 21, 10, 19, 29, 13, 2, false, false, 6, 45⟩)
    && reads .s 0x1754A4EC 0x527751AD (.maxu ⟨⟨5, true, 2, 4, true, false⟩, 21, 10, 19, 29, 13, 2, false, false, 6, 45⟩)
    && reads .s 0x1854A4EC 0x527751AD (.sel ⟨⟨5, true, 2, 4, true, false⟩, 21, 10, 19, 29, 13, 2, false, false, 6, 45⟩)
    && reads .s 0x1954A4EC 0x527751AD (.mov ⟨⟨5, true, 2, 4, true, false⟩, 21, 10, 19, 29, 13, 2, false, false, 6, 45⟩)
    && reads .s 0x1A54A4EC 0x5277516D (.cmp ⟨⟨5, true, 2, 4, true, false⟩, 21, 10, 19, 29, 13, 2, false, false, 5, 45⟩)
    && reads .s 0x2054AAAC 0x52A5C396 (.addi ⟨⟨5, true, 2, 4, true, false⟩, 21, 10, 2, 10, 0xA5C396⟩)
    && reads .s 0x2154AAAC 0x52A5C396 (.andi ⟨⟨5, true, 2, 4, true, false⟩, 21, 10, 2, 10, 0xA5C396⟩)
    && reads .s 0x2254AAAC 0x52A5C396 (.ori ⟨⟨5, true, 2, 4, true, false⟩, 21, 10, 2, 10, 0xA5C396⟩)
    && reads .s 0x2354AAAC 0x52A5C396 (.xori ⟨⟨5, true, 2, 4, true, false⟩, 21, 10, 2, 10, 0xA5C396⟩)
    && reads .s 0x2454AAAC 0x52A5C396 (.shli ⟨⟨5, true, 2, 4, true, false⟩, 21, 10, 2, 10, 0xA5C396⟩)
    && reads .s 0x2554AAAC 0x52A5C396 (.shri ⟨⟨5, true, 2, 4, true, false⟩, 21, 10, 2, 10, 0xA5C396⟩)
    && reads .s 0x2654AAAC 0x52A5C396 (.srai ⟨⟨5, true, 2, 4, true, false⟩, 21, 10, 2, 10, 0xA5C396⟩)
    && reads .s 0x2754ABEC 0x52A5C396 (.li ⟨⟨5, true, 2, 4, true, false⟩, 21, 10, 2, 15, 0xA5C396⟩)
    && reads .s 0x2854A3EC 0x52A5C396 (.lihM ⟨⟨5, true, 2, 4, true, false⟩, 21, 10, 0, 15, 0xA5C396⟩)
    && reads .s 0x2854A7EC 0x52A5C396 (.lihH ⟨⟨5, true, 2, 4, true, false⟩, 21, 10, 1, 15, 0xA5C396⟩)
    && reads .s 0x3054A4EE 0x52535A7C (.br ⟨⟨5, true, 2, 4, true, false⟩, 21, 10, 19, 2, 5, 0x35A7C⟩)
    && reads .s 0x3154A4EE 0x52535A7C (.bri ⟨⟨5, true, 2, 4, true, false⟩, 21, 10, 19, 2, 5, 0x35A7C⟩)
    && reads .s 0x3254A4EE 0x52535A7C (.jmp ⟨⟨5, true, 2, 4, true, false⟩, 21, 10, 19, 2, 5, 0x35A7C⟩)) = true := by decide

theorem test_decode_s_3 : (
    reads .s 0x3354A4EE 0x52535A7C (.jmpr ⟨⟨5, true, 2, 4, true, false⟩, 21, 10, 19, 2, 5, 0x35A7C⟩)
    && reads .s 0x3454A4EE 0x52535A7C (.call ⟨⟨5, true, 2, 4, true, false⟩, 21, 10, 19, 2, 5, 0x35A7C⟩)
    && reads .s 0x3554A4EE 0x52535A7C (.ret ⟨⟨5, true, 2, 4, true, false⟩, 21, 10, 19, 2, 5, 0x35A7C⟩)
    && reads .s 0x3654A4EE 0x52535A7C (.loop ⟨⟨5, true, 2, 4, true, false⟩, 21, 10, 19, 2, 5, 0x35A7C⟩)
    && reads .s 0x3754A4EE 0x52535A7C (.loopr ⟨⟨5, true, 2, 4, true, false⟩, 21, 10, 19, 2, 5, 0x35A7C⟩)
    && reads .s 0x4054A4EE 0x52532A5C (.ld ⟨⟨5, true, 2, 4, true, false⟩, 21, 10, 19, 2, 1, 2, 1, 4, 0x2A5C⟩)
    && reads .s 0x4154A4EE 0x52552A5C (.st ⟨⟨5, true, 2, 4, true, false⟩, 21, 10, 19, 2, 1, 2, 2, 4, 0x2A5C⟩)
    && reads .s 0x4254A4EC 0x525F0A5C (.amo ⟨⟨5, true, 2, 4, true, false⟩, 21, 10, 19, 0, 1, 3, 3, 4, 0xA5C⟩)
    && reads .s 0x4354A4EC 0x52D7AA5C (.lcol ⟨⟨5, true, 2, 4, true, false⟩, 21, 10, 19, 0, 3, 2, 3, 6, 0x2A5C⟩)
    && reads .s 0x5054A4EC 0x52B6D00B (.fork ⟨⟨5, true, 2, 4, true, false⟩, 21, 10, 19, 0, 0xB6D, 0xB⟩)
    && reads .s 0x500CA4ED 0x52B6D4D3 (.forkI ⟨⟨5, true, 2, 4, true, false⟩, 3, 10, 19, 1, 0xB6D, 0x4D3⟩)
    && reads .s 0x5154A4EE 0x52B6D4D3 (.join ⟨⟨5, true, 2, 4, true, false⟩, 21, 10, 19, 2, 0xB6D, 0x4D3⟩)
    && reads .s 0x5254A4ED 0x52B6D4D3 (.wait ⟨⟨5, true, 2, 4, true, false⟩, 21, 10, 19, 1, 0xB6D, 0x4D3⟩)
    && reads .s 0x5354A4EE 0x52B6D4D4 (.fence ⟨⟨5, true, 2, 4, true, false⟩, 21, 10, 19, 2, 0xB6D, 0x4D4⟩)
    && reads .s 0x5454A4EF 0x520A64D3 (.crd ⟨⟨5, true, 2, 4, true, false⟩, 21, 10, 19, 3, 0xA6, 0x4D3⟩)
    && reads .s 0x5554A4EF 0x5202D4D3 (.cwr ⟨⟨5, true, 2, 4, true, false⟩, 21, 10, 19, 3, 0x2D, 0x4D3⟩)
    && reads .s 0x5654A4ED 0x52B6D4D5 (.tmset ⟨⟨5, true, 2, 4, true, false⟩, 21, 10, 19, 1, 0xB6D, 0x4D5⟩)
    && reads .s 0x5754A4EE 0x52B6D4D3 (.tksend ⟨⟨5, true, 2, 4, true, false⟩, 21, 10, 19, 2, 0xB6D, 0x4D3⟩)
    && reads .s 0x5854A4EC 0x52B6D4D3 (.tkrecv ⟨⟨5, true, 2, 4, true, false⟩, 21, 10, 19, 0, 0xB6D, 0x4D3⟩)
    && reads .s 0x5854A4ED 0x42B6D4D3 (.tkrecvD ⟨⟨5, true, 2, 0, true, false⟩, 21, 10, 19, 1, 0xB6D, 0x4D3⟩)) = true := by decide

theorem test_decode_s_4 : (
    reads .s 0x5954A4EF 0x52B6D4D3 (.launch ⟨⟨5, true, 2, 4, true, false⟩, 21, 10, 19, 3, 0xB6D, 0x4D3⟩)
    && reads .s 0x5A54A4EC 0x52B6D4D3 (.bar ⟨⟨5, true, 2, 4, true, false⟩, 21, 10, 19, 0, 0xB6D, 0x4D3⟩)
    && reads .s 0x5B54A4EC 0x52B6D4D3 (.pacq ⟨⟨5, true, 2, 4, true, false⟩, 21, 10, 19, 0, 0xB6D, 0x4D3⟩)
    && reads .s 0x5C54A4EC 0x52B6D4D3 (.prel ⟨⟨5, true, 2, 4, true, false⟩, 21, 10, 19, 0, 0xB6D, 0x4D3⟩)
    && reads .s 0x5D54A4EC 0x52B6D4D3 (.boost ⟨⟨5, true, 2, 4, true, false⟩, 21, 10, 19, 0, 0xB6D, 0x4D3⟩)
    && reads .s 0x5E54A4ED 0x52B6D4D3 (.refdef ⟨⟨5, true, 2, 4, true, false⟩, 21, 10, 19, 1, 0xB6D, 0x4D3⟩)
    && reads .s 0x5F54A4EE 0x52B6D4D3 (.publish ⟨⟨5, true, 2, 4, true, false⟩, 21, 10, 19, 2, 0xB6D, 0x4D3⟩)
    && reads .s 0x6054A4EC 0x52B6D4D3 (.cbsync ⟨⟨5, true, 2, 4, true, false⟩, 21, 10, 19, 0, 0xB6D, 0x4D3⟩)
    && reads .s 0x6054A4ED 0x52B6D4D3 (.cbsyncAll ⟨⟨5, true, 2, 4, true, false⟩, 21, 10, 19, 1, 0xB6D, 0x4D3⟩)
    && reads .s 0x6154A4EE 0x52B6D4D3 (.trap ⟨⟨5, true, 2, 4, true, false⟩, 21, 10, 19, 2, 0xB6D, 0x4D3⟩)
    && reads .s 0x6254A4EF 0x52B6D4D3 (.eret ⟨⟨5, true, 2, 4, true, false⟩, 21, 10, 19, 3, 0xB6D, 0x4D3⟩)
    && reads .s 0x6354A4EC 0x52B6D4D3 (.halt ⟨⟨5, true, 2, 4, true, false⟩, 21, 10, 19, 0, 0xB6D, 0x4D3⟩)
    && reads .s 0x6354A4ED 0x52B6D4D3 (.haltChain ⟨⟨5, true, 2, 4, true, false⟩, 21, 10, 19, 1, 0xB6D, 0x4D3⟩)
    && reads .s 0x7800002C 0x52000000 (.nop ⟨5, true, 2, 4, true, false⟩)) = true := by decide

theorem test_decode_v_1 : (
    reads .v 0x00D664F4 0x2DB0562D (.vadd ⟨⟨6, true, 1, 3, false, true⟩, 53, 38, 19, 44, 1, 2, true, true, 0, 45⟩)
    && reads .v 0x01D664F4 0x2DB0562D (.vsub ⟨⟨6, true, 1, 3, false, true⟩, 53, 38, 19, 44, 1, 2, true, true, 0, 45⟩)
    && reads .v 0x02D664F4 0x2DB0562D (.vmul ⟨⟨6, true, 1, 3, false, true⟩, 53, 38, 19, 44, 1, 2, true, true, 0, 45⟩)
    && reads .v 0x03D664F4 0x2DB0562D (.vfma ⟨⟨6, true, 1, 3, false, true⟩, 53, 38, 19, 44, 1, 2, true, true, 0, 45⟩)
    && reads .v 0x04D664F4 0x2DB0562D (.vfms ⟨⟨6, true, 1, 3, false, true⟩, 53, 38, 19, 44, 1, 2, true, true, 0, 45⟩)
    && reads .v 0x05D664F4 0x2DB0522D (.vmin ⟨⟨6, true, 1, 3, false, true⟩, 53, 38, 19, 44, 1, 2, false, true, 0, 45⟩)
    && reads .v 0x06D664F4 0x2DB0522D (.vmax ⟨⟨6, true, 1, 3, false, true⟩, 53, 38, 19, 44, 1, 2, false, true, 0, 45⟩)
    && reads .v 0x07D664F4 0x2DB0562D (.vabs ⟨⟨6, true, 1, 3, false, true⟩, 53, 38, 19, 44, 1, 2, true, true, 0, 45⟩)
    && reads .v 0x08D664F4 0x2DB0562D (.vneg ⟨⟨6, true, 1, 3, false, true⟩, 53, 38, 19, 44, 1, 2, true, true, 0, 45⟩)
    && reads .v 0x09D664F4 0x2DB0562D (.vrcp ⟨⟨6, true, 1, 3, false, true⟩, 53, 38, 19, 44, 1, 2, true, true, 0, 45⟩)
    && reads .v 0x0AD664F4 0x2DB0562D (.vrsq ⟨⟨6, true, 1, 3, false, true⟩, 53, 38, 19, 44, 1, 2, true, true, 0, 45⟩)
    && reads .v 0x0BD664F4 0x2DB0560D (.vtip ⟨⟨6, true, 1, 3, false, true⟩, 53, 38, 19, 44, 1, 2, true, true, 0, 13⟩)
    && reads .v 0x0CD664F4 0x2DB2660B (.vcvt ⟨⟨6, true, 1, 3, false, true⟩, 53, 38, 19, 44, 9, 4, true, true, 0, 11⟩)
    && reads .v 0x0DD664F4 0x2DB1A02D (.vqnt ⟨⟨6, true, 1, 3, false, true⟩, 53, 38, 19, 44, 6, 4, false, false, 0, 45⟩)
    && reads .v 0x0ED664F4 0x2DB1582D (.vdqnt ⟨⟨6, true, 1, 3, false, true⟩, 53, 38, 19, 44, 5, 3, false, false, 0, 45⟩)
    && reads .v 0x0FD664F4 0x2DB0102D (.vspl3 ⟨⟨6, true, 1, 3, false, true⟩, 53, 38, 19, 44, 0, 2, false, false, 0, 45⟩)
    && reads .v 0x10D664F4 0x2DB3162D (.viadd ⟨⟨6, true, 1, 3, false, true⟩, 53, 38, 19, 44, 12, 2, true, true, 0, 45⟩)
    && reads .v 0x11D664F4 0x2DB3162D (.visub ⟨⟨6, true, 1, 3, false, true⟩, 53, 38, 19, 44, 12, 2, true, true, 0, 45⟩)
    && reads .v 0x12D664F4 0x2DB3162D (.vimul ⟨⟨6, true, 1, 3, false, true⟩, 53, 38, 19, 44, 12, 2, true, true, 0, 45⟩)
    && reads .v 0x13D664F4 0x2DB052AD (.vand ⟨⟨6, true, 1, 3, false, true⟩, 53, 38, 19, 44, 1, 2, false, true, 2, 45⟩)) = true := by decide

theorem test_decode_v_2 : (
    reads .v 0x1424E0F4 0x2DB0506D (.vor ⟨⟨6, true, 1, 3, false, true⟩, 9, 14, 3, 44, 1, 2, false, false, 1, 45⟩)
    && reads .v 0x15D664F4 0x2DB0522D (.vxor ⟨⟨6, true, 1, 3, false, true⟩, 53, 38, 19, 44, 1, 2, false, true, 0, 45⟩)
    && reads .v 0x1624E4F4 0x2DB0506D (.vnot ⟨⟨6, true, 1, 3, false, true⟩, 9, 14, 19, 44, 1, 2, false, false, 1, 45⟩)
    && reads .v 0x17D664F4 0x2DB0526D (.vshl ⟨⟨6, true, 1, 3, false, true⟩, 53, 38, 19, 44, 1, 2, false, true, 1, 45⟩)
    && reads .v 0x18D664F4 0x2DB0526D (.vshr ⟨⟨6, true, 1, 3, false, true⟩, 53, 38, 19, 44, 1, 2, false, true, 1, 45⟩)
    && reads .v 0x19D664F4 0x2DB0526D (.vsra ⟨⟨6, true, 1, 3, false, true⟩, 53, 38, 19, 44, 1, 2, false, true, 1, 45⟩)
    && reads .v 0x1A3664F4 0x2DB051AD (.vcmp ⟨⟨6, true, 1, 3, false, true⟩, 13, 38, 19, 44, 1, 2, false, false, 6, 45⟩)
    && reads .v 0x1BD664F4 0x2DB0500B (.vsel ⟨⟨6, true, 1, 3, false, true⟩, 53, 38, 19, 44, 1, 2, false, false, 0, 11⟩)
    && reads .v 0x1C24E4F4 0x2DB0512D (.vmov ⟨⟨6, true, 1, 3, false, true⟩, 9, 14, 19, 44, 1, 2, false, false, 4, 45⟩)
    && reads .v 0x1CD664F4 0x2DB050ED (.vmovIota ⟨⟨6, true, 1, 3, false, true⟩, 53, 38, 19, 44, 1, 2, false, false, 3, 45⟩)
    && reads .v 0x1DD664F4 0x2DB0502D (.vbcast ⟨⟨6, true, 1, 3, false, true⟩, 53, 38, 19, 44, 1, 2, false, false, 0, 45⟩)
    && reads .v 0x1DD664F4 0x2DB0506D (.vbcastI ⟨⟨6, true, 1, 3, false, true⟩, 53, 38, 19, 44, 1, 2, false, false, 1, 45⟩)
    && reads .v 0x1DD664F4 0x2DB050AD (.vbcastH ⟨⟨6, true, 1, 3, false, true⟩, 53, 38, 19, 44, 1, 2, false, false, 2, 45⟩)
    && reads .v 0x1ED664F4 0x2DB0502D (.vperm ⟨⟨6, true, 1, 3, false, true⟩, 53, 38, 19, 44, 1, 2, false, false, 0, 45⟩)
    && reads .v 0x1FD664F4 0x2DB0502D (.vshiftRot ⟨⟨6, true, 1, 3, false, true⟩, 53, 38, 19, 44, 1, 2, false, false, 0, 45⟩)
    && reads .v 0x1FD664F4 0x2DB0506D (.vshiftUp ⟨⟨6, true, 1, 3, false, true⟩, 53, 38, 19, 44, 1, 2, false, false, 1, 45⟩)
    && reads .v 0x1FD664F4 0x2DB050AD (.vshiftDn ⟨⟨6, true, 1, 3, false, true⟩, 53, 38, 19, 44, 1, 2, false, false, 2, 45⟩)
    && reads .v 0x1FD664F4 0x2DB050ED (.vshiftTw ⟨⟨6, true, 1, 3, false, true⟩, 53, 38, 19, 44, 1, 2, false, false, 3, 45⟩)
    && reads .v 0x20D664F4 0x2DB2D4ED (.vred ⟨⟨6, true, 1, 3, false, true⟩, 53, 38, 19, 44, 11, 2, true, false, 3, 45⟩)
    && reads .v 0x21D4B4C4 0x2DB0502D (.vmpush ⟨⟨0, true, 1, 3, false, true⟩, 53, 11, 19, 44, 1, 2, false, false, 0, 45⟩)) = true := by decide

theorem test_decode_v_3 : (
    reads .v 0x21D4B4C4 0x2DB0506D (.vmpushInv ⟨⟨0, true, 1, 3, false, true⟩, 53, 11, 19, 44, 1, 2, false, false, 1, 45⟩)
    && reads .v 0x22D664C4 0x2DB0502D (.vminv ⟨⟨0, true, 1, 3, false, true⟩, 53, 38, 19, 44, 1, 2, false, false, 0, 45⟩)
    && reads .v 0x23D664C4 0x2DB0502D (.vmpop ⟨⟨0, true, 1, 3, false, true⟩, 53, 38, 19, 44, 1, 2, false, false, 0, 45⟩)
    && reads .v 0x3054A4C6 0x2DD35A7C (.vbz ⟨⟨0, true, 1, 3, false, true⟩, 21, 10, 19, 2, 13, 0x35A7C⟩)
    && reads .v 0x3154A4C6 0x2DD35A7C (.vbnz ⟨⟨0, true, 1, 3, false, true⟩, 21, 10, 19, 2, 13, 0x35A7C⟩)
    && reads .v 0x3254A4C6 0x2DD35A7C (.vjmp ⟨⟨0, true, 1, 3, false, true⟩, 21, 10, 19, 2, 13, 0x35A7C⟩)
    && reads .v 0x3354A4C6 0x2DD35A7C (.vloop ⟨⟨0, true, 1, 3, false, true⟩, 21, 10, 19, 2, 13, 0x35A7C⟩)
    && reads .v 0x3454A4C6 0x2DD35A7C (.vloopr ⟨⟨0, true, 1, 3, false, true⟩, 21, 10, 19, 2, 13, 0x35A7C⟩)
    && reads .v 0x40D4A4F6 0x2D132A5C (.vld ⟨⟨6, true, 1, 3, false, true⟩, 53, 10, 19, 2, 0, 2, 1, 4, 0x2A5C⟩)
    && reads .v 0x41D4A4F6 0x2D552A5C (.vst ⟨⟨6, true, 1, 3, false, true⟩, 53, 10, 19, 2, 1, 2, 2, 4, 0x2A5C⟩)
    && reads .v 0x42D4A4F6 0x2D532A5C (.vldx ⟨⟨6, true, 1, 3, false, true⟩, 53, 10, 19, 2, 1, 2, 1, 4, 0x2A5C⟩)
    && reads .v 0x43D4A4F6 0x2D952A5C (.vstx ⟨⟨6, true, 1, 3, false, true⟩, 53, 10, 19, 2, 2, 2, 2, 4, 0x2A5C⟩)
    && reads .v 0x44D0A4F6 0x2DA32A5C (.vtld ⟨⟨6, true, 1, 3, false, true⟩, 52, 10, 19, 2, 2, 4, 1, 4, 0x2A5C⟩)
    && reads .v 0x45D0A4F6 0x2DA52A5C (.vtst ⟨⟨6, true, 1, 3, false, true⟩, 52, 10, 19, 2, 2, 4, 2, 4, 0x2A5C⟩)
    && reads .v 0x46D4A4F6 0x2D8B2A5C (.vtldx ⟨⟨6, true, 1, 3, false, true⟩, 53, 10, 19, 2, 2, 1, 1, 4, 0x2A5C⟩)
    && reads .v 0x47D4A4F4 0x2DD7AA5C (.vlcol ⟨⟨6, true, 1, 3, false, true⟩, 53, 10, 19, 0, 3, 2, 3, 6, 0x2A5C⟩)
    && reads .v 0x50D4A4C4 0x2DB6D4D3 (.vtksend ⟨⟨0, true, 1, 3, false, true⟩, 53, 10, 19, 0, 0xB6D, 0x4D3⟩)
    && reads .v 0x51D4A4F4 0x2DB6D4D3 (.vtkrecv ⟨⟨6, true, 1, 3, false, true⟩, 53, 10, 19, 0, 0xB6D, 0x4D3⟩)
    && reads .v 0x51D4A4F5 0x21B6D4D4 (.vtkrecvD ⟨⟨6, true, 1, 0, false, true⟩, 53, 10, 19, 1, 0xB6D, 0x4D4⟩)
    && reads .v 0x5254A4C5 0x2DB6D4D3 (.vfence ⟨⟨0, true, 1, 3, false, true⟩, 21, 10, 19, 1, 0xB6D, 0x4D3⟩)) = true := by decide

theorem test_decode_v_4 : (
    reads .v 0x53D4A4F5 0x2D0C14D3 (.vcrd ⟨⟨6, true, 1, 3, false, true⟩, 53, 10, 19, 1, 0xC1, 0x4D3⟩)
    && reads .v 0x5454A4C5 0x2D0914D3 (.vcwr ⟨⟨0, true, 1, 3, false, true⟩, 21, 10, 19, 1, 0x91, 0x4D3⟩)
    && reads .v 0x5554A4C7 0x2DB6D4D3 (.vend ⟨⟨0, true, 1, 3, false, true⟩, 21, 10, 19, 3, 0xB6D, 0x4D3⟩)
    && reads .v 0x78000034 0x2D000000 (.vnop ⟨6, true, 1, 3, false, true⟩)) = true := by decide

theorem test_decode_m_1 : (
    reads .m 0x0014A2C4 0x33434200 (.mma ⟨⟨0, true, 1, 4, true, true⟩, 5, 10, 11, 4, 3, 1, 0, false, true⟩)
    && reads .m 0x011628C4 0x33494200 (.mmas ⟨⟨0, true, 1, 4, true, true⟩, 5, 34, 35, 4, 9, 1, 0, false, true⟩)
    && reads .m 0x02140004 0x33000000 (.mzero ⟨⟨0, true, 1, 4, true, true⟩, 5, 0, 0, 0, 0, 0, 0, false, false⟩)
    && reads .m 0x05140004 0x33000000 (.mchk ⟨⟨0, true, 1, 4, true, true⟩, 5, 0, 0, 0, 0, 0, 0, false, false⟩)
    && reads .m 0x06140004 0x33000000 (.mts ⟨⟨0, true, 1, 4, true, true⟩, 5, 0, 0, 0, 0, 0, 0, false, false⟩)
    && reads .m 0x03166044 0x33495E00 (.mdrain ⟨⟨0, true, 1, 4, true, true⟩, 5, 38, 1, 4, 9, 1, 3, true, true⟩)
    && reads .m 0x04141344 0x33496600 (.mdraint ⟨⟨0, true, 1, 4, true, true⟩, 5, 1, 13, 4, 9, 1, 4, true, true⟩)
    && reads .m 0x3054A4C6 0x33535A7C (.mloop ⟨⟨0, true, 1, 4, true, true⟩, 21, 10, 19, 2, 5, 0x35A7C⟩)
    && reads .m 0x3154A4C6 0x33535A7C (.mloopr ⟨⟨0, true, 1, 4, true, true⟩, 21, 10, 19, 2, 5, 0x35A7C⟩)
    && reads .m 0x3254A4C6 0x33535A7C (.mjmp ⟨⟨0, true, 1, 4, true, true⟩, 21, 10, 19, 2, 5, 0x35A7C⟩)
    && reads .m 0x403654C4 0x336F2A5C (.mtld ⟨⟨0, true, 1, 4, true, true⟩, 13, 37, 19, 0, 1, 5, 3, 4, 0x2A5C⟩)
    && reads .m 0x413654C4 0x336F2A5C (.mtldt ⟨⟨0, true, 1, 4, true, true⟩, 13, 37, 19, 0, 1, 5, 3, 4, 0x2A5C⟩)
    && reads .m 0x423654C4 0x336F2A5C (.mtst ⟨⟨0, true, 1, 4, true, true⟩, 13, 37, 19, 0, 1, 5, 3, 4, 0x2A5C⟩)
    && reads .m 0x439A54C4 0x33772A5C (.mosld ⟨⟨0, true, 1, 4, true, true⟩, 38, 37, 19, 0, 1, 6, 3, 4, 0x2A5C⟩)
    && reads .m 0x5098A4C5 0x33B6D4D3 (.mosset ⟨⟨0, true, 1, 4, true, true⟩, 38, 10, 19, 1, 0xB6D, 0x4D3⟩)
    && reads .m 0x509884C6 0x33B6D4D3 (.mossetAdd ⟨⟨0, true, 1, 4, true, true⟩, 38, 8, 19, 2, 0xB6D, 0x4D3⟩)
    && reads .m 0x5154A4C4 0x33B6D4D3 (.mmode ⟨⟨0, true, 1, 4, true, true⟩, 21, 10, 19, 0, 0xB6D, 0x4D3⟩)
    && reads .m 0x5154A4C5 0x33B6D4D3 (.mmodeSeed ⟨⟨0, true, 1, 4, true, true⟩, 21, 10, 19, 1, 0xB6D, 0x4D3⟩)
    && reads .m 0x525464C5 0x33B6D4D3 (.mtksend ⟨⟨0, true, 1, 4, true, true⟩, 21, 6, 19, 1, 0xB6D, 0x4D3⟩)
    && reads .m 0x5354A4C4 0x33B6D4D3 (.mtkrecv ⟨⟨0, true, 1, 4, true, true⟩, 21, 10, 19, 0, 0xB6D, 0x4D3⟩)) = true := by decide

theorem test_decode_m_2 : (
    reads .m 0x5454A4C6 0x33B6D4D3 (.mfence ⟨⟨0, true, 1, 4, true, true⟩, 21, 10, 19, 2, 0xB6D, 0x4D3⟩)
    && reads .m 0x5554A4C4 0x33B6D4D3 (.mend ⟨⟨0, true, 1, 4, true, true⟩, 21, 10, 19, 0, 0xB6D, 0x4D3⟩)
    && reads .m 0x78000004 0x33000000 (.mnop ⟨0, true, 1, 4, true, true⟩)) = true := by decide

theorem test_decode_p_1 : (
    reads .p 0x00AE6A02 0x7674E980 (.pup ⟨⟨0, false, 3, 5, true, false⟩, 0x2B, 0x135, 2, 0xE9, 0x1A6⟩)
    && reads .p 0x01AE6A02 0x7674E980 (.pdn ⟨⟨0, false, 3, 5, true, false⟩, 0x2B, 0x135, 2, 0xE9, 0x1A6⟩)
    && reads .p 0x02AE6A02 0x7674E980 (.pmaxup ⟨⟨0, false, 3, 5, true, false⟩, 0x2B, 0x135, 2, 0xE9, 0x1A6⟩)
    && reads .p 0x03AE6A02 0x7674E980 (.pnorm ⟨⟨0, false, 3, 5, true, false⟩, 0x2B, 0x135, 2, 0xE9, 0x1A6⟩)
    && reads .p 0x04AE6A02 0x7674E980 (.pzero ⟨⟨0, false, 3, 5, true, false⟩, 0x2B, 0x135, 2, 0xE9, 0x1A6⟩)
    && reads .p 0x3054A4C2 0x76535A7C (.ploop ⟨⟨0, false, 3, 5, true, false⟩, 21, 10, 19, 2, 5, 0x35A7C⟩)
    && reads .p 0x3154A4C2 0x76535A7C (.ploopr ⟨⟨0, false, 3, 5, true, false⟩, 21, 10, 19, 2, 5, 0x35A7C⟩)
    && reads .p 0x3254A4C2 0x76535A7C (.pjmp ⟨⟨0, false, 3, 5, true, false⟩, 21, 10, 19, 2, 5, 0x35A7C⟩)
    && reads .p 0x405414C0 0x766B2A5C (.pld ⟨⟨0, false, 3, 5, true, false⟩, 21, 1, 19, 0, 1, 5, 1, 4, 0x2A5C⟩)
    && reads .p 0x405424C0 0x76632A5C (.pldShape ⟨⟨0, false, 3, 5, true, false⟩, 21, 2, 19, 0, 1, 4, 1, 4, 0x2A5C⟩)
    && reads .p 0x415414C0 0x765D2A5C (.pst ⟨⟨0, false, 3, 5, true, false⟩, 21, 1, 19, 0, 1, 3, 2, 4, 0x2A5C⟩)
    && reads .p 0x5054A4C0 0x76B6D4D6 (.pmode ⟨⟨0, false, 3, 5, true, false⟩, 21, 10, 19, 0, 0xB6D, 0x4D6⟩)
    && reads .p 0x5154A4C1 0x76B6D4D3 (.ptksend ⟨⟨0, false, 3, 5, true, false⟩, 21, 10, 19, 1, 0xB6D, 0x4D3⟩)
    && reads .p 0x5254A4C1 0x76B6D4D3 (.ptkrecv ⟨⟨0, false, 3, 5, true, false⟩, 21, 10, 19, 1, 0xB6D, 0x4D3⟩)
    && reads .p 0x5354A4C2 0x76B6D4D3 (.pfence ⟨⟨0, false, 3, 5, true, false⟩, 21, 10, 19, 2, 0xB6D, 0x4D3⟩)
    && reads .p 0x5454A4C0 0x76B6D4D3 (.pend ⟨⟨0, false, 3, 5, true, false⟩, 21, 10, 19, 0, 0xB6D, 0x4D3⟩)
    && reads .p 0x78000000 0x76000000 (.pnop ⟨0, false, 3, 5, true, false⟩)) = true := by decide

theorem test_decode_c_1 : (
    reads .c 0x001AB004 0x8989A5C3 (.cpy ⟨⟨0, true, 4, 2, false, true⟩, 6, 0x2B, true, 0x9A5C3⟩)
    && reads .c 0x011AB004 0x8989A5C3 (.cpy2d ⟨⟨0, true, 4, 2, false, true⟩, 6, 0x2B, true, 0x9A5C3⟩)
    && reads .c 0x021AB004 0x8989A5C3 (.cpybc ⟨⟨0, true, 4, 2, false, true⟩, 6, 0x2B, true, 0x9A5C3⟩)
    && reads .c 0x031AB004 0x8989A5C3 (.cpyex ⟨⟨0, true, 4, 2, false, true⟩, 6, 0x2B, true, 0x9A5C3⟩)
    && reads .c 0x041AB004 0x8989A5C3 (.cpytw ⟨⟨0, true, 4, 2, false, true⟩, 6, 0x2B, true, 0x9A5C3⟩)
    && reads .c 0x051AB004 0x8989A5C3 (.cpys ⟨⟨0, true, 4, 2, false, true⟩, 6, 0x2B, true, 0x9A5C3⟩)
    && reads .c 0x061AB004 0x8989A5C3 (.ccoll ⟨⟨0, true, 4, 2, false, true⟩, 6, 0x2B, true, 0x9A5C3⟩)
    && reads .c 0x0702B004 0x8909A5C3 (.cwait ⟨⟨0, true, 4, 2, false, true⟩, 0, 0x2B, false, 0x9A5C3⟩)
    && reads .c 0x0706B004 0x8909A5C3 (.cwaitAll ⟨⟨0, true, 4, 2, false, true⟩, 1, 0x2B, false, 0x9A5C3⟩)
    && reads .c 0x3054A4C6 0x89535A7C (.cloop ⟨⟨0, true, 4, 2, false, true⟩, 21, 10, 19, 2, 5, 0x35A7C⟩)
    && reads .c 0x3154A4C6 0x89535A7C (.cjmp ⟨⟨0, true, 4, 2, false, true⟩, 21, 10, 19, 2, 5, 0x35A7C⟩)
    && reads .c 0x5054A4C4 0x89B6D4D3 (.ctksend ⟨⟨0, true, 4, 2, false, true⟩, 21, 10, 19, 0, 0xB6D, 0x4D3⟩)
    && reads .c 0x5054A4C5 0x89B6D4D3 (.ctksendI ⟨⟨0, true, 4, 2, false, true⟩, 21, 10, 19, 1, 0xB6D, 0x4D3⟩)
    && reads .c 0x5154A4C4 0x89B6D4D3 (.ctkrecv ⟨⟨0, true, 4, 2, false, true⟩, 21, 10, 19, 0, 0xB6D, 0x4D3⟩)
    && reads .c 0x5254A4C5 0x89B6D4D4 (.cfence ⟨⟨0, true, 4, 2, false, true⟩, 21, 10, 19, 1, 0xB6D, 0x4D4⟩)
    && reads .c 0x5354A4C4 0x89B6D4D3 (.cend ⟨⟨0, true, 4, 2, false, true⟩, 21, 10, 19, 0, 0xB6D, 0x4D3⟩)
    && reads .c 0x78000004 0x89000000 (.cnop ⟨0, true, 4, 2, false, true⟩)) = true := by decide

/-- A patch word (03 R86), a hint and an unassigned opcode (03 R88, R106). -/
theorem test_decode_others :
    (match decode .v (parcelBytes [0xD7B0A5C3]) with
      | .ok (i, []) => decide (i = .patch .v 0x2B 0x1B 0xA5C3)
      | _ => false)
    && reads .p 0x7E00002D 0x2E000000 (.hint .p 0x7E ⟨5, true, 1, 3, true, false⟩)
    && reads .c 0x54000000 0x00000000 (.unassignedOpcode .c 0x54 w0) = true := by decide

/-! ## Ill-formed terms (03 R88 rows 4 and 5): one field of a legal word broken. -/

def r : FRrr := ⟨w0, 1, 2, 3, 4, 15, 0, false, false, 0, 0⟩
def n : FRri := ⟨w0, 1, 2, 0, 15, 0⟩
def b : FBr := ⟨w0, 1, 2, 3, 0, 0, 2⟩
def m : FMem := ⟨w0, 1, 2, 3, 0, 0, 3, 0, 0, 0⟩
def y : FSys := ⟨w0, 1, 2, 3, 0, 0, 1⟩

theorem test_wf_legal : ([Instr.add r, .addi n, .br b, .ld m, .join y, .sel r, .jmpr b, .st m, .lcol { m with space := 3 },
    .amo m, .bar y, .refdef y, .publish y].all Instr.wf) = true := by decide

theorem test_ill_formed_s_arithmetic : ([Instr.add { r with fd := 32 }, .add { r with fa := 32 }, .add { r with fb := 32 },
    .sub { r with fmt := 9 }, .mul { r with rm := 4 }, .add { r with w := { w0 with push := 1 } },
    .add { r with w := { w0 with pop := 6 } }, .mulh { r with sat := true }, .clz { r with sat := true },
    .mov { r with fa := 32 }, .sel { r with fc := 32 }, .cmp { r with sub := 6 }, .addi { n with fmt := 14 },
    .shli { n with fa := 32 }, .li { n with fmt := 10 }, .lihM { n with sub := 1 }, .lihM { n with sub := 2 },
    .lihH { n with sub := 0 }].any Instr.wf) = false := by decide

theorem test_ill_formed_s_control : ([Instr.br { b with cond := 6 }, .bri { b with cond := 15 },
    .jmp { b with w := { w0 with pop := 7 } }, .jmpr { b with fd := 32 }, .call { b with fd := 32 }, .ret { b with fa := 32 },
    .loop { b with off := 1 }, .loopr { b with off := -4 }, .fork { y with imm12 := 0 }, .fork { y with imm12 := 0x11 },
    .forkI { y with sub := 1, fd := 6 }, .join { y with imm12 := 0x10 }, .wait { y with sub := 2 }, .tksend y, .tkrecv y,
    .tkrecvD { y with sub := 1, imm12 := 1 }, .tmset { y with imm12 := 6 }, .tmset { y with cr := 0x40 },
    .crd { y with cr := 0x004 }, .cwr { y with cr := 0x0C0 }, .fence { y with sub := 3 }, .fence { y with imm12 := 5 },
    .publish { y with imm12 := 0 }, .cbsync { y with sub := 2 }, .cbsyncAll y, .trap { y with w := { w0 with push := 1 } },
    .eret { y with w := { w0 with pop := 1 } }, .halt { y with sub := 2 }, .haltChain { y with sub := 1, fa := 32 },
    .launch { y with fb := 32 }, .bar { y with imm12 := 5 }, .bar { y with sub := 1 }, .pacq { y with sub := 1 },
    .prel { y with sub := 3 }, .boost { y with fd := 32 }, .refdef { y with sub := 2 },
    .nop { w0 with push := 1 }].any Instr.wf) = false := by decide

theorem test_ill_formed_s_memory : ([Instr.ld { m with space := 3 }, .ld { m with size := 4 }, .ld { m with mode := 3 },
    .ld { m with order := 2 }, .ld { m with order := 1, scope := 5 }, .ld { m with mode := 1, fb := 32 },
    .st { m with order := 1 }, .amo { m with mode := 1 }, .amo { m with disp := 0x2C00 }, .amo { m with space := 2 },
    .amo { m with size := 1 }, .amo { m with disp := 0x2800 }, .lcol m,
    .lcol { m with space := 3, order := 1 }].any Instr.wf) = false := by decide

def v : FRrr := { r with fmt := 0 }
def vm : FMem := { m with size := 2 }

theorem test_ill_formed_v : ([Instr.vadd { v with fmt := 8 }, .vadd { v with rm := 4 }, .vfma { v with sub := 1 },
    .vmin { v with sat := true }, .vmax { v with fmt := 3 }, .vabs { v with fmt := 14 }, .vrcp { v with fmt := 10 },
    .vtip { v with aux := 16 }, .vcvt { v with aux := 5 }, .vcvt { v with rm := 5 }, .vqnt { v with fmt := 4 },
    .vqnt { v with fmt := 5, rm := 1 }, .vqnt { v with fmt := 5, aux := 1 }, .vdqnt { v with fmt := 8 },
    .vspl3 { v with fmt := 1 }, .vspl3 { v with fd := 30 }, .vspl3 { v with fd := 62 }, .viadd { v with fmt := 2 },
    .vand { v with sub := 3 }, .vand { v with sub := 1, prf := true }, .vor { v with sub := 2 }, .vxor { v with sub := 1, fd := 0 },
    .vnot { v with sub := 1, fa := 16 }, .vshl { v with sub := 2 }, .vcmp { v with sub := 7 }, .vcmp { v with fd := 0 },
    .vsel { v with aux := 16 }, .vmov { v with sub := 2, fd := 0 }, .vmov { v with sub := 5 }, .vmovIota v,
    .vbcast { v with sub := 3 }, .vbcastI v, .vperm { v with sub := 1 }, .vshiftRot { v with sub := 4 }, .vred { v with sub := 7 },
    .vred { v with fmt := 8 }, .vred { v with sub := 3 }, .vmpush { v with w := { w0 with guard := 1 } },
    .vmpush { v with fa := 16 }, .vminv { v with sub := 1 }, .vmpop { v with w := { w0 with guard := 7 } }, .vbz { b with fa := 16 },
    .vjmp { b with w := { w0 with guard := 1 } }, .vloop { b with off := 1 }, .vld { vm with space := 2 }, .vld { vm with size := 3 },
    .vld { vm with fa := 3 }, .vst { vm with order := 1 }, .vstx { vm with space := 3 }, .vtld vm,
    .vtld { vm with space := 2, size := 4, fd := 2 }, .vtst { vm with space := 2, size := 5 }, .vlcol vm, .vtksend y, .vtkrecv y,
    .vtkrecvD { y with sub := 1, imm12 := 2 }, .vfence { y with w := { w0 with guard := 1 } }, .vcrd { y with cr := 0x040 },
    .vcwr { y with cr := 0x080 }, .vend { y with w := { w0 with guard := 1 } }, .vnop { w0 with pop := 2 }].any Instr.wf)
    = false := by decide

def mm : FMma := ⟨w0, 2, 3, 4, 3, 3, 0, 0, false, false⟩
def mz : FMma := ⟨w0, 2, 0, 0, 0, 0, 0, 0, false, false⟩
def ml : FMem := ⟨w0, 1, 33, 0, 0, 0, 5, 0, 0, 0⟩
def mo : FSys := ⟨w0, 33, 0, 0, 0, 0, 0⟩

theorem test_ill_formed_m : ([Instr.mma { mm with fmtb := 1 }, .mma { mm with fmta := 0 }, .mma { mm with fa := 16 },
    .mma { mm with spar := 2 }, .mma { mm with rm := 1 }, .mmas { mm with fd := 8 }, .mma { mm with sat := true },
    .mzero { mz with fa := 1 }, .mchk { mz with clr := true }, .mts { mz with fmta := 1 }, .mdrain { mm with fa := 3 },
    .mdrain { mm with fa := 33, fb := 2 }, .mdraint { mz with fb := 3, fmta := 5 }, .mdraint { mz with fb := 3, fmta := 1, fa := 1 },
    .mtld { ml with fa := 3 }, .mtld { ml with size := 4 }, .mtldt { ml with mode := 1 }, .mtst { ml with space := 3 },
    .mosld { ml with fd := 1 }, .mosset { mo with fa := 11 }, .mosset { mo with sub := 2 }, .mossetAdd { mo with sub := 2, fa := 1 },
    .mmode { mo with sub := 2 }, .mmodeSeed mo, .mtksend mo, .mtkrecv mo, .mfence { mo with imm12 := 6 },
    .mloop { b with off := 0 }, .mjmp { b with w := { w0 with guard := 1 } }, .mend { mo with sub := 1 },
    .mnop { w0 with push := 3 }].any Instr.wf) = false := by decide

def pm : FMem := ⟨w0, 1, 0, 3, 0, 1, 2, 0, 0, 0⟩
def cc : FCpy := ⟨w0, 0, 3, false, 0⟩

theorem test_ill_formed_p_c : ([Instr.pup ⟨{ w0 with guard := 1 }, 0, 0, 0, 0, 0⟩, .pld { pm with space := 0 },
    .pld { pm with size := 1 }, .pld { pm with fa := 4 }, .pld { pm with fa := 2 }, .pldShape { pm with fa := 2 },
    .pst { pm with order := 1 }, .pst { pm with mode := 1 }, .pmode { y with imm12 := 3 }, .pmode { y with sub := 1 }, .ptksend y,
    .ptkrecv y, .pfence { y with sub := 3 }, .pend { y with sub := 1 }, .ploop { b with off := 1 },
    .pjmp { b with w := { w0 with guard := 2 } }, .pnop { w0 with pop := 4 }, .cpy { cc with unit := 9 }, .cpybc { cc with unit := 8 },
    .cpy { cc with ix := true }, .cwait { cc with unit := 2 }, .cwait { cc with ix := true }, .cwaitAll cc, .cloop { b with off := 1 },
    .cjmp { b with w := { w0 with guard := 3 } }, .ctksend y, .ctksendI { y with w := { w0 with push := 1 } }, .ctkrecv y,
    .cfence { y with imm12 := 7 }, .cend { y with sub := 1 }, .cnop { w0 with push := 5 }].any Instr.wf) = false := by decide

theorem test_ill_formed_others : ([Instr.hint .s 0x78 w0, .hint .v 0x79 { w0 with push := 2 }, .unassignedOpcode .s 0x1A w0,
    .unassignedOpcode .c 0x78 w0, .tlbInvalidateDevice 0, .tlbInvalidateRoot 0x8000000000000002,
    .tlbInvalidateRange 0x8000000000000001, .remapWithCopy 0 0x8100000000000000, .remapWithoutCopy 0 0x8000000000000000,
    .impositionRestore 0 0x0200000000000000, .impositionRelease 0 0x8200000000000000, .impcmdRejected 0 0x8300000000000000,
    .retirePseudoChannel 0x8000000000000200, .returnPseudoChannel 0x8000000000000000, .pactActivate 0x8000000000000000,
    .pactDeactivate 0, .jcmdHalt 0 0x9000000000000000, .jcmdKill 0 0x8000000000000000, .jcmdResume 0 0x2000000000000000,
    .jcmdDiscardSlot 0 0xA000000000000000, .jcmdRejected 0 0xB000000000000000, .attest 0x8000000000000002,
    .drainCluster 3, .installIntoCluster 0x8000000000000006, .returnCluster 0x8000000000000005,
    .stageThafyFirmware 0x8000000000000008, .gateCores 0x800000000000000A, .wakeCores 0x8000000000000009,
    .unknownCommand 0x800000000000000A].any Instr.wf) = false := by decide

/-! ## Single steps. -/

/-- A machine whose core 0 has a job on it, its five streams Running at address 0 and its level 3. -/
def job0 : Job :=
  { tk := default, launch := 0, qcl := 0, q := 0, root := 0, n := 1, x := 0, y := 0, z := 0, epri := 0, order := 0, gangId := 0,
    trailer := 0, bars := Vector.replicate 5 0, seen := ⟨0, [], []⟩ }
def base : State := State.reset.modCore 0 fun k =>
  { k with job := some job0, phase := .running, pwr := ⟨3, false, false⟩,
           ctx := { k.ctx with str := Vector.replicate 5 { Stream.reset with st := .running } } }

/-- The same with a change to what the job carries; with values in s registers; with the handler enabled at 0x100. -/
def with_ (f : Ctx → Ctx) : State := base.modCtx 0 f
def regs (l : List (Nat × W64)) : State := with_ fun x => { x with sreg := l.foldl (fun q p => vset q p.1 p.2) x.sreg }
def vregs (l : List (Nat × (Nat → W32))) (x : Ctx) : Ctx :=
  { x with v := { x.v with regs := l.foldl (fun q p => vset q p.1 (Vector.ofFn fun i => p.2 i.val)) x.v.regs } }
def handled (s : State) : State := s.modCtx 0 fun x => { x with cr := { x.cr with trapvec := 0x8000000000000100 } }

/-- The state after an instruction, and parts of core 0's context in it. -/
def ran (i : Instr) (s : State) : State :=
  match exec i s with
  | .next t => t
  | _ => s
def sOf (i : Instr) (s : State) (r : Nat) : W64 := sval ((ran i s).ctx 0) r
def pcNow (i : Instr) (e : Eng) (s : State) : W64 := (((ran i s).ctx 0).stream e).pc
def lane (i : Instr) (s : State) (reg k : Nat) : W32 := vget (vget ((ran i s).ctx 0).v.regs reg) k
def cause (i : Instr) (s : State) : W64 := ((ran i s).ctx 0).cr.trapcause


/-- 04 R142: I32 wraps and is sign-extended, N32 is zero-extended, 64-bit `.sat` clamps. -/
theorem test_add : sOf (.add { r with fmt := 10 }) (regs [(2, 0xAAAAAAAA7FFFFFFF), (3, 1)]) 1 = 0xFFFFFFFF80000000
    ∧ sOf (.add { r with fmt := 13 }) (regs [(2, 0xFFFFFFFF), (3, 2)]) 1 = 1
    ∧ sOf (.add { r with sat := true }) (regs [(2, 0x7FFFFFFFFFFFFFFF), (3, 1)]) 1 = 0x7FFFFFFFFFFFFFFF := by decide

/-- 03 R89: a write of s0 is discarded. -/
theorem test_write_s0 : sOf (.add { r with fd := 0 }) (regs [(2, 5), (3, 6)]) 0 = 0 := by decide

/-- 04 R143: the order of SUB's operands, the high products, and the shift amount modulo the width. -/
theorem test_sub_mul_shift : sOf (.sub r) (regs [(2, 5), (3, 7)]) 1 = 0xFFFFFFFFFFFFFFFE
    ∧ sOf (.mulh r) (regs [(2, 0xFFFFFFFFFFFFFFFF), (3, 5)]) 1 = 0xFFFFFFFFFFFFFFFF
    ∧ sOf (.mulhu r) (regs [(2, 0xFFFFFFFFFFFFFFFF), (3, 5)]) 1 = 4
    ∧ sOf (.sra r) (regs [(2, 0x8000000000000000), (3, 65)]) 1 = 0xC000000000000000
    ∧ sOf (.rotr { r with fmt := 13 }) (regs [(2, 1), (3, 33)]) 1 = 0x80000000
    ∧ sOf (.andn r) (regs [(2, 0xFF), (3, 0x0F)]) 1 = 0xF0
    ∧ sOf (.clz r) (regs [(2, 0)]) 1 = 64 ∧ sOf (.ctz { r with fmt := 10 }) (regs [(2, 0x100000000)]) 1 = 32
    ∧ sOf (.min r) (regs [(2, 0xFFFFFFFFFFFFFFFF), (3, 1)]) 1 = 0xFFFFFFFFFFFFFFFF
    ∧ sOf (.minu r) (regs [(2, 0xFFFFFFFFFFFFFFFF), (3, 1)]) 1 = 1
    ∧ sOf (.cmp { r with sub := 2, fmt := 10 }) (regs [(2, 0x80000000), (3, 0)]) 1 = 1
    ∧ sOf (.cmp { r with sub := 4 }) (regs [(2, 0x80000000), (3, 0)]) 1 = 0
    ∧ sOf (.sel r) (regs [(2, 11), (3, 12), (4, 0)]) 1 = 12 := by decide

/-- 04 R143, R121: a division is pending, its register empty; by zero it gives all ones, the remainder the dividend. -/
def pending (i : Instr) (s : State) : List (Nat × What) := ((ran i s).ctx 0).pend.map fun p => (p.reg, p.what)
theorem test_divide : pending (.div r) (regs [(2, 0xFFFFFFFFFFFFFFF9), (3, 2)]) = [(1, .value 0xFFFFFFFFFFFFFFFD)]
    ∧ pending (.rem r) (regs [(2, 0xFFFFFFFFFFFFFFF9), (3, 2)]) = [(1, .value 0xFFFFFFFFFFFFFFFF)]
    ∧ pending (.divu r) (regs [(2, 7)]) = [(1, .value 0xFFFFFFFFFFFFFFFF)]
    ∧ pending (.remu r) (regs [(2, 7)]) = [(1, .value 7)]
    ∧ pending (.div r) (regs [(2, 0x8000000000000000), (3, 0xFFFFFFFFFFFFFFFF)]) = [(1, .value 0x8000000000000000)]
    ∧ vget ((ran (.div r) base).ctx 0).sfill 1 = .empty := by decide

/-- 04 R144, its example: the constant 0x0123_4567_89AB_CDEF in three words. -/
theorem test_load_immediate : sOf (.li { n with fd := 4, imm := 0xABCDEF }) base 4 = 0xFFFFFFFFFFABCDEF
    ∧ sOf (.lihM { n with fd := 4, fa := 4, imm := 0x456789 }) (regs [(4, 0xFFFFFFFFFFABCDEF)]) 4 = 0xFFFF456789ABCDEF
    ∧ sOf (.lihH { n with fd := 4, fa := 4, sub := 1, imm := 0x0123 }) (regs [(4, 0xFFFF456789ABCDEF)]) 4
      = 0x0123456789ABCDEF := by decide

/-- 04 R144: ANDI sign-extends its immediate, ORI does not. -/
theorem test_immediates : sOf (.andi { n with imm := 0xFFFFFE }) (regs [(2, 0xFFFFFFFFFFFFFFFF)]) 1 = 0xFFFFFFFFFFFFFFFE
    ∧ sOf (.ori { n with imm := 0xFFFFFE }) (regs [(2, 1)]) 1 = 0xFFFFFF
    ∧ sOf (.srai { n with imm := 0xFFFFC1 }) (regs [(2, 0x8000000000000000)]) 1 = 0xC000000000000000 := by decide

/-- 03 R106 and 04 R145, the CALL example fetched from memory: the link is the address of the next word. -/
theorem test_call_fetched : (match step (State.reset.withFetchWord 64 0x0000000434200000) with
    | .next t => (sval (t.ctx 0) 8, ((t.ctx 0).stream .s).pc)
    | _ => (0, 0)) = (8, 16) := by decide

/-- 04 R145: a branch back by two parcels; a JMPR to an address that is no multiple of 4 raises 0x06 and writes no link. -/
theorem test_branches : pcNow (.br { b with cond := 3, off := -2 }) .s (regs [(2, 1), (3, 0xFFFFFFFFFFFFFFFF)])
      = 0xFFFFFFFFFFFFFFF8
    ∧ pcNow (.bri { b with cond := 4, fb := 0x3F }) .s (regs [(2, 1)]) = 8
    ∧ pcNow (.ret b) .s (regs [(2, 0x40)]) = 0x40
    ∧ cause (.jmpr { b with off := 1 }) (handled (regs [(2, 2)])) = 6
    ∧ sOf (.jmpr { b with off := 1 }) (handled (regs [(1, 9), (2, 2)])) 1 = 9
    ∧ ((ran (.jmpr { b with off := 1 }) (handled (regs [(2, 2)]))).ctx 0).cr.trapinfo1 = 6 := by decide

/-- 04 R146, its example at address 0: LOOP with off 6 sets level 0; LOOPR with a zero count skips the body. -/
theorem test_loops : (((ran (.loop ⟨w0, 0, 0, 3, 0, 0, 6⟩) base).ctx 0).stream .s).loops.get 0
      = ⟨3, 8, 24, true, false, 0⟩
    ∧ pcNow (.loopr { b with off := 4 }) .s (regs [(2, 0x500000000)]) = 24 := by decide

/-- 04 R125: a word at the end of a level of two passes goes back once. -/
theorem test_loop_end : pcNow (.nop w0) .s
    (with_ fun x => x.modStream .s fun t => { t with pc := 0x20, loops := t.loops.set 0 ⟨2, 0x18, 0x20, true, false, 0⟩ }) = 0x18
    ∧ pcNow (.nop w0) .s
    (with_ fun x => x.modStream .s fun t => { t with pc := 0x20, loops := t.loops.set 0 ⟨1, 0x18, 0x20, true, false, 0⟩ }) = 0x28
    := by decide

/-- 04 R147, R148: FORK starts V at 0x40; JOIN of V Done and C Idle gives the mask 1 and leaves V Idle. -/
def vIs (st : Strm) (x : Ctx) : Ctx := x.modStream .v fun t => { t with st := st }
theorem test_fork_join : (((ran (.fork ⟨w0, 0, 5, 0, 0, 0, 1⟩)
      ((regs [(5, 0x40)]).modCtx 0 (vIs .idle))).ctx 0).stream .v).st = .running
    ∧ (((ran (.fork ⟨w0, 0, 5, 0, 0, 0, 1⟩) ((regs [(5, 0x40)]).modCtx 0 (vIs .done))).ctx 0).stream .v).pc = 0x40
    ∧ sOf (.join ⟨w0, 7, 0, 0, 0, 0, 1⟩) (with_ (vIs .done)) 7 = 1
    ∧ (((ran (.join ⟨w0, 7, 0, 0, 0, 0, 1⟩) (with_ (vIs .done))).ctx 0).stream .v).st = .idle
    ∧ pcNow (.join ⟨w0, 7, 0, 0, 0, 0, 1⟩) .s (with_ (vIs .running)) = 0 := by decide

/-- 04 R149: with T = 0 and a register slot that is full, WAIT answers slot 0; with no slot under any-of, the timeout. -/
theorem test_wait : sOf (.wait ⟨w0, 1, 2, 3, 0, 0, 0⟩) (regs [(2, 0x4003)]) 1 = 1
    ∧ sOf (.wait ⟨w0, 1, 2, 3, 0, 0, 0⟩) base 1 = 16 := by decide

/-- 04 R151: a bare token reads as 2^32; 04 R150: TKSEND pushes the low half. -/
def fifo (src dst : Eng) (l : List Entry) (x : Ctx) : Ctx :=
  { x with fifos := vset x.fifos (fifoIdx src dst) (l.map fun e => ⟨e, .good, ⟨0, [], []⟩⟩) }
theorem test_tokens : sOf (.tkrecv { y with w := { w0 with pop := 2 } }) (with_ (fifo .v .s [none])) 1 = 0x100000000
    ∧ sOf (.tkrecv { y with w := { w0 with pop := 2 } }) (with_ (fifo .v .s [some 0xFFFFFFFF, none])) 1 = 0xFFFFFFFF
    ∧ ((ran (.tkrecv { y with w := { w0 with pop := 2 } }) (with_ (fifo .v .s [some 7, none]))).ctx 0).fifo .v .s = [⟨none, .good, ⟨0, [], []⟩⟩]
    ∧ ((ran (.tksend { y with w := { w0 with push := 3 } }) (regs [(2, 0xAAAAAAAABBBBBBBB)])).ctx 0).fifo .s .m
      = [⟨some 0xBBBBBBBB, .good, ⟨0, [], []⟩⟩] := by decide

/-- 04 R152: the index of a TMSET in s[fb]. -/
theorem test_tmset : vget (((ran (.tmset ⟨w0, 0, 2, 3, 1, 0, 2⟩) (regs [(2, 0x1122334455667788), (3, 0x45)])).ctx 0).stream
    .v).tmpl 5 = 0x1122334455667788 := by decide

/-- 03 R108 and its example: patch.disp 5, 24 issues the LD of template 5 with its displacement replaced; the word after a
patch word is 4 bytes on. -/
theorem test_patch : amend .s 0x0018000040189000 12 24 = some (0x40189000, 0x00180018)
    ∧ pcNow (.patch .s 5 0 0) .s (with_ fun x => x.modStream .s fun t => { t with tmpl := vset t.tmpl 5 0x78000000 }) = 4
    ∧ cause (.patch .s 5 0 0) (handled (with_ fun x => x.modStream .s fun t => { t with tmpl := vset t.tmpl 5 0x80000000 })) = 1
    := by decide

/-- 03 R90: a guard of s1 = 0 turns the word off, and on with ginv. -/
theorem test_guard : sOf (.li { n with w := { w0 with guard := 2 }, imm := 7 }) (regs [(1, 3)]) 1 = 3
    ∧ sOf (.li { n with w := { w0 with guard := 2, ginv := true }, imm := 7 }) (regs [(1, 3)]) 1 = 7 := by decide

/-- 04 R155–R157: TRAP 0x123 at 0x20 enters the handler at 0x100 with 0x28 to resume at; ERET goes there. -/
def at20 (s : State) : State := s.modCtx 0 fun x => x.modStream .s fun t => { t with pc := 0x20 }
theorem test_trap : (let x := (ran (.trap { y with imm12 := 0x123 }) (at20 (handled base))).ctx 0
    (x.cr.tm, x.cr.trapcause, x.cr.trappc, x.cr.trapinfo1, (x.stream .s).pc, (x.stream .v).st))
      = (true, 0x7F, 0x28, 0x123, 0x100, .stopped)
    ∧ (let x := (ran (.eret y) (ran (.trap { y with imm12 := 0x123 }) (at20 (handled base)))).ctx 0
    (x.cr.tm, (x.stream .s).pc, (x.stream .v).st)) = (false, 0x28, .running)
    ∧ (base.core 0).phase = .running ∧ ((ran (.eret y) (handled base)).ctx 0).cr.trapcause = 1 := by decide

/-- 04 R158, 01 R34: HALT with the engines at rest begins retirement. -/
def alone (x : Ctx) : Ctx := { x with str := Vector.ofFn fun i => if i = 0 then x.str.get i else Stream.reset }
theorem test_halt : ((ran (.halt { y with imm12 := 0 }) (with_ alone)).core 0).phase = .retiring
    ∧ ((ran (.halt { y with imm12 := 0 }) base).core 0).phase = .running := by decide


/-! Memory. -/

/-- The own scratchpad as a global address (08 R267): scratchpad form, core field 63. -/
def spVa : W64 := 0x3F00000

/-- Bytes at keys of memory. -/
def withBytes (k : Nat) (bs : List Byte) (s : State) : State := { s with mem := writeCells s.mem k bs }

/-- 08 R284, R287: a store of a half word of s3 at [s2 + 2 × s4 + (-2)] in the scratchpad is buffered, and lands in its turn
in two bytes, little-endian; a load of it is zero-extended. -/
def stored : State := ran (.st { m with space := 1, size := 1, mode := 2, fb := 4, fd := 3, disp := 0x3FFE })
  (regs [(2, 0x3F00100), (3, 0xAAAA8899), (4, 8)])
theorem test_store : (stored.ctx 0).sb.map (fun b => b.chunks.map fun c => (c.loc, c.bytes)) = [[(.phys (spKey 0 0x10E), [0x99, 0x88])]]
    ∧ (ran (.sendBufferDeparture 0 0) stored).mem = [(spKey 0 0x10E, 0x99), (spKey 0 0x10F, 0x88)] := by decide
theorem test_load : sOf (.deferredWriteLand 0 0) (ran (.ld { m with space := 1, size := 1 })
    (withBytes (spKey 0 0x10E) [0x99, 0x88] (regs [(2, 0x3F0010E), (1, 0xFFFFFFFFFFFFFFFF)]))) 1 = 0x8899 := by decide

/-- 08 R280, R281: a misaligned atomic operation raises 0x06, with the address in ADDR. -/
theorem test_load_traps : (let x := (ran (.amo { m with space := 1, size := 2 }) (handled (regs [(2, 0x3F0010E)]))).ctx 0
    (x.cr.trapcause, fld x.cr.trapinfo1.toNat 0 48)) = (6, 0x3F0010E) := by decide

/-- 08 R285: AMO.add on a word returns the old value and stores the sum; `.cas` with a different value stores the old one. -/
def amoDone (disp : BitVec 14) (l : List (Nat × W64)) : State := ran (.deferredWriteLand 0 0) (ran (.sendBufferDeparture 0 0)
  (ran (.amo { m with space := 1, size := 2, disp := disp })
    (withBytes (spKey 0 0x100) [0xFF, 0xFF, 0xFF, 0xFF] (regs ((2, 0x3F00100) :: l)))))
theorem test_amo : sval ((amoDone 0x0400 [(3, 2)]).ctx 0) 1 = 0xFFFFFFFF
    ∧ (amoDone 0x0400 [(3, 2)]).mem = [(spKey 0 0x100, 1)]
    ∧ readCells (amoDone 0x2400 [(3, 2), (1, 5)]).mem (spKey 0 0x100) 4 = [0xFF, 0xFF, 0xFF, 0xFF] := by decide

/-- 11 R358, its example: the walk of VA 0x0040_0020_1234 under root 0x20_0000 gives frame 0x8003 with read and write. -/
theorem test_walk : ((withBytes 0x200800 (leBytes 8 0x00100001) (withBytes 0x100008 (leBytes 8 0x00101001)
    (withBytes 0x101000 (leBytes 8 0x80030033) State.reset))).walk 0x200000 0x004000201234).map
      (fun t => (t.frame + (0x004000201234 - t.va), t.size, t.r, t.w, t.kind)) = some (0x80031234, 65536, true, true, 0) := by
  decide +kernel

/-- 02 R77, its examples: five members in the collating tree, and with m2 absent. -/
theorem test_collate : collateTree 0 [0x4B800000, 0x3F800000, 0x3F800000, 0xCB800000, 0x3F800000] = 0x40000000
    ∧ collateTree 0 [0x4B800000, 0x3F800000, colIdentity 0, 0xCB800000, 0x3F800000] = 0x3F800000 := by decide

/-! Control registers, ordering and power. -/

/-- 04 R127, R153: CWR of TRAPVEC keeps EN and ADDR's writable bits; CRD of TICKS gives the count. -/
theorem test_control_registers :
    ((ran (.cwr { y with cr := 0x044, fa := 2 }) (regs [(2, 0xFFFFFFFFFFFFFFFF)])).ctx 0).cr.trapvec = 0x800000000000FFFC
    ∧ sOf (.crd { y with cr := 0x060 }) { base with dev := { base.dev with ticks := 77 } } 1 = 77 := by decide

/-- 12 R394: PACQ to a lower level returns the old one at once; to a higher one it asks the plate for the difference. -/
theorem test_power : sOf (.pacq { y with imm12 := 1 }) base 1 = 3
    ∧ ((ran (.pacq { y with imm12 := 1 }) base).core 0).pwr.level = 1
    ∧ (((ran (.pacq { y with imm12 := 3 }) (base.modCore 0 fun k => { k with pwr := ⟨1, false, false⟩ })).plate 0).reqs.map
      fun q => (q.core, q.units)) = [(0, 2)]
    ∧ ((ran (.prel y) base).core 0).pwr.level = 0 := by decide

/-- 12 R385: REFDEF defers to DUE at the latest. -/
theorem test_refdef : sOf (.refdef y) (regs [(2, 100)]) 1 = 100
    ∧ sOf (.refdef y) (regs [(2, 0xFFFFFFFFFF)]) 1 = 99200000 := by decide

/-- 10 R338: BAR.d0 waits while V runs, and retires with 0. -/
theorem test_bar : sOf (.bar { y with imm12 := 0 }) ((regs [(1, 9)]).modCtx 0 alone) 1 = 0
    ∧ sOf (.bar { y with imm12 := 0 }) (regs [(1, 9)]) 1 = 9 := by decide

/-! V. -/

/-- 05 R179, R170: VADD.f32 on the lanes of p1 alone: 1.5 + 2.25. -/
def p1 (m : W64) (x : Ctx) : Ctx := { x with v := { x.v with p := x.v.p.set 1 m } }
theorem test_vadd : (let s := (with_ (vregs [(2, fun _ => 0x3FC00000), (3, fun _ => 0x40100000)])).modCtx 0 (p1 2)
    (lane (.vadd { v with w := { w0 with guard := 1 } }) s 1 0, lane (.vadd { v with w := { w0 with guard := 1 } }) s 1 1))
      = (0, 0x40700000) := by decide

/-- 02 R56, 05 R179: VFMA rounds once: (1 + 2^-12)^2 - 1 in FP32 keeps the 2^-24. -/
theorem test_vfma : lane (.vfma { v with w := { w0 with guard := 1 } }) ((with_ (vregs [(2, fun _ => 0x3F800800),
    (3, fun _ => 0x3F800800), (4, fun _ => 0xBF800000)])).modCtx 0 (p1 1)) 1 0 = 0x3A000400 := by decide

/-- 05 R171, its example: a VCMP into its own guard. -/
theorem test_vcmp : (let g := fun (l : List W32) (i : Nat) => l.getD i 0
    let s := (with_ (vregs [(8, g [0x3F800000, 0x40000000, 0x40400000, 0x7FC00000]),
      (9, g [0x40000000, 0x40400000, 0x3F800000, 0x40A00000])])).modCtx 0
        fun x => { x with v := { x.v with p := x.v.p.set 2 0xD } }
    (((ran (.vcmp ⟨{ w0 with guard := 2 }, 2, 8, 9, 0, 0, 0, false, false, 2, 0⟩) s).ctx 0).v.p.get 2)) = 1 := by decide

/-- 05 R185, its example; 05 R187: VSHIFT.up takes lane 0 from the last lanes of v[fb]. -/
theorem test_vbcast_vshift : lane (.vbcastH { v with sub := 2, fb := 15, fc := 48, aux := 0, w := { w0 with guard := 1 } })
      (with_ (p1 1)) 1 0 = 0x3F000000
    ∧ lane (.vbcastI { v with sub := 1, fb := 0x3F, fc := 0x3F, aux := 0x3E, w := { w0 with guard := 1 } }) (with_ (p1 1)) 1 0
      = 0xFFFFFFFE
    ∧ lane (.vshiftUp { v with sub := 1, aux := 2, w := { w0 with guard := 1 } }) ((with_ (vregs [(2, fun i => BitVec.ofNat 32 i),
      (3, fun i => BitVec.ofNat 32 (100 + i))])).modCtx 0 (p1 3)) 1 1 = 163 := by decide

/-- 05 R192: VSPL3 of 0x3EAAAAAB, the example of 17. -/
theorem test_vspl3 : split3 0x3EAAAAAB = (0x3EAB, 0xBA2B, 0x35AC) := by decide

/-- 11 R371, its example: VTIP's table maps 0.25 to 0.625, 5.0 to 3.0 and -3.0 to +0. -/
def tip : List Byte := leBytes 4 0x00040019 ++ leBytes 4 0xBF800000 ++ leBytes 8 0xFF ++ leBytes 4 0 ++ leBytes 4 0x3E800000
  ++ leBytes 4 0x3F000000 ++ leBytes 4 0x3F400000 ++ leBytes 4 0x3F800000
theorem test_vtip : rne32 (tipValue false (parseTip tip) (val32 0x3E800000)) = 0x3F200000
    ∧ rne32 (tipValue false (parseTip tip) (val32 0x40A00000)) = 0x40400000
    ∧ rne32 (tipValue false (parseTip tip) (val32 0xC0400000)) = 0 := by decide

/-- 05 R194: VMPUSH pushes M and P, VMINV inverts within the entry below, an empty VMPOP raises 0x02 with the depth. -/
theorem test_masks : ((ran (.vmpush { v with fa := 1 }) (with_ (p1 0xF0))).ctx 0).v.masks = [0xF0]
    ∧ ((ran (.vminv v) (with_ fun x => { x with v := { x.v with masks := [0x3, 0xF] } })).ctx 0).v.masks = [0xC, 0xF]
    ∧ cause (.vmpop v) (handled base) = 2 := by decide

/-- 05 R196, its example: vloop.rot sets count 4 and q0 to all ones. -/
theorem test_vloop : (let x := (ran (.vloop ⟨w0, 0, 0, 3, 0, 9, 14⟩) base).ctx 0
    ((x.stream .v).loops.get 0, vget x.v.q 0)) = (⟨4, 8, 56, true, true, 1⟩, BitVec.allOnes 64) := by decide

/-! M. -/

/-- 06 R213, its table. -/
theorem test_kept_pairs : (upTo 4).map (keptPair 0 0) = [(0, 1), (0, 2), (0, 3), (1, 2)] := by decide

/-- 06 R209, R229: MOSSET writes ROWP from an immediate, MOSSET.add adds mv to TILEP. -/
theorem test_mosset : (((ran (.mossetAdd ⟨w0, 33, 5, 0, 2, 0, 0⟩) (with_ fun x => { x with m := { x.m with mv := 0xFFFFFFFF } })).ctx
    0).os 33).tilep = 0xFFFFFFFF
    ∧ (((ran (.mosset ⟨w0, 33, 4, 0, 0, 0x001, 0x002⟩) base).ctx 0).os 33).rowp = 0x1002 := by decide

/-! P. -/

/-- 07, the worked subtree in SPF: shape entry 5 and the banks before PUP; its three nodes after it. -/
def subtree : State := with_ fun x =>
  setBanks [(0x000, 0x00000FBF), (0x001, 0x40000FBF), (0x002, 0x80000FBF), (0x003, 0x55555FBE), (0x040, 0x80000FBF),
    (0x050, 0x00000FBE), (0x08F, 0x00000FC0)]
    { x with p := { x.p with mode := 2, shapes := vset x.p.shapes 5 0x00000300000200000100000000060007 } }
def shape5 : BitVec 128 := 0x00000300000200000100000000030007
def pup5 : FSpe := ⟨w0, 5, 4, 1, 0, 8⟩
theorem test_pup : (let u := evalUp pup5 false shape5 ((subtree.ctx 0))
    ([0, 1, 2].map fun k => vget u.val k)) = [0x30000FBE, 0x40000FBE, 0x00000FBE] := by decide +kernel

/-- 07 R254: PNORM without shift brings the largest value to [1, 2): exponents 4031 and 4030 become 4032 and 4031. -/
theorem test_pnorm : (let x := normEffect ⟨w0, 1, 0, 0, 0, 2⟩ (subtree.ctx 0)
    (bankAt x 0x20, bankAt x 0x21)) = (0x00000FC0, 0x40000FC0) := by decide +kernel

/-! C. -/

/-- 10 R343, R349: CPY with its descriptor at 0x400 enters queue 0 and counts tag 3; CWAIT 3 then waits. -/
def copying : State := ran (.cpy ⟨w0, 8, 3, false, 0x400⟩)
  (withBytes (spKey 0 0x400) (leBytes 8 0x3F00000 ++ leBytes 8 0x3F00100 ++ leBytes 8 0x500000020) base)
theorem test_cpy : (vget (copying.ctx 0).tags 3).out = 1 ∧ (vget (copying.cluster 0).engines 0).length = 1
    ∧ pcNow (.cwait ⟨w0, 0, 3, false, 0⟩) .c copying = 8 := by decide +kernel

/-! The other agents. -/

/-- 12 R398: the sequencer at 90 with target 92 begins a ramp, and then moves one step of it. -/
theorem test_fll : (let s := base.modCluster 0 fun k => { k with ftgt := 92 }
    ((ran (.fllStep 0) s).cluster 0).ramp == .up && ((ran (.fllStep 0) { ran (.fllStep 0) s with
      dev := { s.dev with ticks := 4 } }).cluster 0).fstep == 91) = true := by decide

/-- 12 R383: a forced sweep at DUE, a rotation since 64 ms have passed. -/
theorem test_forced_sweep : (let k := (ran (.forcedSweep 3) { base with dev := { base.dev with ticks := 99200000 } }).core 3
    (k.refresh.due, k.refresh.sweep)) = (198400000, some ⟨true, 0⟩) := by decide +kernel

/-- 14 R435: the doorbell TAIL wraps modulo the ring; 13 R424: a kill of a core without a job ends with 1. -/
theorem test_host : (ran (.unknownCommand 0x800000000000000B) base).dev.mail.err = 1
    ∧ ((ran (.jcmdKill 0 0x9000000000000000) State.reset).cluster 0).jerr = 1 := by decide +kernel


/-! ## States that meet the hypotheses of the statements. -/

/-- A word is well formed, and in some state its pop is taken and `ready` holds. -/
def Meets (i : Instr) (e : Eng) (w : Common) (ready : State → Prop) : Prop :=
  i.wf = true ∧ ∃ s got, TokensTaken e w got (s.ctx s.cur) ∧ ready s

/-- A word without pop takes it in every state; one without push may push in every state. -/
theorem no_pop (e : Eng) (w : Common) (x : Ctx) (g : w.pop = 0) : TokensTaken e w none x :=
  ⟨by unfold popped; rw [g]; rfl⟩
theorem no_push (e : Eng) (w : Common) (x y : Ctx) (h : w.push = 0) : MayPush e w x y :=
  fun d hd => by rw [h] at hd; cases hd

theorem meets {i : Instr} {e : Eng} {w : Common} {ready : State → Prop} (s : State) (hw : i.wf = true) (hr : ready s)
    (g : w.pop = 0 := by rfl) : Meets i e w ready :=
  ⟨hw, s, none, no_pop e w _ g, hr⟩

/-- Every s register is full and nothing is marked: the registers of a word without a guard are ready. -/
def Clean (s : State) : Prop :=
  (s.ctx s.cur).sfill = Vector.replicate 32 .full ∧ (s.ctx s.cur).errs = []

theorem Clean.ready {s : State} (h : Clean s) {r : Nat} (_hr : r < 32) : SReady (s.ctx s.cur) r := by
  refine .inr ⟨?_, ?_⟩
  · rw [h.1]; simp [vget, vec_get]
  · rw [h.2]; simp

theorem Clean.regs {s : State} (h : Clean s) {w : Common} {srcs dests : List (BitVec 6)} (hs : srcs.all sReg = true)
    (hd : dests.all sReg = true) (hg : w.guard = 0 := by rfl) : SRegs w srcs dests s := by
  refine ⟨.inl hg, fun r hr => h.ready (by simpa [sReg] using List.all_eq_true.1 hs r hr), fun d m => .inr ?_⟩
  · have : d.toNat < 32 := by simpa [sReg] using List.all_eq_true.1 hd d m
    rw [h.1]; simp [vget, vec_get]

theorem base_clean : Clean base := ⟨rfl, rfl⟩
theorem regs_clean (l : List (Nat × W64)) : Clean (regs l) := ⟨rfl, rfl⟩

/-- A word whose guard s1 = 0 fails. -/
def wg : Common := ⟨1, false, 0, 0, false, false⟩
theorem guard_off : GuardFalse wg (base.ctx base.cur) := ⟨by decide, base_clean.ready (r := 1) (by decide), by decide⟩


theorem witness_ScalarArithmeticRetires :
    Meets (.add { r with fd := 31, fa := 31, fb := 31 }) .s w0 (SRegs w0 [31, 31] [31])
    ∧ Meets (.sel { r with fc := 31 }) .s w0 (SRegs w0 [2, 3, 31] [1]) ∧ Meets (.mov r) .s w0 (SRegs w0 [2] [1])
    ∧ Meets (.add { r with w := wg }) .s wg (fun s => GuardFalse wg (s.ctx s.cur))
    ∧ ([Instr.sub r, .mul r, .mulh r, .mulhu r, .and r, .or r, .xor r, .andn r, .shl r, .shr r, .sra r, .rotr r, .min r, .max r,
      .minu r, .maxu r, .cmp { r with sub := 5 }, .clz r, .ctz r, .popc r].all Instr.wf) = true :=
  ⟨meets base (by decide) (base_clean.regs rfl rfl), meets base (by decide) (base_clean.regs rfl rfl),
    meets base (by decide) (base_clean.regs rfl rfl), meets base (by decide) guard_off, by decide⟩

theorem witness_ScalarImmediatesRetire :
    Meets (.addi { n with fd := 31, fa := 31, imm := 0x800000 }) .s w0 (SRegs w0 [31] [31])
    ∧ Meets (.li n) .s w0 (SRegs w0 [] [1]) ∧ Meets (.lihM n) .s w0 (SRegs w0 [2] [1])
    ∧ Meets (.lihH { n with sub := 1 }) .s w0 (SRegs w0 [2] [1]) ∧ (2 : BitVec 2).toNat = 2 :=
  ⟨meets base (by decide) (base_clean.regs rfl rfl), meets base (by decide) (base_clean.regs rfl rfl),
    meets base (by decide) (base_clean.regs rfl rfl), meets base (by decide) (base_clean.regs rfl rfl), by decide⟩

/-- With a push too. -/
def wpush : Common := ⟨0, false, 2, 0, false, false⟩
theorem push_taken : TokensTaken .s wpush none (base.ctx base.cur) := ⟨rfl⟩

theorem witness_ScalarDivisionDefers :
    Meets (.div r) .s w0 (SRegs w0 [2, 3] [1])
    ∧ Meets (.divu { r with w := wpush }) .s wpush (SRegs wpush [2, 3] [1]) :=
  ⟨meets base (by decide) (base_clean.regs rfl rfl), by decide, base, none, push_taken, base_clean.regs rfl rfl⟩

theorem witness_ScalarResultsByFormat : (0 : BitVec 6).toNat = 0 ∧ (31 : BitVec 6).toNat ≠ 0 ∧ (31 : BitVec 6).toNat < 32 := by
  decide

theorem witness_BranchesAndJumpsComplete :
    Meets (.br b) .s w0 (fun s => SRegs w0 [2, 3] [] s
      ∧ Claims.CondHolds 0 (sfield (s.ctx s.cur) 2) (sfield (s.ctx s.cur) 3))
    ∧ Meets (.br { b with cond := 5 }) .s w0 (fun s => SRegs w0 [2, 3] [] s
      ∧ ¬Claims.CondHolds 5 (sfield (s.ctx s.cur) 2) (sfield (s.ctx s.cur) 3))
    ∧ Meets (.jmp { b with off := 0x80000 }) .s w0 (SRegs w0 [] [])
    ∧ Meets (.jmpr { b with off := -1 }) .s w0 (fun s => SRegs w0 [2] [1] s
      ∧ (sfield (s.ctx s.cur) 2 + BitVec.ofInt 64 (4 * (-1 : BitVec 20).toInt)).toNat % 4 = 0)
    ∧ Meets (.ret b) .s w0 (fun s => SRegs w0 [2] [] s ∧ (sfield (s.ctx s.cur) 2).toNat % 4 = 0)
    ∧ Meets (.ret b) .s w0 (fun s => SRegs w0 [2] [] s ∧ (sfield (s.ctx s.cur) 2).toNat % 4 ≠ 0)
    ∧ Meets (.vbz { b with fa := 15 }) .v w0
      (fun s => predOf (s.ctx s.cur).v 15 &&& topMask (s.ctx s.cur).v = 0)
    ∧ Meets (.vbnz { b with fa := 0 }) .v w0 (fun s => predOf (s.ctx s.cur).v 0 &&& topMask (s.ctx s.cur).v ≠ 0)
    ∧ Meets (.cjmp b) .c w0 (fun _ => True) :=
  ⟨meets base (by decide) ⟨base_clean.regs rfl rfl, rfl⟩,
    meets (regs [(2, 1), (3, 2)]) (by decide) ⟨(regs_clean _).regs rfl rfl, by unfold Claims.CondHolds; decide⟩,
    meets base (by decide) (base_clean.regs rfl rfl),
    meets base (by decide) ⟨base_clean.regs rfl rfl, by decide⟩,
    meets base (by decide) ⟨base_clean.regs rfl rfl, by decide⟩,
    meets (regs [(2, 2)]) (by decide) ⟨(regs_clean _).regs rfl rfl, by decide⟩,
    meets base (by decide) (by decide), meets base (by decide) (by decide), meets base (by decide) trivial⟩

theorem witness_LoopWordsSetTheirLevel :
    Meets (.loop { b with fa := 63, fb := 63 }) .s w0 (fun s => SRegs w0 [] [] s ∧ (63 : BitVec 6).toNat * 64 + 63 ≠ 0)
    ∧ Meets (.loopr b) .s w0 (fun s => SRegs w0 [2] [] s ∧ (sfield (s.ctx s.cur) 2).toNat % 2 ^ 32 = 0)
    ∧ Meets (.loopr b) .s w0 (fun s => SRegs w0 [2] [] s ∧ (sfield (s.ctx s.cur) 2).toNat % 2 ^ 32 ≠ 0)
    ∧ Meets (.vloop { b with cond := 0xF, fa := 0, fb := 1 }) .v w0 (fun s => VRegs w0 [] [] s)
    ∧ Meets (.mloopr b) .m w0 (fun s => (s.ctx s.cur).m.mv.toNat = 0) ∧ (1 : BitVec 20).toInt < 2 :=
  ⟨meets base (by decide) ⟨base_clean.regs rfl rfl, by decide⟩, meets base (by decide) ⟨base_clean.regs rfl rfl, by decide⟩,
    meets (regs [(2, 1)]) (by decide) ⟨(regs_clean _).regs rfl rfl, by decide⟩,
    meets base (by decide) ⟨fun _ h => (List.not_mem_nil h).elim, fun _ h => (List.not_mem_nil h).elim⟩,
    meets base (by decide) (by decide), by decide⟩

/-- A value at the head of the FIFO from C. -/
def wpop : Common := ⟨0, false, 0, 5, false, false⟩
def popping : State := with_ (fifo .c .s [some 7, none])
theorem pop_taken : TokensTaken .s wpop (some (some 7)) (popping.ctx popping.cur) := ⟨by decide⟩

/-- A register of S left empty; one of V. -/
def emptied (r : Nat) : State := with_ fun x => { x with sfill := vset x.sfill r .empty }
def emptiedV (r : Nat) : State := with_ fun x => { x with v := { x.v with fill := vset x.v.fill r .empty } }
def wtrap : Common := ⟨0, false, 0, 0, true, false⟩
theorem emptied_rest (r : Nat) (q : Nat) (hq : q < 32) (h : r % 32 ≠ q) : SReady ((emptied r).ctx (emptied r).cur) q := by
  refine .inr ⟨?_, fun m => nomatch m⟩
  show vget (vset (Vector.replicate 32 Fill.full) r .empty) q = .full
  rw [vget_vset, if_neg (by rwa [Nat.mod_eq_of_lt hq])]
  simp [vget, vec_get]

/-- Tokens that do not let a word issue: an empty FIFO, and an uncorrectable entry. -/
theorem witness_Blocks :
    (Legal (.nop wpop) base ∧ PopWaits .s wpop (base.ctx base.cur))
    ∧ PopBad .s wpop .c ((with_ fun x =>
        { x with fifos := vset x.fifos (fifoIdx .c .s) [⟨none, .double, ⟨0, [], []⟩⟩] }).ctx 0) :=
  ⟨⟨⟨by decide, fun _ h => nomatch h⟩, .c, rfl, rfl, .inr (by decide)⟩, rfl, rfl, by decide, _, _, rfl, rfl⟩

/-- A push may go out: nothing of S is to be performed, and the FIFO to V has room. It may not: the FIFO is full, or S has an
access outstanding. -/
theorem witness_EndsWith :
    MayPush .s wpush (base.ctx 0) (base.ctx 0)
    ∧ ¬MayPush .s wpush ((with_ (fifo .s .v (List.replicate 8 none))).ctx 0) (base.ctx 0)
    ∧ ¬MayPush .s wpush (base.ctx 0) ((with_ fun x => { x with sb := [⟨.s, 0, 0, [], none, 0⟩] }).ctx 0) :=
  ⟨fun d hd => by cases hd; decide, fun h => absurd (h .v rfl) (by decide), fun h => absurd (h .v rfl) (by decide)⟩

theorem witness_TokensAndCorrectionsAreBookkeeping :
    TokensTaken .s wpop (some (some 7)) (popping.ctx popping.cur) ∧ tokened .s wpop popping = tokened .s wpop popping
    ∧ (wg.guard ≠ 0 ∧ vget ((emptied 1).ctx 0).sfill wg.guard.toNat = .empty)
    ∧ (GuardTrue w0 ((emptied 2).ctx 0) ∧ SReady ((emptied 2).ctx 0) 3 ∧ emptyS false ((emptied 2).ctx 0) (srcA w0 2) = true)
    ∧ (SReady ((emptied 1).ctx 0) 2 ∧ ¬SFree ((emptied 1).ctx 0) 1)
    ∧ ([srcA wtrap 2, srcB wtrap 3].find? (emptyS true ((emptied 2).ctx 0)) = some (srcA wtrap 2)
      ∧ emptyS false ((emptied 2).ctx 0) (srcA wtrap 2) = false ∧ SFree ((emptied 2).ctx 0) 1)
    ∧ emptyV false ((emptiedV 2).ctx 0) (srcA w0 2) = true
    ∧ vget ((emptiedV 1).ctx 0).v.fill (vPhys ((emptiedV 1).ctx 0).v.rrb 1) = .empty
    ∧ [srcA wtrap 2, srcB wtrap 3].find? (emptyV true ((emptiedV 2).ctx 0)) = some (srcA wtrap 2) :=
  ⟨pop_taken, rfl, ⟨by decide, by decide⟩, ⟨.inl rfl, emptied_rest 2 3 (by decide) (by decide), by decide⟩,
    ⟨emptied_rest 1 2 (by decide) (by decide), fun h => h.elim (by decide) fun h => h (by decide)⟩,
    ⟨by decide, by decide, .inr (by decide)⟩, by decide, by decide, by decide⟩

/-- A scratchpad access of the words of S: its address register holds a scratchpad address. -/
def spRegs : State := regs [(2, 0x3F00100), (3, 5)]
def sm : FMem := { m with space := 1, size := 2 }
/-- The same with a full send buffer of M. -/
def fullBuffer : State := spRegs.modCtx 0 fun x => { x with sb := List.replicate 64 ⟨.m, 0, 0, [], none, 0⟩ }
theorem fullBuffer_clean : Clean fullBuffer := ⟨rfl, rfl⟩
theorem witness_ScalarMemoryWordsIssue :
    Meets (.ld sm) .s w0 (fun s => SRegs w0 (Claims.addrRegs sm) [1] s ∧ Claims.SendRoom s ∧ Claims.Passes (Claims.ldRef sm s))
    ∧ Meets (.st sm) .s w0
      (fun s => SRegs w0 (Claims.addrRegs sm ++ [1]) [] s ∧ Claims.SendRoom s ∧ Claims.Passes (Claims.stRef sm s))
    ∧ Meets (.amo sm) .s w0
      (fun s => SRegs w0 (Claims.amoRegs sm) [1] s ∧ Claims.SendRoom s ∧ Claims.Passes (Claims.amoRef sm s))
    ∧ Meets (.st sm) .s w0
      (fun s => SRegs w0 (Claims.addrRegs sm ++ [1]) [] s ∧ ¬Claims.SendRoom s ∧ Claims.Passes (Claims.stRef sm s))
    ∧ Meets (.ld sm) .s w0
      (fun s => SRegs w0 (Claims.addrRegs sm) [1] s ∧ ¬Claims.SendRoom s ∧ Claims.Passes (Claims.ldRef sm s))
    ∧ Meets (.amo sm) .s w0
      (fun s => SRegs w0 (Claims.amoRegs sm) [1] s ∧ ¬Claims.SendRoom s ∧ Claims.Passes (Claims.amoRef sm s)) :=
  ⟨meets spRegs (by decide) ⟨(regs_clean _).regs rfl rfl, by unfold Claims.SendRoom; decide, ⟨_, rfl⟩⟩,
    meets spRegs (by decide) ⟨(regs_clean _).regs rfl rfl, by unfold Claims.SendRoom; decide, ⟨_, rfl⟩⟩,
    meets spRegs (by decide) ⟨(regs_clean _).regs rfl rfl, by unfold Claims.SendRoom; decide, ⟨_, rfl⟩⟩,
    meets fullBuffer (by decide) ⟨fullBuffer_clean.regs rfl rfl, by unfold Claims.SendRoom; decide, ⟨_, rfl⟩⟩,
    meets fullBuffer (by decide) ⟨fullBuffer_clean.regs rfl rfl, by unfold Claims.SendRoom; decide, ⟨_, rfl⟩⟩,
    meets fullBuffer (by decide) ⟨fullBuffer_clean.regs rfl rfl, by unfold Claims.SendRoom; decide, ⟨_, rfl⟩⟩⟩

theorem witness_FailedAccessChecksTrap :
    Meets (.amo sm) .s w0 (fun s => SRegs w0 (Claims.amoRegs sm) [1] s ∧ (Claims.amoRef sm s).1 = .bad 0x06 ∧ Claims.Mapped 0x06 s)
    ∧ Meets (.ld m) .s w0 (fun s => SRegs w0 (Claims.addrRegs m) [1] s ∧ (Claims.ldRef m s).1 = .bad 0x04 ∧ Claims.Mapped 0x04 s)
    ∧ Meets (.st m) .s w0 (fun s => SRegs w0 (Claims.addrRegs m ++ [1]) [] s ∧ (Claims.stRef m s).1 = .bad 0x04 ∧ Claims.Mapped 0x04 s)
    ∧ Meets (.ld m) .s w0
      (fun s => SRegs w0 (Claims.addrRegs m) [1] s ∧ (Claims.ldRef m s).1 = .bad 0x04 ∧ s.dev.remapGo = true) :=
  ⟨meets (regs [(2, 0x3F00101)]) (by decide) ⟨(regs_clean _).regs rfl rfl, by decide, fun h => nomatch h⟩,
    meets base (by decide) ⟨base_clean.regs rfl rfl, by decide +kernel, fun _ => rfl⟩,
    meets base (by decide) ⟨base_clean.regs rfl rfl, by decide +kernel, fun _ => rfl⟩,
    meets (base.modDev fun d => { d with remapGo := true }) (by decide)
      ⟨Clean.regs (s := base.modDev fun d => { d with remapGo := true }) ⟨rfl, rfl⟩ rfl rfl, by decide +kernel, rfl⟩⟩



theorem witness_StoresWriteTheirBytes :
    Memory.wf base.mem = true ∧ Claims.InMapBlock (base.modDev fun d => { d with bamaddr := 1 }) (2 ^ 48 - 2 ^ 48 + 255)
    ∧ ¬Claims.InMapBlock (base.modDev fun d => { d with bamaddr := 1 }) 256
    ∧ ¬Claims.InMapBlock base 128 := by
  refine ⟨by decide, ?_, ?_, ?_⟩ <;> unfold Claims.InMapBlock <;> decide

/-- A pending write of S. -/
def pend (q : Option Poison) (what : What) : Pend := ⟨.s, 1, 1, 0, 0, q, what⟩
def poison : Poison := ⟨0x12, 0x1234, 0⟩
def tokenPoison : Poison := ⟨0x10, 3 * 2 ^ 44, 5⟩
theorem witness_DeferredWritesLand :
    ((with_ fun x => { x with pend := [pend none (.value 7)] }).ctx 0).pend[0]? = some (pend none (.value 7))
    ∧ ((with_ fun x => { x with pend := [pend (some poison) (.value 7)] }).ctx 0).pend[0]?
      = some (pend (some poison) (.value 7))
    ∧ (let s := with_ fun x => { x with sfill := vset x.sfill 31 (.poisoned poison) }
      TokensTaken .s w0 none (s.ctx s.cur) ∧ GuardTrue w0 (s.ctx s.cur) ∧ Instr.wf (.mov { r with fa := 31 }) = true
        ∧ vget (s.ctx s.cur).sfill 31 = .poisoned poison ∧ poison.code ≠ 0x04 ∧ poison.code ≠ 0x10
        ∧ tokenPoison.code = 0x10)
    ∧ (let p := pend none (.load [⟨0, 0, ⟨.phys (spKey 0 8), 8, 5, false⟩, BitVec.ofNat 48 (spKey 0 8)⟩])
      let s := with_ fun x => { x with pend := [p] }
      (s.ctx 0).pend[0]? = some p ∧ s.canBind (s.ctx 0) p 0 ⟨spKey 0 8, 8, 5, false⟩ = true ∧ s.badData (spKey 0 8) 8 = false
        ∧ (s.ctx 0).sb = [] ∧ vget (s.ctx 0).sreg 1 = 0 ∧ Memory.wf s.mem = true) :=
  ⟨rfl, rfl, ⟨no_pop _ _ _ rfl, .inl rfl, by decide, by decide, by decide, by decide, by decide⟩, rfl, by decide, by decide, rfl, by decide, by decide⟩

/-- A write, and an atomic operation, in the send buffer. -/
def leaving (chunks : List Chunk) (a : Option AmoReq) : State :=
  with_ fun x => { x with sb := [⟨.s, 0, 0, chunks, a, 0⟩] }
def twoChunks : List Chunk := [⟨.phys (spKey 0 0), [1], 5, false⟩, ⟨.phys (spKey 0 1), [2], 5, false⟩]
theorem witness_BufferedStoresDepart :
    (let s := leaving twoChunks none
      ∃ b, (s.ctx 0).sb[0]? = some b ∧ b.amo = none ∧ b.chunks[0]? = some ⟨.phys (spKey 0 0), [1], 5, false⟩
        ∧ s.canDepart (s.ctx 0) b 0 ⟨spKey 0 0, 1, 5, false⟩ = true)
    ∧ (let a : AmoReq := ⟨1, 0, ⟨.phys (spKey 0 0), 8, 5, false⟩, 1, 0, 0⟩
      let s := leaving [] (some a)
      ∃ b, (s.ctx 0).sb[0]? = some b ∧ b.amo = some a ∧ s.canDepart (s.ctx 0) b 0 ⟨spKey 0 0, 8, 5, false⟩ = true
        ∧ s.badData (spKey 0 0) 8 = false) :=
  ⟨⟨_, rfl, rfl, rfl, by decide⟩, ⟨_, rfl, rfl, by decide, by decide⟩⟩

theorem witness_AtomicResults : 2 ^ 32 - 1 < 2 ^ (8 * 4) ∧ 2 ^ 64 - 1 < 2 ^ (8 * 8) ∧ (0 : Nat) < 2 ^ (8 * 4) := by decide

/-- The other engines in one state, and no access of S outstanding. -/
def others (st : Strm) (x : Ctx) : Ctx :=
  { x with str := Vector.ofFn fun i => if i = 0 then x.str.get i else { Stream.reset with st := st } }
theorem others_clean (st : Strm) : Clean (with_ (others st)) := ⟨rfl, rfl⟩

/-- FORK words: of all four engines, of V alone, and of an engine by its number, at a misaligned entry too. -/
def forkAll : FSys := { y with imm12 := 0xF }
def forkC : FSys := { y with sub := 1, fd := 5, imm12 := 0xFFC }
def forkOdd : FSys := { y with sub := 1, fd := 2, imm12 := 2 }

theorem witness_ForkAndJoinComplete :
    Meets (.fork forkAll) .s w0 (fun s => SRegs w0 [2] [] s ∧ Claims.MayStart (Claims.forkEntries forkAll s) s)
    ∧ Meets (.forkI forkC) .s w0 (fun s => SRegs w0 [] [] s ∧ Claims.MayStart (Claims.forkEntry forkC) s)
    ∧ Meets (.join forkAll) .s w0 (fun s => SRegs w0 [] [1] s ∧ ∀ e ∈ maskEngines (engMask forkAll), Claims.AtRest e s)
    ∧ Meets (.join y) .s w0 (fun s => SRegs w0 [] [1] s ∧ ∃ e ∈ maskEngines (engMask y), ¬Claims.AtRest e s)
    ∧ Meets (.fork forkAll) .s w0 (fun s => SRegs w0 [2] [] s ∧ Claims.MustWait (Claims.forkEntries forkAll s) s)
    ∧ Meets (.forkI forkC) .s w0 (fun s => SRegs w0 [] [] s ∧ Claims.MustWait (Claims.forkEntry forkC) s)
    ∧ engMask { y with imm12 := 0 } = 0 ∧ ({ y with imm12 := 0xFF1 } : FSys).imm12.toNat / 16 ≠ 0
    ∧ (({ forkC with fd := 1 } : FSys).fd.toNat < 2 ∧ 5 < ({ forkC with fd := 6 } : FSys).fd.toNat)
    ∧ Meets (.fork forkAll) .s w0 (fun s => SRegs w0 [2] [] s ∧ Claims.Misaligned (Claims.forkEntries forkAll s) .m 2)
    ∧ Meets (.forkI forkOdd) .s w0 (fun s => SRegs w0 [] [] s ∧ Claims.Misaligned (Claims.forkEntry forkOdd) .v 2) := by
  unfold Claims.MayStart Claims.MustWait Claims.Misaligned Claims.AtRest
  exact ⟨meets (with_ (others .idle)) (by decide) ⟨(others_clean _).regs rfl rfl, fun p hp => ⟨by revert p; decide, by revert p; decide⟩, by decide⟩,
    meets (with_ (others .done)) (by decide) ⟨(others_clean _).regs rfl rfl, by decide⟩,
    meets (with_ (others .done)) (by decide) ⟨(others_clean _).regs rfl rfl, by decide⟩,
    meets base (by decide) ⟨base_clean.regs rfl rfl, .v, by decide, by decide⟩,
    meets base (by decide) ⟨base_clean.regs rfl rfl, by decide⟩, meets base (by decide) ⟨base_clean.regs rfl rfl, by decide⟩,
    by decide, by decide, by decide,
    meets (regs [(2, 0x20000)]) (by decide) ⟨(regs_clean _).regs rfl rfl, by decide⟩,
    meets base (by decide) ⟨base_clean.regs rfl rfl, by decide⟩⟩

/-- A page of 1 MiB at address 0, translated to key 2^20, that allows every use. -/
def paged (s : State) : State := s.modCore 0 fun k => { k with tlb := [⟨0, 0, 2 ^ 20, true, true, true, 0, 2 ^ 20, none⟩] }
theorem paged_clean (l : List (Nat × W64)) : Clean (paged (regs l)) := ⟨rfl, rfl⟩

theorem Clean.list {s : State} (h : Clean s) {l : List Src} (hl : l.all (fun r => decide (r.reg < 32)) = true) :
    ∀ r ∈ l, SReady (s.ctx s.cur) r.reg :=
  fun r hr => h.ready (of_decide_eq_true (List.all_eq_true.1 hl r hr))

/-- A block read, compared as data. -/
def isBytes : BlockRead → List Byte → Bool
  | .bytes a, b => decide (a = b)
  | _, _ => false
theorem bytes_of {q : BlockRead} {b : List Byte} (h : isBytes q b = true) : q = .bytes b := by
  cases q with
  | bytes a => exact congrArg _ (of_decide_eq_true h)
  | _ => exact nomatch h

theorem not_over {f : FSys} {s : State} {x : Ctx} {d : Nat} (h : Claims.waitEnds f s x = some d) (g : s.dev.ticks.toNat < d) :
    ¬Claims.waitOver f s x := by
  rintro ⟨e, he, hd⟩
  rw [h] at he
  cases he
  omega

/-- WAIT words: no timeout, and a bound of T = 1. -/
def wt : FSys := ⟨w0, 1, 2, 3, 0, 0, 0⟩
theorem witness_WaitCompletes :
    Meets (.wait { wt with imm12 := 0xFFF }) .s w0 (fun s => SRegs w0 [2] [1] s ∧ Claims.waitReads { wt with imm12 := 0xFFF } s = false
      ∧ (Claims.waitMet { wt with imm12 := 0xFFF } (Claims.waitCtx { wt with imm12 := 0xFFF } s) 0 = true
        ∨ Claims.waitOver { wt with imm12 := 0xFFF } s (Claims.waitCtx { wt with imm12 := 0xFFF } s)))
    ∧ Meets (.wait wt) .s w0 (fun s => SRegs w0 [2] [1] s ∧ Claims.waitReads wt s = false
      ∧ (Claims.waitMet wt (Claims.waitCtx wt s) 0 = true ∨ Claims.waitOver wt s (Claims.waitCtx wt s)))
    ∧ Meets (.wait wt) .s w0 (fun s => SRegs w0 [2] [1] s ∧ Claims.waitReads wt s = true
      ∧ (∀ r ∈ Claims.waitMemRegs wt s, SReady (s.ctx s.cur) r.reg) ∧ (sfield (s.ctx s.cur) 3).toNat % 8 = 0
      ∧ ∃ bs, (Claims.waitRead wt s).1 = .bytes bs
          ∧ (Claims.waitMet wt ((Claims.waitRead wt s).2.ctx s.cur) (leNat bs) = true
            ∨ Claims.waitOver wt (Claims.waitRead wt s).2 ((Claims.waitRead wt s).2.ctx s.cur)))
    ∧ Meets (.wait { wt with imm12 := 1 }) .s w0 (fun s => SRegs w0 [2] [1] s ∧ Claims.waitReads { wt with imm12 := 1 } s = false
      ∧ Claims.waitMet { wt with imm12 := 1 } (Claims.waitCtx { wt with imm12 := 1 } s) 0 = false
      ∧ ¬Claims.waitOver { wt with imm12 := 1 } s (Claims.waitCtx { wt with imm12 := 1 } s))
    ∧ Meets (.wait { wt with imm12 := 1 }) .s w0 (fun s => SRegs w0 [2] [1] s ∧ Claims.waitReads { wt with imm12 := 1 } s = true
      ∧ (∀ r ∈ Claims.waitMemRegs { wt with imm12 := 1 } s, SReady (s.ctx s.cur) r.reg) ∧ (sfield (s.ctx s.cur) 3).toNat % 8 = 0
      ∧ ∃ bs, (Claims.waitRead { wt with imm12 := 1 } s).1 = .bytes bs
          ∧ Claims.waitMet { wt with imm12 := 1 } ((Claims.waitRead { wt with imm12 := 1 } s).2.ctx s.cur) (leNat bs) = false
          ∧ ¬Claims.waitOver { wt with imm12 := 1 } (Claims.waitRead { wt with imm12 := 1 } s).2
              ((Claims.waitRead { wt with imm12 := 1 } s).2.ctx s.cur)) :=
  ⟨meets (regs [(2, 0x4003)]) (by decide) ⟨(regs_clean _).regs rfl rfl, by decide, .inl (by decide)⟩,
    meets base (by decide) ⟨base_clean.regs rfl rfl, by decide, .inr ⟨0, by decide, by decide⟩⟩,
    meets (paged (regs [(2, 0x8004), (3, 8)])) (by decide) ⟨(paged_clean _).regs rfl rfl, by decide, (paged_clean _).list (by decide), by decide, leBytes 8 0, bytes_of (by decide +kernel), .inl (by decide +kernel)⟩,
    meets base (by decide) ⟨base_clean.regs rfl rfl, by decide, by decide, not_over (d := 1) (by decide) (by decide)⟩,
    meets (paged (regs [(2, 0x8005), (3, 8), (5, 1)])) (by decide) ⟨(paged_clean _).regs rfl rfl, by decide,
      (paged_clean _).list (by decide), by decide, leBytes 8 0, bytes_of (by decide +kernel), by decide +kernel,
      not_over (d := 1) (by decide +kernel) (by decide +kernel)⟩⟩


theorem witness_ScalarTokenWordsComplete :
    (∃ s, TokensTaken .s wpush none (s.ctx s.cur) ∧ SRegs wpush [2] [] s ∧ Instr.wf (.tksend { y with w := wpush }) = true)
    ∧ (TokensTaken .s wpop (some (some 7)) (popping.ctx popping.cur) ∧ SRegs wpop [] [1] popping
      ∧ Instr.wf (.tkrecv { y with w := wpop }) = true)
    ∧ Meets (.tkrecvD { y with sub := 1, imm12 := 5 }) .s w0 (fun s => SRegs w0 [] [1] s ∧ (s.ctx s.cur).awaiting .c .s = false)
    ∧ Meets (.tmset { y with imm12 := 5, cr := 63 }) .s w0 (SRegs w0 [2] [])
    ∧ Meets (.tmset { y with imm12 := 1, sub := 1 }) .s w0 (SRegs w0 [2, 3] [])
    ∧ Eng.ofCode 5 = some .c ∧ Eng.ofCode 1 = some .s ∧ w0.push = 0 :=
  ⟨⟨base, push_taken, base_clean.regs rfl rfl, by decide⟩,
    ⟨pop_taken, ⟨.inl rfl, fun _ h => (List.not_mem_nil h).elim, fun d hd => by cases hd with
      | head => exact .inr (by decide)
      | tail _ h => exact (List.not_mem_nil h).elim⟩, by decide⟩,
    meets base (by decide) ⟨base_clean.regs rfl rfl, by decide⟩, meets base (by decide) (base_clean.regs rfl rfl),
    meets base (by decide) (base_clean.regs rfl rfl), rfl, rfl, rfl⟩

/-- A division outstanding. -/
def pendingDiv : State := with_ fun x => { x with pend := [pend none (.value 7)] }
theorem pendingDiv_clean : Clean pendingDiv := ⟨rfl, rfl⟩

theorem witness_ControlRegisterWordsComplete :
    Meets (.crd { y with cr := 0x060 }) .s w0 (fun s => SRegs w0 [] [1] s ∧ Claims.CrReady 0x060 s)
    ∧ Meets (.cwr { y with cr := 0x044 }) .s w0
      (fun s => SRegs w0 [2] [] s ∧ (crSerial 0x044 = true → Claims.Settled .s s))
    ∧ Meets (.cwr { y with cr := 0x045 }) .s w0 (fun s => SRegs w0 [2] [] s ∧ crSerial 0x045 = true ∧ ¬Claims.Settled .s s) :=
  ⟨meets base (by decide) ⟨base_clean.regs rfl rfl, fun h => nomatch h⟩,
    meets base (by decide) ⟨base_clean.regs rfl rfl, by unfold Claims.Settled; decide⟩,
    meets pendingDiv (by decide) ⟨pendingDiv_clean.regs rfl rfl, by decide, by unfold Claims.Settled; decide⟩⟩

theorem witness_ControlRegisterWrites : 0x040 ∈ [(0x010 : Nat), 0x040] ∧ crRw 0x060 = 0 ∧ crW1c 0x060 = 0
    ∧ (upTo 16).getLast? = some 15 := by decide

/-- An own write in the send buffer. -/
def unsent : State := leaving twoChunks none
theorem unsent_clean : Clean unsent := ⟨rfl, rfl⟩
/-- Entry 5 of the publish table active, its record valid at PTBASE. -/
def published : State :=
  (withBytes (5 * 64) [1] (regs [(2, 5)])).modDev fun d => { d with pactive := 0x20 }
theorem published_clean : Clean published := ⟨rfl, rfl⟩

/-- A stream with a fence before its accesses; an old byte of the scratchpad and a release that stands there; a PUBLISH that
waits for M's writes to the hidden side of entry 5. -/
def fencedS (f : Ctx → Ctx) : State := with_ fun x => f { x with fences := [⟨.s, 0, 0, 2⟩], seq := 1 }
theorem fencedS_clean : Clean (fencedS id) := ⟨rfl, rfl⟩
def release : RelTag := ⟨0, 3, ⟨0, [], []⟩⟩
def rewritten : State :=
  let s := base
  { s with stamp := 1, old := [⟨spKey 0 8, 5, 1⟩], rels := [⟨spKey 0 8, 8, 1, none, release⟩] }
def spSpan : Span := ⟨spKey 0 8, 8, 5, false⟩
/-- M's write to the hidden side of entry 5, of the issue numbered 7, which S has seen, and of one that it has not. -/
def waitingFor (l : List Nat) : State := published.modCtx 0 fun x =>
  { x.modStream .s fun r => { r with view := { r.view with issued := l } } with
    sb := [⟨.m, 7, 0, [⟨.pub 5 0 true, [1], 1, false⟩], none, 7⟩] }
def waitingPub : State := waitingFor [7]
def passingPub : State := waitingFor []
theorem waitingPub_clean : Clean waitingPub := ⟨rfl, rfl⟩
theorem passingPub_clean : Clean passingPub := ⟨rfl, rfl⟩
def waitedPub : State := published.modCtx 0 fun x => x.modStream .s fun r => { r with snap := [.block [5], .writer 7] }
theorem waitedPub_clean : Clean waitedPub := ⟨rfl, rfl⟩
theorem waitedPub_none : (readS w0 [2] waitedPub).hiddenWriters (Claims.pubEntry y waitedPub) = [] := by decide +kernel
theorem waitedPub_ready : ∃ b ws, Claims.snapOf .s waitedPub = .block b :: ws
    ∧ ∀ w ∈ (readS w0 [2] waitedPub).hiddenWriters (Claims.pubEntry y waitedPub), w ∉ snapWriters ws :=
  ⟨[5], [.writer 7], by decide, by rw [waitedPub_none]; exact fun _ h => nomatch h⟩

theorem published_ready : Claims.snapOf .s published = [] ∧ Claims.Settled .s published
    ∧ drained .s (published.ctx published.cur) = true
    ∧ published.dev.pactive.getLsbD (Claims.pubEntry y published) = true := by
  unfold Claims.Settled; decide
theorem published_read : (Claims.pubRead y published).1 = .bytes (1 :: leBytes 63 0) := bytes_of (by decide +kernel)
theorem passingPub_ready : Claims.snapOf .s passingPub = [] ∧ Claims.Settled .s passingPub
    ∧ drained .s (passingPub.ctx passingPub.cur) = true
    ∧ passingPub.dev.pactive.getLsbD (Claims.pubEntry y passingPub) = true := by
  unfold Claims.Settled; decide
theorem passingPub_read : (Claims.pubRead y passingPub).1 = .bytes (1 :: leBytes 63 0) := bytes_of (by decide +kernel)
theorem passingPub_left : (Claims.pubRead y passingPub).2.hiddenWriters (Claims.pubEntry y passingPub) = [7]
    ∧ Claims.pubNoted y passingPub = [] := by decide +kernel
theorem waitingPub_left : (Claims.pubRead y waitingPub).2.hiddenWriters (Claims.pubEntry y waitingPub) = [7]
    ∧ Claims.pubNoted y waitingPub = [7] := by decide +kernel
theorem published_none : (Claims.pubRead y published).2.hiddenWriters (Claims.pubEntry y published) = [] := by decide +kernel

theorem waitingPub_ready : Claims.snapOf .s waitingPub = [] ∧ Claims.Settled .s waitingPub
    ∧ drained .s (waitingPub.ctx waitingPub.cur) = true
    ∧ waitingPub.dev.pactive.getLsbD (Claims.pubEntry y waitingPub) = true := by
  unfold Claims.Settled; decide
theorem waitingPub_read : (Claims.pubRead y waitingPub).1 = .bytes (1 :: leBytes 63 0) := bytes_of (by decide +kernel)

theorem witness_AccessesKeepOrder :
    (let v := ((rewritten.ctx 0).stream .s).view;
      0 < spSpan.n ∧ spSpan.via ≠ 6 ∧ v.bound spSpan ≤ rewritten.stamp ∧ rewritten.stale spSpan (v.bound spSpan) = true)
    ∧ (release ∈ rewritten.tagsAt spSpan 1 ∧ release.mutual 0 3 = true)
    ∧ (let s := rewritten.modCtx 0 fun x => x.modStream .s fun r => { r with rel := [release] }
      release ∈ ((s.ctx 0).stream .s).rel ∧ (2 : Nat) ≠ 0)
    ∧ (let p : Pend := ⟨.s, 1, 1, 1, 0, none, .load [⟨0, 0, ⟨.phys (spKey 0 8), 8, 5, false⟩, 8⟩]⟩
      let s := fencedS fun x => { x with pend := [p] }
      (s.ctx 0).pend[0]? = some p ∧ (⟨.s, 0, 0, 2⟩ : FenceMark) ∈ (s.ctx 0).fences ∧ 0 < p.seq ∧ (0 : Nat) ≠ 2)
    ∧ (let b : SbEntry := ⟨.s, 1, 0, twoChunks, none, 0⟩
      let s := fencedS fun x => { x with sb := [b] }
      (s.ctx 0).sb[0]? = some b ∧ (⟨.s, 0, 0, 2⟩ : FenceMark) ∈ (s.ctx 0).fences ∧ 0 < b.seq) := by decide

theorem witness_PerformanceCountersCount :
    (let x := (with_ fun x => { x with cr := { x.cr with pmc := vset x.cr.pmc 0 0x01FFFFFFFFFFFFFF } }).ctx 0;
      (vget x.cr.pmc 0).toNat / 2 ^ 56 = 1 ∧ (vget x.cr.pmc 1).toNat / 2 ^ 56 ≠ 1 ∧ (1 : Nat) < 256 ∧ (7 : Nat) < 8)
    ∧ (∃ s : State, Claims.Ready .v w0 none s) ∧ Instr.wf (.vnop w0) = true
    ∧ Meets (.cwr { y with cr := 0x0A7 }) .s w0 (fun s => SRegs w0 [2] [] s ∧ (0x0A7 : BitVec 12).toNat = 0x0A0 + 7) :=
  ⟨by decide, ⟨base, no_pop _ _ _ rfl, no_push _ _ _ _ rfl⟩, by decide, meets base (by decide) ⟨base_clean.regs rfl rfl, by decide⟩⟩

/-- A PUBLISH that need not wait. -/
def PublishNow (s : State) : Prop :=
  SRegs w0 [2] [] s ∧ Claims.snapOf .s s = [] ∧ Claims.Settled .s s ∧ drained .s (s.ctx s.cur) = true
    ∧ s.dev.pactive.getLsbD (Claims.pubEntry y s) = true
    ∧ ∃ bs, (Claims.pubRead y s).1 = .bytes bs ∧ blockNat bs 0 1 % 2 = 1
      ∧ ∀ w ∈ (Claims.pubRead y s).2.hiddenWriters (Claims.pubEntry y s), w ∉ Claims.pubNoted y s

theorem witness_OrderingWordsComplete :
    Meets (.fence { y with imm12 := 4, sub := 0 }) .s w0 (SRegs w0 [] [])
    ∧ Meets (.publish y) .s w0 PublishNow ∧ Meets (.publish y) .s w0 PublishNow
    ∧ Meets (.publish y) .s w0 (fun s => SRegs w0 [2] [] s ∧ ∃ b ws, Claims.snapOf .s s = .block b :: ws
        ∧ ∀ w ∈ (readS w0 [2] s).hiddenWriters (Claims.pubEntry y s), w ∉ snapWriters ws)
    ∧ Meets (.publish y) .s w0 (fun s => SRegs w0 [2] [] s ∧ Claims.snapOf .s s = [] ∧ Claims.Settled .s s
        ∧ drained .s (s.ctx s.cur) = true ∧ s.dev.pactive.getLsbD (Claims.pubEntry y s) = true
        ∧ ∃ bs, (Claims.pubRead y s).1 = .bytes bs ∧ blockNat bs 0 1 % 2 = 1
          ∧ ∃ w ∈ (Claims.pubRead y s).2.hiddenWriters (Claims.pubEntry y s), w ∈ Claims.pubNoted y s)
    ∧ Meets (.cbsync y) .s w0 (fun s => SRegs w0 [2] [] s ∧ acquiring (s.ctx s.cur) = false)
    ∧ Meets (.cbsyncAll { y with sub := 1 }) .s w0 (fun s => SRegs w0 [] [] s ∧ acquiring (s.ctx s.cur) = false) :=
  ⟨meets base (by decide) (base_clean.regs rfl rfl),
    meets published (by decide) ⟨published_clean.regs rfl rfl, published_ready.1, published_ready.2.1, published_ready.2.2.1,
      published_ready.2.2.2, 1 :: leBytes 63 0, published_read, by decide, by rw [published_none]; exact fun _ h => nomatch h⟩,
    meets passingPub (by decide) ⟨passingPub_clean.regs rfl rfl, passingPub_ready.1, passingPub_ready.2.1,
      passingPub_ready.2.2.1, passingPub_ready.2.2.2, 1 :: leBytes 63 0, passingPub_read, by decide,
      by rw [passingPub_left.2]; exact fun _ _ h => nomatch h⟩,
    meets waitedPub (by decide) ⟨waitedPub_clean.regs rfl rfl, waitedPub_ready⟩,
    meets waitingPub (by decide) ⟨waitingPub_clean.regs rfl rfl, waitingPub_ready.1, waitingPub_ready.2.1, waitingPub_ready.2.2.1,
      waitingPub_ready.2.2.2, 1 :: leBytes 63 0, waitingPub_read, by decide, 7,
      by rw [waitingPub_left.1]; exact .head _, by rw [waitingPub_left.2]; exact .head _⟩,
    meets base (by decide) ⟨base_clean.regs rfl rfl, by decide⟩, meets base (by decide) ⟨base_clean.regs rfl rfl, by decide⟩⟩

theorem witness_OrderingWordsComplete_waits :
    Meets (.cbsync y) .s w0 (fun s => SRegs w0 [2] [] s ∧ acquiring (s.ctx s.cur) = true) :=
  meets (fencedS id) (by decide) ⟨fencedS_clean.regs rfl rfl, by decide⟩

/-- An image at address 0: S's overlay of 8 bytes at 0xC0, loaded at 0x20 and entered there. -/
def image : List Byte :=
  leBytes 4 0x4D494E56 ++ leBytes 2 1 ++ leBytes 2 0xC0 ++ leBytes 4 0xC8 ++ leBytes 2 0x0101 ++ leBytes 2 0 ++ leBytes 4 0x20
    ++ leBytes 12 0 ++ leBytes 4 0xC0 ++ leBytes 4 8 ++ leBytes 4 0x20 ++ leBytes 148 0 ++ leBytes 8 0x78000000
def withImage (s : State) : State := withBytes (2 ^ 20) image (paged s)
def chaining : State := withImage (with_ (others .done))
theorem chaining_clean : Clean chaining := ⟨rfl, rfl⟩

theorem chain_of {f : FSys} {s : State}
    (h : ((Claims.chainLoad f s).map fun p => (Claims.trailerEngines p.1).isEmpty) = some true) :
    ∃ j m s2, Claims.chainLoad f s = some (j, m, s2)
      ∧ ∀ e ∈ Claims.trailerEngines j, ((s.ctx s.cur).stream e).st = .done ∨ ((s.ctx s.cur).stream e).st = .idle := by
  cases hc : Claims.chainLoad f s with
  | none => rw [hc] at h; cases h
  | some p =>
    rw [hc] at h
    have he : Claims.trailerEngines p.1 = [] := by simpa using h
    exact ⟨p.1, p.2.1, p.2.2, rfl, fun e m => by rw [he] at m; cases m⟩

/-- In the handler. -/
def inHandler (f : Ctx → Ctx) : State := with_ fun x => f { x with cr := { x.cr with tm := true } }
theorem inHandler_clean : Clean (inHandler id) := ⟨rfl, rfl⟩
theorem pendingHandler_clean : Clean (inHandler fun x => { x with pend := [pend none (.value 7)] }) := ⟨rfl, rfl⟩
theorem handled_clean : Clean (handled base) := ⟨rfl, rfl⟩

/-- A HALT.chain, and a job whose trailer has a part for V, which runs. -/
def hc : FSys := { y with sub := 1 }
def trailing : State := base.modCore 0 fun k => { k with job := some { job0 with trailer := 2 } }
theorem trailing_clean : Clean trailing := ⟨rfl, rfl⟩

theorem witness_TrapReturnAndHaltComplete :
    Meets (.trap y) .s w0 (fun s => SRegs w0 [] [] s ∧ Claims.Settled .s s)
    ∧ Meets (.trap y) .s w0 (fun s => SRegs w0 [] [] s ∧ ¬Claims.Settled .s s)
    ∧ Meets (.trap y) .s w0 (fun s => SRegs w0 [] [] s ∧ (s.ctx s.cur).cr.tm = false ∧ (s.ctx s.cur).cr.trapvec.getLsbD 63 = true
      ∧ unsettled (s.ctx s.cur) = false ∧ (s.ctx s.cur).trapping = none ∧ (s.core s.cur).pwr.susp = false)
    ∧ Meets (.eret y) .s w0 (fun s => SRegs w0 [] [] s ∧ (s.ctx s.cur).cr.tm = true ∧ Claims.Settled .s s
      ∧ Claims.CrReady 0x041 s ∧ Claims.CrReady 0x045 s)
    ∧ (base.ctx base.cur).cr.tm = false
    ∧ Meets (.eret y) .s w0 (fun s => SRegs w0 [] [] s ∧ (s.ctx s.cur).cr.tm = true ∧ ¬Claims.Settled .s s)
    ∧ Meets (.halt y) .s w0
      (fun s => SRegs w0 [] [] s ∧ (s.ctx s.cur).cr.tm = false ∧ Claims.Settled .s s ∧ Claims.OthersAtRest s)
    ∧ Meets (.halt y) .s w0 (fun s => SRegs w0 [] [] s ∧ Claims.HaltsJob s)
    ∧ Meets (.haltChain hc) .s w0 (fun s => SRegs w0 [2] [] s ∧ Claims.HaltsJob s)
    ∧ Meets (.halt y) .s w0 (fun s => SRegs w0 [] [] s
        ∧ (¬Claims.Settled .s s ∨ (s.ctx s.cur).cr.tm = false ∧ ¬Claims.OthersAtRest s))
    ∧ Meets (.haltChain hc) .s w0 (fun s => SRegs w0 [2] [] s ∧ (¬Claims.Settled .s s ∨ (s.ctx s.cur).cr.tm = false
        ∧ ∃ j, (s.core s.cur).job = some j ∧ ∃ e ∈ Claims.trailerEngines j, ¬Claims.AtRest e s))
    ∧ Meets (.haltChain hc) .s w0 (fun s => SRegs w0 [2] [] s ∧ (s.ctx s.cur).cr.tm = false ∧ Claims.Settled .s s
      ∧ ∃ j m s2, Claims.chainLoad hc s = some (j, m, s2) ∧ ∀ e ∈ Claims.trailerEngines j, Claims.AtRest e s) := by
  unfold Claims.HaltsJob Claims.Settled Claims.OthersAtRest Claims.AtRest
  exact ⟨meets base (by decide) ⟨base_clean.regs rfl rfl, by decide⟩,
    meets pendingDiv (by decide) ⟨pendingDiv_clean.regs rfl rfl, by decide⟩,
    meets (handled base) (by decide) ⟨handled_clean.regs rfl rfl, by decide, by decide, by decide, by decide, by decide⟩,
    meets (inHandler id) (by decide) ⟨inHandler_clean.regs rfl rfl, by decide, by decide, fun h => (nomatch h), fun h => nomatch h⟩, by decide,
    meets (inHandler _) (by decide) ⟨pendingHandler_clean.regs rfl rfl, by decide, by decide⟩,
    meets (with_ (others .idle)) (by decide)
      ⟨(others_clean _).regs rfl rfl, by decide, by decide, fun e he => by cases e <;> first | exact absurd rfl he | decide⟩,
    meets (inHandler id) (by decide) ⟨inHandler_clean.regs rfl rfl, by decide, by decide, fun h => (nomatch h), fun h => (nomatch h),
      fun h => (nomatch h), fun h => nomatch h⟩,
    meets (inHandler id) (by decide) ⟨inHandler_clean.regs rfl rfl, by decide, by decide, fun h => (nomatch h), fun h => (nomatch h),
      fun h => (nomatch h), fun h => nomatch h⟩,
    meets base (by decide) ⟨base_clean.regs rfl rfl, .inr ⟨by decide, fun h => absurd (h .v (by decide)) (by decide)⟩⟩,
    meets trailing (by decide) ⟨trailing_clean.regs rfl rfl, .inr ⟨by decide, _, rfl, .v, by decide, by decide⟩⟩,
    meets chaining (by decide) ⟨chaining_clean.regs rfl rfl, by decide, by decide, chain_of (by decide +kernel)⟩⟩

/-- A trap of V about to be taken by S; one of S with a division outstanding. -/
def trappedV (f : Ctx → Ctx) : State :=
  (handled base).modCtx 0 fun x => f { x with trapping := some ⟨.v, Trap.plain 0x20 0, false⟩ }
theorem witness_TrapEntrySavesAndGoesToHandler :
    Claims.EntersHandler (Trap.plain 0x7F 0x20) ((handled base).ctx 0)
    ∧ unsettled ((handled base).ctx 0) = false ∧ unsettled ((handled pendingDiv).ctx 0) = true
    ∧ (let s := trappedV id
      s.tickClosed = false ∧ (s.core 0).phase = .running ∧ ((s.ctx 0).stream .s).st = .running
        ∧ (s.ctx 0).trapping = some ⟨.v, Trap.plain 0x20 0, false⟩ ∧ (s.core 0).pwr.susp = false ∧ unsettled (s.ctx 0) = false)
    ∧ unsettled ((trappedV fun x => { x with pend := [pend none (.value 7)] }).ctx 0) = true := by
  unfold Claims.EntersHandler; decide

theorem witness_TrapsEndOrReturn :
    (base.ctx 0).cr.trapvec.getLsbD 63 = false ∧ ((inHandler id).ctx 0).cr.tm = true
    ∧ { Trap.plain 0x01 0 with classJ := true }.classJ = true
    ∧ ((base.ctx 0).trapping = none ∧ ((inHandler id).ctx 0).trapping = none)
    ∧ ((trappedV id).ctx 0).trapping ≠ none := by decide



/-- Queue 1 of the own cluster, enabled, of a core-owned launcher, with a ring of 2^size slots and its tail. -/
def launchers (size : BitVec 5) (tail : BitVec 16) : State :=
  paged ((regs [(2, 0x2000)]).modCluster 0 fun k => { k with queues := vmod k.queues 1 fun q =>
    { q with en := true, owner := true, size := size, base := 0x20, tail := tail } })
theorem launchers_clean (a b) : Clean (launchers a b) := ⟨rfl, rfl⟩
/-- The same a tick later, with the LAUNCH at its queue since the tick before. -/
def served (size : BitVec 5) (tail : BitVec 16) : State :=
  ((launchers size tail).modDev fun d => { d with ticks := 1 }).modCtx 0 fun x => { x with launchReq := some ⟨0, 1, 0⟩ }
theorem served_clean (a b) : Clean (served a b) := ⟨rfl, rfl⟩
def ly : FSys := { y with fb := 0x1F, sub := 0, imm12 := 1 }
def lo : FSys := { y with sub := 1, imm12 := 9 }

theorem passes_of {q : Checked × State} (h : (match q.1 with | .ok _ => true | _ => false) = true) : Claims.Passes q := by
  unfold Claims.Passes
  cases hq : q.1 with
  | ok r => exact ⟨r, rfl⟩
  | bad n => rw [hq] at h; cases h

theorem launch_ready (h : Claims.Passes (Claims.launchSrc lo (launchers 1 0))) :
    Meets (.launch lo) .s w0 (fun s => SRegs w0 (Claims.launchRegs lo) [1] s ∧ Claims.LaunchAllowed lo s
      ∧ (s.ctx s.cur).launchReq = none ∧ Claims.Passes (Claims.launchSrc lo s)) :=
  meets (launchers 1 0) (by decide) ⟨(launchers_clean _ _).regs rfl rfl,
    ⟨fun h => absurd h (by decide), rfl, rfl, by decide, by unfold Claims.Settled; decide, by decide⟩, rfl, h⟩

theorem served_turn (tail : BitVec 16)
    (h : (readS w0 (Claims.launchRegs lo) (served 1 tail)).launchServed 0 ⟨0, 1, 0⟩ = true) :
    Claims.LaunchTurn lo (served 1 tail) := ⟨_, rfl, h⟩

theorem served_free : ∀ a b, (Claims.launchSrc lo (served 1 0)).1 = .ok a → (Claims.launchDst lo (served 1 0)).1 = .ok b →
    (Claims.launchDst lo (served 1 0)).2.anyStalled (a.pieces ++ b.pieces) = false := by
  have h : (match (Claims.launchSrc lo (served 1 0)).1, (Claims.launchDst lo (served 1 0)).1 with
      | .ok a, .ok b => (Claims.launchDst lo (served 1 0)).2.anyStalled (a.pieces ++ b.pieces)
      | _, _ => true) = false := by decide +kernel
  intro a b ha hb
  rw [ha, hb] at h
  exact h

theorem witness_LaunchCompletes_turn :
    Claims.launchFull lo (served 1 0xFFFF) ∧ Claims.LaunchTurn lo (served 1 0xFFFF)
    ∧ ¬Claims.launchFull lo (served 1 0) ∧ Claims.LaunchTurn lo (served 1 0)
    ∧ Claims.LaunchAllowed lo (served 1 0) ∧ Claims.SendRoom (served 1 0)
    ∧ Claims.Passes (Claims.launchSrc lo (served 1 0xFFFF)) ∧ Claims.Passes (Claims.launchSrc lo (served 1 0))
    ∧ Claims.Passes (Claims.launchDst lo (served 1 0)) := by
  refine ⟨by unfold Claims.launchFull; decide, served_turn _ (by decide +kernel), by unfold Claims.launchFull; decide,
    served_turn _ (by decide +kernel), ⟨fun h => absurd h (by decide), rfl, rfl, by decide, by unfold Claims.Settled; decide, by decide⟩,
    by unfold Claims.SendRoom; decide, passes_of (by decide +kernel), passes_of (by decide +kernel), passes_of (by decide +kernel)⟩

/-- A LAUNCH that waits for its tick; two at one queue. -/
def early : State := (launchers 1 0).modCtx 0 fun x => { x with launchReq := some ⟨0, 1, 0⟩ }
theorem early_clean : Clean early := ⟨rfl, rfl⟩
theorem witness_LaunchCompletes :
    Meets (.launch lo) .s w0 (fun s => SRegs w0 (Claims.launchRegs lo) [1] s ∧ Claims.LaunchAllowed lo s
        ∧ (s.ctx s.cur).launchReq = none ∧ Claims.Passes (Claims.launchSrc lo s))
    ∧ Meets (.launch lo) .s w0 (fun s => SRegs w0 (Claims.launchRegs lo) [1] s ∧ Claims.LaunchAllowed lo s
        ∧ ¬Claims.launchFull lo s ∧ Claims.Passes (Claims.launchSrc lo s) ∧ Claims.Passes (Claims.launchDst lo s)
        ∧ Claims.LaunchTurn lo s ∧ Claims.SendRoom s
        ∧ ∀ a b, (Claims.launchSrc lo s).1 = .ok a → (Claims.launchDst lo s).1 = .ok b →
            (Claims.launchDst lo s).2.anyStalled (a.pieces ++ b.pieces) = false)
    ∧ Meets (.launch lo) .s w0 (fun s => SRegs w0 (Claims.launchRegs lo) [1] s ∧ Claims.LaunchAllowed lo s
        ∧ Claims.Passes (Claims.launchSrc lo s)
        ∧ ∃ r, (s.ctx s.cur).launchReq = some r ∧ (readS w0 (Claims.launchRegs lo) s).launchServed s.cur r = false)
    ∧ Meets (.launch ly) .s w0 (fun s => SRegs w0 (Claims.launchRegs ly) [1] s
        ∧ (launchOwn ly = false → (sfield (s.ctx s.cur) ly.fb).toNat < 24)
        ∧ ¬(Claims.Settled .s s ∧ drained .s (s.ctx s.cur) = true)) :=
  let w := witness_LaunchCompletes_turn
  ⟨launch_ready (passes_of (by decide +kernel)),
    meets (served 1 0) (by decide) ⟨(served_clean _ _).regs rfl rfl, w.2.2.2.2.1, w.2.2.1, w.2.2.2.2.2.2.2.1,
      w.2.2.2.2.2.2.2.2, w.2.2.2.1, w.2.2.2.2.2.1, served_free⟩,
    meets early (by decide) ⟨early_clean.regs rfl rfl,
      ⟨fun h => absurd h (by decide), rfl, rfl, by decide, by unfold Claims.Settled; decide, by decide⟩,
      passes_of (by decide +kernel), _, rfl, by decide +kernel⟩,
    meets pendingDiv (by decide) ⟨pendingDiv_clean.regs rfl rfl, by decide, by unfold Claims.Settled; decide⟩⟩

def pair : State := early.modCtx 1 fun x => { x with launchReq := some ⟨0, 1, 0⟩ }
theorem witness_LaunchCompletes_order :
    ((early.ctx 0).launchReq = some ⟨0, 1, 0⟩ ∧ (readS w0 (Claims.launchRegs lo) early).launchServed 0 ⟨0, 1, 0⟩ = false)
    ∧ ((pair.ctx 0).launchReq = some ⟨0, 1, 0⟩ ∧ (pair.ctx 1).launchReq = some ⟨0, 1, 0⟩ ∧ (0 : CoreId).val < (1 : CoreId).val) := by
  decide +kernel

/-- A gang of one core, a member of the barriers of levels 1 to 3. -/
def ganged (a : Option Arrival) (gang : Bool) : State := base.modCore 0 fun k =>
  { k with job := some { job0 with tk := { job0.tk with gang := gang } },
           ctx := { k.ctx with bar := a, cr := { k.ctx.cr with dommask := k.ctx.cr.dommask.set 0 1 } } }
/-- The same, a member at level 4 too. -/
def ganged4 : State := (ganged none true).modCtx 0 fun x => { x with cr := { x.cr with dommask := x.cr.dommask.set 3 0x100 } }
theorem ganged4_clean : Clean ganged4 := ⟨rfl, rfl⟩
theorem read_of {q : BlockRead} (h : (match q with | .bytes _ => true | _ => false) = true) : ∃ b, q = .bytes b := by
  cases q with
  | bytes b => exact ⟨b, rfl⟩
  | _ => exact nomatch h
theorem ganged_clean (a g) : Clean (ganged a g) := ⟨rfl, rfl⟩
theorem alone_clean : Clean (with_ (others .idle)) := ⟨rfl, rfl⟩

def y4 : FSys := { y with imm12 := 4 }
theorem mask_ready {s : State} (n : Nat) (h : (s.ctx s.cur).errs = []) : Claims.MaskReady n s := by
  intro r _ m
  rw [h] at m
  cases m

theorem witness_BarCompletes :
    Meets (.bar { y with imm12 := 0 }) .s w0 (fun s => SRegs w0 [] [1] s ∧ (0 : BitVec 12).toNat % 8 = 0
      ∧ (∀ e, e ≠ .s → ((s.ctx s.cur).stream e).st ≠ .running) ∧ drained .s (s.ctx s.cur) = true)
    ∧ Meets (.bar y4) .s w0 (fun s => SRegs w0 [] [1] s ∧ (4 : BitVec 12).toNat % 8 ≠ 0 ∧ Claims.MaskReady 4 s
      ∧ (s.core s.cur).pwr.susp = false ∧ ∃ a r, (s.ctx s.cur).bar = some a ∧ a.rank = some r)
    ∧ Meets (.bar y) .s w0 (fun s => SRegs w0 [] [1] s ∧ (1 : BitVec 12).toNat % 8 ≠ 0 ∧ Claims.MaskReady 1 s
      ∧ (s.ctx s.cur).bar = none ∧ Claims.BarMember 1 s ∧ drained .s (s.ctx s.cur) = true
      ∧ ∃ b, (Claims.barEntry y s).1 = .bytes b)
    ∧ Meets (.bar y4) .s w0 (fun s => SRegs w0 [] [1] s ∧ (4 : BitVec 12).toNat % 8 ≠ 0 ∧ Claims.MaskReady 4 s
      ∧ (s.ctx s.cur).bar = none ∧ Claims.BarMember 4 s ∧ drained .s (s.ctx s.cur) = true
      ∧ ∃ b, (Claims.barEntry y4 s).1 = .bytes b)
    ∧ Meets (.bar y) .s w0 (fun s => SRegs w0 [] [1] s ∧ (1 : BitVec 12).toNat % 8 ≠ 0 ∧ Claims.MaskReady 1 s
      ∧ ∃ a, (s.ctx s.cur).bar = some a ∧ a.rank = none)
    ∧ Meets (.bar y) .s w0 (fun s => SRegs w0 [] [1] s ∧ (1 : BitVec 12).toNat % 8 ≠ 0 ∧ Claims.MaskReady 1 s
      ∧ (s.ctx s.cur).bar = none ∧ ¬Claims.BarMember 1 s) := by
  unfold Claims.BarMember
  exact ⟨meets (with_ (others .idle)) (by decide)
      ⟨alone_clean.regs rfl rfl, by decide, fun e he => by cases e <;> first | exact absurd rfl he | decide, by decide⟩,
    meets (ganged (some { (default : Arrival) with rank := some 2 }) true) (by decide)
      ⟨(ganged_clean _ _).regs rfl rfl, by decide, mask_ready _ rfl, by decide, _, _, rfl, rfl⟩,
    meets (ganged none true) (by decide)
      ⟨(ganged_clean _ _).regs rfl rfl, by decide, mask_ready _ rfl, by decide, by decide, by decide, _, rfl⟩,
    meets ganged4 (by decide)
      ⟨ganged4_clean.regs rfl rfl, by decide, mask_ready _ rfl, by decide, by decide, by decide, read_of (by decide +kernel)⟩,
    meets (ganged (some default) true) (by decide) ⟨(ganged_clean _ _).regs rfl rfl, by decide, mask_ready _ rfl, _, rfl, rfl⟩,
    meets (ganged none false) (by decide) ⟨(ganged_clean _ _).regs rfl rfl, by decide, mask_ready _ rfl, by decide, by decide⟩⟩

/-- Core 0 at a level; and waiting for a grant that has come. -/
def atLevel (n : Nat) : State := base.modCore 0 fun k => { k with pwr := ⟨n, false, false⟩ }
theorem atLevel_clean (n) : Clean (atLevel n) := ⟨rfl, rfl⟩
def granted : State := with_ fun x => { x with pacqFrom := some 1, granted := true }
theorem granted_clean : Clean granted := ⟨rfl, rfl⟩

theorem witness_PowerWordsComplete :
    Meets (.pacq { y with imm12 := 3 }) .s w0 (fun s => SRegs w0 [] [1] s ∧ Claims.Settled .s s
      ∧ (3 : BitVec 12).toNat % 4 ≤ (s.core s.cur).pwr.level ∧ (s.ctx s.cur).pacqFrom = none)
    ∧ Meets (.pacq { y with imm12 := 3 }) .s w0 (fun s => SRegs w0 [] [1] s ∧ Claims.Settled .s s
      ∧ (s.ctx s.cur).granted = true ∧ (s.ctx s.cur).pacqFrom ≠ none)
    ∧ Meets (.pacq y) .s w0 (fun s => SRegs w0 [] [1] s ∧ Claims.Settled .s s
      ∧ (s.core s.cur).pwr.level < (1 : BitVec 12).toNat % 4 ∧ (s.ctx s.cur).pacqFrom = none)
    ∧ Meets (.prel y) .s w0 (fun s => SRegs w0 [] [] s ∧ Claims.Settled .s s)
    ∧ Meets (.boost { y with imm12 := 0xFF }) .s w0 (SRegs w0 [] [1]) ∧ Meets (.refdef y) .s w0 (SRegs w0 [2] [1]) := by
  unfold Claims.Settled
  exact ⟨meets base (by decide) ⟨base_clean.regs rfl rfl, by decide, by decide, by decide⟩,
    meets granted (by decide) ⟨granted_clean.regs rfl rfl, by decide, by decide, by decide⟩,
    meets (atLevel 0) (by decide) ⟨(atLevel_clean _).regs rfl rfl, by decide, by decide, by decide⟩,
    meets base (by decide) ⟨base_clean.regs rfl rfl, by decide⟩, meets base (by decide) (base_clean.regs rfl rfl),
    meets base (by decide) (base_clean.regs rfl rfl)⟩

theorem witness_NoOperationsAndIllegalWords :
    ([Instr.nop w0, .vnop w0, .mnop w0, .pnop w0, .cnop w0, .hint .s 0x79 w0, .hint .p 0x7F w0].all Instr.wf) = true
    ∧ TokensTaken .s wpop (some (some 7)) (popping.ctx popping.cur) ∧ Instr.wf (.nop wpop) = true
    ∧ Eng.ofCode (1 : BitVec 3).toNat = some .s ∧ opcodeOf 0x78000000 = 0x78 ∧ 0x79 ≤ (opcodeOf 0x79000000).toNat
    ∧ Instr.wf (.add { r with fd := 32 }) = false ∧ (decodeFull .s 0x04180000 0).wf = false :=
  ⟨by decide, pop_taken, by decide, by decide, by decide, by decide, by decide, by decide⟩

/-- Template 5 of S, as it stands and with its code good. -/
def templated (v : W64) : State := with_ fun x => x.modStream .s fun t => { t with tmpl := vset t.tmpl 5 v }
theorem witness_PatchWordsRunTheirTemplate :
    (Site.tmpl .s 5, true) ∉ ((templated 0).ctx 0).errs
    ∧ amend .s (vget (((templated 0x0018000040189000).ctx 0).stream .s).tmpl 5) 12 24 = some (0x40189000, 0x00180018)
    ∧ amend .s (vget (((templated 0x80000000).ctx 0).stream .s).tmpl 5) 0 0 = none :=
  ⟨fun h => (List.not_mem_nil h).elim, by decide, by decide⟩


/-- Every V register is full and nothing is marked: the registers of a V word are ready. -/
def VClean (s : State) : Prop := (s.ctx s.cur).v.fill = Vector.replicate 64 .full ∧ (s.ctx s.cur).errs = []

theorem VClean.regs {s : State} (h : VClean s) (w : Common) (srcs : List (Nat × (W64 → W64))) (dests : List Nat) :
    VRegs w srcs dests s := by
  refine ⟨fun p _ => ⟨by rw [h.1]; simp [vget, vec_get], fun i _ _ => ?_⟩, fun d _ => by rw [h.1]; simp [vget, vec_get]⟩
  rw [h.2]
  exact ⟨List.not_mem_nil, fun _ => List.not_mem_nil⟩

theorem base_vclean : VClean base := ⟨rfl, rfl⟩

/-- A V word whose registers are ready, on the lanes of every predicate. -/
theorem meetsV {i : Instr} (hw : i.wf = true) (srcs : List (Nat × (W64 → W64))) (dests : List Nat) :
    Meets i .v w0 (VRegs w0 srcs dests) := meets base hw (base_vclean.regs _ _ _)

theorem witness_VectorFloatWordsWrite :
    Meets (.vadd { v with fmt := 2, rm := 3, sat := true }) .v w0 (VRegs w0 [(2, id), (3, id)] [1])
    ∧ Meets (.vfma { v with fc := 63 }) .v w0 (VRegs w0 [(2, id), (3, id), (63, id)] [1])
    ∧ Meets (.vrcp v) .v w0 (VRegs w0 [(2, id)] [1]) ∧ Meets (.vmin { v with fmt := 10 }) .v w0 (VRegs w0 [(2, id), (3, id)] [1])
    ∧ ([Instr.vsub v, .vmul v, .vfms v, .vrsq v, .vmax { v with fmt := 13 }, .vabs { v with fmt := 10, sat := true },
      .vneg v].all Instr.wf) = true :=
  ⟨meetsV (by decide) _ _, meetsV (by decide) _ _, meetsV (by decide) _ _, meetsV (by decide) _ _, by decide⟩

/-- Entry 15 of VTIP's tables: 11 R371's example. -/
def withTip : State := withBytes (spKey 0 (tipOff 15)) (leBytes 4 0x00040019 ++ leBytes 4 0xBF800000 ++ leBytes 8 0xFF
  ++ leBytes 4 0 ++ leBytes 4 0x3E800000 ++ leBytes 4 0x3F000000 ++ leBytes 4 0x3F400000 ++ leBytes 4 0x3F800000) base
def vt : FRrr := { v with aux := 15 }

theorem witness_VectorConversionsWrite :
    Meets (.vcvt { v with fmt := 1, rm := 4 }) .v w0 (VRegs w0 [(2, id)] [1])
    ∧ Meets (.vqnt { v with fmt := 5, aux := 2 }) .v w0 (VRegs w0 [(2, id)] [1, 2])
    ∧ Meets (.vdqnt { v with fmt := 7 }) .v w0 (VRegs w0 [(2, id), (3, blockHeads)] [1])
    ∧ Meets (.vspl3 { v with fd := 29 }) .v w0 (VRegs w0 [(2, id)] [29, 30, 31])
    ∧ Meets (.vtip vt) .v w0 (fun s => VRegs w0 [(2, id)] [1] s
      ∧ ∃ b, ((readV w0 [(2, id)] s).readTip s.cur 15).1 = .bytes b ∧ (parseTip b).valid = true) :=
  ⟨meetsV (by decide) _ _, meetsV (by decide) _ _, meetsV (by decide) _ _, meetsV (by decide) _ _,
    meets withTip (by decide) ⟨VClean.regs ⟨rfl, rfl⟩ _ _ _, readCells withTip.mem (spKey 0 (tipOff 15)) 36,
      bytes_of (by decide +kernel), by decide +kernel⟩⟩

theorem witness_VectorIntegerWordsWrite :
    Meets (.viadd { v with fmt := 10, sat := true }) .v w0 (VRegs w0 [(2, id), (3, id)] [1])
    ∧ Meets (.vand { v with sub := 1 }) .v w0 (VRegs w0 [] []) ∧ predForm { v with sub := 1 } = true
    ∧ Meets (.vand { v with sub := 2 }) .v w0 (VRegs w0 [(2, id), (3, id)] [1]) ∧ predForm v = false
    ∧ Meets (.vshl { v with sub := 1, aux := 31 }) .v w0 (VRegs w0 [(2, id)] [1])
    ∧ Meets (.vcmp { v with fd := 7, sub := 6 }) .v w0 (VRegs w0 [(2, id), (3, id)] [])
    ∧ Meets (.vsel { v with aux := 15 }) .v w0 (VRegs w0 [(2, id), (3, id)] [1])
    ∧ Meets (.vmov { v with sub := 2, fd := 1 }) .v w0 (VRegs w0 [(2, id)] [])
    ∧ Meets (.vbcast { v with aux := 63 }) .v w0 (VRegs w0 [(2, fun _ => oneLane 63)] [1])
    ∧ ([Instr.visub { v with fmt := 13 }, .vimul { v with fmt := 10 }, .vor { v with sub := 1, fd := 15 }, .vxor v, .vnot v, .vshr v, .vsra v,
      .vmov v, .vmov { v with sub := 1 }, .vmov { v with sub := 4 }, .vmovIota { v with sub := 3 }, .vbcastI { v with sub := 1 },
      .vbcastH { v with sub := 2 }].all Instr.wf) = true
    ∧ (5 : BitVec 3).toNat = 5 ∧ (3 : BitVec 3).toNat = 3 :=
  ⟨meetsV (by decide) _ _, meetsV (by decide) _ _, rfl, meetsV (by decide) _ _, rfl, meetsV (by decide) _ _,
    meetsV (by decide) _ _, meetsV (by decide) _ _, meetsV (by decide) _ _, meetsV (by decide) _ _, by decide, rfl, rfl⟩

theorem witness_VectorWritesByLane : (63 : Nat) < 64 ∧ vPhys 31 31 < 32 ∧ vPhys 31 63 ≥ 32 ∧ (15 : Nat) < 16 := by decide


theorem shift_of {f : FRrr} {s : State} (h : ((Claims.shiftSrcs f s).all fun r =>
      !(Claims.shiftAt f s).mustHold ((Claims.shiftAt f s).ctx s.cur) .v r.2 && ((Claims.shiftAt f s).refBad r.2).isNone) = true) :
    ∀ r ∈ Claims.shiftSrcs f s, (Claims.shiftAt f s).mustHold ((Claims.shiftAt f s).ctx s.cur) .v r.2 = false
      ∧ (Claims.shiftAt f s).refBad r.2 = none :=
  fun r m => by simpa using List.all_eq_true.1 h r m

/-- A job with a tower footprint of a page, and the one lane of p1. -/
def towered : State := (base.modCore 0 fun k =>
  { k with job := some { job0 with tk := { job0.tk with tower := 1 } } }).modCtx 0 (p1 0x8000000000000000)
def tw : FRrr := { v with w := { w0 with guard := 1 }, sub := 3, aux := 1 }

theorem witness_CrossLaneAndMaskWordsComplete :
    Meets (.vperm v) .v w0 (fun s => VRegs w0
      [(2, looseReads fun m => imageOf m fun i => some ((vElem (s.ctx s.cur) 3 i).toNat % 64)), (3, id)] [1] s)
    ∧ Meets (.vshiftRot { v with aux := 63 }) .v w0
      (VRegs w0 [(2, Claims.sourceLanes (fun i => (false, (i + 64 - 63) % 64)) false)] [1])
    ∧ Meets (.vshiftUp { v with sub := 1, aux := 0 }) .v w0 (VRegs w0 [(2, id), (3, id)] [1])
    ∧ Meets (.vshiftDn { v with sub := 2, aux := 63 }) .v w0 (VRegs w0 [(2, id), (3, id)] [1])
    ∧ Meets (.vred { v with sub := 6, fmt := 10 }) .v w0 (VRegs w0 [(2, id)] [1])
    ∧ Meets (.vshiftTw tw) .v tw.w
      (fun s => VRegs tw.w (Claims.shiftRegs tw) [] s ∧ Claims.SendRoom s ∧ Claims.shiftChecked tw s = none
        ∧ (∀ r ∈ Claims.shiftSrcs tw s, (Claims.shiftAt tw s).mustHold ((Claims.shiftAt tw s).ctx s.cur) .v r.2 = false
            ∧ (Claims.shiftAt tw s).refBad r.2 = none))
    ∧ (∃ t, t.code ≠ 0x04 ∧ Meets (.vshiftTw { tw with w := w0 }) .v w0
        (fun s => VRegs w0 (Claims.shiftRegs { tw with w := w0 }) [] s ∧ Claims.shiftChecked { tw with w := w0 } s = some t))
    ∧ Meets (.vmpush v) .v w0 (fun s => (s.ctx s.cur).v.masks.length < 16)
    ∧ Meets (.vmpushInv { v with sub := 1 }) .v w0 (fun s => ¬(s.ctx s.cur).v.masks.length < 16)
    ∧ Meets (.vminv { v with sub := 0 }) .v w0 (fun s => (s.ctx s.cur).v.masks.length ≠ 0)
    ∧ Meets (.vmpop v) .v w0 (fun s => ¬(s.ctx s.cur).v.masks.length ≠ 0) :=
  ⟨meets base (by decide) (base_vclean.regs _ _ _), meetsV (by decide) _ _, meetsV (by decide) _ _, meetsV (by decide) _ _,
    meetsV (by decide) _ _, meets towered (by decide) ⟨VClean.regs ⟨rfl, rfl⟩ _ _ _, by unfold Claims.SendRoom; decide,
      by decide +kernel, shift_of (by decide +kernel)⟩,
    ⟨accessFault 0x05 0 (some 0) 0, by decide, meets base (by decide) ⟨base_vclean.regs _ _ _, by decide +kernel⟩⟩,
    meets base (by decide) (by decide), meets (with_ fun x => { x with v := { x.v with masks := List.replicate 16 0 } }) (by decide) (by decide),
    meets (with_ fun x => { x with v := { x.v with masks := [0] } }) (by decide) (by decide), meets base (by decide) (by decide)⟩


/-- Lane 0 of the address register holds a scratchpad address; the same with room for one active lane alone. -/
def vspa : State := with_ fun x => p1 1 (vregs [(2, fun _ => 0x3F00000), (3, fun i => BitVec.ofNat 32 (4 * i))] x)
theorem vspa_vclean : VClean vspa := ⟨rfl, rfl⟩
def v1 : FMem := { vm with space := 1, w := { w0 with guard := 1 } }

theorem refs_of {α β : Type} {q : Except α β × State} (h : q.1.toBool = true) : ∃ rs, q.1 = .ok rs := by
  cases hq : q.1 with
  | ok rs => exact ⟨rs, rfl⟩
  | error e => rw [hq] at h; cases h

def isCols : ColAll → Bool
  | .ok _ _ => true
  | _ => false
theorem cols_of {q : ColAll} (h : isCols q = true) : ∃ els s1, q = .ok els s1 := by
  cases q with
  | ok els s1 => exact ⟨els, s1, rfl⟩
  | _ => exact nomatch h

/-- Entry 5 of the group table: a group of core 0 alone; the collating load at offset 0 names it. -/
def grouped (s : State) : State := withBytes (spKey 0 (groupOff 5)) (leBytes 8 1 ++ leBytes 8 1) s
def vcols : State := grouped (with_ fun x => p1 1 (vregs [(3, fun _ => 5)] x))
def scols : State := grouped (regs [(3, 5)])
theorem scols_clean : Clean scols := ⟨rfl, rfl⟩
def cols : FMem := { m with space := 3 }
theorem start_of {q : ColStart} (h : (match q with | .ok _ _ _ => true | _ => false) = true) :
    ∃ el gone s1, q = .ok el gone s1 := by
  cases q with
  | ok el gone s1 => exact ⟨el, gone, s1, rfl⟩
  | _ => exact nomatch h

theorem witness_ScalarMemoryWordsIssue_lcol : Meets (.lcol cols) .s w0
    (fun s => SRegs w0 [2, 3] [1] s ∧ ∃ el gone s1, Claims.lcolStart cols s = .ok el gone s1) :=
  meets scols (by decide) ⟨scols_clean.regs rfl rfl, start_of (by decide +kernel)⟩

theorem witness_VectorMemoryWordsIssue :
    Meets (.vld v1) .v v1.w (fun s => VRegs v1.w (Claims.vAddrRegs v1 (.strided 4)) (memGroup v1) s ∧ Claims.SendRoom s
      ∧ ∃ rs, (Claims.vLoadRefs v1 (.strided 4) s).1 = .ok rs)
    ∧ Meets (.vldx v1) .v v1.w (fun s => VRegs v1.w (Claims.vAddrRegs v1 .perLane) (memGroup v1) s ∧ Claims.SendRoom s
      ∧ ∃ rs, (Claims.vLoadRefs v1 .perLane s).1 = .ok rs)
    ∧ Meets (.vst v1) .v v1.w (fun s => VRegs v1.w (Claims.vStoreRegs v1 (.strided 4)) [] s ∧ Claims.SendRoom s
      ∧ ∃ rs, (Claims.vStoreRefs v1 (.strided 4) s).1 = .ok rs)
    ∧ Meets (.vlcol { v1 with space := 3 }) .v v1.w (fun s => VRegs v1.w [(2, id), (3, id)] [1] s
      ∧ ∃ els s1, Claims.vlcolStart { v1 with space := 3 } s = .ok els s1)
    ∧ ([Instr.vtld { vm with space := 2, fd := 4, size := 4 }, .vtldx { vm with space := 2 }, .vtst { vm with space := 2, fd := 4, size := 4 }, .vstx v1].all
      Instr.wf) = true :=
  ⟨meets vspa (by decide) ⟨vspa_vclean.regs _ _ _, by unfold Claims.SendRoom; decide, refs_of (by decide +kernel)⟩,
    meets vspa (by decide) ⟨vspa_vclean.regs _ _ _, by unfold Claims.SendRoom; decide, refs_of (by decide +kernel)⟩,
    meets vspa (by decide) ⟨vspa_vclean.regs _ _ _, by unfold Claims.SendRoom; decide, refs_of (by decide +kernel)⟩,
    meets vcols (by decide) ⟨VClean.regs ⟨rfl, rfl⟩ _ _ _, cols_of (by decide +kernel)⟩, by decide⟩

/-- A popping word of V and the entry it takes. -/
def vpopping : State := with_ (fifo .c .v [some 7])
theorem vpop_taken : TokensTaken .v wpop (some (some 7)) (vpopping.ctx vpopping.cur) := ⟨by decide⟩
/-- A pushing word of V, M, P or C, which may push. -/
def wpushS : Common := ⟨0, false, 1, 0, false, false⟩
theorem pushS_ready (e : Eng) (he : e ≠ .s) : Claims.Ready e wpushS none base :=
  ⟨⟨rfl⟩, fun d hd => by cases hd; cases e <;> first | exact absurd rfl he | decide⟩

theorem witness_VectorSystemWordsComplete :
    (Claims.Ready .v wpushS none base ∧ VRegs wpushS [(2, fun _ => oneLane 63)] [] base
      ∧ Instr.wf (.vtksend { y with w := wpushS, imm12 := 63 }) = true)
    ∧ (TokensTaken .v wpop (some (some 7)) (vpopping.ctx vpopping.cur) ∧ VRegs wpop [] [1] vpopping
      ∧ Instr.wf (.vtkrecv { y with w := wpop }) = true)
    ∧ Meets (.vtkrecvD { y with sub := 1, imm12 := 1 }) .v w0 (fun s => VRegs w0 [] [1] s ∧ (s.ctx s.cur).awaiting .s .v = false)
    ∧ Meets (.vfence y) .v w0 (fun _ => True)
    ∧ Meets (.vcrd { y with cr := 0x060 }) .v w0 (fun s => VRegs w0 [] [1] s ∧ Claims.CrReady 0x060 s)
    ∧ Meets (.vcwr { y with cr := 0x0C0 }) .v w0
      (fun s => VRegs w0 [(2, fun _ => oneLane 1)] [] s ∧ ((0x0C0 : BitVec 12) = 0x0C0 → Claims.Settled .v s))
    ∧ Meets (.vend y) .v w0 (fun s => (∀ p ∈ (s.ctx s.cur).pend, p.eng ≠ .v) ∧ storesDone .v (s.ctx s.cur) = true) :=
  ⟨⟨pushS_ready _ (by decide), base_vclean.regs _ _ _, by decide⟩, ⟨vpop_taken, VClean.regs ⟨rfl, rfl⟩ _ _ _, by decide⟩,
    meets base (by decide) ⟨base_vclean.regs _ _ _, by decide⟩, meets base (by decide) trivial,
    meets base (by decide) ⟨base_vclean.regs _ _ _, fun h => nomatch h⟩,
    meets base (by decide) ⟨base_vclean.regs _ _ _, fun _ => by unfold Claims.Settled; decide⟩,
    meets base (by decide) ⟨by decide, by decide⟩⟩


/-- An MMA is admitted with operands of its own. -/
def admits (f : FMma) (neg bad : Bool) (s : State) : Bool :=
  match Claims.mmaPlaces f s with
  | none => false
  | some (o, p, q, s2) => decide (mmaLevel o.fa ≤ (s.core s.cur).pwr.level)
      && decide (mmaTokens o.fa (f.spar == 1) (s.ctx s.cur).m.red ≤ (s.core s.cur).tok)
      && decide ((s.ctx s.cur).sb.length < 64) && (s2.captureNext s.cur 0 (p.accs ++ q.accs)).isNone
      && match s2.doMma s.cur neg f.clr (f.spar == 1) f.fd.toNat o.fa o.fb o.seed p q with
        | .ok () b _ => b == bad
        | _ => false
theorem admitted_of {f : FMma} {neg bad : Bool} {s : State} (h : admits f neg bad s = true) :
    ∃ o p q s2 s3, Claims.MmaAdmitted f neg s o p q s2 s3 bad := by
  unfold admits at h
  split at h
  · cases h
  · next o p q s2 hp =>
    simp only [Bool.and_eq_true, decide_eq_true_eq] at h
    split at h
    · next b s3 hd =>
      have hb := eq_of_beq h.2
      subst hb
      exact ⟨o, p, q, s2, s3, hp, h.1.1.1.1, h.1.1.1.2, fun _ => h.1.1.2, Option.isNone_iff_eq_none.1 h.1.2, hd⟩
    · exact absurd h.2 (by decide)

def m1 : FMma := { mm with fmta := 1, fmtb := 1 }
/-- Tile 3 holds an uncorrectable word; a2's marker lets nothing be redone. -/
def badTile : State := with_ fun x => { x with
  errs := [(.tile 3 0 0, true)], m := { x.m with serial := 2, marker := vset x.m.marker 2 (some 2) } }

theorem vget_replicate {α : Type} {n : Nat} [NeZero n] (x : α) (i : Nat) : vget (Vector.replicate n x) i = x := by
  simp [vget, vec_get]
theorem pat_zero (i j : Nat) : pat accZero i j = 0 := by
  unfold pat accZero; exact vget_replicate 0 _

/-- An accumulator of equal zeros in all tests passes its check. -/
theorem check_clean (a : Acc) (hr : ∀ i, rowTest a i = 0) (hc : ∀ j, colTest a j = 0) : checkAcc a = .clean := by
  have h1 : (fun i => rowTest a i != 0) = fun _ => (0 : W32) != 0 := funext fun i => by rw [hr]
  have h2 : (fun i => colTest a i != 0) = fun _ => (0 : W32) != 0 := funext fun i => by rw [hc]
  unfold checkAcc
  rw [h1, h2, show (upTo 33).filter (fun _ => (0 : W32) != 0) = [] by decide]

theorem checkAcc_zero : checkAcc accZero = .clean :=
  check_clean accZero (fun i => by unfold rowTest; simp only [pat_zero]; decide)
    (fun j => by unfold colTest; simp only [pat_zero]; decide)

/-- A replay of an empty sequence leaves an accumulator of zeros, which is clean. -/
theorem replay_empty (s : State) (c : CoreId) (n fuel : Nat) (z : Acc) (hz : z = accZero) (h1 : vget (s.ctx c).m.replays n ≠ 2)
    (h2 : (s.ctx c).m.sequence n = some []) (h3 : (s.ctx c).m.red = false) :
    ∃ t, s.replay c n (fuel + 1) = .ok () false t := by
  have hm : ∀ g : MState → MState, (((s.modM c g).count c 11 1).ctx c).m = g (s.ctx c).m := fun g => by
    unfold State.modM State.count; simp
  have hk : checkAcc z = .clean := by rw [hz]; exact checkAcc_zero
  rw [State.replay]
  simp only [h1, h2, if_false, replayable, Bool.not_true, Bool.false_eq_true, State.redoAll]
  have cb : ∀ t : State, checkAcc (vget (t.ctx c).m.acc n) = .clean → (t.ctx c).m.red = false → t.checkBoth c n = (true, t) :=
    fun t h g => by simp [State.checkBoth, State.checkOne, h, g]
  rw [cb]
  · exact ⟨_, rfl⟩
  · rw [hm]
    simp only [MState.zeroAcc, MState.halves, h3, Bool.false_eq_true, if_false, List.foldl_cons, List.foldl_nil, ← hz,
      vget_vset_self, hk]
  · rw [hm]; exact h3

def isNil : Option (List WinCmd) → Bool
  | some [] => true
  | _ => false
theorem nil_of {q : Option (List WinCmd)} (h : isNil q = true) : q = some [] := by
  unfold isNil at h
  split at h
  · rfl
  · cases h

/-- An MMA is admitted, reads an uncorrectable tile, and then redoes an empty sequence. -/
def replays (f : FMma) (neg : Bool) (s : State) : Bool :=
  match Claims.mmaPlaces f s with
  | none => false
  | some (o, p, q, s2) => decide (mmaLevel o.fa ≤ (s.core s.cur).pwr.level)
      && decide (mmaTokens o.fa (f.spar == 1) (s.ctx s.cur).m.red ≤ (s.core s.cur).tok)
      && decide ((s.ctx s.cur).sb.length < 64) && (s2.captureNext s.cur 0 (p.accs ++ q.accs)).isNone
      && match s2.doMma s.cur neg f.clr (f.spar == 1) f.fd.toNat o.fa o.fb o.seed p q with
        | .ok () true s3 =>
          let m := ((Claims.mmaCharged f neg o s.cur (mmaTokens o.fa (f.spar == 1) (s.ctx s.cur).m.red) s3).ctx s.cur).m
          vget m.replays f.fd.toNat != 2 && isNil (m.sequence f.fd.toNat) && m.red == false
        | _ => false
theorem replays_of {f : FMma} {neg : Bool} {s : State} (h : replays f neg s = true) :
    ∃ o p q s2 s3 s4 b, Claims.MmaAdmitted f neg s o p q s2 s3 true
      ∧ (Claims.mmaCharged f neg o s.cur (mmaTokens o.fa (f.spar == 1) (s.ctx s.cur).m.red) s3).replay s.cur f.fd.toNat 3
        = .ok () b s4 := by
  unfold replays at h
  split at h
  · cases h
  · next o p q s2 hp =>
    simp only [Bool.and_eq_true, decide_eq_true_eq] at h
    split at h
    · next s3 hd =>
      obtain ⟨⟨⟨⟨h1, h2⟩, h0⟩, hn⟩, h3⟩ := h
      simp only [Bool.and_eq_true] at h3
      obtain ⟨s4, hs⟩ := replay_empty _ s.cur f.fd.toNat 2 accZero rfl (by simpa using h3.1.1) (nil_of h3.1.2)
        (by simpa using h3.2)
      exact ⟨o, p, q, s2, s3, s4, false, ⟨hp, h1, h2, fun _ => h0, Option.isNone_iff_eq_none.1 hn, hd⟩, hs⟩
    · exact absurd h.2 (by decide)

/-- An M word with its form and tokens as `meets` has them, in a state that gives the rest. -/
theorem meetsM {i : Instr} {ready : State → Prop} (s : State) (hw : i.wf = true) (hr : ready s) : Meets i .m w0 ready :=
  meets s hw hr

def noTokens : State := base.modCore 0 fun k => { k with tok := 0 }
theorem ops_of {f : FMma} {s : State} {P : MmaOps → Bool}
    (h : (match mmaOps f ((tokened .m f.w s).ctx s.cur) with | .ok o => P o | _ => false) = true) :
    ∃ o, mmaOps f ((tokened .m f.w s).ctx s.cur) = .ok o ∧ P o = true := by
  split at h
  · next o ho => exact ⟨o, ho, h⟩
  · cases h
/-- An operand that can be read at once. -/
def freeOp (s : State) (c : CoreId) : OpSrc → Bool
  | .tiles ts => ts.all fun t => (badRow (s.ctx c) t).isNone
  | .mem ts => decide ((s.ctx c).sb.length < 64) && ts.all fun t => !s.mHold c (t.1 ++ t.2)
      && (t.1 ++ t.2).all fun a => (s.refBadFor (s.ctx c) .m (s.ctx c).seq a.ref).isNone
theorem free_of {s : State} {c : CoreId} {o : OpSrc} (h : freeOp s c o = true) : Claims.OperandFree s c o := by
  cases o with
  | tiles ts => exact fun t m => Option.isNone_iff_eq_none.1 (List.all_eq_true.1 h t m)
  | mem ts =>
    simp only [freeOp, Bool.and_eq_true, decide_eq_true_eq, List.all_eq_true, Bool.not_eq_true'] at h
    exact ⟨h.1, fun t m => ⟨(h.2 t m).1, fun a n => Option.isNone_iff_eq_none.1 ((h.2 t m).2 a n)⟩⟩
/-- An MMA's operands resolve, are admitted and can be read at once, the first of them in memory. -/
def fetchable (f : FMma) (s : State) : Bool :=
  match Claims.mmaPlaces f s with
  | none => false
  | some (o, p, q, s2) => decide (mmaLevel o.fa ≤ (s.core s.cur).pwr.level)
      && decide (mmaTokens o.fa (f.spar == 1) (s.ctx s.cur).m.red ≤ (s.core s.cur).tok) && p.fetches
      && freeOp s2 s.cur p && freeOp s2 s.cur q && (s2.captureNext s.cur 0 (p.accs ++ q.accs)).isNone
theorem fetchable_of {f : FMma} {s : State} (h : fetchable f s = true) : ∃ o p q s2, Claims.mmaPlaces f s = some (o, p, q, s2)
    ∧ Claims.Admits f o.fa s ∧ p.fetches = true ∧ Claims.OperandFree s2 s.cur p ∧ Claims.OperandFree s2 s.cur q
    ∧ s2.captureNext s.cur 0 (p.accs ++ q.accs) = none := by
  unfold fetchable at h
  split at h
  · cases h
  · next o p q s2 hp =>
    simp only [Bool.and_eq_true, decide_eq_true_eq] at h
    exact ⟨o, p, q, s2, hp, ⟨h.1.1.1.1.1, h.1.1.1.1.2⟩, h.1.1.1.2, free_of h.1.1.2, free_of h.1.2,
      Option.isNone_iff_eq_none.1 h.2⟩
/-- Stream 0 walks FP8 rows of the own scratchpad. -/
def streamingA : State := with_ fun x =>
  { x with m := { x.m with os := vmod x.m.os 0 fun o => { o with fmt := 3, space := 1, base := 0x3F00000, rowp := 64 } } }
/-- The same in memory, on pages marked SO: the reads of more than one row are performed one by one. -/
def orderedA : State := (with_ fun x =>
  { x with m := { x.m with os := vmod x.m.os 0 fun o => { o with fmt := 3, space := 0, base := 0, rowp := 64 } } }).modCore 0
    fun k => { k with tlb := [⟨0, 0, 2 ^ 20, true, true, true, 1, 2 ^ 20, none⟩] }
/-- An MMA's operands resolve and it is admitted, but more than one of its reads on SO pages is left. -/
def captures (f : FMma) (s : State) : Bool :=
  match Claims.mmaPlaces f s with
  | none => false
  | some (o, p, q, s2) => decide (mmaLevel o.fa ≤ (s.core s.cur).pwr.level)
      && decide (mmaTokens o.fa (f.spar == 1) (s.ctx s.cur).m.red ≤ (s.core s.cur).tok)
      && decide ((s.ctx s.cur).sb.length < 64)
      && match s2.captureNext s.cur 0 (p.accs ++ q.accs) with
        | some (.hold _) => true
        | _ => false
theorem captures_of {f : FMma} {s : State} (h : captures f s = true) : ∃ o p q s2 u,
    Claims.mmaPlaces f s = some (o, p, q, s2) ∧ Claims.Admits f o.fa s
      ∧ (p.fetches = true ∨ q.fetches = true → Claims.SendRoom s)
      ∧ s2.captureNext s.cur 0 (p.accs ++ q.accs) = some (.hold u) := by
  unfold captures at h
  split at h
  · cases h
  · next o p q s2 hp =>
    simp only [Bool.and_eq_true, decide_eq_true_eq] at h
    split at h
    · next u hu => exact ⟨o, p, q, s2, u, hp, ⟨h.1.1.1, h.1.1.2⟩, fun _ => h.1.2, hu⟩
    · exact absurd h.2 (by decide)
def mf : FMma := { mm with fa := 32, fmta := 0 }
def reds : State := with_ fun x => { x with m := { x.m with red := true } }

theorem witness_MatrixMultipliesComplete_operands :
    (∃ s got, TokensTaken .m w0 got (s.ctx s.cur) ∧ Claims.TileOperands mm (s.ctx s.cur) ∧ Claims.Admits mm mm.fmta.toNat s)
    ∧ Instr.wf (.mma mm) = true
    ∧ ((∃ o p q s2, Claims.mmaPlaces mf streamingA = some (o, p, q, s2) ∧ Claims.Admits mf o.fa streamingA ∧ p.fetches = true
        ∧ Claims.OperandFree s2 streamingA.cur p ∧ Claims.OperandFree s2 streamingA.cur q
        ∧ s2.captureNext streamingA.cur 0 (p.accs ++ q.accs) = none)
      ∧ TokensTaken .m w0 none (streamingA.ctx streamingA.cur) ∧ Instr.wf (.mma mf) = true)
    ∧ Meets (.mma mf) .m w0 (fun s => ∃ o p q s2 u, Claims.mmaPlaces mf s = some (o, p, q, s2) ∧ Claims.Admits mf o.fa s
        ∧ (p.fetches = true ∨ q.fetches = true → Claims.SendRoom s)
        ∧ s2.captureNext s.cur 0 (p.accs ++ q.accs) = some (.hold u)) :=
  ⟨⟨base, none, no_pop _ _ _ rfl, ⟨by decide, by decide, by decide, by decide, fun h => absurd h (by decide), rfl,
      fun _ _ => rfl⟩, by decide, by decide⟩, by decide, ⟨fetchable_of (by decide +kernel), no_pop _ _ _ rfl, by decide⟩,
    meetsM orderedA (by decide) (captures_of (by decide +kernel))⟩

theorem witness_MatrixMultipliesComplete :
    Meets (.mma mm) .m w0 (fun s => ∃ o p q s2 s3, Claims.MmaAdmitted mm false s o p q s2 s3 false)
    ∧ Meets (.mmas { mm with spar := 1, fd := 7 }) .m w0
      (fun s => ∃ o p q s2 s3, Claims.MmaAdmitted { mm with spar := 1, fd := 7 } true s o p q s2 s3 false)
    ∧ Meets (.mma m1) .m w0 (fun s => ∃ o p q s2 s3 s4 b, Claims.MmaAdmitted m1 false s o p q s2 s3 true
      ∧ (Claims.mmaCharged m1 false o s.cur (mmaTokens o.fa (m1.spar == 1) (s.ctx s.cur).m.red) s3).replay s.cur m1.fd.toNat 3
        = .ok () b s4)
    ∧ Meets (.mma mm) .m w0 (fun s => ∃ o, mmaOps mm ((tokened .m mm.w s).ctx s.cur) = .ok o
        ∧ (decide (mmaLevel o.fa ≤ (s.core s.cur).pwr.level)
          && decide ((s.core s.cur).tok < mmaTokens o.fa (mm.spar == 1) (s.ctx s.cur).m.red)) = true)
    ∧ Meets (.mma mm) .m w0 (fun s => ∃ o, mmaOps mm ((tokened .m mm.w s).ctx s.cur) = .ok o
        ∧ decide ((s.core s.cur).pwr.level < mmaLevel o.fa) = true)
    ∧ Meets (.mma { mm with fd := 4 }) .m w0 (fun s => (s.ctx s.cur).m.red = true ∧ 4 ≤ (4 : BitVec 6).toNat) :=
  ⟨meetsM base (by decide) (admitted_of (by decide +kernel)), meetsM base (by decide) (admitted_of (by decide +kernel)),
    meetsM badTile (by decide) (replays_of (by decide +kernel)), meetsM noTokens (by decide) (ops_of (by decide +kernel)),
    meetsM (atLevel 0) (by decide) (ops_of (by decide +kernel)), meetsM reds (by decide) ⟨by decide, by decide⟩⟩


/-- The tests of an accumulator, from the values of its patterns. -/
theorem tests_of (a : Acc) (g : Nat → Nat → W32) (h : ∀ i j, i < 33 → j < 33 → pat a i j = g i j) :
    (upTo 33).filter (fun i => rowTest a i != 0) = (upTo 33).filter (fun i => sum32 (g i) - g i 32 != 0)
    ∧ (upTo 33).filter (fun j => colTest a j != 0) = (upTo 33).filter (fun j => sum32 (fun i => g i j) - g 32 j != 0)
    ∧ ∀ i, i < 33 → rowTest a i = sum32 (g i) - g i 32 ∧ colTest a i = sum32 (fun k => g k i) - g 32 i := by
  have sm : ∀ p q : Nat → W32, (∀ k, k < 32 → p k = q k) → sum32 p = sum32 q := fun p q e => by
    simp [sum32, upTo, List.range, List.range.loop, e]
  have ht : ∀ i, i < 33 → rowTest a i = sum32 (g i) - g i 32 ∧ colTest a i = sum32 (fun k => g k i) - g 32 i := fun i hi => by
    unfold rowTest colTest
    rw [sm (fun j => pat a i j) (g i) fun k hk => h i k hi (by omega), sm (fun k => pat a k i) (fun k => g k i)
      fun k hk => h k i (by omega) hi, h i 32 hi (by omega), h 32 i (by omega) hi]
    exact ⟨rfl, rfl⟩
  have hu : ∀ i, i ∈ upTo 33 → i < 33 := fun i hi => by simpa [upTo] using hi
  exact ⟨List.filter_congr fun i hi => by rw [(ht i (hu i hi)).1], List.filter_congr fun i hi => by rw [(ht i (hu i hi)).2], ht⟩

/-- With one wrong pattern it is restored, with two on a diagonal it is not. -/
theorem check_one (a : Acc) (h : ∀ i j, i < 33 → j < 33 → pat a i j = if i = 0 ∧ j = 0 then 1 else 0) :
    ∃ b, checkAcc a = .fixed b := by
  obtain ⟨hr, hc, ht⟩ := tests_of a _ h
  have h0 := h 0 0 (by omega) (by omega)
  have h1 := (ht 0 (by omega)).1
  have h2 := (ht 0 (by omega)).2
  unfold checkAcc
  rw [hr, hc, show (upTo 33).filter (fun i => sum32 (fun j => if i = 0 ∧ j = 0 then (1 : W32) else 0)
      - (if i = 0 ∧ 32 = 0 then 1 else 0) != 0) = [0] by decide,
    show (upTo 33).filter (fun j => sum32 (fun i => if i = 0 ∧ j = 0 then (1 : W32) else 0)
      - (if 32 = 0 ∧ j = 0 then 1 else 0) != 0) = [0] by decide]
  refine ⟨_, if_pos ?_⟩
  simp only [h0, h1, h2]
  decide

theorem check_two (a : Acc) (h : ∀ i j, i < 33 → j < 33 → pat a i j = if i = j ∧ i < 2 then 1 else 0) : checkAcc a = .bad := by
  obtain ⟨hr, hc, _⟩ := tests_of a _ h
  unfold checkAcc
  rw [hr, hc, show (upTo 33).filter (fun i => sum32 (fun j => if i = j ∧ i < 2 then (1 : W32) else 0)
      - (if i = 32 ∧ i < 2 then 1 else 0) != 0) = [0, 1] by decide,
    show (upTo 33).filter (fun j => sum32 (fun i => if i = j ∧ i < 2 then (1 : W32) else 0)
      - (if 32 = j ∧ 32 < 2 then 1 else 0) != 0) = [0, 1] by decide]

/-- Accumulators with one and with two wrong patterns. -/
def oneWrong : Acc := vset accZero 0 1
def twoWrong : Acc := vset (vset accZero 0 1) 34 1
theorem oneWrong_pat (i j : Nat) (hi : i < 33) (hj : j < 33) : pat oneWrong i j = if i = 0 ∧ j = 0 then 1 else 0 := by
  have hz := pat_zero i j
  unfold pat at hz
  unfold pat oneWrong
  rw [vget_vset, hz, Nat.mod_eq_of_lt (show 33 * i + j < 1089 by omega), Nat.mod_eq_of_lt (show 0 < 1089 by omega)]
  by_cases h : i = 0 ∧ j = 0
  · rw [if_pos h, if_pos (by omega)]
  · rw [if_neg h, if_neg (by omega)]
theorem twoWrong_pat (i j : Nat) (hi : i < 33) (hj : j < 33) : pat twoWrong i j = if i = j ∧ i < 2 then 1 else 0 := by
  have hz := pat_zero i j
  unfold pat at hz
  unfold pat twoWrong
  rw [vget_vset, vget_vset, hz, Nat.mod_eq_of_lt (show 33 * i + j < 1089 by omega), Nat.mod_eq_of_lt (show 0 < 1089 by omega),
    Nat.mod_eq_of_lt (show 34 < 1089 by omega)]
  by_cases h : i = j ∧ i < 2
  · rw [if_pos h]
    by_cases h1 : 34 = 33 * i + j
    · rw [if_pos h1]
    · rw [if_neg h1, if_pos (by omega)]
  · rw [if_neg h, if_neg (by omega), if_neg (by omega)]

theorem witness_AccumulatorSumsAndChecks :
    (7 : Nat) < 8 ∧ ((3 : Nat) < 4 ∧ 3 < 8) ∧ (base.ctx 0).errs = [] ∧ Claims.Consistent accZero ∧ (1 : W32) ≠ pat accZero 32 32 :=
  ⟨by decide, by decide, rfl,
    fun _ _ => ⟨by unfold rowTest; simp only [pat_zero]; decide, by unfold colTest; simp only [pat_zero]; decide⟩,
    by rw [pat_zero]; decide⟩

/-- a2 as given, and nothing else of M. -/
def withAcc (a : Acc) : State := with_ fun x => { x with m := { x.m with acc := vset x.m.acc 2 a } }
theorem withAcc_acc (a : Acc) : vget ((withAcc a).ctx (withAcc a).cur).m.acc 2 = a := by
  show vget (vset (State.reset.ctx 0).m.acc 2 a) 2 = a
  exact vget_vset_self _ _ _

/-- Where the check is clean, nothing is replayed. -/
theorem settle_clean (s : State) (c : CoreId) (n : Nat) (h : checkAcc (vget (s.ctx c).m.acc n) = .clean)
    (g : (s.ctx c).m.red = false) : s.settleAcc c n = .ok () false s := by
  simp [State.settleAcc, State.checkBoth, State.checkOne, h, g]

/-- A drain to stream 33, whose rows go to the scratchpad. -/
def draining : State := with_ fun x => { x with
  m := { x.m with
    acc := vset x.m.acc 2 accZero, os := vset x.m.os 1 { x.m.os.get 1 with space := 1, base := 0x3F00000, rowp := 256 } } }
theorem draining_acc : vget ((draining).ctx (draining).cur).m.acc 2 = accZero := vget_vset_self _ _ _
def md : FMma := { mz with fa := 33, fb := 0 }
def mt : FMma := { mz with fb := 33, fa := 0, fmta := 3 }

/-- What a drain needs, but for the check of its accumulator. -/
def drains (f : FMma) (code count size opnd : Nat) (towers : Bool) (s : State) : Bool :=
  ((s.ctx s.cur).os code).space != 3 && (((s.ctx s.cur).os code).space != 2 || towers)
    && (Claims.drainReqs code count size (s.ctx s.cur)).all (fun q => q.fits ((s.ctx s.cur).os code).space.toNat)
    && (Claims.drainRefs f code count size opnd s).1.toBool && decide ((s.ctx s.cur).sb.length < 64)
theorem drains_of {f : FMma} {code count size opnd : Nat} {towers : Bool} {s : State}
    (h : drains f code count size opnd towers s = true) (hn : Claims.Named f s)
    (ha : ∀ s1, (Claims.drainRefs f code count size opnd s).2 = s1 →
      checkAcc (vget (s1.ctx s.cur).m.acc f.fd.toNat) = .clean ∧ (s1.ctx s.cur).m.red = false) :
    ∃ as s1 s2 b, Claims.Named f s ∧ ((s.ctx s.cur).os code).space ≠ 3
      ∧ (((s.ctx s.cur).os code).space = 2 → towers = true)
      ∧ (∀ q ∈ Claims.drainReqs code count size (s.ctx s.cur), q.fits ((s.ctx s.cur).os code).space.toNat = true)
      ∧ Claims.drainRefs f code count size opnd s = (.ok as, s1) ∧ Claims.SendRoom s
      ∧ s1.settleAcc s.cur f.fd.toNat = .ok () b s2 := by
  simp only [drains, Bool.and_eq_true, Bool.or_eq_true, decide_eq_true_eq] at h
  obtain ⟨⟨⟨⟨h1, h2⟩, h3⟩, h4⟩, h5⟩ := h
  generalize hq : Claims.drainRefs f code count size opnd s = q at *
  obtain ⟨r, s1⟩ := q
  cases r with
  | error e => cases h4
  | ok as =>
    obtain ⟨g1, g2⟩ := ha s1 rfl
    exact ⟨as, s1, s1, false, hn, by simpa using h1, fun e => by simpa [e] using h2, fun q m => List.all_eq_true.1 h3 q m, rfl, h5,
      settle_clean _ _ _ g1 g2⟩

/-- The checks of accesses to scratchpads and towers that pass change nothing. -/
theorem mRefs_local (s : State) (c : CoreId) (space : Nat) (use : Use) (o : Bool) (hid : Side) (opnd : Nat) (h : space = 1 ∨ space = 2)
    (qs : List MReq) : (s.mRefs c space use o hid opnd qs).1.toBool = true → (s.mRefs c space use o hid opnd qs).2 = s := by
  have h1 : ∀ q, (s.mRef c space use o hid q).2 = s := fun q => by
    unfold State.mRef
    split
    · rfl
    · split
      · rfl
      · split
        · rfl
        · rw [if_pos (by omega)]
  induction qs with
  | nil => exact fun _ => rfl
  | cons q qs ih =>
    intro hb
    unfold State.mRefs at hb ⊢
    have := h1 q
    generalize s.mRef c space use o hid q = r at *
    obtain ⟨k, s1⟩ := r
    cases this
    obtain ⟨k, l⟩ := k
    cases k with
    | bad code => exact absurd hb (by simp [Except.toBool])
    | ok r =>
      dsimp only at hb ⊢
      generalize s1.mRefs c space use o hid opnd qs = w at *
      obtain ⟨v, s2⟩ := w
      cases v with
      | error t => exact absurd hb (by simp [Except.toBool])
      | ok as => exact ih rfl

theorem draining_local {f : FMma} {size opnd : Nat} (hp : f.w.pop = 0)
    (hk : (Claims.drainRefs f 33 32 size opnd draining).1.toBool = true) (s1 : State)
    (h : (Claims.drainRefs f 33 32 size opnd draining).2 = s1) :
    checkAcc (vget (s1.ctx draining.cur).m.acc 2) = .clean ∧ (s1.ctx draining.cur).m.red = false := by
  have ht : tokened .m f.w draining = draining := by
    unfold tokened takePop; rw [hp]; rfl
  have hs : s1 = draining := by
    rw [← h]
    unfold Claims.drainRefs at hk ⊢
    rw [mRefs_local _ _ _ _ _ _ _ (.inl (by decide)) _ hk, ht]
  subst hs
  exact ⟨by rw [draining_acc]; exact checkAcc_zero, by decide⟩

theorem named (f : FMma) (s : State) (h : (s.ctx s.cur).m.red = false) : Claims.Named f s := by
  simp [Claims.Named, redBad, h]
theorem clean_acc (f : FMma) (s : State) (hf : f.fd = 2) (a : vget (s.ctx s.cur).m.acc 2 = accZero)
    (h : (s.ctx s.cur).m.red = false) : Claims.AccClean f (s.ctx s.cur) := by
  refine ⟨?_, fun e => by rw [h] at e; cases e⟩
  rw [hf]
  show checkAcc (vget (s.ctx s.cur).m.acc 2) = .clean
  rw [a]; exact checkAcc_zero
theorem withAcc_red (a : Acc) : ((withAcc a).ctx (withAcc a).cur).m.red = false := rfl

theorem witness_AccumulatorWordsComplete :
    Meets (.mzero { mz with fd := 7 }) .m w0 (Claims.Named { mz with fd := 7 }) ∧ Meets (.mts mz) .m w0 (Claims.Named mz)
    ∧ Meets (.mchk mz) .m w0 (fun s => Claims.Named mz s ∧ Claims.AccClean mz (s.ctx s.cur))
    ∧ Meets (.mchk mz) .m w0 (fun s => ∃ a, Claims.Named mz s ∧ (s.ctx s.cur).m.red = false
      ∧ checkAcc (vget (s.ctx s.cur).m.acc mz.fd.toNat) = .fixed a)
    ∧ Meets (.mchk mz) .m w0 (fun s => ∃ b s1, Claims.Named mz s ∧ (tokened .m mz.w s).settleAcc s.cur mz.fd.toNat = .ok () b s1)
    ∧ Meets (.mchk mz) .m w0 (fun s => Claims.Named mz s ∧ (s.ctx s.cur).m.red = false
      ∧ checkAcc (vget (s.ctx s.cur).m.acc mz.fd.toNat) = .bad ∧ vget (s.ctx s.cur).m.replays mz.fd.toNat ≠ 2
      ∧ vget (s.ctx s.cur).m.marker mz.fd.toNat = none)
    ∧ Meets (.mdrain md) .m w0 (fun s => ∃ as s1 s2 b, Claims.Named md s ∧ ((s.ctx s.cur).os 33).space ≠ 3
      ∧ (((s.ctx s.cur).os 33).space = 2 → false = true)
      ∧ (∀ q ∈ Claims.drainReqs 33 32 4 (s.ctx s.cur), q.fits ((s.ctx s.cur).os 33).space.toNat = true)
      ∧ Claims.drainRefs md 33 32 4 0 s = (.ok as, s1) ∧ Claims.SendRoom s
      ∧ s1.settleAcc s.cur md.fd.toNat = .ok () b s2)
    ∧ Meets (.mdraint mt) .m w0 (fun s => ∃ as s1 s2 b, Claims.Named mt s ∧ ((s.ctx s.cur).os 33).space ≠ 3
      ∧ (((s.ctx s.cur).os 33).space = 2 → true = true)
      ∧ (∀ q ∈ Claims.drainReqs 33 32 (drainBytes mt) (s.ctx s.cur), q.fits ((s.ctx s.cur).os 33).space.toNat = true)
      ∧ Claims.drainRefs mt 33 32 (drainBytes mt) 1 s = (.ok as, s1) ∧ Claims.SendRoom s
      ∧ s1.settleAcc s.cur mt.fd.toNat = .ok () b s2)
    ∧ Meets (.mdraint { mt with fb := 15 }) .m w0 (fun s => ∃ b s1, Claims.Named { mt with fb := 15 } s ∧ (15 : BitVec 6).toNat < 16
      ∧ (tokened .m w0 s).settleAcc s.cur 2 = .ok () b s1)
    ∧ Meets (.mzero { mz with fd := 4 }) .m w0 (fun s => ¬Claims.Named { mz with fd := 4 } s) := by
  have hb : ∀ f : FMma, Claims.Named f base := fun f => named f base rfl
  have hs : ∀ a, checkAcc a = .clean → (withAcc a).settleAcc 0 2 = .ok () false (withAcc a) := fun a h =>
    settle_clean _ _ _ (by rw [show ((withAcc a).ctx 0) = ((withAcc a).ctx (withAcc a).cur) from rfl, withAcc_acc]; exact h) rfl
  refine ⟨meetsM base (by decide) (hb _), meetsM base (by decide) (hb _),
    meetsM (withAcc accZero) (by decide) ⟨named _ _ (withAcc_red _), clean_acc _ _ rfl (withAcc_acc _) (withAcc_red _)⟩,
    ?_, meetsM (withAcc accZero) (by decide) ⟨false, _, named _ _ (withAcc_red _), hs _ checkAcc_zero⟩,
    meetsM (withAcc twoWrong) (by decide) ⟨named _ _ (withAcc_red _), withAcc_red _, ?_, by decide, by decide⟩,
    meetsM draining (by decide) (drains_of (by decide +kernel) (named _ _ rfl) (draining_local rfl (by decide +kernel))),
    meetsM draining (by decide) (drains_of (by decide +kernel) (named _ _ rfl) (draining_local rfl (by decide +kernel))),
    meetsM (withAcc accZero) (by decide) ⟨false, _, named _ _ (withAcc_red _), by decide, hs _ checkAcc_zero⟩,
    meetsM reds (by decide) (by unfold Claims.Named; decide)⟩
  · obtain ⟨a, ha⟩ := check_one oneWrong oneWrong_pat
    exact meetsM (withAcc oneWrong) (by decide) ⟨a, named _ _ (withAcc_red _), withAcc_red _, by
      show checkAcc (vget ((withAcc oneWrong).ctx (withAcc oneWrong).cur).m.acc 2) = _
      rw [withAcc_acc]; exact ha⟩
  · show checkAcc (vget ((withAcc twoWrong).ctx (withAcc twoWrong).cur).m.acc 2) = _
    rw [withAcc_acc]; exact check_two _ twoWrong_pat


/-- A load on SO pages with more than one of its reads left. -/
def ordered33 : State := (with_ fun x => { x with
  m := { x.m with os := vset x.m.os 1 { x.m.os.get 1 with space := 0, base := 0, rowp := 256, fmt := 1 } } }).modCore 0 fun k =>
    { k with tlb := [⟨0, 0, 2 ^ 20, true, true, true, 1, 2 ^ 20, none⟩] }
def tileCaptures (f : FMem) (trans : Bool) (s : State) : Bool :=
  match Claims.tileRefs f trans .read s with
  | (.ok as, s1) => decide ((s.ctx s.cur).sb.length < 64) && match s1.captureNext s.cur (acqScope f) as with
    | some (.hold _) => true
    | _ => false
  | _ => false
theorem tileCaptures_of {f : FMem} {trans : Bool} {s : State} (h : tileCaptures f trans s = true) :
    ∃ as s1 u, Claims.tileRefs f trans .read s = (.ok as, s1) ∧ Claims.SendRoom s
      ∧ s1.captureNext s.cur (acqScope f) as = some (.hold u) := by
  unfold tileCaptures at h
  split at h
  · next as s1 hq =>
    simp only [Bool.and_eq_true, decide_eq_true_eq] at h
    split at h
    · next u hu => exact ⟨as, s1, u, hq, h.1, hu⟩
    · exact absurd h.2 (by decide)
  · cases h

/-- Stream 33 names rows of 256 bytes' pitch in the scratchpad, in a format. -/
def streaming (fmt : BitVec 4) : State := with_ fun x => { x with
  m := { x.m with os := vset x.m.os 1 { x.m.os.get 1 with space := 1, base := 0x3F00000, rowp := 256, fmt := fmt } } }

def geoStream : State := with_ fun x => { x with m := { x.m with os := vset x.m.os 1 { x.m.os.get 1 with geo := true } } }

def tileFields (f : FMem) (trans : Bool) (s : State) : Bool :=
  (trans || !(Claims.tileStream f s).geo)
    && (!trans || ((Claims.tileStream f s).fmt != 0 && decide ((Claims.tileStream f s).fmt.toNat ≤ 5)
      && ((Claims.tileStream f s).fmt != 5 || (Claims.tileStream f s).geo)))
    && (Claims.tileRows f trans s).all fun q => q.fits f.space.toNat
theorem tileFields_of {f : FMem} {trans : Bool} {s : State} (h : tileFields f trans s = true) : Claims.TileFields f trans s := by
  simp only [tileFields, Bool.and_eq_true, Bool.or_eq_true, decide_eq_true_eq] at h
  obtain ⟨⟨h1, h2⟩, h3⟩ := h
  refine ⟨fun e => by simpa [e] using h1, fun e => ?_, fun q m => List.all_eq_true.1 h3 q m⟩
  subst e
  rcases h2 with h2 | h2
  · cases h2
  · exact ⟨by simpa using h2.1.1, h2.1.2, fun e => by simpa [e] using h2.2⟩

def tileLoads (f : FMem) (trans : Bool) (s : State) : Bool :=
  match Claims.tileRefs f trans .read s with
  | (.ok as, s1) => decide ((s.ctx s.cur).sb.length < 64) && (s1.captureNext s.cur (acqScope f) as).isNone
      && !s1.mHold s.cur as && (s1.mRead s.cur (acqScope f) as).1.toBool
  | _ => false
theorem tileLoads_of {f : FMem} {trans : Bool} {s : State} (h : tileLoads f trans s = true) :
    ∃ as bs s1 s2, Claims.tileRefs f trans .read s = (.ok as, s1) ∧ Claims.SendRoom s
      ∧ s1.captureNext s.cur (acqScope f) as = none ∧ s1.mHold s.cur as = false
      ∧ s1.mRead s.cur (acqScope f) as = (.ok bs, s2) := by
  unfold tileLoads at h
  split at h
  · next as s1 hq =>
    simp only [Bool.and_eq_true, Bool.not_eq_true', decide_eq_true_eq] at h
    obtain ⟨⟨⟨h0, hn⟩, h1⟩, h2⟩ := h
    generalize hr : s1.mRead s.cur (acqScope f) as = r at h2
    obtain ⟨v, s2⟩ := r
    cases v with
    | error e => cases h2
    | ok bs => exact ⟨as, bs, s1, s2, hq, h0, Option.isNone_iff_eq_none.1 hn, h1, hr⟩
  · cases h

def m1l : FMem := { ml with space := 1 }
def mol : FMem := { ml with space := 1, fd := 33, fa := 33 }

def moslds (f : FMem) (s : State) : Bool :=
  match Claims.mosldRef f s with
  | ((.ok r, none), s1) => decide ((s.ctx s.cur).sb.length < 64) && (match (s1.readBlock s.cur .m (if f.space = 0 then 0 else if f.space = 1 then 4 else 3)
      (if f.space = 0 then s.rootOf s.cur else 0) (Claims.mosldAddr f s) 32 r).1 with | .bytes _ => true | _ => false)
  | _ => false
theorem moslds_of {f : FMem} {s : State} (h : moslds f s = true) :
    ∃ r b s1 s2, Claims.mosldRef f s = ((.ok r, none), s1) ∧ Claims.SendRoom s
      ∧ s1.readBlock s.cur .m (if f.space = 0 then 0 else if f.space = 1 then 4 else 3)
          (if f.space = 0 then s.rootOf s.cur else 0) (Claims.mosldAddr f s) 32 r = (.bytes b, s2) := by
  unfold moslds at h
  split at h
  · next r s1 hq =>
    simp only [Bool.and_eq_true, decide_eq_true_eq] at h
    obtain ⟨h0, h⟩ := h
    generalize hr : s1.readBlock _ _ _ _ _ _ _ = q at h
    obtain ⟨v, s2⟩ := q
    cases v with
    | bytes b => exact ⟨r, b, s1, s2, hq, h0, hr⟩
    | _ => cases h
  · cases h

theorem refs_pair {α β : Type} {q : Except α β × State} (h : q.1.toBool = true) : ∃ as s1, q = (.ok as, s1) := by
  obtain ⟨v, s1⟩ := q
  cases v with
  | error e => cases h
  | ok as => exact ⟨as, s1, rfl⟩

theorem witness_TileWordsComplete :
    Meets (.mtld m1l) .m w0 (fun s => Claims.TileFields m1l false s ∧ ∃ as bs s1 s2,
      Claims.tileRefs m1l false .read s = (.ok as, s1) ∧ Claims.SendRoom s
      ∧ s1.captureNext s.cur (acqScope m1l) as = none ∧ s1.mHold s.cur as = false
      ∧ s1.mRead s.cur (acqScope m1l) as = (.ok bs, s2))
    ∧ Meets (.mtldt m1l) .m w0 (fun s => Claims.TileFields m1l true s ∧ ∃ as bs s1 s2,
      Claims.tileRefs m1l true .read s = (.ok as, s1) ∧ Claims.SendRoom s
      ∧ s1.captureNext s.cur (acqScope m1l) as = none ∧ s1.mHold s.cur as = false
      ∧ s1.mRead s.cur (acqScope m1l) as = (.ok bs, s2))
    ∧ Meets (.mtld ml) .m w0 (fun s => Claims.TileFields ml false s ∧ ∃ as s1 u,
      Claims.tileRefs ml false .read s = (.ok as, s1) ∧ Claims.SendRoom s
      ∧ s1.captureNext s.cur (acqScope ml) as = some (.hold u))
    ∧ Meets (.mtst m1l) .m w0 (fun s => Claims.TileFields m1l false s ∧ (∃ as s1, Claims.tileRefs m1l false .write s = (.ok as, s1))
        ∧ badRow (s.ctx s.cur) m1l.fd.toNat = none ∧ Claims.SendRoom s)
    ∧ Meets (.mosld mol) .m w0 (fun s => ∃ r b s1 s2, Claims.mosldRef mol s = ((.ok r, none), s1) ∧ Claims.SendRoom s
      ∧ s1.readBlock s.cur .m (if mol.space = 0 then 0 else if mol.space = 1 then 4 else 3)
          (if mol.space = 0 then s.rootOf s.cur else 0) (Claims.mosldAddr mol s) 32 r = (.bytes b, s2))
    ∧ Meets (.mtld m1l) .m w0 (fun s => ¬Claims.TileFields m1l false s)
    ∧ Meets (.mtldt m1l) .m w0 (fun s => ¬Claims.TileFields m1l true s) :=
  ⟨meetsM (streaming 1) (by decide) ⟨tileFields_of (by decide +kernel), tileLoads_of (by decide +kernel)⟩,
    meetsM (streaming 4) (by decide) ⟨tileFields_of (by decide +kernel), tileLoads_of (by decide +kernel)⟩,
    meetsM ordered33 (by decide) ⟨tileFields_of (by decide +kernel), tileCaptures_of (by decide +kernel)⟩,
    meetsM (streaming 1) (by decide) ⟨tileFields_of (by decide +kernel), refs_pair (by decide +kernel), by decide,
      by unfold Claims.SendRoom; decide⟩,
    meetsM (streaming 1) (by decide) (moslds_of (by decide +kernel)),
    meetsM geoStream (by decide) fun h => absurd (h.1 rfl) (by decide),
    meetsM (streaming 6) (by decide) fun h => absurd (h.2.1 rfl).2.1 (by decide)⟩

def fenced : State := with_ fun x => { x with sb := [⟨.m, 0, 0, [⟨.phys (spKey 0 0), [1], 5, false⟩], none, 0⟩] }
theorem witness_MatrixSystemWordsComplete :
    Meets (.mosset { mo with fa := 4, cr := 0xFFF, imm12 := 0xFFF }) .m w0 (fun _ => True) ∧ Meets (.mossetAdd { mo with fa := 5, sub := 2 }) .m w0 (fun _ => True)
    ∧ Meets (.mmode { mo with imm12 := 0 }) .m w0 (fun s => (s.ctx s.cur).m.red = (0 : BitVec 12).getLsbD 0)
    ∧ Meets (.mmode { mo with imm12 := 1 }) .m w0 (fun s => (s.ctx s.cur).m.red ≠ (1 : BitVec 12).getLsbD 0)
    ∧ Meets (.mmodeSeed { mo with sub := 1 }) .m w0 (fun _ => True)
    ∧ (Claims.Ready .m wpushS none base
      ∧ Instr.wf (.mtksend { mo with w := wpushS, sub := 1, fa := 7, imm12 := 0x820 }) = true)
    ∧ (∃ s : State, TokensTaken .m wpop (some (some 7)) (s.ctx s.cur) ∧ Instr.wf (.mtkrecv { mo with w := wpop }) = true)
    ∧ Meets (.mfence { mo with imm12 := 1 }) .m w0 (fun _ => True)
    ∧ Meets (.mend mo) .m w0 (fun s => drained .m (s.ctx s.cur) = true)
    ∧ Meets (.mend mo) .m w0 (fun s => drained .m (s.ctx s.cur) = false) :=
  ⟨meetsM base (by decide) trivial, meetsM base (by decide) trivial, meetsM base (by decide) (by decide),
    meetsM base (by decide) (by decide), meetsM base (by decide) trivial, ⟨pushS_ready _ (by decide), by decide⟩,
    ⟨with_ (fifo .c .m [some 7]), ⟨by decide⟩, by decide⟩,
    meetsM base (by decide) trivial, meetsM base (by decide) (by decide),
    meetsM fenced (by decide) (by decide)⟩


/-- Shape entry 5 of P as given, STRICT as given; no code is marked. -/
def shaped (e : BitVec 128) (strict : Bool) : State :=
  with_ fun x => { x with p := { x.p with shapes := vset x.p.shapes 5 e, strict := strict, mode := 2 } }
/-- The three-node tree of 07's worked example; four leaves at one offset; a node that is present and not used. -/
def tree : BitVec 128 := 0x00000300000200000100000000030007
def ps : FSpe := ⟨w0, 5, 4, 1, 0, 8⟩

theorem no_marks {s : State} (h : (s.ctx s.cur).errs = []) (q : Site × Bool) : q ∉ (s.ctx s.cur).errs := by
  rw [h]; exact List.not_mem_nil

theorem witness_SubtreeWordsComplete :
    Meets (.pup ps) .p w0 (fun s => Claims.ShapeGood ps s ∧ shapeOffence (Claims.shapeOf ps s) = none ∧ 3 ≤ (s.core s.cur).pwr.level
      ∧ ((s.ctx s.cur).p.strict = true → excess (upPhases ps false (Claims.shapeOf ps s)) = 0)
      ∧ Claims.BanksGood ((upPhases ps false (Claims.shapeOf ps s)).map (·.reads)).flatten s)
    ∧ Meets (.pdn { ps with flg := 1 }) .p w0 (fun s => Claims.ShapeGood ps s ∧ shapeOffence (Claims.shapeOf ps s) = none
      ∧ 3 ≤ (s.core s.cur).pwr.level ∧ ((s.ctx s.cur).p.strict = true → excess (downPhases { ps with flg := 1 } (Claims.shapeOf ps s)) = 0)
      ∧ Claims.BanksGood ((downPhases { ps with flg := 1 } (Claims.shapeOf ps s)).map (·.reads)).flatten s)
    ∧ Meets (.pmaxup { ps with flg := 3 }) .p w0 (fun s => Claims.ShapeGood ps s ∧ shapeOffence (Claims.shapeOf ps s) = some 3)
    ∧ Meets (.pup ps) .p w0
      (fun s => Claims.ShapeGood ps s ∧ shapeOffence (Claims.shapeOf ps s) = none ∧ (s.core s.cur).pwr.level < 3)
    ∧ Meets (.pup ps) .p w0 (fun s => Claims.ShapeGood ps s ∧ shapeOffence (Claims.shapeOf ps s) = none
      ∧ 3 ≤ (s.core s.cur).pwr.level ∧ (s.ctx s.cur).p.strict = true ∧ 0 < excess (upPhases ps false (Claims.shapeOf ps s))) :=
  ⟨meets (shaped tree true) (by decide) ⟨no_marks rfl _, by decide, by decide, fun _ => by decide +kernel, fun _ _ => no_marks rfl _⟩,
    meets (shaped tree true) (by decide) ⟨no_marks rfl _, by decide, by decide, fun _ => by decide +kernel, fun _ _ => no_marks rfl _⟩,
    meets (shaped 0x60007 true) (by decide) ⟨no_marks rfl _, by decide⟩,
    meets ((shaped tree true).modCore 0 fun k => { k with pwr := ⟨2, false, false⟩ }) (by decide) ⟨no_marks rfl _, by decide, by decide⟩,
    meets (shaped 7 true) (by decide) ⟨no_marks rfl _, by decide, by decide, by decide, by decide +kernel⟩⟩

theorem witness_SubtreeValues : (15 : Nat) < 16 ∧ used tree (15 + 0) = true ∧ (0 : Nat) < 15 ∧ used tree 0 = true ∧ present tree 0 = true
    ∧ used tree 3 = true ∧ present tree 3 = false ∧ used tree 30 = false ∧ (30 : Nat) < 31 := by decide

/-- A transfer of 16 words at pv, in the scratchpad's form. -/
def pvSp : State := with_ fun x => { x with p := { x.p with pv := 0x3F00000, mode := 2 } }
def pvFull : State := pvSp.modCtx 0 fun x => { x with sb := List.replicate 64 ⟨.m, 0, 0, [], none, 0⟩ }
def pbusy : State := with_ fun x => { x with sb := [⟨.p, 0, 0, [⟨.phys (spKey 0 0), [1], 5, false⟩], none, 0⟩] }
def px : FMem := { pm with size := 5 }
theorem witness_SubtreeRunsAndTransfersComplete :
    Meets (.pnorm { ps with shape := 63, flg := 1 }) .p w0 (fun s => (s.ctx s.cur).p.mode = 2
      ∧ (flag0 { ps with shape := 63, flg := 1 } = true → Claims.CrReady 0x091 s) ∧ Claims.BanksGood (Claims.runAt { ps with shape := 63, flg := 1 }) s)
    ∧ Meets (.pnorm ps) .p w0 (fun s => (s.ctx s.cur).p.mode ≠ 2) ∧ Meets (.pzero { ps with shape := 63 }) .p w0 (fun _ => True)
    ∧ Meets (.pld px) .p w0 (fun s => ∃ r, xferRef s.cur (Claims.pAddr px s) (4 * Claims.pWordsOf px) = .ok r
      ∧ (tokened .p w0 s).mustHold (s.ctx s.cur) .p r = false ∧ Claims.SendRoom s)
    ∧ Meets (.pld px) .p w0 (fun s => ∃ r, xferRef s.cur (Claims.pAddr px s) (4 * Claims.pWordsOf px) = .ok r
      ∧ ((tokened .p w0 s).mustHold (s.ctx s.cur) .p r = true ∨ ¬Claims.SendRoom s))
    ∧ Meets (.pld px) .p w0 (fun s => ∃ code, xferRef s.cur (Claims.pAddr px s) (4 * Claims.pWordsOf px) = .bad code)
    ∧ Meets (.pldShape { pm with size := 4, fa := 2 }) .p w0 (fun s => ∃ r, xferRef s.cur (Claims.pAddr { pm with size := 4, fa := 2 } s) (4 * 4) = .ok r
      ∧ (tokened .p w0 s).mustHold (s.ctx s.cur) .p r = false ∧ Claims.SendRoom s)
    ∧ Meets (.pst px) .p w0 (fun s => ∃ r, xferRef s.cur (Claims.pAddr px s) (4 * Claims.pWordsOf px) = .ok r ∧ Claims.SendRoom s
      ∧ Claims.BanksGood ((upTo (Claims.pWordsOf px)).map (Claims.pBank px + ·)) s)
    ∧ Meets (.pmode { y with imm12 := 6 }) .p w0 (fun _ => True) ∧ (7 : BitVec 12).toNat % 4 = 3
    ∧ (Claims.Ready .p wpushS none base ∧ Claims.BanksGood [tokenBank { y with sub := 1, imm12 := 0xFFF }] base
      ∧ ([Instr.ptksend { y with w := wpushS }, .ptksend { y with w := wpushS, sub := 1, imm12 := 0xFFF }].all Instr.wf) = true)
    ∧ (∃ s : State, TokensTaken .p wpop (some (some 7)) (s.ctx s.cur)
      ∧ ([Instr.ptkrecv { y with w := wpop }, .ptkrecv { y with w := wpop, sub := 1 }].all Instr.wf) = true)
    ∧ Meets (.pfence { y with imm12 := 1 }) .p w0 (fun _ => True)
    ∧ Meets (.pend y) .p w0 (fun s => drained .p (s.ctx s.cur) = true) ∧ Meets (.pend y) .p w0 (fun s => drained .p (s.ctx s.cur) = false) := by
  exact ⟨meets pvSp (by decide) ⟨by decide, fun _ => no_marks rfl _, fun _ _ => no_marks rfl _⟩, meets base (by decide) (by decide),
    meets base (by decide) trivial, meets pvSp (by decide) ⟨_, rfl, by decide +kernel, by unfold Claims.SendRoom; decide⟩,
    meets pvFull (by decide) ⟨_, rfl, .inr (by unfold Claims.SendRoom; decide)⟩, meets (with_ fun x => { x with p := { x.p with pv := 2 } }) (by decide) ⟨0x06, by decide +kernel⟩,
    meets pvSp (by decide) ⟨_, rfl, by decide +kernel, by unfold Claims.SendRoom; decide⟩,
    meets pvSp (by decide) ⟨_, rfl, by unfold Claims.SendRoom; decide, fun _ _ => no_marks rfl _⟩, meets base (by decide) trivial, by decide,
    ⟨pushS_ready _ (by decide), fun _ _ => no_marks rfl _, by decide⟩,
    ⟨with_ (fifo .c .p [some 7]), ⟨by decide⟩, by decide⟩,
    meets base (by decide) trivial, meets base (by decide) (by decide),
    meets pbusy (by decide) (by decide)⟩


/-- Core 0 with a descriptor at offset 0, a page, and a tower footprint. -/
def commanding (d : List Byte) : State := withBytes (spKey 0 0) d (paged (base.modCore 0 fun k =>
  { k with job := some { job0 with tk := { job0.tk with tower := 1 } } }))

/-- What a command word asks before it enters its queue: 0 nothing is amiss, 1 no slot, 2 a range that fails. -/
def enters (f : FCpy) (op : CmdOp) (s : State) : Option Nat :=
  match Claims.cDesc f s with
  | (.bytes d, s1) =>
    if Claims.snapOf .c s = [] ∧ Claims.cOff f s % 32 = 0 ∧ Claims.cOff f s + 32 ≤ 2 ^ 20 ∧ fieldBad op d = none ∧ overlaps s.cur op d f.unit.toNat = false then
      match s1.checkCmd s.cur (s1.rootOf s.cur) op d f.unit.toNat with
      | .bad _ _ => some 2
      | .ok _ s2 => if ((s2.cluster (clusterOf s.cur)).pickQueue op f.unit.toNat).isSome then some 0 else some 1
    else none
  | _ => none
theorem enters_of {f : FCpy} {op : CmdOp} {s : State} {n : Nat} (h : enters f op s = some n) :
    ∃ d s1, Claims.DescGood f op s d s1 ∧
      ((n = 0 ∧ ∃ pages s2 u, s1.checkCmd s.cur (s1.rootOf s.cur) op d f.unit.toNat = .ok pages s2
          ∧ (s2.cluster (clusterOf s.cur)).pickQueue op f.unit.toNat = some u)
        ∨ (n = 1 ∧ ∃ pages s2, s1.checkCmd s.cur (s1.rootOf s.cur) op d f.unit.toNat = .ok pages s2
          ∧ (s2.cluster (clusterOf s.cur)).pickQueue op f.unit.toNat = none)
        ∨ (n = 2 ∧ ∃ t s2, s1.checkCmd s.cur (s1.rootOf s.cur) op d f.unit.toNat = .bad t s2)) := by
  unfold enters at h
  split at h
  · next d s1 hd =>
    split at h
    · next hg =>
      refine ⟨d, s1, ⟨hg.1, hg.2.1, hg.2.2.1, hd, hg.2.2.2.1, hg.2.2.2.2⟩, ?_⟩
      split at h
      · next t s2 hb => cases h; exact .inr (.inr ⟨rfl, t, s2, hb⟩)
      · next pages s2 hc =>
        split at h
        · next hp =>
          cases h
          obtain ⟨u, hu⟩ := Option.isSome_iff_exists.1 hp
          exact .inl ⟨rfl, pages, s2, u, hc, hu⟩
        · next hp => cases h; exact .inr (.inl ⟨rfl, pages, s2, hc, by simpa using hp⟩)
    · cases h
  · cases h

/-- A legal command word that asks as said, in some state. -/
def Asks (i : Instr) (f : FCpy) (op : CmdOp) (n : Nat) : Prop := Meets i .c w0 (fun s => enters f op s = some n)
theorem asks {i : Instr} {f : FCpy} {op : CmdOp} {n : Nat} (s : State) (hw : i.wf = true) (h : enters f op s = some n) :
    Asks i f op n := meets s hw h

def dCpy : List Byte := leBytes 8 0x3F00100 ++ leBytes 8 0x3F00200 ++ leBytes 4 0x20 ++ leBytes 4 5
/-- Eight full queues. -/
def crowded : State := (commanding dCpy).modCluster 0 fun k => { k with engines := Vector.replicate 8 (List.replicate 64 default) }

/-- What a descriptor is turned away for. -/
def descBad (f : FCpy) (op : CmdOp) (s : State) : Option Nat :=
  if Claims.snapOf .c s ≠ [] then none
  else if 2 ^ 20 < Claims.cOff f s + 32 then some 5
  else if Claims.cOff f s % 32 ≠ 0 then some 6
  else match Claims.cDesc f s with
    | (.bytes d, _) => if (fieldBad op d).isSome then some 2 else none
    | _ => none

/-- A column of a published page, the group of cluster 0's core 0 at device level, and a descriptor that names both. -/
def collecting : State := withBytes (spKey 0 (groupOff 5)) (leBytes 4 0x10003 ++ leBytes 4 0 ++ leBytes 8 1 ++ leBytes 8 0x200)
  (withBytes (spKey 0 0x200) (leBytes 8 1)
    ((commanding (leBytes 8 0x300 ++ leBytes 8 0x10000 ++ leBytes 4 16 ++ [0, 1, 5])).modDev fun d =>
      { d with pactive := 0x20, pubs := [(5, ⟨0, 0, 0x10000, 1, 2 ^ 20, 2 ^ 21⟩)] }))
def collects (f : FCpy) (s : State) : Bool :=
  match Claims.cDesc f s with
  | (.bytes d, s1) =>
    decide (Claims.snapOf .c s = []) && Claims.cOff f s % 32 == 0 && decide (Claims.cOff f s + 32 ≤ 2 ^ 20) && (fieldBad .ccoll d).isNone
      && !overlaps s.cur .ccoll d f.unit.toNat &&
      (match s1.readCollective s.cur d with
      | .ok _ ms s2 => s2.inPublished (blockNat d 8 8) (4 * blockNat d 0x10 4) && s2.collSource d ms &&
        (match s2.checkCmd s.cur (s2.rootOf s.cur) .ccoll d f.unit.toNat with
        | .ok _ s3 => ((s3.cluster (clusterOf s.cur)).pickQueue .ccoll f.unit.toNat).isSome
        | _ => false)
      | _ => false)
  | _ => false
theorem collects_of {f : FCpy} {s : State} (h : collects f s = true) :
    ∃ d g ms pages u s1 s2 s3, Claims.DescGood f .ccoll s d s1 ∧ s1.readCollective s.cur d = .ok g ms s2
        ∧ s2.inPublished (blockNat d 8 8) (4 * blockNat d 0x10 4) = true ∧ s2.collSource d ms = true
        ∧ s2.checkCmd s.cur (s2.rootOf s.cur) .ccoll d f.unit.toNat = .ok pages s3
        ∧ (s3.cluster (clusterOf s.cur)).pickQueue .ccoll f.unit.toNat = some u := by
  unfold collects at h
  split at h
  · next d s1 hd =>
    simp only [Bool.and_eq_true, decide_eq_true_eq] at h
    obtain ⟨⟨⟨⟨⟨h0, h1⟩, h2⟩, h3⟩, h4⟩, h5⟩ := h
    split at h5
    · next g ms s2 hr =>
      simp only [Bool.and_eq_true] at h5
      obtain ⟨⟨h6, h7⟩, h8⟩ := h5
      split at h8
      · next pages s3 hc =>
        obtain ⟨u, hu⟩ := Option.isSome_iff_exists.1 h8
        exact ⟨d, g, ms, pages, u, s1, s2, s3, ⟨h0, by simpa using h1, h2, hd, by simpa using h3, by simpa using h4⟩, hr, h6, h7, hc, hu⟩
      · cases h8
    · cases h5
  · cases h

/-- A word of C that pops from S. -/
def wpopS : Common := ⟨0, false, 0, 1, false, false⟩

theorem witness_CopyCommandsEnterTheirQueue :
    Asks (.cpy cc) cc .cpy 0 ∧ Asks (.cpy2d cc) cc .cpy2d 0 ∧ Asks (.cpys cc) cc .cpys 0 ∧ Asks (.cpytw cc) cc .cpytw 0
    ∧ Asks (.cpyex cc) cc .cpyex 0 ∧ Asks (.cpybc cc) cc .cpybc 0
    ∧ Asks (.cpy { cc with unit := 8 }) { cc with unit := 8 } .cpy 1 ∧ Asks (.cpytw cc) cc .cpytw 2
    ∧ Meets (.ccoll cc) .c w0 (fun s => ∃ d g ms pages u s1 s2 s3, Claims.DescGood cc .ccoll s d s1
        ∧ s1.readCollective s.cur d = .ok g ms s2 ∧ s2.inPublished (blockNat d 8 8) (4 * blockNat d 0x10 4) = true
        ∧ s2.collSource d ms = true ∧ s2.checkCmd s.cur (s2.rootOf s.cur) .ccoll d cc.unit.toNat = .ok pages s3
        ∧ (s3.cluster (clusterOf s.cur)).pickQueue .ccoll cc.unit.toNat = some u)
    ∧ Meets (.cpy { cc with dsc := 0x10 }) .c w0 (fun s => descBad { cc with dsc := 0x10 } .cpy s = some 6)
    ∧ (∃ s : State, TokensTaken .c wpopS (some (some 0x100000)) (s.ctx s.cur) ∧ Instr.wf (.cpy { cc with w := wpopS, ix := true }) = true
      ∧ descBad { cc with w := wpopS, ix := true } .cpy s = some 5)
    ∧ Meets (.ccoll cc) .c w0 (fun s => descBad cc .ccoll s = some 2) :=
  ⟨asks (commanding dCpy) (by decide) (by decide +kernel),
    asks (commanding (leBytes 8 0x3F00100 ++ leBytes 8 0x3F00200 ++ leBytes 4 4 ++ leBytes 2 5 ++ leBytes 2 2 ++ leBytes 4 64
      ++ leBytes 4 64)) (by decide) (by decide +kernel),
    asks (commanding (leBytes 8 7 ++ leBytes 8 0x3F00200 ++ leBytes 4 0x20 ++ leBytes 4 4)) (by decide) (by decide +kernel),
    asks (commanding (leBytes 8 0 ++ leBytes 4 0 ++ leBytes 4 16 ++ leBytes 4 16 ++ leBytes 4 0 ++ leBytes 8 1)) (by decide) (by decide +kernel),
    asks (commanding (leBytes 4 0 ++ leBytes 4 16 ++ [63, 63, 0] ++ leBytes 5 0 ++ leBytes 4 16 ++ leBytes 4 0 ++ leBytes 8 1)) (by decide)
      (by decide +kernel),
    asks (commanding (leBytes 8 0 ++ leBytes 4 0 ++ leBytes 4 1 ++ [1, 0] ++ leBytes 6 0 ++ leBytes 8 1)) (by decide) (by decide +kernel),
    asks crowded (by decide) (by decide +kernel),
    asks (commanding (leBytes 8 0 ++ leBytes 4 0x1000 ++ leBytes 4 16 ++ leBytes 4 16 ++ leBytes 4 0 ++ leBytes 8 1)) (by decide) (by decide +kernel),
    meets collecting (by decide) (collects_of (by decide +kernel)), meets base (by decide) (by decide +kernel),
    ⟨with_ (fifo .s .c [some 0x100000]), ⟨by decide⟩, by decide,
      by decide +kernel⟩, meets base (by decide) (by decide +kernel)⟩

/-- A command word that waits with its descriptor, with a queue free and with none. -/
def keeping (s : State) : State := s.modCtx 0 fun x => x.modStream .c fun r => { r with snap := [.block dCpy] }
theorem witness_CopyCommandsEnterTheirQueue_waiting :
    (Claims.snapOf .c (keeping (commanding dCpy)) = .block dCpy :: ([] : List TlbEnt).map Snap.page
      ∧ (((keeping (commanding dCpy)).cluster 0).pickQueue .cpy 0).isSome = true)
    ∧ (Claims.snapOf .c (keeping crowded) = .block dCpy :: ([] : List TlbEnt).map Snap.page
      ∧ ((keeping crowded).cluster 0).pickQueue .cpy 8 = none)
    ∧ Claims.Mapped 0x05 crowded := ⟨⟨rfl, by decide +kernel⟩, ⟨rfl, by decide +kernel⟩, fun h => nomatch h⟩

/-- Tag 3 outstanding; tag 3 with an error. -/
def tagged (out : BitVec 8) (err : Option Poison) : State := with_ fun x => { x with tags := vset x.tags 3 ⟨out, 0, err⟩ }
def ct : FCpy := { cc with unit := 0 }

theorem witness_CopyWaitAndSystemWordsComplete :
    Meets (.cwait ct) .c w0 (fun s => Claims.Idle [3] (s.ctx s.cur) ∧ Claims.NoErrors [3] (s.ctx s.cur))
    ∧ Meets (.cwaitAll { ct with tag := 0, unit := 1 }) .c w0
      (fun s => Claims.Idle (List.range 64) (s.ctx s.cur) ∧ Claims.NoErrors (List.range 64) (s.ctx s.cur))
    ∧ Meets (.cwait ct) .c w0 (fun s => ¬Claims.Idle [3] (s.ctx s.cur))
    ∧ Meets (.cwaitAll { ct with tag := 0, unit := 1 }) .c w0 (fun s => Claims.Idle (List.range 64) (s.ctx s.cur)
      ∧ Claims.FirstError (List.range 64) (s.ctx s.cur) 3 poison)
    ∧ (Claims.Ready .c wpushS none base
      ∧ ([Instr.ctksend { y with w := wpushS, imm12 := 63 }, .ctksendI { y with w := wpushS, sub := 1, imm12 := 0xFFF }].all Instr.wf) = true)
    ∧ (∃ s : State, TokensTaken .c wpopS (some (some 7)) (s.ctx s.cur) ∧ Instr.wf (.ctkrecv { y with w := wpopS }) = true)
    ∧ Meets (.cfence { y with imm12 := 4, sub := 0 }) .c w0 (fun _ => True)
    ∧ Meets (.cend y) .c w0
      (fun s => Claims.Idle (List.range 64) (s.ctx s.cur) ∧ Claims.NoErrors (List.range 64) (s.ctx s.cur))
    ∧ Meets (.cend y) .c w0 (fun s => ¬Claims.Idle (List.range 64) (s.ctx s.cur)) := by
  unfold Claims.FirstError Claims.Idle Claims.NoErrors
  exact ⟨meets base (by decide) ⟨by decide, by decide⟩, meets base (by decide) ⟨by decide, by decide⟩, meets (tagged 1 none) (by decide) (by decide),
    meets (tagged 0 (some poison)) (by decide) ⟨by decide, [0, 1, 2], (List.range 64).drop 4, rfl, by decide, by decide⟩,
    ⟨pushS_ready _ (by decide), by decide⟩,
    ⟨with_ (fifo .s .c [some 7]), ⟨by decide⟩, by decide⟩,
    meets base (by decide) trivial, meets base (by decide) ⟨by decide, by decide⟩, meets (tagged 1 none) (by decide) (by decide)⟩

/-- A command at the head of engine 0's queue. -/
def cmd (op : CmdOp) (d : List Byte) (unit : Nat) : Cmd :=
  { core := 0, op := op, tag := 3, desc := d, col := 0, root := 0, pages := [], unit := unit, seq := 0, fences := [], members := [(0, 0)],
    tries := 0, inSwitch := false, chunk := [], buf := [], wrote := false, view := ⟨0, [], []⟩, seen := ⟨0, [], []⟩, observed := [],
    failed := false, ahead := [], id := 0 }
def queued (d : Cmd) : State := base.modCluster 0 fun k => { k with engines := k.engines.set 0 [d] }
def badSource : State := { queued (cmd .cpy dCpy 0) with memErr := [(spKey 0 0x100, true)] }
def retried (n : Nat) : Cmd := { cmd .ccoll (leBytes 8 0x300 ++ leBytes 8 0x10000 ++ leBytes 4 16 ++ [0, 1, 5]) 0 with tries := n }

/-- A command whose unit's source lies on two pages marked SO. -/
def orderedCmd : Cmd := { cmd .cpy (leBytes 8 0xFFE0 ++ leBytes 8 0x3F00200 ++ leBytes 4 0x40 ++ leBytes 4 4) 0 with
  pages := [⟨0, 0, 2 ^ 16, true, true, true, 1, 2 ^ 20, none⟩, ⟨0, 2 ^ 16, 2 ^ 16, true, true, true, 1, 2 ^ 20 + 2 ^ 16, none⟩] }
theorem two_of {α : Type} {l : List α} (h : 2 ≤ l.length) : ∃ q p rest, l = q :: p :: rest := by
  match l, h with
  | q :: p :: rest, _ => exact ⟨q, p, rest, rfl⟩
/-- A command of two units with the first read and not yet written. -/
def halfway : Cmd := { cmd .cpy (leBytes 8 0x3F00100 ++ leBytes 8 0x3F00200 ++ leBytes 4 0x80 ++ leBytes 4 5) 0 with
  buf := [⟨.phys (spKey 0 0x200), leBytes 64 7, 5, false⟩] }

/-- The same with a piece of its unit read and not yet written. -/
def half : Cmd := { cmd .cpy dCpy 0 with buf := [⟨.phys (spKey 0 0x200), leBytes 32 7, 5, false⟩] }

theorem witness_CopyUnitsMoveBytes :
    (let d := cmd .cpy dCpy 0;
      Claims.MayMove (queued d) 0 (.engine 0) 0 d ∧ d.buf = []
      ∧ (queued d).refBad ((queued d).cmdRef d (d.move 0).src (d.move 0).n false) = none)
    ∧ (let d := cmd .cpy dCpy 0;
      Claims.MayMove badSource 0 (.engine 0) 0 d ∧ (badSource.refBad (badSource.cmdRef d (d.move 0).src (d.move 0).n false)).isSome = true)
    ∧ (let d := cmd .cpys (leBytes 8 7 ++ leBytes 8 0x3F00200 ++ leBytes 4 0x20 ++ leBytes 4 4) 0;
      Claims.MayMove (queued d) 0 (.engine 0) 0 d)
    ∧ (Claims.MayMove (queued (retried 0)) 0 (.engine 0) 0 (retried 0) ∧ (queued (retried 0)).chunkBad (retried 0) 0 = none
      ∧ (retried 0).chunk = [])
    ∧ Claims.MayMove (queued { retried 0 with chunk := leBytes 64 7 }) 0 (.engine 0) 0 { retried 0 with chunk := leBytes 64 7 }
    ∧ (Claims.MayMove (queued half) 0 (.engine 0) 0 half ∧ Claims.nextWrite (queued half) half = (0, queued half)
      ∧ half.buf[0]? = some ⟨.phys (spKey 0 0x200), leBytes 32 7, 5, false⟩ ∧ Memory.wf (queued half).mem = true)
    ∧ (Claims.MayMove (queued orderedCmd) 0 (.engine 0) 0 orderedCmd ∧ orderedCmd.buf = []
      ∧ (queued orderedCmd).refBad ⟨((queued orderedCmd).cmdTodo orderedCmd 0).map (·.2)⟩ = none
      ∧ ∃ q p rest, ((queued orderedCmd).cmdTodo orderedCmd 0).filter (·.2.so) = q :: p :: rest)
    ∧ (((queued halfway).cluster 0).mayRun (.engine 0) 0 halfway false = true ∧ 0 + 1 < halfway.total
      ∧ ∃ q, ((queued halfway).cmdTodo halfway 1).find? (fun p => p.1 == 0) = some q ∧ (queued halfway).refBad ⟨[q.2]⟩ = none
        ∧ (queued halfway).stalled ((queued halfway).spanOf q.2) = false)
    ∧ ((retried 2).failing 0 = [0] ∧ (retried 2).tries < 3 ∧ 3 ≤ (retried 3).tries ∧ (retried 3).failing 0 = [0])
    ∧ (let d := cmd .cpy dCpy 1;
      (((queued d).cluster 0).cmds (.engine 0))[0]? = some d ∧ d.finished = true) := by
  unfold Claims.MayMove
  exact ⟨⟨⟨by decide, rfl, by decide +kernel⟩, rfl, by decide +kernel⟩, ⟨⟨by decide, rfl, by decide +kernel⟩, by decide +kernel⟩, ⟨by decide, rfl, by decide +kernel⟩,
    ⟨⟨by decide, rfl, by decide +kernel⟩, by decide +kernel, rfl⟩, ⟨by decide, rfl, by decide +kernel⟩,
    ⟨⟨by decide, rfl, by decide +kernel⟩, rfl, rfl, by decide⟩,
    ⟨⟨by decide, rfl, by decide +kernel⟩, rfl, by decide +kernel, two_of (by decide +kernel)⟩,
    ⟨by decide +kernel, by decide, _, rfl, by decide +kernel, by decide +kernel⟩,
    ⟨by decide, by decide, by decide, by decide⟩, rfl, by decide +kernel⟩


/-- base at a tick; a change of core 0; of cluster 0; of the device. -/
def ticked (n : W64) (s : State) : State := s.modDev fun d => { d with ticks := n }
def core0 (f : Core → Core) : State := base.modCore 0 f
theorem reset_core (n : W64) (c : CoreId) : (ticked n State.reset).core c = Core.reset := by
  show Vector.get (Vector.replicate 1152 Core.reset) c = _
  simp [Vector.get]
theorem reset_cluster (n : W64) (cl : ClusterId) : (ticked n State.reset).cluster cl = Cluster.reset := by
  show Vector.get (Vector.replicate 24 Cluster.reset) cl = _
  simp [Vector.get]

/-- Right after reset, and a tick later, nothing else falls at the tick. -/
theorem reset_over (n : W64) (h : n = 0 ∨ n = 1) : Claims.TickOver (ticked n State.reset) where
  counting := rfl
  loops := by rcases h with rfl | rfl <;> decide
  records := fun t e => nomatch e
  cores := fun c => by
    unfold State.sweepDue State.waitDue
    rw [reset_core, reset_cluster]
    rcases h with rfl | rfl <;> exact ⟨by decide, by decide, rfl⟩
  clusters := fun cl => by
    unfold State.passLate
    rw [reset_cluster]
    rcases h with rfl | rfl <;> exact ⟨by decide, by decide⟩

theorem witness_TimeEventsAdvance :
    (Claims.TickOver (ticked 1 State.reset) ∧ ¬Claims.IntervalDue (ticked 1 State.reset))
    ∧ (Claims.TickOver (ticked 0 State.reset) ∧ Claims.IntervalDue (ticked 0 State.reset))
    ∧ ¬Claims.TickOver (State.reset.modDev fun d => { d with boot := .failed 1 })
    ∧ (base.core 0).lease.act = false
    ∧ ((core0 fun k => { k with lease := ⟨true, 1, 1⟩ }).core 0).lease.act = true
    ∧ (base.plate 0).slots.length ≤ 2 ∧ base.dev.loopSamples * 10000 ≤ Claims.now (ticked 10000 base)
    ∧ (base.modDev fun d => { d with recordDue := some 0 }).dev.recordDue = some 0 := by
  exact ⟨⟨reset_over 1 (.inr rfl), by unfold Claims.IntervalDue; decide⟩, ⟨reset_over 0 (.inl rfl), by unfold Claims.IntervalDue; decide⟩,
    fun h => absurd h.counting (by decide), by decide, by decide, by decide, by decide, by decide⟩

theorem witness_RefreshAndTemperatureEvents :
    (let s := ticked 51200000 base;
      Claims.now s ≠ (s.core 0).refresh.due ∧ (s.core 0).refresh.lastSweep + Claims.sweepEvery s 0 ≤ Claims.now s
        ∧ (Claims.deferralOf s 0).act = false)
    ∧ (let s := ticked 99200000 base;
      Claims.now s = (s.core 0).refresh.due)
    ∧ (let s := ticked 99200000 (core0 fun k => { k with refresh := { k.refresh with notify := true } });
      Claims.now s = (s.core 0).refresh.due ∧ (Claims.deferralOf s 0).notify = true ∧ (s.core 0).phase = .running)
    ∧ (let s := core0 fun k => { k with refresh := { k.refresh with pendingTrap := some 7 } };
      (s.core 0).refresh.pendingTrap = some 7 ∧ (s.core 0).phase = .running ∧ ((s.ctx 0).stream .s).st = .running
        ∧ (s.ctx 0).cr.tm = false ∧ (s.ctx 0).trapping = none)
    ∧ ((core0 fun k => { k with refresh := { k.refresh with sweep := some ⟨true, 0⟩ } }).core 0).refresh.sweep = some ⟨true, 0⟩
    ∧ (67 : Nat) < 68
    ∧ ((base.core 0).samples * 1000 ≤ Claims.now (ticked 1000 base) ∧ (380 : BitVec 16).toInt ≤ 380
      ∧ (440 : BitVec 16).toInt ≤ 440 ∧ (base.core 0).tripped = false ∧ base.dev.remapGo = false)
    ∧ (380 < (381 : BitVec 16).toInt ∨ 440 < (441 : BitVec 16).toInt)
    ∧ (((core0 fun k => { k with tripped := true }).core 0).tripped = true ∧ (319 : BitVec 16).toInt < 320)
    ∧ ((base.core 0).phase = .running ∧ ((base.ctx 0).stream .p).st = .running) := by decide

/-- Core 0 free and powered since tick 0, in a cluster that gates after one tick. -/
def freeCore (p : Power) : State := State.reset.modCore 0 fun k => { k with power := p }
def gating : State := ticked 1 (State.reset.modCluster 0 fun k => { k with gateidle := 1 })
theorem gating_free : Claims.Gateable gating 0 := by unfold Claims.Gateable Claims.FreeCore; decide
/-- One request of core 0 at its plate. -/
def asking (again : Bool) (units : Nat) : State := ticked 5 ((core0 fun k => { k with pwr := ⟨1, again, true⟩ }).modPlate 0 fun p =>
  { p with reqs := [⟨0, units, again, 4⟩] })
theorem asking_head (again : Bool) (units : Nat) : Claims.HeadRequest (asking again units) 0 ⟨0, units, again, 4⟩ := by
  have hr : ((asking again units).plate 0).reqs = [⟨0, units, again, 4⟩] := rfl
  refine ⟨by rw [hr]; exact List.mem_singleton.2 rfl, show 4 < 5 by decide, fun q hq _ hn => ?_⟩
  rw [hr] at hq
  exact absurd (List.mem_singleton.1 hq) hn
/-- Core 0 at a barrier, its other engines at rest. -/
def lending : State := (with_ (others .done)).modCtx 0 fun x => { x with bar := some default }

theorem witness_PowerEvents :
    (Memory.wf gating.mem = true ∧ (gating.cluster 0).gateidle ≠ 0 ∧ Claims.Gateable gating 0
      ∧ (gating.core 0).freeSince + (gating.cluster 0).gateidle.toNat ≤ Claims.now gating)
    ∧ (((freeCore .called).core 0).power = .called ∧ ((freeCore .called).modDev fun d => { d with boot := .running 8 }).dev.boot = .running 8) ∧ ((freeCore .waking).core 0).power = .waking
    ∧ ((lending.core 0).phase = .running ∧ (lending.ctx 0).bar = some default ∧ (default : Arrival).rank = none
      ∧ (∀ e, e = .m ∨ e = .p → ((lending.ctx 0).stream e).st = .idle ∨ ((lending.ctx 0).stream e).st = .done)
      ∧ 0 < (lending.core 0).pwr.level ∧ (lending.core 0).pwr.susp = false)
    ∧ (Claims.HeadRequest (asking false 2) 0 ⟨0, 2, false, 4⟩
      ∧ (asking false 2).unitsUsed 0 + 2 ≤ (asking false 2).plateBudget 0)
    ∧ (Claims.HeadRequest (asking false 10000) 0 ⟨0, 10000, false, 4⟩
      ∧ (asking false 10000).plateBudget 0 < (asking false 10000).unitsUsed 0 + 10000)
    ∧ (Claims.HeadRequest (asking true 1) 0 ⟨0, 1, true, 4⟩ ∧ ((asking true 1).core 0).pwr.susp = true)
    ∧ (∃ w : FSys, let s := withBytes (imemKey 0 .s 0) (parcelBytes (encode (.wait w))) (with_ fun x => { x with waitEnd := some (some 0) })
      (s.ctx 0).waitEnd = some (some 0) ∧ (match fetchWord 0 .s s with | .word i _ => decide (i = .wait w) | _ => false) = true) :=
  ⟨⟨by decide, by decide, gating_free, by decide⟩, by decide, by decide,
    ⟨by decide, by decide, rfl, fun e he => by rcases he with rfl | rfl <;> decide, by decide, by decide⟩, ⟨asking_head _ _, by decide +kernel⟩,
    ⟨asking_head _ _, Nat.lt_of_lt_of_le (show _ < 10000 by decide +kernel) (Nat.le_add_left _ _)⟩,
    ⟨asking_head _ _, by decide⟩, ⟨wt, by decide, by decide +kernel⟩⟩


/-- Core 0's job in another phase; and the same with an image at its handle. -/
def phased (p : Phase) : State := core0 fun k => { k with phase := p }
def placed : State := withImage (phased .placed)
/-- The image loads. -/
def loads (s : State) (c : CoreId) (j : Job) : Bool :=
  match Claims.headerOfJob s c j with
  | .ok m s1 =>
    imageOk m && decide (m.tower ≤ 4096 * j.tk.tower)
      && let s2 := (s1.zeroFor c j).modCtx c fun x =>
          { dispatchCtx j x with str := Ctx.reset.str.map (Stream.fresh (x.stream .s).view) }
        match s2.loadImage c j.root j.tk.image.toNat m (notResident (s2.core c) j.root j.tk.image.toNat) engines true with
        | .ok _ => true
        | _ => false
  | _ => false
theorem loads_of {s : State} {c : CoreId} {j : Job} (h : loads s c j = true) : ∃ m s3, Claims.Loads s c j m s3 := by
  unfold loads at h
  split at h
  · next m s1 hr =>
    simp only [Bool.and_eq_true, decide_eq_true_eq] at h
    obtain ⟨⟨h1, h2⟩, h3⟩ := h
    split at h3
    · next s3 hl => exact ⟨m, s3, s1, hr, h1, h2, hl⟩
    · cases h3
  · cases h
def unheaded (s : State) (c : CoreId) (j : Job) : Bool :=
  match Claims.headerOfJob s c j with
  | .bad _ _ _ => true
  | _ => false
theorem unheaded_of {s : State} {c : CoreId} {j : Job} (h : unheaded s c j = true) :
    ∃ code a s1, Claims.headerOfJob s c j = .bad code a s1 := by
  unfold unheaded at h
  split at h
  · next code a s1 hr => exact ⟨code, a, s1, hr⟩
  · cases h
/-- No other core has a placed job. -/
theorem phased_alone (d : CoreId) (h : d ≠ 0) : ((phased .placed).core d).phase = .free := by
  have this : ∀ (s : State) (f : Core → Core), (s.modCore 0 f).core d = s.core d := fun s f =>
    State.core_modCore_ne s f fun e => h e.symm
  unfold phased core0 base
  rw [this, this]
  exact congrArg Core.phase (reset_core 0 d)
theorem placed_starts : Claims.MayStartJob placed 0 job0 := by
  refine ⟨by decide, by decide, fun d i hp hj _ => ?_⟩
  by_cases h : d = 0
  · subst h
    have : (placed.core 0).job = some job0 := by decide
    rw [this] at hj
    cases hj
    exact Nat.le_refl _
  · have : (placed.core d).phase = .free := by
      show ((paged (phased .placed)).core d).phase = _
      rw [show (paged (phased .placed)).core d = (phased .placed).core d from
        State.core_modCore_ne _ _ fun e => h e.symm]
      exact phased_alone d h
    rw [this] at hp
    cases hp

/-- The job asked to stop; with its streams stopped and a slot for it. -/
def stopping (b : Bool) : State := core0 fun k => { k with stopReq := some b }
def stopped (b : Bool) : State := ((stopping b).modCtx 0 fun x => { x with str := x.str.map fun r => if r.st = .running then r.stopped else r }).modCluster 0 fun k => { k with spcount := 1 }
/-- The job in slot 3 of cluster 0, as it was saved, and core 0 chosen for it. -/
def kept : Saved :=
  { state := 2, core := 0, job := job0, ctx := (stopped true).ctx 0, level := 0, gsize := 1, cmds := [], epri := 0 }
def restoring : State := (phased (.restoring 0 3)).modCluster 0 fun k => { k with slots := [(3, kept)] }
def ended : EndInfo := Claims.haltEnd base

theorem ending_phase : ((phased (.ending ended)).core 0).phase = .ending ended := by
  show ((base.modCore 0 fun k => { k with phase := .ending ended }).core 0).phase = _
  rw [State.core_modCore]

theorem witness_JobEvents :
    Claims.PassDue (ticked 100 base) 0 ∧ ¬Claims.PassDue base 0 ∧ (base.core 0).job = some job0
    ∧ (Claims.MayStartJob placed 0 job0 ∧ ∃ m s3, Claims.Loads placed 0 job0 m s3)
    ∧ (∃ code a s1, Claims.headerOfJob (phased .placed) 0 job0 = .bad code a s1)
    ∧ (let s := placed.modDev fun d => { d with remapGo := true };
      (s.core 0).phase = .placed ∧ ¬Claims.MayStartJob s 0 job0)
    ∧ Claims.Retirable (phased .retiring) 0
    ∧ (((phased (.ending ended)).core 0).phase = .ending ended ∧ (phased (.ending ended)).dev.remapGo = false ∧ job0.tk.gang = false ∧ Memory.wf (phased (.ending ended)).mem = true
      ∧ (phased (.ending ended)).dev.fqFull = false ∧ (phased (.ending ended)).dev.fqwait = [])
    ∧ ((∃ e, (((phased (.ending ended)).modDev fun d => { d with remapGo := true }).core 0).phase = .ending e)
      ∧ ((phased (.ending ended)).modDev fun d => { d with remapGo := true }).dev.remapGo = true)
    ∧ (((stopping true).core 0).stopReq = some true ∧ Claims.Stoppable (stopping true) 0
      ∧ ((stopping true).members 0).any (stopping true).anyRunning = true)
    ∧ (((stopped false).core 0).stopReq = some false ∧ (stopped false).canStop 0 = true ∧ (stopped false).anyRunning 0 = false
      ∧ (stopped false).quietForSave 0 = true ∧ (stopped false).dev.remapGo = false ∧ ((stopped false).cluster (clusterOf 0)).freeSlotNum = some 0
      ∧ (stopped false).resumeRoom [0] = true)
    ∧ Claims.Restorable restoring 0 0 3 job0 kept := by
  have hm : (stopping true).members 0 = [0] := rfl
  unfold Claims.PassDue Claims.Retirable Claims.Stoppable Claims.Restorable
  rw [hm]
  exact ⟨by decide, by decide, by decide, ⟨placed_starts, loads_of (by decide +kernel)⟩, unheaded_of (by decide +kernel),
    ⟨by decide, fun h => absurd h.2.1 (by decide)⟩, by decide +kernel,
    ⟨ending_phase, by decide, by decide, by decide, by decide, by decide⟩,
    ⟨⟨ended, ending_phase⟩, by decide⟩, by decide +kernel, by decide +kernel, by decide, by decide, rfl, by decide, rfl, rfl⟩

/-- A gang of core 0 alone that has arrived. -/
def arrivedWith (group : List Byte) (level rank : Nat) (tick : Nat) : Option Arrival :=
  some { level := level, inst := 0, tick := tick, order := 0, core := 0, since := tick,
         rank := if rank = 0 then none else some rank, group := group }
def arrivedAt : Nat → Nat → Nat → Option Arrival := arrivedWith []
def gangArrived : State := (ganged (arrivedAt 1 0 0) true).modCore 0 fun k =>
  { k with ctx := others .idle k.ctx, job := k.job.map fun j => { j with bars := vset j.bars 1 1 } }
/-- The same at the fabric level, with a device that nothing reaches, out of time. -/
def fabricGroup : List Byte := leBytes 4 0x10005 ++ leBytes 4 0 ++ leBytes 8 2 ++ leBytes 8 0x200 ++ leBytes 8 0 ++ [4, 7]
def fabric : State := ticked 1000 ((ganged (arrivedWith fabricGroup 4 0 0) true).modCtx 0 fun x =>
  { x with cr := { x.cr with dommask := x.cr.dommask.set 3 0x105 } })
/-- A counter at address 8 of a page whose tables stand in HBM. -/
def counting : State := withBytes 0x200800 (leBytes 8 0x00100001) (withBytes 0x100008 (leBytes 8 0x00101001)
  (withBytes 0x101000 (leBytes 8 0x80030073) base))
def counterAt (s : State) (root va k : Nat) : Bool :=
  va != 0 && s.pagePermits root va .amo && match s.walk root va with
    | none => false
    | some w => !(w.pub.isNone && (w.frame + (va - w.va)) / 2 ^ 48 == 2) && (s.placeIn w va 8 .amo false .visible).2 == 0
      && s.keyOf (s.placeIn w va 8 .amo false .visible).1 == k && !s.badData k 8
theorem counterAt_of {s : State} {root va k : Nat} (h : counterAt s root va k = true) : Claims.CounterAt s root va k := by
  simp only [counterAt, Bool.and_eq_true] at h
  obtain ⟨⟨h1, h2⟩, h3⟩ := h
  split at h3
  · cases h3
  · next w hw =>
    simp only [Bool.and_eq_true, beq_iff_eq, Bool.not_eq_true'] at h3
    obtain ⟨⟨⟨h4, h5⟩, h6⟩, h7⟩ := h3
    refine ⟨by simpa using h1, h2, w, _, hw, fun hn => ?_, Prod.ext rfl h5, h6, h7⟩
    rw [hn.1, hn.2] at h4
    exact absurd h4 (by decide)

theorem witness_BarrierAndFabricEvents :
    ((gangArrived.core 0).job.isSome = true ∧ (gangArrived.ctx 0).bar = arrivedAt 1 0 0
      ∧ gangArrived.complete 0 1 0 0 = true ∧ (ganged none true).complete 0 1 0 0 = false)
    ∧ ((fabric.ctx 0).bar = arrivedWith fabricGroup 4 0 0 ∧ (fabric.core 0).phase = .running ∧ fabric.fabricOthers 0 = some (1, [4, 7])
      ∧ 0 + 100 * 1 < Claims.now fabric ∧ fabric.route 7 = none ∧ (fabric.core 0).job.isSome = true)
    ∧ Claims.InFabricGroup fabric 5 0
    ∧ (fabric.dev.remapGo = false ∧ (fabric.modDev fun d => { d with remapGo := true }).dev.remapGo = true)
    ∧ Claims.SavedInGroup 5 { kept with state := 1, job := { job0 with tk := { job0.tk with gang := true } }, ctx := fabric.ctx 0 }
    ∧ ((base.modDev fun d => { d with cxlList := 0x80 }).dev.cxlList.getLsbD 7 = true ∧ base.dev.cxlDown.getLsbD 7 = false)
    ∧ (base.modDev fun d => { d with routes := [(7, 0)] }).route 7 ≠ none
    ∧ Claims.Reaches base (2 ^ 39 + 0xFFFFF) 1 ∧ Claims.Reaches base 0 64 ∧ base.badData (remoteKey 0) 8 = false
    ∧ (base.modDev fun d => { d with fetchAdds := [default] }).dev.fetchAdds = [default]
    ∧ Claims.CounterAt counting 0x200000 0x004000201230 0x80031230 := by
  exact ⟨⟨by decide, by decide, by decide +kernel, by decide +kernel⟩, ⟨by decide, by decide, by decide +kernel, by decide, by decide, by decide⟩,
    ⟨0, _, rfl, by decide, by decide, by decide, by decide +kernel⟩, ⟨by decide, by decide⟩, ⟨by decide, rfl, by decide, by decide⟩, by decide, by decide,
    ⟨by decide +kernel, by decide +kernel⟩, ⟨by decide +kernel, by decide +kernel⟩, by decide +kernel, by decide,
    counterAt_of (by decide +kernel)⟩


/-- The machine up with no job; core 5 of cluster 1 by its command fields; a go bit with a selection. -/
def up : State := State.reset
def go : W64 := 0x8000000000000000
def impV (op phys : Nat) : W64 := go + BitVec.ofNat 64 (op * 2 ^ 56 + 5 * 2 ^ 42 + 63 * 2 ^ 32 + phys)
/-- The entry that an imposition command names, unavailable and soft-repaired. -/
def impOut : State := up.modCore 53 fun k => { k with imp := vset k.imp 63 ⟨false, false, 63⟩, softMask := 0x8000000000000000 }
def pubRecord : List Byte := leBytes 8 3 ++ leBytes 8 0 ++ leBytes 8 1 ++ leBytes 8 0x10000 ++ leBytes 8 0x20000 ++ leBytes 24 0

theorem up_core (c : CoreId) : up.core c = Core.reset := reset_core 0 c
theorem up_cluster (cl : ClusterId) : up.cluster cl = Cluster.reset := reset_cluster 0 cl
theorem quiet_reset (i : Inval) (c : CoreId) : up.usesSelection i c = false := by
  unfold State.usesSelection State.ctx
  rw [up_core]
  show (_ && false || false) = false
  rw [Bool.and_false, Bool.or_false]

theorem witness_TableCommandEvents :
    Claims.Up up ∧ Claims.Go go ∧ up.dev.inval = none ∧ fld go.toNat 0 2 = 0 ∧ fld (go + 3).toNat 0 2 = 3 ∧ fld (go + 1).toNat 0 2 = 1
    ∧ fld (go + 2).toNat 0 2 = 2
    ∧ ((up.modDev fun d => { d with inval := some default }).dev.inval = some default ∧ (∀ c, up.usesSelection default c = false)
      ∧ ∀ k d, d ∈ (up.cluster k).allCmds → ∀ e ∈ d.pages, (default : Inval).selects e = false)
    ∧ (Claims.ImpStarts up 1 (impV 0 67) 0 ∧ Claims.PhysFree up 1 (impV 0 67)) ∧ ¬Claims.PhysFree up 1 (impV 0 7)
    ∧ (Claims.ImpStarts up 1 (impV 1 67) 1 ∧ Claims.PhysFree up 1 (impV 1 67))
    ∧ (Claims.ImpStarts impOut 1 (impV 2 67) 2 ∧ Claims.PhysFree impOut 1 (impV 2 67)
      ∧ (vget (impOut.core (Claims.impCore 1 (impV 2 67))).imp 63).av = false
      ∧ (impOut.core (Claims.impCore 1 (impV 2 67))).softMask.getLsbD 63 = true)
    ∧ (Claims.ImpStarts up 1 (impV 3 0) 3
      ∧ let k := up.core (Claims.impCore 1 (impV 3 0))
        namedByOther k (fld (impV 3 0).toNat 32 6) (vget k.fuse (fld (impV 3 0).toNat 32 6)).toNat = false)
    ∧ (4 ≤ fld (impV 4 0).toNat 56 3 ∧ (up.cluster 1).impGo = false)
    ∧ ((up.modCluster 1 fun k => { k with impDone := some (53, ⟨true, true, 67⟩, false) }).cluster 1).impDone = some (53, ⟨true, true, 67⟩, false)
    ∧ (up.dev.remapGo = false ∧ go.getLsbD 9 = false ∧ (go + 0x200).getLsbD 9 = true)
    ∧ (up.modDev fun d => { d with remapGo := true }).dev.remapGo = true
    ∧ (let s := up.modDev fun d => { d with remapGo := true, bamaddr := 1 };
      s.dev.remapGo = true ∧ Memory.wf s.mem = true ∧ s.dev.fqwait = [] ∧ s.dev.bamaddr ≠ 0)
    ∧ (up.dev.bamaddr = 0 ∧ Memory.wf up.mem = true ∧ fld (0x80 : W64).toNat 7 45 ≠ 0)
    ∧ (let s := withBytes (64 * 255) pubRecord up
      ¬Claims.Go 0xFF ∧ s.dev.remapGo = false ∧ blockNat (readCells s.mem (s.dev.ptbase.toNat * 2 ^ 14 + 64 * 255) 64) 0 4 % 2 = 1
        ∧ (parsePub (readCells s.mem (s.dev.ptbase.toNat * 2 ^ 14 + 64 * 255) 64)).ok = true
        ∧ s.badData (s.dev.ptbase.toNat * 2 ^ 14 + 64 * 255) 64 = false)
    ∧ (Claims.Go (go + 5) ∧ waitedPub.publishing ((go + 5).toNat % 256) = true ∧ base.publishing ((go + 5).toNat % 256) = false) := by
  unfold Claims.ImpStarts Claims.PhysFree Claims.Up Claims.Go
  refine ⟨by decide, by decide, by decide, by decide, by decide, by decide, by decide, ⟨by decide, fun c => quiet_reset _ c, fun k d h => by rw [up_cluster] at h; exact nomatch h⟩,
    ⟨by decide +kernel, by decide +kernel⟩, by decide +kernel, ⟨by decide +kernel, by decide +kernel⟩,
    ⟨by decide +kernel, by decide +kernel, by decide +kernel, by decide +kernel⟩, ⟨by decide +kernel, by decide +kernel⟩, ⟨by decide, by decide⟩,
    by decide, by decide, by decide, by decide, by decide, by decide +kernel, by decide +kernel⟩

/-- A job command for core 0, and its fields for a slot. -/
def jobV (op : Nat) : W64 := go + BitVec.ofNat 64 (op * 2 ^ 60)
def haltable : State := base.modCluster 0 fun k => { k with spcount := 1 }
theorem haltable_members : haltable.members 0 = [0] := rfl
def ringed : State := up.modDev fun d => { d with fqwait := [⟨[], release⟩], fqhead := 1 }
def slotted : State := base.modCluster 0 fun k => { k with slots := [(0, kept)] }

def remapping : State := base.modDev fun d => { d with remapGo := true }
/-- An invalidation runs, and cluster 0 has a used slot. -/
def invaling : State := slotted.modDev fun d => { d with inval := some default }

theorem witness_HostAccessEvents :
    Claims.Up base ∧ Memory.wf base.mem = true
    ∧ (base.bar2Ok 0 64 .write = true ∧ base.bar2Ok 0 64 .read = true ∧ base.keyWaits (base.keyOfPa (base.dev.winbase.toNat * 2 ^ 36 + 0)) 64 = false)
    ∧ (remapping.bar2Ok 0 64 .write = true ∧ remapping.bar2Ok 0 64 .read = true
      ∧ remapping.keyWaits (remapping.keyOfPa (remapping.dev.winbase.toNat * 2 ^ 36 + 0)) 64 = true)
    ∧ (base.bar2Ok (2 ^ 36) 1 .write = false ∧ base.bar2Ok (2 ^ 36) 1 .read = false)
    ∧ base.stale ⟨base.keyOfPa (base.dev.winbase.toNat * 2 ^ 36), 64, 8, false⟩
        ((base.outerView hostObs).bound ⟨base.keyOfPa (base.dev.winbase.toNat * 2 ^ 36), 64, 8, false⟩) = false
    ∧ (base.dev.inval = none ∧ invaling.dev.inval ≠ none ∧ (base.cluster 0).slots = [] ∧ (invaling.cluster 0).slots ≠ [])
    ∧ remapping.dev.remapGo = true
    ∧ ((base.cluster 0).queues.get 7).owner = false ∧ (7 : Nat) < 8 ∧ base.dev.fqwait = []
    ∧ (ringed.dev.fqwait = [⟨[], release⟩] ∧ ringed.dev.remapGo = false ∧ (ringed.dev.fqtail.toNat + 1) % ringed.dev.fqSlots ≠ (5 : W64).toNat % 2 ^ 16)
    ∧ (Claims.JobCommand haltable 0 (jobV 0) 0 ∧ fld (jobV 0).toNat 42 6 < 48 ∧ (haltable.core (Claims.jobCore 0 (jobV 0))).job ≠ none
      ∧ haltable.slotsSuffice [0] = true)
    ∧ (Claims.JobCommand base 0 (jobV 1) 1 ∧ (base.core (Claims.jobCore 0 (jobV 1))).job ≠ none)
    ∧ (Claims.JobCommand up 0 (jobV 1) 1 ∧ (up.core (Claims.jobCore 0 (jobV 1))).job = none)
    ∧ (48 ≤ fld (jobV 0 + BitVec.ofNat 64 (48 * 2 ^ 42)).toNat 42 6)
    ∧ (Claims.JobCommand slotted 0 (jobV 2) 2 ∧ slotted.haltedAt 0 0 = some kept ∧ fld (jobV 2).toNat 27 5 < 24
      ∧ (vget (slotted.cluster (clusterAt 0)).queues 0).rootAddr = kept.job.root
      ∧ (vget (slotted.cluster (clusterAt 0)).queues 0).resume.length + (slotted.haltedGroup 0 0 kept).length ≤ 64)
    ∧ Claims.JobCommand slotted 0 (jobV 3) 3 ∧ Claims.JobCommand up 0 (jobV 4) 4 := by
  unfold Claims.Up Claims.JobCommand Claims.Up Claims.Go
  exact ⟨by decide, by decide, by decide +kernel, by decide +kernel, by decide +kernel, by decide +kernel, ⟨by decide, by decide, by decide, by decide⟩,
    by decide, by decide, by decide, by decide, ⟨by decide, by decide, by decide⟩,
    ⟨by decide, by decide, by decide, by decide +kernel⟩, ⟨by decide, by decide⟩, ⟨by decide, by decide⟩, by decide,
    ⟨by decide, rfl, by decide, by decide, by decide⟩, by decide, by decide⟩

/-- A mailbox command with ARG cluster 1; that cluster in a state; an item of kind 1 at the start of the host's window. -/
def mailV (n : Nat) : W64 := go + BitVec.ofNat 64 (0x10000 + n)
def inState (x : Service) : State := up.modCluster 1 fun k => { k with service := x }
def itemed (kind : Nat) : State := withBytes (mailBase + 0x1000) (leBytes 8 0x100 ++ leBytes 4 64 ++ leBytes 4 kind) (inState .drained)
def item0 : List Byte := leBytes 64 0
/-- The rollback counter above the item's version: it does not verify. -/
def rolledBack : State := (itemed 1).modDev fun d => { d with mail := { d.mail with rollback := Config.itemVersion item0 + 1 } }

def asleep : State := up.modCore 48 fun k => { k with power := .gated }
/-- An item that the remapping step holds. -/
def waitingItem : State := (itemed 0).modDev fun d => { d with remapGo := true }
theorem witness_MailboxEvents :
    (∀ n, n ≤ 10 → Claims.MailCommand up (mailV n) n) ∧ Memory.wf up.mem = true ∧ Claims.ArgCluster (mailV 3) 1
    ∧ (up.cluster 1).service = .inService ∧ ((inState .draining).cluster 1).service = .draining
    ∧ (∀ c, clusterOf c = 1 → ((inState .draining).core c).job = none) ∧ ((inState .drained).cluster 1).service = .drained ∧ ((inState .testing).cluster 1).service = .testing
    ∧ (itemed 0).mailItem = some (item0, 0) ∧ (itemed 1).mailItem = some (item0, 1)
    ∧ ((itemed 2).mailItem = some (item0, 2) ∧ Claims.MailCommand (itemed 2) (mailV 7) 7) ∧ tableOk (parseTable item0) = false
    ∧ tableOk (parseTable ((upTo 4).map fun i => leBytes 1 i ++ leBytes 3 0 ++ leBytes 2 104 ++ leBytes 58 0).flatten) = true
    ∧ (Config.verifies item0 = true → itemGood (itemed 1).dev.mail item0 = true)
    ∧ itemGood rolledBack.dev.mail item0 = false ∧ fld (mailV 8).toNat 16 8 < 8 ∧ Claims.MailCommand up (mailV 11) 11
    ∧ 24 ≤ fld (go + BitVec.ofNat 64 (24 * 65536 + 3)).toNat 16 8
    ∧ (leNat (readCells (withBytes (mailBase + 0x1000) [1] up).mem (mailBase + 0x1000) 8)).testBit 0 = true ∧ (Claims.FreeCore up 48 ∧ (up.core 48).power = .on ∧ (up.core 48).reserved = none)
    ∧ (waitingItem.itemWaits = true ∧ (itemed 0).itemWaits = false ∧ up.itemWaits = false)
    ∧ ((up.cluster 1).service ≠ .drained ∧ (up.cluster 1).service ≠ .testing)
    ∧ ¬Claims.Gateable base 0 ∧ Claims.MailCommand up (mailV 10) 10
    ∧ (((asleep).core 48).power = .gated ∧ (asleep.core 48).tripped = false ∧ clusterOf 48 = 1) := by
  unfold Claims.MailCommand Claims.Up Claims.Go Claims.ArgCluster Claims.Gateable Claims.FreeCore
  refine ⟨by decide, by decide, by decide, by decide, by decide, fun c _ => ?_, by decide, by decide, by decide +kernel,
    by decide +kernel, ⟨by decide +kernel, by decide⟩, by decide +kernel, by decide +kernel, fun h => ?_, ?_, by decide, by decide, by decide, by decide +kernel,
    ⟨⟨by decide, by decide, by decide, by decide, by decide, by decide, by decide +kernel⟩, by decide, by decide⟩,
    by decide +kernel, by decide, (fun h => nomatch h.1.1), by decide, by decide, by decide, by decide⟩
  · rw [show (inState .draining).core c = up.core c from rfl, up_core]; rfl
  · unfold itemGood
    rw [h, show (itemed 1).dev.mail.rollback = 0 from rfl]
    simp
  · unfold itemGood
    rw [show decide (rolledBack.dev.mail.rollback ≤ Config.itemVersion item0) = false from
      decide_eq_false (Nat.not_le.2 (Nat.lt_succ_self _))]
    exact Bool.and_false _

/-- A boot from step 1; and its rest, from step 3. -/
def bootFrom (n : Nat) : BootData := { (default : BootData) with start := n, stop := 7 }
/-- The last core that the boot sequence called is being tested. -/
def lastTest : State := (up.modCore 5 fun k => { k with power := .waking }).modDev fun d => { d with boot := .running 8 }
theorem lastTest_others (d : CoreId) (h : d ≠ 5) : (lastTest.core d).power = .on ∨ (lastTest.core d).power = .gated := by
  rw [show lastTest.core d = (up.modCore 5 fun k => { k with power := .waking }).core d from rfl,
    State.core_modCore_ne _ _ fun e => h e.symm, up_core]
  exact .inl rfl
theorem witness_ResetEvents :
    Memory.wf up.mem = true ∧ (bootFrom 0).start = 0 ∧ (0 < 3 ∧ 3 ≤ 7 ∧ (bootFrom 3).start = 3)
    ∧ (up.modDev fun d => { d with boot := .running 3 }).dev.boot = .running 3
    ∧ (lastTest.dev.boot = .running 8 ∧ (lastTest.core 5).power = .waking
      ∧ ∀ d, d ≠ 5 → (lastTest.core d).power = .on ∨ (lastTest.core d).power = .gated)
    ∧ ((bootFrom 3).start ≠ 0 ∧ up.dev.boot ≠ .running (bootFrom 3).start)
    ∧ up.dev.boot ≠ .failed 1 ∧ (up.modDev fun d => { d with boot := .failed 1 }).dev.boot = .failed 1
    ∧ Claims.MailCommand up (mailV 2) 2 := by
  unfold Claims.MailCommand Claims.Up Claims.Go
  exact ⟨by decide, by decide, by decide, by decide, ⟨by decide, by decide, lastTest_others⟩, by decide, by decide, by decide,
    by decide⟩

theorem witness_DecodeWords : (0x7FFFFFFF : W32).getLsbD 31 = false := by decide

theorem witness_DecodeEncode : (Instr.add r).eng = some .s ∧ (Instr.add { r with fd := 31, fa := 31, fb := 31 }).wf = true
    ∧ (Instr.patch .p 63 31 0xFFFF).eng = some .p ∧ (Instr.patch .p 63 31 0xFFFF).wf = true
    ∧ (Instr.hint .c 0x7F w0).eng = some .c ∧ (Instr.hint .c 0x7F w0).wf = true := by decide

/-- A turn of S of core 0 at the last word of its memory, and past it; a turn of an event. -/
def turning (t : Turn) (pc : W64) : State := { (with_ fun x => x.modStream .s fun q => { q with pc := pc }) with sched := [t] }
/-- A word of S at address 0 with a push to V waits to retire, V's FIFO holding some entries. -/
def parkedWord : Done := ⟨0, 8, 2, none, none, none⟩
def parking (l : List Entry) : State := with_ fun x => fifo .s .v l (x.modStream .s fun r => { r with done := some parkedWord })
theorem witness_StepRunsDecodedInstruction :
    ((turning (.issue 0 .s) 0x3FF8).takeTurn = (.issue 0 .s, turning (.issue 0 .s) 0x3FF8 |> fun s => { s with sched := [] })
      ∧ ¬(Claims.now base % 400 = 0 ∧ Claims.now base / 400 < base.dev.intervalDone)
      ∧ (base.core 0).phase = .running ∧ ((base.ctx 0).stream .s).st = .running ∧ (base.ctx 0).trapping = none
      ∧ base.stopsNow 0 = false ∧ (base.core 0).refresh.pendingTrap = none ∧ ((base.ctx 0).stream .s).parked = none
      ∧ base.fetchFits 0 .s 0x3FF8 = true ∧ base.badData (imemKey 0 .s 0x3FF8) 8 = false
      ∧ decode .s (readCells base.mem (imemKey 0 .s 0x3FF8) (base.wordLen 0 .s 0x3FF8)) = .ok (decodeFull .s 0 0, []))
    ∧ (((parking []).ctx 0).stream .s).parked = some parkedWord ∧ pushReady .s 2 ((parking []).ctx 0) = true
    ∧ (((parking (List.replicate 8 none)).ctx 0).stream .s).parked = some parkedWord
    ∧ pushReady .s 2 ((parking (List.replicate 8 none)).ctx 0) = false
    ∧ base.fetchFits 0 .s 0x4000 = false ∧ (Instr.referenceTick).eng = none
    ∧ (turning (.event .referenceTick) 0).takeTurn = (.event .referenceTick, { turning (.event .referenceTick) 0 with sched := [] })
    ∧ (let s := core0 fun k => { k with stopReq := some true }
      (s.ctx 0).trapping = none ∧ s.stopsNow 0 = true)
    ∧ (let s := trappedV id
      (s.ctx 0).trapping = some ⟨.v, Trap.plain 0x20 0, false⟩ ∧ (s.core 0).pwr.susp = false ∧ unsettled (s.ctx 0) = false)
    ∧ (let s := base.modDev fun d => { d with intervalDone := 1 }
      Claims.now s % 400 = 0 ∧ Claims.now s / 400 < s.dev.intervalDone) := by
  refine ⟨⟨rfl, by decide, by decide, by decide, by decide, by decide +kernel, by decide, by decide, by decide +kernel, by decide +kernel, ?_⟩, by decide, by decide, by decide, by decide,
    by decide +kernel, rfl, rfl, by decide +kernel, by decide, by decide⟩
  rfl

theorem witness_StepKeepsMemoryCanonical :
    Memory.wf State.reset.mem = true ∧ (∃ t, step (State.reset.withFetchWord 64 0x0000000434200000) = .next t) :=
  ⟨by decide, _, rfl⟩


end Sys2Proof.Tests
end

section
/-! PROOFS. The encodings of chapter 03 (O56): a word written out is the word of an instruction when it is what the
instruction encodes to, and a patch word is read by its layout alone, whatever its reserved bits hold (03 R86). -/

namespace Sys2Proof.Encoding

open Sys2Proof.Laws

/-- The parcels a well-formed instruction encodes to are its word, since the decoder reads them back. -/
theorem wordIs_of_encode {i : Instr} {e : Eng} {p0 p1 : W32} (roundTrip : Codec.Statement i) (he : i.eng = some e)
    (hwf : i.wf = true) (henc : encode i = [p0, p1]) : Claims.WordIs e p0 p1 i := by
  have h := roundTrip e he hwf []
  rw [henc, List.append_nil] at h
  exact ⟨h, hwf⟩

/-- The layout of a patch word, with its reserved bits [19:16] at any value (03 R86). -/
def patchWord (tidx : BitVec 6) (fsel : BitVec 5) (reserved : BitVec 4) (value : BitVec 16) : W32 :=
  1#1 ++ tidx ++ fsel ++ reserved ++ value

section
variable (tidx : BitVec 6) (fsel : BitVec 5) (reserved : BitVec 4) (value : BitVec 16)

theorem patchWord_kind : bitAt (patchWord tidx fsel reserved value) 31 = true := by
  simp only [bitAt, patchWord, BitVec.getLsbD_append]
  rfl

theorem patchWord_tidx : (patchWord tidx fsel reserved value).extractLsb' 25 6 = tidx := by
  simp (disch := decide) only [patchWord, extract_low, extract_high]
  exact extract_all tidx

theorem patchWord_fsel : (patchWord tidx fsel reserved value).extractLsb' 20 5 = fsel := by
  simp (disch := decide) only [patchWord, extract_low, extract_high]
  exact extract_all fsel

theorem patchWord_value : (patchWord tidx fsel reserved value).extractLsb' 0 16 = value := by
  simp (disch := decide) only [patchWord, extract_low]
  exact extract_all value

/-- The fields of a patch word are read from their places and its reserved bits are ignored (03 R86). -/
theorem decodePatch_patchWord (e : Eng) : decodePatch e (patchWord tidx fsel reserved value) = .patch e tidx fsel value := by
  rw [decodePatch, patchWord_tidx, patchWord_fsel, patchWord_value]

theorem decode_patchWord (e : Eng) (rest : List Byte) :
    decode e (parcelBytes [patchWord tidx fsel reserved value] ++ rest) = .ok (.patch e tidx fsel value, rest) := by
  rw [decode_patch e _ (patchWord_kind ..), decodePatch_patchWord]

end

/-- A parcel of kind 0 is no word without a second (03 R83). -/
theorem decode_truncated (e : Eng) (p0 : W32) (h : bitAt p0 31 = false) : decode e (parcelBytes [p0]) = .error .truncated := by
  simp only [parcelBytes, decode, parcelOf_bytes, h, Bool.false_eq_true, if_false]

/-- Settles O56: each full word is what its instruction encodes to, so the codec's laws read it back; a patch word is
read by its layout, and a first parcel alone is no word. -/
theorem decodeWords : Obligations.DecodeWords := by
  unfold Obligations.DecodeWords
  refine ⟨?vfma, ?ld, ?call, ?launch, ?fork, ?mma, ?pup, ?cpy, ?ctksend, ?patch, ?patchFields, ?firstParcelAlone⟩
  case vfma => exact wordIs_of_encode (Codec.vfma _) rfl (by decide) (by decide)
  case ld => exact wordIs_of_encode (Codec.ld _) rfl (by decide) (by decide)
  case call => exact wordIs_of_encode (Codec.call _) rfl (by decide) (by decide)
  case launch => exact wordIs_of_encode (Codec.launch _) rfl (by decide) (by decide)
  case fork => exact wordIs_of_encode (Codec.fork _) rfl (by decide) (by decide)
  case mma => exact wordIs_of_encode (Codec.mma _) rfl (by decide) (by decide)
  case pup => exact wordIs_of_encode (Codec.pup _) rfl (by decide) (by decide)
  case cpy => exact wordIs_of_encode (Codec.cpy _) rfl (by decide) (by decide)
  case ctksend => exact wordIs_of_encode (Codec.ctksend _) rfl (by decide) (by decide)
  case patch =>
    have h : patchWord 5 12 0 0x18 = 0x8AC00018 := by decide
    rw [← h]
    exact decode_patchWord 5 12 0 0x18 .s []
  case patchFields => exact fun e tidx fsel reserved value rest => decode_patchWord tidx fsel reserved value e rest
  case firstParcelAlone => exact decode_truncated

end Sys2Proof.Encoding
end

section
/-! PROOFS. S words that fall under row 4 of 03 R88, whatever their bodies are. -/

namespace Sys2Proof.Scalar

open Machine

/-- A word that comes to `issue` with its fields found illegal raises 0x01 at its address. -/
theorem illegal_of_issue {i : Instr} {e : Eng} {w : Common} {ok bad : Bool} (h : ok = false)
    (hexec : ∀ s, ∃ body, exec i s = .next (issue e w ok bad body s)) : Claims.Illegal i e := fun s => by
  obtain ⟨body, hb⟩ := hexec s
  rw [hb, h, issue_illegal, Claims.pcOf]

end Sys2Proof.Scalar
end

section
/-! PROOFS. S words with an immediate (04 R144; O2): each writes a value of its one source, or of none; the two LIH words put
the immediate in the place of one part of the register. -/

namespace Sys2Proof.ScalarImmediates

open Machine

/-- A word with the one source fa that writes a value of it. -/
theorem writes_fromSource {i : Instr} {w : Common} {ok : Bool} {fa fd : BitVec 6} {val : W64 → W64}
    (hexec : ∀ s, exec i s = .next (sIssue w ok [srcA w fa] (some fd)
      (fun k s => .retire none (s.writeS k.c fd (val (sfield (s.ctx k.c) fa)))) s)) (hwf : i.wf = ok) :
    SWrites i w [fa] fd fun x => val (sfield x fa) :=
  sIssue_writes hexec (fun h => hwf ▸ h)
    (fun r hr => ⟨fa, List.mem_singleton_self _, by rw [List.mem_singleton.1 hr]; rfl⟩) (fun _ _ => rfl)
    fun x y h => by simp only [sfield, sval, h]

/-- A word that runs as `sImmediate` completes with the result of its format. -/
theorem immediateOperand_of_exec {i : FRri → Instr} {val : FRri → W64 → Int}
    (hexec : ∀ f s, exec (i f) s = .next (sImmediate f (val f) s)) (hwf : ∀ f, (i f).wf = sRriOk f) :
    Claims.ImmediateOperand i val := fun f =>
  writes_fromSource (val := fun a => sResult f.fmt false (val f a)) (hexec f) (hwf f)

/-- LI has no source. -/
theorem li_writes (f : FRri) : SWrites (.li f) f.w [] f.fd fun _ => f.imm.signExtend 64 :=
  sIssue_writes (fun _ => rfl) id (fun _ hr => absurd hr List.not_mem_nil) (fun _ _ => rfl) fun _ _ _ => rfl

/-! The parts of a register that LIH replaces. -/

/-- Masked out and or-ed in, 24 bits stand at bit lo and above; the other bits stay. -/
theorem getLsbD_replaced {mask : W64} {lo i : Nat} (hmask : ∀ i < 64, mask.getLsbD i = decide (i < lo ∨ lo + 24 ≤ i))
    (a : W64) (m : BitVec 24) (hi : i < 64) : ((a &&& mask) ||| (m.zeroExtend 64 <<< lo)).getLsbD i
      = if lo ≤ i ∧ i < lo + 24 then m.getLsbD (i - lo) else a.getLsbD i := by
  have hm : m.getLsbD (i - lo) = true → i < lo + 24 := fun h => by have := BitVec.lt_of_getLsbD h; omega
  simp only [BitVec.getLsbD_or, BitVec.getLsbD_and, hmask i hi, BitVec.getLsbD_shiftLeft, BitVec.getLsbD_setWidth]
  split <;> grind

theorem middle_replaced (a : W64) (m : BitVec 24) : (a &&& (0xFFFF000000FFFFFF : W64)) ||| (m.zeroExtend 64 <<< 24)
    = (a.extractLsb' 48 16 ++ m ++ a.extractLsb' 0 24 : W64) := by
  refine BitVec.eq_of_getLsbD_eq fun i hi => ?_
  rw [getLsbD_replaced (by decide) a m hi, BitVec.getLsbD_append, BitVec.getLsbD_append]
  simp only [BitVec.getLsbD_extractLsb']
  grind

theorem high_replaced (a : W64) (m : BitVec 24) : (a &&& (0x0000FFFFFFFFFFFF : W64)) ||| (m.zeroExtend 64 <<< 48)
    = (m.extractLsb' 0 16 ++ a.extractLsb' 0 48 : W64) := by
  refine BitVec.eq_of_getLsbD_eq fun i hi => ?_
  rw [getLsbD_replaced (by decide) a m hi, BitVec.getLsbD_append]
  simp only [BitVec.getLsbD_extractLsb']
  grind

theorem lihM_writes (f : FRri) : SWrites (.lihM f) f.w [f.fa] f.fd fun x =>
    ((sfield x f.fa).extractLsb' 48 16 ++ f.imm ++ (sfield x f.fa).extractLsb' 0 24 : W64) := by
  simp only [← middle_replaced]
  exact writes_fromSource
    (val := fun a => (a &&& (0xFFFF000000FFFFFF : W64)) ||| (f.imm.zeroExtend 64 <<< 24)) (fun _ => rfl) rfl

theorem lihH_writes (f : FRri) : SWrites (.lihH f) f.w [f.fa] f.fd fun x =>
    (f.imm.extractLsb' 0 16 ++ (sfield x f.fa).extractLsb' 0 48 : W64) := by
  simp only [← high_replaced]
  exact writes_fromSource
    (val := fun a => (a &&& (0x0000FFFFFFFFFFFF : W64)) ||| (f.imm.zeroExtend 64 <<< 48)) (fun _ => rfl) rfl

/-- LIH replaces no part but the two (04 R144). -/
theorem lihM_illegal {f : FRri} (h : 2 ≤ f.sub.toNat) : Claims.Illegal (.lihM f) .s :=
  Scalar.illegal_of_issue (by simp [lihOk, show ¬f.sub.toNat ≤ 1 by omega]) fun _ => ⟨_, rfl⟩

/-- Settles O2: seven words run as `sImmediate`; LI reads no register; LIH replaces one part of its source, and with a sub
value of neither part it fails the check of row 4. -/
theorem scalarImmediatesRetire : Obligations.ScalarImmediatesRetire := by
  unfold Obligations.ScalarImmediatesRetire
  refine ⟨?addi, ?andi, ?ori, ?xori, ?shli, ?shri, ?srai, li_writes, lihM_writes, lihH_writes, fun _ => lihM_illegal⟩
  all_goals exact immediateOperand_of_exec (fun _ _ => rfl) fun _ => rfl

end Sys2Proof.ScalarImmediates
end

section
/-! PROOFS. The token and template words of S (04 R150–R152; O16). -/

namespace Sys2Proof.ScalarTokens

open Machine

/-! The effect of writing a template. -/

/-- Entry i of the template table of engine e written, its code fresh (04 R152). -/
def setTemplate (e : Eng) (i : Nat) (v : W64) (y : Ctx) : Ctx :=
  { y.modStream e fun r => { r with tmpl := vset r.tmpl i v } with errs := y.errs.filter fun m => m.1 != .tmpl e i }

section
variable (e : Eng) (i : Nat) (v : W64)

theorem setTemplate_stream (y : Ctx) (d : Eng) : (setTemplate e i v y).stream d
    = if e = d then { y.stream d with tmpl := vset (y.stream d).tmpl i v } else y.stream d := by
  change (y.modStream e fun r => { r with tmpl := vset r.tmpl i v }).stream d = _
  split
  · next h => rw [h, Ctx.stream_modStream]
  · next h => exact Ctx.stream_modStream_ne y _ h

theorem setTemplate_loops (y : Ctx) (d : Eng) : loopsOf (setTemplate e i v y) d = loopsOf y d :=
  loopsOf_congr (by rw [setTemplate_stream]; split <;> rfl) rfl rfl

/-- Writing a template commutes with what a pop and corrected marks change. -/
theorem sameBut_setTemplate {d : Eng} {x y : Ctx} (h : SameBut d x y) :
    SameBut d (setTemplate e i v x) (setTemplate e i v y) := by
  refine ⟨?rest, fun b hb => ?streams, ?st, ?tmpl, ?orders, h.bank, h.turn⟩
  case rest =>
    obtain ⟨_, _, _, _, _, _, _, rfl⟩ := h.form
    rfl
  case streams => rw [setTemplate_stream, setTemplate_stream, h.streams b hb]
  case st => rw [setTemplate_stream, setTemplate_stream]; split <;> exact h.st
  case tmpl =>
    rw [setTemplate_stream, setTemplate_stream]
    split
    · exact congrArg (vset · i v) h.tmpl
    · exact h.tmpl
  case orders => rw [setTemplate_stream, setTemplate_stream]; split <;> exact h.orders

theorem effect_setTemplate {w : Common} {x x1 : Ctx} (h : Taken .s w x x1) :
    Effect .s x1 (setTemplate e i v x) (setTemplate e i v x1) := by
  refine ⟨sameBut_setTemplate e i v h.same, rfl, ?loops, h.v, ?stands, .inr ?view, fun m hm => ?marks,
    fun m hm hd => ?doubles⟩
  case loops => rw [setTemplate_loops, setTemplate_loops, h.loops]
  case stands => rw [setTemplate_stream]; split <;> exact ⟨rfl, rfl⟩
  case view => rw [setTemplate_stream]; split <;> rfl
  case marks =>
    obtain ⟨h1, h2⟩ := List.mem_filter.1 hm
    exact List.mem_filter.2 ⟨h.marks m h1, h2⟩
  case doubles =>
    obtain ⟨h1, h2⟩ := List.mem_filter.1 hm
    exact List.mem_filter.2 ⟨h.doubles m h1 hd, h2⟩

end

/-! The words. -/

/-- The engine code in imm12[2:0], by its value. -/
theorem srcCode_eq (f : FSys) : srcCode f = f.imm12.toNat % 8 := by simp [srcCode, fld]

theorem tokenS_eq (got : Option Entry) : tokenS got = match got with
    | some (some v) => v.zeroExtend 64
    | _ => 0x100000000 := by
  match got with
  | none => rfl
  | some none => rfl
  | some (some v) => exact BitVec.ofNat_toNat 64 v

theorem awaiting_taken {e : Eng} {w : Common} {x y : Ctx} (h : Taken e w x y) (src d : Eng) :
    y.awaiting src d = x.awaiting src d := by
  simp only [Ctx.awaiting, h.same.fields.2.2.2.2.2.2.1]

theorem tksend_completes (f : FSys) : Completes (.tksend f) .s f.w (SRegs f.w [f.fa] [])
    (fun s => some ((sfield (s.ctx s.cur) f.fa).truncate 32)) fun _ s => s :=
  sIssue_completes (fun _ => rfl) id
    (fun s hr => hr.ready (fun r h => ⟨f.fa, by simp, by rw [List.mem_singleton.1 h]; rfl⟩) (by simp))
    fun s got _ _ => Comes.nothing fun x1 ht => by simp only [wordNow, State.ctx_modCtx, sfield_taken ht]

theorem tkrecv_completes (f : FSys) : Completes (.tkrecv f) .s f.w (SRegs f.w [] [f.fd]) (fun _ => none)
    fun got s => s.writeS s.cur f.fd (match got with
      | some (some v) => v.zeroExtend 64
      | _ => 0x100000000) :=
  sIssue_completes (fun _ => rfl) id (fun s hr => hr.ready (by simp) (by simp)) fun s got _ _ => Comes.writeS fun x1 _ => by
    rw [← tokenS_eq]
    simp [State.writeS, wordNow]

theorem tkrecvD_completes (f : FSys) {e : Eng} (he : Eng.ofCode (f.imm12.toNat % 8) = some e) :
    Completes (.tkrecvD f) .s f.w (fun s => SRegs f.w [] [f.fd] s ∧ (s.ctx s.cur).awaiting e .s = false) (fun _ => none)
      fun _ s => s.issuePend s.cur ⟨.s, f.fd.toNat, 1, 0, 0, none, .token e 0⟩ :=
  sIssue_completes (fun _ => rfl) id (fun s hr => hr.1.ready (by simp) (by simp)) fun s got hr _ => by
    rw [State.issuePend_is]
    refine Comes.ofCtx fun x1 ht => ⟨_, ?_, .deferred ht _ rfl⟩
    simp [wordNow, srcCode_eq, he, awaiting_taken ht, hr.2, State.issuePend_is]

/-- The entry of a template table that a TMSET names: cr[5:0], or s[fb] (04 R152). -/
def templateIndex (f : FSys) (x : Ctx) : Nat := if f.sub = 1 then (sfield x f.fb).toNat % 64 else f.cr.toNat % 64

theorem templateIndex_taken (f : FSys) {w : Common} {x y : Ctx} (h : Taken .s w x y) :
    templateIndex f y = templateIndex f x := by
  rw [templateIndex, sfield_taken h, templateIndex]

theorem tmset_sources (f : FSys) : ∀ r ∈ srcA f.w f.fa :: (if f.sub = 1 then [srcB f.w f.fb] else []),
    ∃ g ∈ f.fa :: (if f.sub = 1 then [f.fb] else []), r.reg = g.toNat := by
  split <;> simp [srcA, srcB]

theorem tmset_completes (f : FSys) {e : Eng} (he : Eng.ofCode (f.imm12.toNat % 8) = some e) :
    Completes (.tmset f) .s f.w (SRegs f.w (f.fa :: if f.sub = 1 then [f.fb] else []) []) (fun _ => none) fun _ s =>
      s.modCtx s.cur (setTemplate e (templateIndex f (s.ctx s.cur)) (sfield (s.ctx s.cur) f.fa)) :=
  sIssue_completes (fun _ => rfl) id (fun s hr => hr.ready (tmset_sources f) (by simp)) fun s got _ _ =>
    Comes.ofCtx fun x1 ht => by
      refine ⟨_, ?_, effect_setTemplate _ _ _ ht⟩
      rw [← templateIndex_taken f ht, ← sfield_taken ht]
      simp only [wordNow, srcCode_eq, he, State.ctx_modCtx, State.modCtx_modCtx]
      rfl

/-- TKSEND has a push (04 R150). -/
theorem tksend_illegal {f : FSys} (h : f.w.push = 0) : Claims.Illegal (.tksend f) .s :=
  Scalar.illegal_of_issue (by simp [tksendOk, h]) fun _ => ⟨_, rfl⟩

/-- The engine, sub and index fields of a TMSET outside their ranges (04 R152). -/
theorem tmset_illegal {f : FSys} (h : f.imm12.toNat % 8 = 0 ∨ 6 ≤ f.imm12.toNat % 8 ∨ 2 ≤ f.sub.toNat
    ∨ (f.sub = 0 ∧ 64 ≤ f.cr.toNat)) : Claims.Illegal (.tmset f) .s := by
  refine Scalar.illegal_of_issue ?_ fun _ => ⟨_, rfl⟩
  rcases h with h | h | h | ⟨hs, hc⟩
  · simp [tmsetOk, srcCode_eq, h]
  · simp [tmsetOk, srcCode_eq, show ¬f.imm12.toNat % 8 ≤ 5 by omega]
  · have hsub (k : BitVec 2) (hk : k.toNat < 2) : (f.sub == k) = false := by
      rw [beq_eq_false_iff_ne]
      rintro rfl
      omega
    simp only [tmsetOk, hsub 0 (by decide), hsub 1 (by decide), Bool.false_and, Bool.or_self, Bool.and_false]
  · have hf : fld f.cr.toNat 6 6 ≠ 0 := by
      have := f.cr.isLt
      simp only [fld]
      omega
    simp [tmsetOk, hs, hf]

/-- Settles O16: each word by what its body comes to, TKRECV.d by the deferred write and TMSET by the template entry that is
the effect; the illegal forms fail the check of row 4; a failing guard skips the body of all four. -/
theorem scalarTokenWordsComplete : Obligations.ScalarTokenWordsComplete := fun f =>
  ⟨tksend_completes f, tkrecv_completes f, fun _ => tkrecvD_completes f, fun _ => tmset_completes f, tksend_illegal,
    tmset_illegal, sIssue_skips (fun _ => rfl) id, sIssue_skips (fun _ => rfl) id, sIssue_skips (fun _ => rfl) id,
    sIssue_skips (fun _ => rfl) id⟩

end Sys2Proof.ScalarTokens
end

section
/-! PROOFS. Illegal words and their tokens (O27): the fault of a VQNT whose scale register is its destination is found only
after its pop (05 R190; 03 R88 row 8), though `Instr.wf` counts the word as illegal. -/

namespace Sys2Proof.IllegalWords

open Machine

/-- A VQNT with legal fields waits for its pop, whatever its registers are. -/
theorem vqnt_waits {f : FRrr} {s : State} (hok : vqntOk f = true) (h : PopWaits .v f.w (s.ctx s.cur)) :
    exec (.vqnt f) s = .next s := by
  show Host.Outcome.next (vIssue f.w (vqntOk f) false _ _ _ s) = _
  simp only [hok, vIssue, issue, takePop_waits h, Bool.not_true, Bool.false_eq_true, if_false]

/-- A fault of an engine of a core that cannot trap ends the job, its stream Faulted (13 R409). -/
theorem raise_faulted {c : CoreId} {e : Eng} {t : Trap} {s : State} (hno : (s.ctx c).trapping = none)
    (hen : trapEn (s.ctx c) = false) : (((raise c e t s).ctx c).stream e).st = .faulted := by
  simp [raise, hno, hen]

/-- VQNT v0, v0 with its scale in v0 too, of format 5, its pop from S; as its two parcels stand in memory. -/
def sameScale : FRrr := rrrOf 0x0D000000 0x04014000

theorem sameScale_decodes : decodeFull .v 0x0D000000 0x04014000 = .vqnt sameScale := rfl

theorem sameScale_not_wf : Instr.wf (.vqnt sameScale) = false := by decide

/-- The machine at reset but for the V stream of the core in turn, which runs. -/
def runningV : State := State.reset.modCtx State.reset.cur fun x => x.modStream .v fun r => { r with st := .running }

/-- The FIFO from S to V is empty, so the word waits for its pop. -/
theorem sameScale_waits : exec (.vqnt sameScale) runningV = .next runningV :=
  vqnt_waits (by decide) ⟨.s, rfl, rfl, .inr rfl⟩

/-- Refutes O27: a VQNT with aux = fd is no well-formed word, but its pop comes before its fault, so at an empty FIFO it
waits, its stream Running, and raises nothing. -/
theorem not_noOperationsAndIllegalWords : ¬ Obligations.NoOperationsAndIllegalWords := by
  rintro ⟨-, -, -, illegal⟩
  obtain ⟨code, -, hraise⟩ := illegal .v 0x0D000000 0x04014000 runningV sameScale_not_wf
  rw [sameScale_decodes, sameScale_waits] at hraise
  have hst := congrArg (fun s : State => ((s.ctx runningV.cur).stream .v).st) (Host.Outcome.next.inj hraise)
  have hf : ((runningV.ctx runningV.cur).stream .v).st = .faulted := hst.trans (raise_faulted (by decide) (by decide))
  exact absurd hf (by decide)

end Sys2Proof.IllegalWords
end

section
/-! PROOFS. The integer, bitwise, shift, compare, select and move words of V (05 R181–R185; O31): each writes a register or a
predicate with what it reads of V's state, and a word whose sub has no meaning fails the check of row 4. -/

namespace Sys2Proof.VectorIntegers

open Machine

/-! What a lane reads. -/

/-- The elements of every register are a part of V's state. -/
theorem vElem_of_v {x y : Ctx} (h : x.v = y.v) : vElem x = vElem y := by
  funext r i
  simp only [vElem, vReg, h]

theorem int_of_v {f : FRrr} {x y : Ctx} (h : x.v = y.v) (r : BitVec 6) : Claims.int f r x = Claims.int f r y := by
  funext i
  simp only [Claims.int, vElem_of_v h]

theorem num_of_v {f : FRrr} {x y : Ctx} (h : x.v = y.v) (r : BitVec 6) : Claims.num f r x = Claims.num f r y := by
  funext i
  simp only [Claims.num, vElem_of_v h]

/-! Words that share a body. -/

/-- A word that runs as `vInt2` writes its operation, formed exactly, in the word's format (05 R181). -/
theorem lanes_of_vInt2 {i : FRrr → Instr} {op : Int → Int → Int} (hexec : ∀ f s, exec (i f) s = .next (vInt2 f op s))
    (hwf : ∀ f, (i f).wf = vIntOk f) : Claims.Lanes2 i fun f x k =>
      intElem f.fmt.toNat f.sat (op (Claims.int f f.fa x k) (Claims.int f f.fb x k)) := fun f =>
  vMap_writes (hexec f) (fun h => ⟨hwf f ▸ h, rfl⟩) rfl fun x y h => by
    simp only [vElem_of_v h, Claims.int]

/-- A word that runs as `vBit2` acts on lanes or on predicates, as its sub[0] says (05 R182). -/
theorem bits_of_vBit2 {i : FRrr → Instr} {plain : FRrr → Prop} {subMax : Nat} {vec : W32 → W32 → W32} {pr : W64 → W64 → W64}
    (hexec : ∀ f s, plain f → exec (i f) s = .next (vBit2 f subMax vec pr s))
    (hwf : ∀ f, (i f).wf = vBitOk subMax false f) : Claims.Bits2 i plain vec pr := by
  refine fun f hplain => ⟨fun hvec => ?vector, fun hpred => ?predicate⟩
  case vector =>
    exact vMap_writes (fun s => (hexec f s hplain).trans (congrArg Host.Outcome.next (if_neg (by simp [hvec]))))
      (fun h => ⟨hwf f ▸ h, rfl⟩) rfl fun x y h => by simp only [vElem_of_v h]
  case predicate =>
    exact vToPred_tests (fun s => (hexec f s hplain).trans (congrArg Host.Outcome.next (if_pos hpred)))
      (fun h => hwf f ▸ h) rfl fun x y h => by simp only [h]

/-- A word that runs as `vShiftBy` takes its amount from v[fb], which it then reads, or from aux (05 R182). -/
theorem shifts_of_vShiftBy {i : FRrr → Instr} {op : W32 → Nat → W32} (hexec : ∀ f s, exec (i f) s = .next (vShiftBy f op s))
    (hwf : ∀ f, (i f).wf = vShiftOk f) : Claims.Shifts i op := fun f =>
  vMap_writes (hexec f) (fun h => ⟨hwf f ▸ h, rfl⟩) (by split <;> rfl) fun x y h => by
    funext k
    simp only [vElem_of_v h, apply_ite (· % 32)]

/-! VAND.n and VNOT. -/

theorem vandn_writes {f : FRrr} (hsub : f.sub = 2) :
    VWrites (.vand f) f.w [(f.fa.toNat, id), (f.fb.toNat, id)] f.fd f.prf fun x i => vElem x f.fa i &&& ~~~(vElem x f.fb i) :=
  vMap_writes (fun _ => congrArg Host.Outcome.next (if_pos hsub)) (fun h => ⟨h, rfl⟩) rfl fun x y h => by
    simp only [vElem_of_v h]

theorem vnot_writes {f : FRrr} (hvec : predForm f = false) :
    VWrites (.vnot f) f.w [(f.fa.toNat, id)] f.fd f.prf fun x i => ~~~(vElem x f.fa i) :=
  vMap_writes (fun _ => congrArg Host.Outcome.next (if_neg (by simp [hvec]))) (fun h => ⟨h, rfl⟩) rfl fun x y h => by
    simp only [vElem_of_v h]

theorem vnot_tests {f : FRrr} (hpred : predForm f = true) :
    VTests (.vnot f) f.w [] f.fd fun x => ~~~(predOf x.v f.fa.toNat) :=
  vToPred_tests (fun _ => congrArg Host.Outcome.next (if_pos hpred)) id rfl fun x y h => by simp only [h]

/-! Compare and select. -/

theorem vcmp_tests (f : FRrr) : VTests (.vcmp f) f.w [(f.fa.toNat, id), (f.fb.toNat, id)] f.fd fun x =>
    Claims.laneMask fun i =>
      if f.fmt.toNat ≤ 2 then condF f.sub.toNat (Claims.num f f.fa x i) (Claims.num f f.fb x i)
      else condI f.sub.toNat (Claims.int f f.fa x i) (Claims.int f f.fb x i) :=
  vToPred_tests (fun _ => rfl) id rfl fun x y h => by simp only [num_of_v h, int_of_v h]

theorem vsel_writes (f : FRrr) : VWrites (.vsel f) f.w [(f.fa.toNat, id), (f.fb.toNat, id)] f.fd f.prf fun x i =>
    if (predOf x.v f.aux.toNat).getLsbD i then vElem x f.fa i else vElem x f.fb i :=
  vMap_writes (fun _ => rfl) (fun h => ⟨h, rfl⟩) rfl fun x y h => by simp only [vElem_of_v h, h, laneOn]

/-! VMOV by its sub (05 R184). -/

/-- A VMOV of none of the subs 1, 2 and 4 runs as the copy of a register. -/
theorem exec_vmov_copy {f : FRrr} (h1 : f.sub ≠ 1) (h2 : f.sub ≠ 2) (h4 : f.sub ≠ 4) (s : State) :
    exec (.vmov f) s = .next (vMap f (vmovOk f) false [vA f.w f.fa] (fun x i => vElem x f.fa i) s) := by
  simp only [exec, execVmov, if_neg h1, if_neg h2, if_neg h4]

theorem vmov_copies {f : FRrr} (hsub : f.sub = 0) :
    VWrites (.vmov f) f.w [(f.fa.toNat, id)] f.fd f.prf fun x i => vElem x f.fa i :=
  vMap_writes (exec_vmov_copy (by simp [hsub]) (by simp [hsub]) (by simp [hsub])) (fun h => ⟨h, rfl⟩) rfl fun x y h => by
    simp only [vElem_of_v h]

theorem vmov_spreads {f : FRrr} (hsub : f.sub = 1) : VWrites (.vmov f) f.w [] f.fd f.prf fun x i =>
    if (predOf x.v f.fa.toNat).getLsbD i then 1 else 0 :=
  vMap_writes (fun _ => congrArg Host.Outcome.next (if_pos hsub)) (fun h => ⟨h, rfl⟩) rfl fun x y h => by
    simp only [h, laneOn]

theorem vmov_tests {f : FRrr} (hsub : f.sub = 2) : VTests (.vmov f) f.w [(f.fa.toNat, id)] f.fd fun x =>
    Claims.laneMask fun i => vElem x f.fa i != 0 :=
  vToPred_tests (fun _ => congrArg Host.Outcome.next ((if_neg (by simp [hsub])).trans (if_pos hsub))) id rfl fun x y h => by
    simp only [vElem_of_v h]

theorem vmov_copiesPred {f : FRrr} (hsub : f.sub = 4) : VTests (.vmov f) f.w [] f.fd fun x => predOf x.v f.fa.toNat :=
  vToPred_tests (fun _ => congrArg Host.Outcome.next
    ((if_neg (by simp [hsub])).trans ((if_neg (by simp [hsub])).trans (if_pos hsub)))) id rfl fun x y h => by simp only [h]

/-! Iota and broadcasts (05 R184, R185). -/

theorem vmovIota_writes (f : FRrr) : VWrites (.vmovIota f) f.w [] f.fd f.prf fun _ i => BitVec.ofNat 32 i :=
  vMap_writes (srcs := []) (fun _ => rfl) (fun h => ⟨h, rfl⟩) rfl fun _ _ _ => rfl

theorem vbcast_writes (f : FRrr) : VWrites (.vbcast f) f.w [(f.fa.toNat, fun _ => oneLane f.aux.toNat)] f.fd f.prf
    fun x _ => vElem x f.fa f.aux.toNat :=
  vMap_writes (fun _ => rfl) (fun h => ⟨h, rfl⟩) rfl fun x y h => by simp only [vElem_of_v h]

theorem vbcastI_writes (f : FRrr) : VWrites (.vbcastI f) f.w [] f.fd f.prf fun _ _ =>
    ((f.fb ++ f.fc ++ f.aux : BitVec 18)).signExtend 32 :=
  vMap_writes (srcs := []) (fun _ => rfl) (fun h => ⟨h, rfl⟩) rfl fun _ _ _ => rfl

theorem vbcastH_writes (f : FRrr) : VWrites (.vbcastH f) f.w [] f.fd f.prf fun _ _ =>
    ((f.fb ++ f.fc ++ f.aux : BitVec 18)).zeroExtend 32 <<< 14 :=
  vMap_writes (srcs := []) (fun _ => rfl) (fun h => ⟨h, rfl⟩) rfl fun _ _ _ => rfl

/-! Subs without a meaning (03 R88 row 4). -/

/-- A sub above a value is not that value. -/
theorem sub_ne {sub k : BitVec 3} (h : k.toNat < sub.toNat) : sub ≠ k := by
  rintro rfl
  exact Nat.lt_irrefl _ h

theorem vcmp_illegal {f : FRrr} (h : f.sub = 7) : Claims.Illegal (.vcmp f) .v :=
  Scalar.illegal_of_issue (by simp [vcmpOk, h]) fun _ => ⟨_, rfl⟩

theorem vmov_illegal {f : FRrr} (h : 5 ≤ f.sub.toNat) : Claims.Illegal (.vmov f) .v := by
  have h0 : f.sub ≠ 0 := sub_ne (Nat.lt_of_lt_of_le (by decide : 0 < 5) h)
  have h1 : f.sub ≠ 1 := sub_ne (Nat.lt_of_lt_of_le (by decide : 1 < 5) h)
  have h2 : f.sub ≠ 2 := sub_ne (Nat.lt_of_lt_of_le (by decide : 2 < 5) h)
  have h4 : f.sub ≠ 4 := sub_ne (Nat.lt_of_lt_of_le (by decide : 4 < 5) h)
  refine Scalar.illegal_of_issue ?_ fun s => ⟨_, exec_vmov_copy h1 h2 h4 s⟩
  simp only [vmovOk, beq_false_of_ne, h0, h1, h2, h4, ne_eq, not_false_eq_true, Bool.false_and, Bool.or_false, Bool.and_false]

theorem vbcast_illegal {f : FRrr} (h : 3 ≤ f.sub.toNat) : Claims.Illegal (.vbcast f) .v := by
  have h0 : f.sub ≠ 0 := sub_ne (Nat.lt_of_lt_of_le (by decide : 0 < 3) h)
  exact Scalar.illegal_of_issue (by rw [vbcastOk, beq_false_of_ne h0, Bool.and_false]) fun _ => ⟨_, rfl⟩

/-- Settles O31: the words that share a body by what that body writes, VMOV by its sub, the others each by what a lane of
theirs reads; the subs without a meaning fail the check of row 4. -/
theorem vectorIntegerWordsWrite : Obligations.VectorIntegerWordsWrite := by
  unfold Obligations.VectorIntegerWordsWrite
  refine ⟨?viadd, ?visub, ?vimul, ?vand, fun _ => vandn_writes, ?vor, ?vxor, fun _ => ⟨vnot_writes, vnot_tests⟩,
    ?vshl, ?vshr, ?vsra, fun _ => vcmp_illegal, fun _ => vmov_illegal, fun _ => vbcast_illegal, vcmp_tests, vsel_writes,
    fun _ => ⟨vmov_copies, vmov_spreads, vmov_tests, vmov_copiesPred⟩, vmovIota_writes, vbcast_writes, vbcastI_writes,
    vbcastH_writes⟩
  case viadd | visub | vimul => exact lanes_of_vInt2 (fun _ _ => rfl) fun _ => rfl
  case vand => exact bits_of_vBit2 (fun _ _ hsub => congrArg Host.Outcome.next (if_neg hsub)) fun _ => rfl
  case vor | vxor => exact bits_of_vBit2 (fun _ _ _ => rfl) fun _ => rfl
  case vshl | vshr | vsra => exact shifts_of_vShiftBy (fun _ _ => rfl) fun _ => rfl

end Sys2Proof.VectorIntegers
end
